-- ==== Sys2Proof/Word.lean ====
section
/-! DEFINITION. The plain types of the part: bytes, 16-bit words, the indices of hosts, lanes and marks
(00_scope.md, Conventions), and a bank of a fixed number of like things. -/

namespace Sys2Proof

/-- One byte of a frame. -/
abbrev Byte := BitVec 8

/-- A word is 16 bits (00_scope.md, Conventions): pattern, park and capture words, tags, sequences. -/
abbrev Word := BitVec 16

/-- The microsecond timestamp, modulo 2^32 (R82). -/
abbrev Stamp := BitVec 32

/-- Hosts H0 to H2; also the links 0 to 2 they use (00_scope.md, Host model). -/
abbrev HostId := Fin 3

/-- Lanes L0 to L3. -/
abbrev LaneId := Fin 4

/-- Sync marks M0 to M7. -/
abbrev MarkId := Fin 8

/-- A slot of the 64-entry segment table; slot i is the entry of handle i + 1 (section 1.3). -/
abbrev Slot := Fin 64

/-- A fixed number of like things, one for each index. -/
abbrev Bank (n : Nat) (α : Type) := Vector α n

/-- The element at an index. -/
def Bank.sel {n : Nat} {α : Type} (b : Bank n α) (i : Fin n) : α := b[i]

/-- The bank with one element replaced. -/
def Bank.upd {n : Nat} {α : Type} (b : Bank n α) (i : Fin n) (v : α) : Bank n α := b.set i v

/-- Quotient rounded up, for a positive divisor. -/
def ceilDiv (a b : Nat) : Nat := (a + b - 1) / b

end Sys2Proof
end

