-- ==== Sys2Proof/Syntax.lean ====
section
/-! DEFINITION. The commands of the part: one constructor of Instr for each row of spec/opcode_table.json. A request
row names the link whose port holds the request; its parameters are the bytes of the frame (log 22). -/

namespace Sys2Proof

/-- The two SPI target ports (00_scope.md, Host model). -/
inductive SpiPort where
  | a
  | b
deriving DecidableEq, Repr

/-- The port a transaction is made on; an I2C transaction carries the 7-bit address the host sends (R166). -/
inductive Port where
  | spi (port : SpiPort)
  | i2c (address : BitVec 7)
deriving DecidableEq, Repr

/-- The port of a transaction command, and whether the transaction ends with the bytes of the command or stays in progress
(log 17). -/
structure Transfer (α : Type) where
  port : α
  ends : Bool
deriving DecidableEq, Repr

/-- The commands. Rows of inside events are commands too: the spec makes each one indivisible step. -/
inductive Instr where
  /-- DEVICE_RESET (R179): nRESET goes low. -/
  | deviceReset
  /-- DEVICE_RESET_RELEASE (R179): nRESET goes high, with the levels of A0, SUPV1 and SUPV0 at that moment. -/
  | deviceResetRelease (a0 supv1 supv0 : Bool)
  /-- LINK_RESET (R178): nLRSTk goes low. -/
  | linkReset (k : HostId)
  /-- LINK_RESET_RELEASE (R178): nLRSTk goes high. -/
  | linkResetRelease (k : HostId)
  /-- REQUEST_FRAME_END (R169): a request write brings these frame bytes, and its frame ends with them where the transaction does. The four
  transaction rows begin a transaction where the port has none in progress, and go on with the one in progress else (log 17). -/
  | requestFrameEnd (p : Transfer Port) (frame : List Byte)
  /-- NULL_WRITE (R164): a request write with no frame byte. -/
  | nullWrite (p : Transfer Port)
  /-- IGNORED_TRANSACTION (R163): count bytes of an SPI transaction with this first byte. -/
  | ignoredTransaction (p : Transfer SpiPort) (first : Byte) (count : Nat)
  /-- RESPONSE_READ (R165, R167): count bytes of a response read, the SPI kind byte among them. -/
  | responseRead (p : Transfer Port) (count : Nat)
  /-- DEFINE (R14). -/
  | define (k : HostId)
  /-- EXTEND (R15). -/
  | extend (k : HostId)
  /-- WRITE (R16). -/
  | write (k : HostId)
  /-- READ (R17). -/
  | read (k : HostId)
  /-- PUBLISH (R18). -/
  | publish (k : HostId)
  /-- DELETE (R19). -/
  | delete (k : HostId)
  /-- CATALOG (R21). -/
  | catalog (k : HostId)
  /-- QUERY (R22). -/
  | query (k : HostId)
  /-- CLAIM (R39). -/
  | claim (k : HostId)
  /-- RENEW (R44). -/
  | renew (k : HostId)
  /-- RELEASE (R46). -/
  | release (k : HostId)
  /-- LEASE_TICK (R43). -/
  | leaseTick
  /-- LEASE_EXPIRY (R45) of one lane. -/
  | leaseExpiry (l : LaneId)
  /-- CONFIGURE (R51). -/
  | configure (k : HostId)
  /-- LANE_STATUS (R55). -/
  | laneStatus (k : HostId)
  /-- ENQUEUE (R64). -/
  | enqueue (k : HostId)
  /-- FLUSH (R78). -/
  | flush (k : HostId)
  /-- ABORT (R112). -/
  | abort (k : HostId)
  /-- HOLD (R105). -/
  | hold (k : HostId)
  /-- RESUME (R109). -/
  | resume (k : HostId)
  /-- RETIME (R102). -/
  | retime (k : HostId)
  /-- STEP_BOUNDARY (R86). -/
  | stepBoundary (l : LaneId)
  /-- STROBE_END (R87). -/
  | strobeEnd (l : LaneId)
  /-- RTN_READY_ACTIVE (R91): RTN of the lane becomes active. -/
  | rtnReadyActive (l : LaneId)
  /-- ACK_EDGE (R94): an RTN edge of the lane. -/
  | ackEdge (l : LaneId)
  /-- READY_TIMEOUT (R92). -/
  | readyTimeout (l : LaneId)
  /-- ACK_TIMEOUT (R95). -/
  | ackTimeout (l : LaneId)
  /-- PASS_END (R71). -/
  | passEnd (l : LaneId)
  /-- RTN_EDGE_SAMPLE (R119): an RTN edge of the lane. -/
  | rtnEdgeSample (l : LaneId)
  /-- CAPTURE_TIMEOUT (R120). -/
  | captureTimeout (l : LaneId)
  /-- APPEND (R27): the Segment Manager takes the append claim the lane presented. -/
  | append (l : LaneId)
  /-- APPEND_ANSWER (R122): the answer reaches the lane. -/
  | appendAnswer (l : LaneId)
  /-- CAPTURE_END_POINT (R123). -/
  | captureEndPoint (l : LaneId)
  /-- REFERENCE_RELEASE (R25): the Segment Manager takes the release claim the lane presented. -/
  | referenceRelease (l : LaneId)
  /-- MARK_SET (R138). -/
  | markSet (k : HostId)
  /-- MARK_RELEASE_PROCEED (R137). -/
  | markReleaseProceed (l : LaneId)
  /-- MARK_CLEAR (R140). -/
  | markClear (k : HostId)
  /-- MARK_STATUS (R144). -/
  | markStatus (k : HostId)
  /-- EVENT_POST (R149): the Event Unit takes the i-th of the posts waiting for host k. -/
  | eventPost (k : HostId) (i : Nat)
  /-- FETCH (R153). -/
  | fetch (k : HostId)
  /-- EVENT_MASK (R155). -/
  | eventMask (k : HostId)
  /-- DEVICE_STATUS (R180). -/
  | deviceStatus (k : HostId)
  /-- DETACH (R188). -/
  | detach (k : HostId)
  /-- REVOKE (R56). -/
  | revoke (k : HostId)
  /-- PURGE (R31). -/
  | purge (k : HostId)
  /-- EVICT (R187). -/
  | evict (k : HostId)
  /-- WITHDRAWAL_LEASE_PART (R57) of the n-th outstanding withdrawal. -/
  | withdrawalLeasePart (n : Nat)
  /-- WITHDRAWAL_SEGMENT_PART (R32) of the n-th outstanding withdrawal. -/
  | withdrawalSegmentPart (n : Nat)
  /-- WITHDRAWAL_EVENT_PART (R158) of the n-th outstanding withdrawal. -/
  | withdrawalEventPart (n : Nat)
  /-- TIMESTAMP_TICK (R82). -/
  | timestampTick
deriving DecidableEq, Repr

end Sys2Proof
end

