-- ==== Sys2Proof/WellFormed.lean ====
section
/-! DEFINITION. Which commands are well formed. The types already bound hosts, lanes and the I2C address; what is left
is what tells the transaction rows apart (R163 to R165). -/

namespace Sys2Proof

/-- First byte of an SPI request write (R163). -/
def spiWriteByte : Byte := 0xA5

/-- First byte of an SPI response read (R163). -/
def spiReadByte : Byte := 0x5A

/-- A REQUEST_FRAME_END has a frame byte (else it is a null write, R164); an IGNORED_TRANSACTION has a first byte
that selects neither kind (R163); a RESPONSE_READ clocks at least the byte that makes it one (R165). -/
def Instr.wellFormed : Instr → Bool
  | .requestFrameEnd _ frame => !frame.isEmpty
  | .ignoredTransaction _ first count => first != spiWriteByte && first != spiReadByte && 0 < count
  | .responseRead _ count => 0 < count
  | _ => true

end Sys2Proof
end

