-- ==== Sys2Proof/Decode.lean ====
section
/-! DEFINITION. The decoder over the rows of spec/opcode_table.json that give bits. No row of this table gives any
("fields": [] in each, no "fixed"), so no word spells a command (log 26). How the bytes of a frame spell a request is
modelled where the link reads them: Sys2Proof/Machine/Operands.lean. -/

namespace Sys2Proof

/-- The command a word spells by the table's bits: none, since the table gives no row any bit. -/
def decodeTableWord (_nbits _w : Nat) : Option Instr := none

end Sys2Proof
end

