-- ==== Sys2Proof/Config.lean ====
section
/-! DEFINITION. What is fixed for this part (sizes, limits) and the free values: the constants without a body
that stand for what the manual leaves open. -/

namespace Sys2Proof.Config

/-- FREE VALUE (R1: "device reset leaves every word with a content that host software cannot rely on"): the
content, after the given device reset, of a pattern word that nothing has stored since. Log 5. -/
opaque residualWord (epoch address : Nat) : Word

/-- FREE VALUE: the level the fixture gives the RTN line of a lane at a tick, true for high (R83). Log 4. -/
opaque rtnLevel (lane : LaneId) (tick : Nat) : Bool

/-- FREE VALUE: the levels D0 to D7 the fixture gives the data lines of a lane at a tick (R114). Log 4. -/
opaque dataLevel (lane : LaneId) (tick : Nat) : Byte

/-- Blocks of pattern memory (R1). -/
def blockCount : Nat := 1024
/-- Words of a block (R1). -/
def blockWords : Nat := 32
/-- The per-host quota, in blocks (R9); also the longest chain (R6). -/
def quota : Nat := 512
/-- The largest capacity, count or number of additional words a request may ask for (R13, R15, R64). -/
def maxWords : Nat := 16384
/-- Places of a play queue (R63). -/
def queueDepth : Nat := 8
/-- Places of an event queue (R149). -/
def eventDepth : Nat := 16
/-- Where counts of words, passes and lost events saturate (R61, R149). -/
def maxCount : Nat := 65535
/-- Duration of a REVOKE grant to a host that was not waiting, in ms (R56). -/
def grantToDuration : Nat := 1000
/-- Ticks of a microsecond (R82). -/
def microTicks : Nat := 10
/-- Ticks of a millisecond, between two lease ticks (R43). -/
def milliTicks : Nat := 10000
/-- Ticks of one unit of a stall limit, 10 microseconds (R96), and of an elapsed count of RTN_EDGE (R120). -/
def stallTicks : Nat := 100
/-- Part code (R180). -/
def partCode : Nat := 0x3204
/-- Silicon revision (R180). -/
def revision : Byte := 0x01

end Sys2Proof.Config
end

