-- ==== Sys2Proof/Machine/State.lean ====
section
/-! DEFINITION. The state of the part, block by block (00_scope.md, Block overview), as plain data, and its values
after device reset. -/

namespace Sys2Proof.Machine

/-- Why a step could stop with a fault. The part has no behaviour that stops it, so there is no constructor (log 21). -/
inductive Fault
deriving DecidableEq, Repr

/-- Why a step could be refused. Nothing raises it in this model: every row has its meaning (log 21). -/
inductive Refusal where
  /-- Raised by an arm of exec whose row has no meaning yet; safe, since nothing is then claimed. No arm raises it. -/
  | notModelled (mnemonic : String)
deriving DecidableEq, Repr

/-! ## Segment Manager -/

/-- State of a segment table entry (R6). -/
inductive SegmentState where
  | free
  | opened
  | published
  | condemned
deriving DecidableEq, Repr

/-- Visibility of a segment (section 1.3): PRIVATE is `hidden`. -/
inductive Visibility where
  | hidden
  | shared
deriving DecidableEq, Repr

/-- A segment as a frame or an entry names it: handle and generation (R193). -/
structure SegmentRef where
  handle : Byte
  generation : Byte
deriving DecidableEq, Repr

/-- One entry of the segment table (section 1.3). -/
structure Segment where
  state : SegmentState
  generation : Byte
  name : Option (List Byte)
  owner : HostId
  visibility : Visibility
  length : Nat
  chain : List Nat
  refs : Nat
  notifyOnFree : Bool
deriving DecidableEq, Repr

/-- What the Segment Manager owns: pattern memory, free pool and table. `epoch` counts device resets and is the
model's own: it feeds the free content of words that nothing has stored (R1, log 5). -/
structure Store where
  memory : List (Nat × Word)
  pool : List Nat
  table : Bank 64 Segment
  epoch : Nat
deriving DecidableEq, Repr

/-! ## Timing and play entries -/

/-- The four timing units (section 4.2). -/
inductive TimeUnit where
  | ns100
  | us1
  | us10
  | us100
deriving DecidableEq, Repr

/-- A timing encoding: unit, period mantissa, strobe mantissa (R84, R85). -/
structure Timing where
  unit : TimeUnit
  period : Nat
  strobe : Nat
deriving DecidableEq, Repr

/-- How boundaries fall (output) or which trigger samples (capture); with it the kind of the entry (section 3.2). -/
inductive Pacing where
  | free
  | ready
  | ack
  | step
  | change
  | rtnEdge
deriving DecidableEq, Repr

/-- Kind of a play entry. -/
inductive EntryKind where
  | output
  | capture
deriving DecidableEq, Repr

/-- Mode of a wait on a mark (R134). -/
inductive WaitMode where
  | pass
  | take
deriving DecidableEq, Repr

/-- A play entry (section 3.2). `id` is the model's own serial number of the entry, by which the answer to an append
finds the entry that presented it (R122, log 19). -/
structure Entry where
  id : Nat
  pacing : Pacing
  segment : SegmentRef
  offset : Nat
  count : Nat
  repeats : Nat
  timing : Timing
  stallLimit : Nat
  waitMark : Option (MarkId × WaitMode)
  postMark : Option MarkId
  tag : Word
  notifyStart : Bool
  host : HostId
deriving DecidableEq, Repr

/-- Outcome of an entry end (R73). -/
inductive EndOutcome where
  | complete
  | aborted
  | flushed
  | leaseEnded
  | readyTimeout
  | ackTimeout
  | segmentFull
  | segmentGone
  | captureTimeout
deriving DecidableEq, Repr

/-! ## Lane Sequencer -/

/-- The five forms of HOLDING (R107). `inWait` is the ACK wait of an output and the edge wait of a capture (R128). -/
inductive HoldForm where
  | atBoundary
  | inWait
  | outOfMarkwait
  | betweenEntries
  | outOfIdle
deriving DecidableEq, Repr

/-- The fault code of a FAULTED lane (R100). -/
inductive FaultCode where
  | readyTimeout
  | ackTimeout
deriving DecidableEq, Repr

/-- Lane state (R60), with the form of a hold and the code of a fault. `released` is the model's name for the moment
between a mark's release of the lane and the lane's own event, with the timestamp of the setting (R137, log 9) and, where a
post mark made the setting, the lane whose posts of lower rank came before it (R150, log 7). -/
inductive LaneState where
  | off
  | idle
  | markwait
  | released (stamp : Stamp) (after : Option (LaneId × Nat))
  | running
  | stalled
  | holding (form : HoldForm)
  | faulted (code : FaultCode)
deriving DecidableEq, Repr

/-- Drive of the eight data lines: which are driven, and to which level (R86). Undriven lines have level bit 0. -/
structure Drive where
  driven : Byte
  level : Byte
deriving DecidableEq, Repr

/-- The STB output: undriven in OFF, else low or high (R87). -/
inductive Strobe where
  | undriven
  | low
  | high
deriving DecidableEq, Repr

/-- The capture state of a lane (R115). Ticks are of `TimeBase.clock`. -/
structure Capture where
  lastKept : Option Byte
  boundaryCount : Nat
  prevSample : Option Nat
  pendingAppend : Option Word
  timer : Option Nat
deriving DecidableEq, Repr

/-- One lane sequencer (R60, R61, R115). `passWords` is the number of words driven in the pass in progress;
`point` the scheduled point of the next boundary or end point; `acked` says the word has its acknowledging edge (R94);
`stallTimer` the tick at which the stall timer started; `inactiveAt` the last tick at which this stall judged RTN inactive
(R83); `pulseEnd` the tick at which the STB pulse ends. -/
structure Lane where
  state : LaneState
  queue : List Entry
  pass : Nat
  words : Nat
  passWords : Nat
  timing : Option Timing
  staged : Option Timing
  holdRequest : Bool
  point : Option Nat
  acked : Bool
  stallTimer : Option Nat
  inactiveAt : Option Nat
  drive : Drive
  stb : Strobe
  pulseEnd : Option Nat
  capture : Capture
deriving DecidableEq, Repr

/-- A claim a lane has presented to the Segment Manager and that it has not taken (R25, R27): an append with the serial number
of its entry, a release with the number at which it was presented, below which the lane's earlier posts have theirs, and, where
a drain made it, the number of the drain order (R150, R158, log 7). -/
inductive LaneClaim where
  | append (segment : SegmentRef) (entry : Nat) (word : Word)
  | release (segment : SegmentRef) (below : Nat) (order : Option Nat)
deriving DecidableEq, Repr

/-- Answer of the Segment Manager to an append (R27). -/
inductive AppendResult where
  | stored
  | full
  | gone
deriving DecidableEq, Repr

/-- An append answer that the lane has not taken, with the serial number of the entry that presented it. -/
structure AppendAnswer where
  entry : Nat
  result : AppendResult
deriving DecidableEq, Repr

/-- The levels the fixture applies to the inputs of a lane; `rtn` is true for high. -/
structure LanePins where
  rtn : Bool
  data : Byte
deriving DecidableEq, Repr

/-! ## Lease Controller -/

/-- Polarity of STB or RTN (section 2.1). -/
inductive Polarity where
  | activeHigh
  | activeLow
deriving DecidableEq, Repr

/-- A waiting claim: a host and the duration its CLAIM gave (R38). -/
structure WaitingClaim where
  host : HostId
  duration : Nat
deriving DecidableEq, Repr

/-- One lane record (section 2.1). `expiring` is the model's own: the lease tick that would bring the remaining time to 0 has
come and waits to be taken as the expiry (R36, R45, log 10). -/
structure Lease where
  holder : Option HostId
  duration : Nat
  remaining : Nat
  expiring : Bool
  waiters : List WaitingClaim
  park : Word
  stbPol : Polarity
  rtnPol : Polarity
deriving DecidableEq, Repr

/-- Why a lease ends (R49). -/
inductive LeaseEndCause where
  | released
  | expired
  | revoked
  | withdrawn
deriving DecidableEq, Repr

/-! ## Mark Unit -/

/-- One sync mark and its waiter list, head first (R132, R133). -/
structure Mark where
  isSet : Bool
  waiters : List (LaneId × WaitMode)
deriving DecidableEq, Repr

/-! ## Event Unit -/

/-- Cause carried by LEASE_LOST (R147). -/
inductive LostCause where
  | expired
  | revoked
deriving DecidableEq, Repr

/-- The seven kinds of event with the fields each carries (R147). -/
inductive Event where
  | entryStarted (lane : LaneId) (segment : SegmentRef) (tag : Word)
  | entryDone (lane : LaneId) (segment : SegmentRef) (tag : Word) (outcome : EndOutcome) (words : Nat)
      (retimeDiscarded : Bool)
  | leaseGranted (lane : LaneId) (duration : Nat)
  | leaseLost (lane : LaneId) (cause : LostCause)
  | segmentFreed (segment : SegmentRef)
  | eventsLost (count : Nat)
  | withdrawn
deriving DecidableEq, Repr

/-- A block that posts (R147). -/
inductive Block where
  | segments
  | leases
  | lane (l : LaneId)
  | events
deriving DecidableEq, Repr

/-- A filed event record (section 7.2). -/
structure Record where
  seq : Word
  stamp : Stamp
  event : Event
deriving DecidableEq, Repr

/-- The maskable kinds, true for enabled (R146). -/
structure EventMask where
  started : Bool
  done : Bool
  freed : Bool
deriving DecidableEq, Repr

/-- The level of an output pin. -/
inductive Level where
  | low
  | high
deriving DecidableEq, Repr

/-- What the Event Unit holds for one host (R146). `attn` is the level of the attention line: low when asserted (R157). -/
structure EventQueue where
  queue : List Record
  lost : Nat
  mask : EventMask
  seq : Word
  attn : Level
deriving DecidableEq, Repr

/-- A post that the Event Unit has not taken (R149). The last three fields are the model's own and say which posts R150 lets
it stand behind (log 7): `rank` rises over the posts of the Lease Controller and of the lanes in the order presented; `after`
names a lane whose posts of lower rank were presented before the claim or the setting that led to this one; `order` is the number
of the drain order that led to it, which posts of the Lease Controller of lower rank came before. -/
structure Post where
  host : HostId
  stamp : Stamp
  event : Event
  rank : Nat
  after : Option (LaneId × Nat)
  order : Option Nat
deriving DecidableEq, Repr

/-! ## Host Links -/

/-- Port states (section 8.2). -/
inductive PortState where
  | idle
  | executing
  | ready
deriving DecidableEq, Repr

/-- Status codes (table 10-2). -/
inductive Status where
  | ok | queued | staged | freed | condemned | waitCancelled
  | frameError | crcError | unknownRequest | badLength
  | badParam | badTiming | badRange
  | badHandle | staleHandle | gone | notOwner | notVisible | wrongState
  | inUse | empty | nameInUse | noSpace | quota | tableFull
  | notHolder | laneHeld | alreadyHeld | alreadyWaiting | queueFull | busy | nothingPlaying
  | notPermitted
deriving DecidableEq, Repr

/-- A request taken from a frame that passed the frame checks (R169). -/
structure Request where
  tag : Byte
  code : Byte
  crc : Byte
  params : List Byte
deriving DecidableEq, Repr

/-- What the owner of a request answers: status and results (R173). -/
structure Reply where
  status : Status
  results : List Byte
deriving DecidableEq, Repr

/-- The replay record (R176). -/
structure ReplayRecord where
  tag : Byte
  code : Byte
  crc : Byte
  reply : Reply
deriving DecidableEq, Repr

/-- What a transaction on a port is (R163, R166): a request write, a response read, or one that the port ignores. -/
inductive BusKind where
  | write
  | read
  | ignored
deriving DecidableEq, Repr

/-- A transaction in progress on a port: the frame bytes that a write has brought, and what a read returns from the status byte
on, fixed when that byte begins, with the number of those bytes returned (R164 to R167). -/
structure Transaction where
  kind : BusKind
  frame : List Byte
  stream : Option (List Byte)
  sent : Nat
deriving DecidableEq, Repr

/-- What the port put on its bus in the transaction in progress, or in the last one: the bytes it returned, and on I2C the
acknowledge bits it gave, of the address first. The model's own record of an output (log 17). -/
structure BusReply where
  bytes : List Byte
  acks : List Bool
deriving DecidableEq, Repr

/-- One host link (R168). `deciding` is the request of an EXECUTING port that its owner has not answered; `orphan` one
that a link reset left with its owner (R178); `nlrstHigh` the level of nLRSTk; `transaction` the one in progress on the
port (R178, R179). -/
structure Link where
  port : PortState
  held : Option (List Byte)
  replay : Option ReplayRecord
  overrun : Bool
  deciding : Option Request
  orphan : Option Request
  nlrstHigh : Bool
  transaction : Option Transaction
  bus : BusReply
deriving DecidableEq, Repr

/-! ## Withdrawals -/

/-- Cause of a withdrawal (section 9.4). -/
inductive WithdrawalCause where
  | detached
  | evicted
  | linkReset
deriving DecidableEq, Repr

/-- A withdrawal that has been made and is not complete (R189): the parts taken, the counts of the Lease Controller's
part, the numbers that its posts and drain orders have, from `firstOrder` on and below `endOrder` (R158, log 12), and the link
and request whose response it makes. -/
structure Withdrawal where
  host : HostId
  cause : WithdrawalCause
  leaseTaken : Bool
  segmentTaken : Bool
  leasesEnded : Nat
  claimsRemoved : Nat
  firstOrder : Nat
  endOrder : Nat
  answer : Option (HostId × Request)
deriving DecidableEq, Repr

/-! ## Time Base -/

/-- The Time Base (R82). `clock` counts 100 ns ticks since the model began and is the model's own (log 19);
`subMicro` and `subMilli` count ticks since the last rise of the timestamp and the last lease tick. -/
structure TimeBase where
  clock : Nat
  subMicro : Nat
  subMilli : Nat
  timestamp : Stamp
deriving DecidableEq, Repr

/-! ## The whole part -/

/-- The state of the part, and the queue of commands that wait. `orderCount` is the model's own: it numbers the posts of the
Lease Controller and of the lanes and the drain orders, as they are made (log 7). -/
structure State where
  nresetHigh : Bool
  a0 : Bool
  supervisor : Option HostId
  time : TimeBase
  store : Store
  leases : Bank 4 Lease
  lanes : Bank 4 Lane
  claims : Bank 4 (List LaneClaim)
  answers : Bank 4 (List AppendAnswer)
  marks : Bank 8 Mark
  events : Bank 3 EventQueue
  posts : List Post
  links : Bank 3 Link
  withdrawals : List Withdrawal
  pins : Bank 4 LanePins
  nextEntryId : Nat
  orderCount : Nat
  pending : List Instr
deriving DecidableEq, Repr

/-! ## Values after device reset -/

/-- A segment table entry after device reset (R5). -/
def Segment.reset : Segment :=
  { state := .free, generation := 0, name := none, owner := 0, visibility := .hidden, length := 0, chain := [],
    refs := 0, notifyOnFree := false }

/-- The Segment Manager after device reset (R2, R5, R35). -/
def Store.reset : Store :=
  { memory := [], pool := List.range Config.blockCount, table := Vector.replicate 64 Segment.reset, epoch := 0 }

/-- No capture state (R115). -/
def Capture.none : Capture :=
  { lastKept := .none, boundaryCount := 0, prevSample := .none, pendingAppend := .none, timer := .none }

/-- No line driven (R37, R114). -/
def Drive.none : Drive := { driven := 0, level := 0 }

/-- A lane sequencer after device reset: OFF, empty, undriven (R60). -/
def Lane.reset : Lane :=
  { state := .off, queue := [], pass := 0, words := 0, passWords := 0, timing := none, staged := none,
    holdRequest := false, point := none, acked := false, stallTimer := none, inactiveAt := none,
    drive := Drive.none, stb := .undriven, pulseEnd := none, capture := Capture.none }

/-- A lane record after device reset (R36). -/
def Lease.reset : Lease :=
  { holder := none, duration := 0, remaining := 0, expiring := false, waiters := [], park := 0, stbPol := .activeHigh,
    rtnPol := .activeHigh }

/-- A mark after device reset (R132). -/
def Mark.reset : Mark := { isSet := false, waiters := [] }

/-- The mask with all three kinds enabled (R146). -/
def EventMask.all : EventMask := { started := true, done := true, freed := true }

/-- The Event Unit's state for one host after device reset (R146). -/
def EventQueue.reset : EventQueue := { queue := [], lost := 0, mask := EventMask.all, seq := 0, attn := .high }

/-- A host link after device reset (R168), with nLRSTk high and no transaction in progress. -/
def Link.reset : Link :=
  { port := .idle, held := none, replay := none, overrun := false, deciding := none, orphan := none,
    nlrstHigh := true, transaction := none, bus := { bytes := [], acks := [] } }

/-- The Time Base after device reset (R82). -/
def TimeBase.reset : TimeBase := { clock := 0, subMicro := 0, subMilli := 0, timestamp := 0 }

/-- The part right after device reset: nRESET has just been released with the straps naming no supervisor and A0 low
(DESIGN CHOICE, log 3), the lane inputs low (DESIGN CHOICE, log 4), and no command waits. -/
def State.reset : State :=
  { nresetHigh := true, a0 := false, supervisor := none, time := TimeBase.reset, store := Store.reset,
    leases := Vector.replicate 4 Lease.reset, lanes := Vector.replicate 4 Lane.reset,
    claims := Vector.replicate 4 [], answers := Vector.replicate 4 [], marks := Vector.replicate 8 Mark.reset,
    events := Vector.replicate 3 EventQueue.reset, posts := [], links := Vector.replicate 3 Link.reset,
    withdrawals := [], pins := Vector.replicate 4 { rtn := false, data := 0 }, nextEntryId := 0, orderCount := 0,
    pending := [] }

end Sys2Proof.Machine
end

