-- ==== Sys2Proof/Machine/Flags.lean ====
section
/-! DEFINITION. The flag bytes of the part: the flags of a response (R170, R194), the presence flags of a lane status
record (table 10-7), the port status byte (R165, R194), and the attention line (R157). -/

namespace Sys2Proof.Machine

/-- The flags byte of a response: bit 0 REPLAYED, bit 1 OVERRUN, the others 0 (R194). -/
def responseFlags (replayed overrun : Bool) : Byte :=
  (if replayed then 0x01 else 0x00) ||| (if overrun then 0x02 else 0x00)

/-- The port status byte: 0x00 IDLE, 0x01 EXECUTING, 0x02 READY (R165). -/
def portStatusByte : PortState → Byte
  | .idle => 0x00
  | .executing => 0x01
  | .ready => 0x02

/-- The presence flags: bit 0 a current entry, bit 1 staged timing, the others 0 (table 10-7). -/
def presenceFlags (current staged : Bool) : Byte :=
  (if current then 0x01 else 0x00) ||| (if staged then 0x02 else 0x00)

/-- The level of the attention line: asserted, which is low, exactly when the queue is not empty (R157). -/
def attentionFor (queue : List Record) : Level := if queue.isEmpty then .high else .low

end Sys2Proof.Machine
end

