-- ==== Sys2Proof/Machine/Operands.lean ====
section
/-! DEFINITION. How the bytes of a request frame are read (chapter 10, R171, R172, R193 to R198): fields, request codes
and lengths, the CRC, the frame checks, the fields of a play entry, and the timing encoding (R84, R85). -/

namespace Sys2Proof.Machine

/-! ## Fields (R193) -/

/-- The parameter byte at an offset. -/
def byteAt (p : List Byte) (i : Nat) : Byte := p.getD i 0

/-- A two-byte field, least significant byte first (R193). -/
def u16At (p : List Byte) (i : Nat) : Nat := (byteAt p i).toNat + 256 * (byteAt p (i + 1)).toNat

/-- A four-byte field, least significant byte first (R193). -/
def u32At (p : List Byte) (i : Nat) : Nat := u16At p i + 65536 * u16At p (i + 2)

/-- A two-byte field as a word (R200). -/
def wordAt (p : List Byte) (i : Nat) : Word := BitVec.ofNat 16 (u16At p i)

/-- A segment field: handle, then generation (R193). -/
def segmentAt (p : List Byte) (i : Nat) : SegmentRef := ⟨byteAt p i, byteAt p (i + 1)⟩

/-- A lane code 0x00 to 0x03 (R193). -/
def decodeLane (b : Byte) : Option LaneId := if h : b.toNat < 4 then some ⟨b.toNat, h⟩ else none

/-- A mark code 0x00 to 0x07 (R193). -/
def decodeMark (b : Byte) : Option MarkId := if h : b.toNat < 8 then some ⟨b.toNat, h⟩ else none

/-- A host code 0x00 to 0x02 (R193). -/
def decodeHost (b : Byte) : Option HostId := if h : b.toNat < 3 then some ⟨b.toNat, h⟩ else none

/-- A host code or 0xFF for none (R193, R195 REVOKE): none where it is neither. -/
def decodeGrantTo (b : Byte) : Option (Option HostId) := if b = 0xFF then some none else (decodeHost b).map some

/-- A yes/no or enabled/disabled field (R193). -/
def decodeFlag (b : Byte) : Option Bool := if b = 0 then some false else if b = 1 then some true else none

/-- Visibility: 0x00 PRIVATE, 0x01 SHARED (R193). -/
def decodeVisibility (b : Byte) : Option Visibility :=
  if b = 0 then some .hidden else if b = 1 then some .shared else none

/-- Polarity: 0x00 active-high, 0x01 active-low (R193). -/
def decodePolarity (b : Byte) : Option Polarity :=
  if b = 0 then some .activeHigh else if b = 1 then some .activeLow else none

/-- A byte a name may hold (R8). -/
def nameByte (b : Byte) : Bool := 0x21 ≤ b.toNat && b.toNat ≤ 0x7E

/-- A name field of 8 bytes (R193): the characters before the first 0x00, refused if there is none, if one lies outside
0x21 to 0x7E, or if a byte after the first 0x00 is not 0x00. -/
def decodeName (field : List Byte) : Option (List Byte) :=
  let chars := field.takeWhile (· != 0)
  let rest := field.dropWhile (· != 0)
  if chars.isEmpty || !chars.all nameByte || !rest.all (· == 0) then none else some chars

/-! ## Requests (R195, R196) -/

/-- The requests of table 10-3. -/
inductive RequestKind where
  | define | extend | write | read | publish | delete | catalog | query
  | claim | renew | release | configure | laneStatus
  | enqueue | flush | abort | hold | resume | retime
  | markSet | markClear | markStatus
  | fetch | eventMask
  | deviceStatus | detach
  | revoke | purge | evict
deriving DecidableEq, Repr

/-- The code of a request (table 10-3). -/
def requestCode : RequestKind → Byte
  | .define => 0x10 | .extend => 0x11 | .write => 0x12 | .read => 0x13 | .publish => 0x14 | .delete => 0x15
  | .catalog => 0x16 | .query => 0x17
  | .claim => 0x20 | .renew => 0x21 | .release => 0x22 | .configure => 0x23 | .laneStatus => 0x24
  | .enqueue => 0x30 | .flush => 0x31 | .abort => 0x32 | .hold => 0x33 | .resume => 0x34 | .retime => 0x35
  | .markSet => 0x40 | .markClear => 0x41 | .markStatus => 0x42
  | .fetch => 0x50 | .eventMask => 0x51
  | .deviceStatus => 0x60 | .detach => 0x61
  | .revoke => 0x70 | .purge => 0x71 | .evict => 0x72

/-- Every request, in the order of table 10-3. -/
def requestKinds : List RequestKind :=
  [.define, .extend, .write, .read, .publish, .delete, .catalog, .query,
   .claim, .renew, .release, .configure, .laneStatus,
   .enqueue, .flush, .abort, .hold, .resume, .retime,
   .markSet, .markClear, .markStatus, .fetch, .eventMask, .deviceStatus, .detach, .revoke, .purge, .evict]

/-- The request a code names; none for a code of no request (table 10-3). -/
def requestOfCode (code : Byte) : Option RequestKind := requestKinds.find? (fun r => requestCode r == code)

/-- Whether a length byte is admitted for a request (table 10-3, R196). -/
def lengthAdmitted (r : RequestKind) (n : Nat) : Bool :=
  match r with
  | .write => 6 ≤ n && n ≤ 60 && n % 2 == 0
  | .define => n == 11
  | .extend => n == 4
  | .read => n == 5
  | .publish | .delete | .query => n == 2
  | .catalog => n == 1
  | .claim => n == 4
  | .renew => n == 3
  | .release | .laneStatus => n == 1
  | .configure => n == 5
  | .enqueue => n == 25
  | .flush | .abort | .hold | .resume => n == 1
  | .retime => n == 9
  | .markSet | .markClear => n == 1
  | .markStatus => n == 0
  | .fetch => n == 1
  | .eventMask => n == 3
  | .deviceStatus | .detach => n == 0
  | .revoke => n == 2
  | .purge | .evict => n == 1

/-- The lane requests, whose lane byte the link checks before it hands them on (R173, R196). -/
def laneRequest (r : RequestKind) : Bool :=
  match r with
  | .enqueue | .flush | .abort | .hold | .resume | .retime => true
  | _ => false

/-! ## Frame checks (R171, R172) -/

/-- One shift of the CRC's running value: if the bit shifted out is 1, 0x07 is combined in (R171). -/
def crcShift (v : Byte) : Byte := if v.msb then (v <<< 1) ^^^ 0x07 else v <<< 1

/-- One byte taken into the running value: exclusive-or, then eight shifts (R171). -/
def crcByte (v b : Byte) : Byte :=
  crcShift (crcShift (crcShift (crcShift (crcShift (crcShift (crcShift (crcShift (v ^^^ b))))))))

/-- CRC-8, polynomial x^8 + x^2 + x + 1, initial value 0x00 (R171). -/
def crc8 (bytes : List Byte) : Byte := bytes.foldl crcByte 0

/-- The length byte of a request frame. -/
def frameLength (frame : List Byte) : Nat := (byteAt frame 2).toNat

/-- The frame checks in their order (R172): the refusal, or none if the frame passes. -/
def frameCheck (frame : List Byte) : Option Status :=
  if frame.length < 4 || 64 < frameLength frame || frame.length != 4 + frameLength frame then some .frameError
  else if crc8 frame.dropLast != byteAt frame (frame.length - 1) then some .crcError
  else match requestOfCode (byteAt frame 1) with
    | none => some .unknownRequest
    | some r => if lengthAdmitted r (frameLength frame) then none else some .badLength

/-- The request a checked frame carries (R194). -/
def frameRequest (frame : List Byte) : Request :=
  { tag := byteAt frame 0, code := byteAt frame 1, crc := byteAt frame (frame.length - 1),
    params := (frame.drop 3).dropLast }

/-! ## Timing encoding (R84, R85) -/

/-- Length of a unit in ns (section 4.2). -/
def unitNs : TimeUnit → Nat
  | .ns100 => 100
  | .us1 => 1000
  | .us10 => 10000
  | .us100 => 100000

/-- Ticks of a unit (section 4.2). -/
def unitTicks : TimeUnit → Nat
  | .ns100 => 1
  | .us1 => 10
  | .us10 => 100
  | .us100 => 1000

/-- The smallest unit in which the period's mantissa is at most 255 (R84 step 2). -/
def chooseUnit (p : Nat) : TimeUnit :=
  if ceilDiv p (unitNs .ns100) ≤ 255 then .ns100
  else if ceilDiv p (unitNs .us1) ≤ 255 then .us1
  else if ceilDiv p (unitNs .us10) ≤ 255 then .us10
  else .us100

/-- The timing encoding of a requested period and strobe in ns; none is BAD_TIMING (R84, R85). -/
def encodeTiming (p s : Nat) : Option Timing :=
  if p < 400 || 25500000 < p then none
  else
    let u := chooseUnit p
    let period := ceilDiv p (unitNs u)
    let strobe := ceilDiv s (unitNs u)
    if period ≤ strobe then none else some { unit := u, period := period, strobe := strobe }

/-- The period in ticks. -/
def periodTicks (t : Timing) : Nat := t.period * unitTicks t.unit

/-- The strobe width in ticks (R87). -/
def strobeTicks (t : Timing) : Nat := t.strobe * unitTicks t.unit

/-! ## Play entry fields (R64, R198) -/

/-- The kind of an entry, from its pacing or trigger (section 3.2). -/
def pacingKind : Pacing → EntryKind
  | .free | .ready | .ack => .output
  | .step | .change | .rtnEdge => .capture

/-- Kind code (table 10-5). -/
def decodeKind (b : Byte) : Option EntryKind := if b = 0 then some .output else if b = 1 then some .capture else none

/-- Pacing code (table 10-5). -/
def decodePacing (b : Byte) : Option Pacing :=
  if b = 0x00 then some .free else if b = 0x01 then some .ready else if b = 0x02 then some .ack
  else if b = 0x10 then some .step else if b = 0x11 then some .change else if b = 0x12 then some .rtnEdge
  else none

/-- The mark in bits 0 to 2 (table 10-5). -/
def markBits (b : Byte) : MarkId := Fin.ofNat 8 b.toNat

/-- Wait mark byte (table 10-5): absent, or bit 7 with the mark in bits 0 to 2, the mode in bit 3 and bits 4 to 6 at 0;
none where a "0" bit is set or bit 7 is clear. -/
def decodeWait (b : Byte) : Option (Option (MarkId × WaitMode)) :=
  if b = 0 then some none
  else if b &&& 0xF0 = 0x80 then some (some (markBits b, if b.getLsbD 3 then .take else .pass))
  else none

/-- Post mark byte (table 10-5): absent, or bit 7 with the mark in bits 0 to 2 and bits 3 to 6 at 0. -/
def decodePost (b : Byte) : Option (Option MarkId) :=
  if b = 0 then some none else if b &&& 0xF8 = 0x80 then some (some (markBits b)) else none

/-- The play entry fields of an ENQUEUE (table 10-5), before timing is encoded. -/
structure EntryFields where
  pacing : Pacing
  segment : SegmentRef
  offset : Nat
  count : Nat
  repeats : Nat
  period : Nat
  strobe : Nat
  stallLimit : Nat
  waitMark : Option (MarkId × WaitMode)
  postMark : Option MarkId
  tag : Word
  notifyStart : Bool
deriving DecidableEq, Repr

/-- Whether offset, count and repeat are in range for the kind (R64 step 3). -/
def entryRanges (kind : EntryKind) (offset count repeats : Nat) : Bool :=
  offset ≤ 16383 && 1 ≤ count && count ≤ Config.maxWords && repeats ≤ 255 &&
    (kind == .output || (offset == 0 && repeats == 1))

/-- The fields of an ENQUEUE's parameters; none is the BAD_PARAM of R64 step 3. -/
def decodeEntry (p : List Byte) : Option EntryFields :=
  match decodeKind (byteAt p 1), decodePacing (byteAt p 17), decodeWait (byteAt p 20), decodePost (byteAt p 21),
      decodeFlag (byteAt p 24) with
  | some kind, some pacing, some wait, some post, some notify =>
    if pacingKind pacing = kind ∧ entryRanges kind (u16At p 4) (u16At p 6) (byteAt p 8).toNat = true then
      some { pacing := pacing, segment := segmentAt p 2, offset := u16At p 4, count := u16At p 6,
             repeats := (byteAt p 8).toNat, period := u32At p 9, strobe := u32At p 13, stallLimit := u16At p 18,
             waitMark := wait, postMark := post, tag := wordAt p 22, notifyStart := notify }
    else none
  | _, _, _, _, _ => none

end Sys2Proof.Machine
end

