-- ==== Sys2Proof/Machine/Formats.lean ====
section
/-! DEFINITION. How responses, records and results are laid out in bytes (chapter 10, R193 to R200). -/

namespace Sys2Proof.Machine

/-- A one-byte field. -/
def byteOf (n : Nat) : Byte := BitVec.ofNat 8 n

/-- A two-byte field, least significant byte first (R193). -/
def le16 (n : Nat) : List Byte := [byteOf n, byteOf (n / 256)]

/-- A four-byte field, least significant byte first (R193). -/
def le32 (n : Nat) : List Byte := le16 n ++ le16 (n / 65536)

/-- A word in a frame, low byte first (R200). -/
def wordBytes (w : Word) : List Byte := le16 w.toNat

/-- Host code, 0xFF for none (R193). -/
def hostByte : Option HostId → Byte
  | none => 0xFF
  | some k => byteOf k.val

/-- Status codes (table 10-2). -/
def statusByte : Status → Byte
  | .ok => 0x00 | .queued => 0x01 | .staged => 0x02 | .freed => 0x03 | .condemned => 0x04 | .waitCancelled => 0x05
  | .frameError => 0x10 | .crcError => 0x11 | .unknownRequest => 0x12 | .badLength => 0x13
  | .badParam => 0x20 | .badTiming => 0x21 | .badRange => 0x22
  | .badHandle => 0x30 | .staleHandle => 0x31 | .gone => 0x32 | .notOwner => 0x33 | .notVisible => 0x34
  | .wrongState => 0x35
  | .inUse => 0x40 | .empty => 0x41 | .nameInUse => 0x42 | .noSpace => 0x44 | .quota => 0x45 | .tableFull => 0x46
  | .notHolder => 0x50 | .laneHeld => 0x51 | .alreadyHeld => 0x52 | .alreadyWaiting => 0x53 | .queueFull => 0x54
  | .busy => 0x55 | .nothingPlaying => 0x56
  | .notPermitted => 0x60

/-- A response frame (R170, R194): echoes, status, flags, length, results, and the CRC over all before it. -/
def composeResponse (tag code : Byte) (reply : Reply) (flags : Byte) : List Byte :=
  let body := [tag, code, statusByte reply.status, flags, byteOf reply.results.length] ++ reply.results
  body ++ [crc8 body]

/-- A reply of results with status OK. -/
def okReply (results : List Byte) : Reply := ⟨.ok, results⟩

/-- A refusal: no results (R170, R197). -/
def refusal (status : Status) : Reply := ⟨status, []⟩

/-! ## Segments -/

/-- Segment state code (below table 10-6); FREE entries are never reported. -/
def segmentStateByte : SegmentState → Byte
  | .free => 0x00
  | .opened => 0x01
  | .published => 0x02
  | .condemned => 0x03

/-- Visibility code (R193). -/
def visibilityByte : Visibility → Byte
  | .hidden => 0x00
  | .shared => 0x01

/-- A yes/no byte (R193). -/
def flagByte (b : Bool) : Byte := if b then 0x01 else 0x00

/-- A name field: the characters, then 0x00 to 8 bytes (R193). -/
def nameBytes (name : Option (List Byte)) : List Byte :=
  let n := (name.getD []).take 8
  n ++ List.replicate (8 - n.length) 0

/-- The handle of a table slot (section 1.3). -/
def slotHandle (i : Slot) : Byte := byteOf (i.val + 1)

/-- Capacity of a segment: 32 times the number of its blocks (section 1.3). -/
def capacityOf (g : Segment) : Nat := Config.blockWords * g.chain.length

/-- A segment record of CATALOG (table 10-6). -/
def segmentRecord (i : Slot) (g : Segment) : List Byte :=
  [slotHandle i, g.generation] ++ nameBytes g.name ++ [hostByte (some g.owner), visibilityByte g.visibility,
    segmentStateByte g.state] ++ le16 g.length

/-- A query record (table 10-6). -/
def queryRecord (i : Slot) (g : Segment) : List Byte :=
  [slotHandle i, g.generation, segmentStateByte g.state] ++ nameBytes g.name ++
    [hostByte (some g.owner), visibilityByte g.visibility] ++ le16 g.length ++ le16 (capacityOf g) ++
    le16 g.chain.length ++ le16 (g.chain.headD 0) ++ [byteOf g.refs, flagByte g.notifyOnFree]

/-! ## Timing, lanes, marks -/

/-- Unit code (R200). -/
def unitByte : TimeUnit → Byte
  | .ns100 => 0x00
  | .us1 => 0x01
  | .us10 => 0x02
  | .us100 => 0x03

/-- The three bytes of a timing encoding (R200). -/
def timingBytes (t : Timing) : List Byte := [unitByte t.unit, byteOf t.period, byteOf t.strobe]

/-- Lane state code (table 10-7). A released lane has left MARKWAIT and is reported as RUNNING; LANE_STATUS itself
looks at the lane as it stands once it has proceeded (log 9). -/
def laneStateByte : LaneState → Byte
  | .off => 0x00
  | .idle => 0x01
  | .markwait => 0x02
  | .released .. => 0x03
  | .running => 0x03
  | .stalled => 0x04
  | .holding _ => 0x05
  | .faulted _ => 0x06

/-- Outcome code (table 10-8). -/
def outcomeByte : EndOutcome → Byte
  | .complete => 0x01
  | .aborted => 0x02
  | .flushed => 0x03
  | .leaseEnded => 0x04
  | .readyTimeout => 0x05
  | .ackTimeout => 0x06
  | .segmentFull => 0x07
  | .segmentGone => 0x08
  | .captureTimeout => 0x09

/-- The outcome a fault code is (R100). -/
def faultOutcome : FaultCode → EndOutcome
  | .readyTimeout => .readyTimeout
  | .ackTimeout => .ackTimeout

/-- Fault code byte: the outcome code while FAULTED, 0x00 in every other state (table 10-7). -/
def faultByte : LaneState → Byte
  | .faulted c => outcomeByte (faultOutcome c)
  | _ => 0x00

/-- Mark state code (R197). -/
def markStateByte (isSet : Bool) : Byte := if isSet then 0x01 else 0x00

/-- A waiter byte of a mark record: lane in bits 0 and 1, mode in bit 7 (R197). -/
def waiterByte (w : LaneId × WaitMode) : Byte :=
  byteOf w.1.val ||| (match w.2 with | .pass => 0x00 | .take => 0x80)

/-- A mark record: state, then four waiter bytes, 0xFF where no lane stands (R197). -/
def markRecord (m : Mark) : List Byte :=
  let w := (m.waiters.map waiterByte).take 4
  markStateByte m.isSet :: w ++ List.replicate (4 - w.length) 0xFF

/-! ## Events (R199) -/

/-- Cause code of LEASE_LOST (table 10-8). -/
def lostByte : LostCause → Byte
  | .expired => 0x21
  | .revoked => 0x22

/-- Kind code (R199). -/
def kindNibble : Event → Byte
  | .entryStarted .. => 0x1
  | .entryDone .. => 0x2
  | .leaseGranted .. => 0x3
  | .leaseLost .. => 0x4
  | .segmentFreed .. => 0x5
  | .eventsLost .. => 0x6
  | .withdrawn => 0x7

/-- Byte 2 of an event record: the kind, and bit 7 in an ENTRY_DONE marked "retime discarded" (R199). -/
def kindByte (e : Event) : Byte :=
  match e with
  | .entryDone _ _ _ _ _ true => kindNibble e ||| 0x80
  | _ => kindNibble e

/-- Bytes 7 to 14 of an event record: the fields the kind carries, sentinels elsewhere (R147, R199). -/
def eventFields : Event → List Byte
  | .entryStarted l g t => [byteOf l.val, g.handle, g.generation] ++ wordBytes t ++ [0x00] ++ le16 0
  | .entryDone l g t o n _ => [byteOf l.val, g.handle, g.generation] ++ wordBytes t ++ [outcomeByte o] ++ le16 n
  | .leaseGranted l d => [byteOf l.val, 0x00, 0x00] ++ le16 0 ++ [0x00] ++ le16 d
  | .leaseLost l c => [byteOf l.val, 0x00, 0x00] ++ le16 0 ++ [lostByte c] ++ le16 0
  | .segmentFreed g => [0xFF, g.handle, g.generation] ++ le16 0 ++ [0x00] ++ le16 0
  | .eventsLost n => [0xFF, 0x00, 0x00] ++ le16 0 ++ [0x00] ++ le16 n
  | .withdrawn => [0xFF, 0x00, 0x00] ++ le16 0 ++ [0x23] ++ le16 0

/-- An event record as FETCH returns it, 15 bytes (R199). -/
def recordBytes (r : Record) : List Byte :=
  wordBytes r.seq ++ [kindByte r.event] ++ le32 r.stamp.toNat ++ eventFields r.event

end Sys2Proof.Machine
end

