-- ==== Sys2Proof/Machine/Ops.lean ====
section
/-! DEFINITION. The named operations over the state: access and update of each block's part, pattern memory, the free
pool and segment table, posts and their filing, marks, and the claims of the lanes. -/

namespace Sys2Proof.Machine

/-! ## Access and update, one pair for each block -/

/-- Lane sequencer l. -/
def State.lane (s : State) (l : LaneId) : Lane := s.lanes.sel l
/-- Replace lane sequencer l. -/
def State.setLane (s : State) (l : LaneId) (v : Lane) : State := { s with lanes := s.lanes.upd l v }
/-- Lane record l. -/
def State.lease (s : State) (l : LaneId) : Lease := s.leases.sel l
/-- Replace lane record l. -/
def State.setLease (s : State) (l : LaneId) (v : Lease) : State := { s with leases := s.leases.upd l v }
/-- Mark m. -/
def State.mark (s : State) (m : MarkId) : Mark := s.marks.sel m
/-- Replace mark m. -/
def State.setMark (s : State) (m : MarkId) (v : Mark) : State := { s with marks := s.marks.upd m v }
/-- The Event Unit's state for host k. -/
def State.eventsOf (s : State) (k : HostId) : EventQueue := s.events.sel k
/-- Replace the Event Unit's state for host k. -/
def State.setEvents (s : State) (k : HostId) (v : EventQueue) : State := { s with events := s.events.upd k v }
/-- Host link k. -/
def State.link (s : State) (k : HostId) : Link := s.links.sel k
/-- Replace host link k. -/
def State.setLink (s : State) (k : HostId) (v : Link) : State := { s with links := s.links.upd k v }
/-- The claims lane l has presented and the Segment Manager has not taken, oldest first. -/
def State.claimsOf (s : State) (l : LaneId) : List LaneClaim := s.claims.sel l
/-- Replace the claims of lane l. -/
def State.setClaims (s : State) (l : LaneId) (v : List LaneClaim) : State := { s with claims := s.claims.upd l v }
/-- The append answers lane l has not taken, oldest first. -/
def State.answersOf (s : State) (l : LaneId) : List AppendAnswer := s.answers.sel l
/-- Replace the append answers of lane l. -/
def State.setAnswers (s : State) (l : LaneId) (v : List AppendAnswer) : State := { s with answers := s.answers.upd l v }
/-- The input levels of lane l. -/
def State.pinsOf (s : State) (l : LaneId) : LanePins := s.pins.sel l
/-- Replace the input levels of lane l. -/
def State.setPins (s : State) (l : LaneId) (v : LanePins) : State := { s with pins := s.pins.upd l v }
/-- Replace what the Segment Manager owns. -/
def State.setStore (s : State) (v : Store) : State := { s with store := v }
/-- The present tick. -/
def State.now (s : State) : Nat := s.time.clock

/-! ## Pattern memory (R1) -/

/-- The cell at an address of a list whose addresses rise; none if nothing has stored there. -/
def memoryRead : List (Nat × Word) → Nat → Option Word
  | [], _ => none
  | (a, w) :: rest, x => if x < a then none else if x = a then some w else memoryRead rest x

/-- Store a word, keeping the addresses rising. -/
def memoryWrite : List (Nat × Word) → Nat → Word → List (Nat × Word)
  | [], x, v => [(x, v)]
  | (a, w) :: rest, x, v =>
    if x < a then (x, v) :: (a, w) :: rest
    else if x = a then (x, v) :: rest
    else (a, w) :: memoryWrite rest x v

/-- The canonical form of pattern memory: addresses strictly rising. -/
def memoryWf : List (Nat × Word) → Bool
  | [] => true
  | [_] => true
  | (a, _) :: (b, w) :: rest => decide (a < b) && memoryWf ((b, w) :: rest)

/-- The address of word i of a segment: position i mod 32 of block chain[i div 32] (R1); none past the chain. -/
def wordAddress (chain : List Nat) (i : Nat) : Option Nat :=
  chain[i / Config.blockWords]?.map (fun b => b * Config.blockWords + i % Config.blockWords)

/-- The content of an address: what was stored, else the free content that device reset left (R1). -/
def Store.content (st : Store) (a : Nat) : Word := (memoryRead st.memory a).getD (Config.residualWord st.epoch a)

/-- Word i of a segment (R1). Past the chain there is no word; its content is free (log 20). -/
def Store.word (st : Store) (g : Segment) (i : Nat) : Word :=
  match wordAddress g.chain i with
  | some a => st.content a
  | none => Config.residualWord st.epoch i

/-- Store word i of a segment (R1); past the chain nothing is stored (log 20). -/
def Store.putWord (st : Store) (g : Segment) (i : Nat) (w : Word) : Store :=
  match wordAddress g.chain i with
  | some a => { st with memory := memoryWrite st.memory a w }
  | none => st

/-- Store words from index i on, in order (R16). -/
def Store.putWords (st : Store) (g : Segment) (i : Nat) : List Word → Store
  | [] => st
  | w :: ws => (st.putWord g i w).putWords g (i + 1) ws

/-- The words from index i on, n of them (R17). -/
def Store.getWords (st : Store) (g : Segment) (i n : Nat) : List Word := (List.range n).map (fun j => st.word g (i + j))

/-! ## Segment table and free pool (R2 to R10) -/

/-- The table entry of a slot. -/
def Store.entry (st : Store) (i : Slot) : Segment := st.table.sel i

/-- Replace the table entry of a slot. -/
def Store.setEntry (st : Store) (i : Slot) (g : Segment) : Store := { st with table := st.table.upd i g }

/-- Every slot, in ascending handle order. -/
def slots : List Slot := List.finRange 64

/-- The slot of a handle; none outside 1 to 64. -/
def handleSlot (handle : Byte) : Option Slot :=
  if h : 1 ≤ handle.toNat ∧ handle.toNat ≤ 64 then some ⟨handle.toNat - 1, by omega⟩ else none

/-- Whether an entry is OPEN or PUBLISHED. -/
def Segment.live (g : Segment) : Bool := g.state == .opened || g.state == .published

/-- Block usage of a host: the blocks of the OPEN and PUBLISHED entries it owns (R9). -/
def Store.usage (st : Store) (k : HostId) : Nat :=
  (slots.map (fun i => if (st.entry i).live && (st.entry i).owner == k then (st.entry i).chain.length else 0)).sum

/-- Number of entries in a state (R34). -/
def Store.countState (st : Store) (x : SegmentState) : Nat := (slots.filter (fun i => (st.entry i).state == x)).length

/-- The handle check (R10), first row that applies; the slot where it passes. -/
def Store.handleCheck (st : Store) (r : SegmentRef) : Except Status Slot :=
  match handleSlot r.handle with
  | none => .error .badHandle
  | some i =>
    let g := st.entry i
    if r.generation = 0 then .error .badHandle
    else if g.state = .free then (if g.generation = 0 then .error .badHandle else .error .staleHandle)
    else if g.generation ≠ r.generation then .error .staleHandle
    else if g.state = .condemned then .error .gone
    else .ok i

/-- The handle check of QUERY, which takes the GONE row as a pass (R10, R22). -/
def Store.queryCheck (st : Store) (r : SegmentRef) : Except Status Slot :=
  match st.handleCheck r with
  | .error .gone => match handleSlot r.handle with
    | some i => .ok i
    | none => .error .gone
  | x => x

/-- The generation of the next use of a handle: 0 to 1, and 255 wraps to 1 (R7). -/
def nextGeneration (g : Byte) : Byte := if g = 255 then 1 else g + 1

/-- Take n blocks from the head of the pool to the end of an entry's chain (R3). -/
def Store.allocate (st : Store) (i : Slot) (n : Nat) : Store :=
  let g := st.entry i
  { (st.setEntry i { g with chain := g.chain ++ st.pool.take n }) with pool := st.pool.drop n }

/-- An entry as it goes FREE: generation, owner and visibility keep their values (R5). -/
def Segment.freed (g : Segment) : Segment :=
  { g with state := .free, name := none, chain := [], length := 0, refs := 0, notifyOnFree := false }

/-- Free an entry: its whole chain joins the tail of the pool in chain order, and it goes FREE (R4, R5). -/
def Store.freeEntry (st : Store) (i : Slot) : Store :=
  { (st.setEntry i (st.entry i).freed) with pool := st.pool ++ (st.entry i).chain }

/-- Condemn an entry (R20, R32): everything but state and notify-on-free stays. -/
def Store.condemnEntry (st : Store) (i : Slot) (notify : Bool) : Store :=
  st.setEntry i { (st.entry i) with state := .condemned, notifyOnFree := notify }

/-- Remove one OPEN or PUBLISHED entry as DELETE does: freed if unreferenced, else condemned (R19, R20). -/
def Store.removeEntry (st : Store) (i : Slot) (notify : Bool) : Store :=
  if (st.entry i).refs = 0 then st.freeEntry i else st.condemnEntry i notify

/-- Change the refs of an entry. -/
def Store.setRefs (st : Store) (i : Slot) (n : Nat) : Store := st.setEntry i { (st.entry i) with refs := n }

/-! ## Posts and filing (R147 to R151) -/

/-- Present a post (R149). -/
def State.post (s : State) (p : Post) : State := { s with posts := s.posts ++ [p] }

/-- The next number is taken, by a post of the Lease Controller or of a lane, or by a drain order (log 7). -/
def State.countOrder (s : State) : State := { s with orderCount := s.orderCount + 1 }

/-- A post is presented with the next number as its rank, so that ranks rise in the order in which a block presents (R150, log 7). -/
def State.postRanked (s : State) (p : Nat → Post) : State := (s.post (p s.orderCount)).countOrder

/-- The Lease Controller presents a post (R147, R148). -/
def State.postLease (s : State) (k : HostId) (e : Event) : State :=
  s.postRanked fun n =>
    { host := k, stamp := s.time.timestamp, event := e, rank := n, after := none, order := none }

/-- The block that posts an event (R147). -/
def Event.block : Event → Block
  | .entryStarted l _ _ => .lane l
  | .entryDone l _ _ _ _ _ => .lane l
  | .leaseGranted .. => .leases
  | .leaseLost .. => .leases
  | .segmentFreed _ => .segments
  | .eventsLost _ => .events
  | .withdrawn => .events

/-- Whether a mask drops an event: only the three maskable kinds, when disabled (R149). -/
def EventMask.drops (m : EventMask) : Event → Bool
  | .entryStarted .. => !m.started
  | .entryDone .. => !m.done
  | .segmentFreed .. => !m.freed
  | _ => false

/-- Store a record at the tail with the next sequence number; the attention line follows (R149, R151, R157). -/
def EventQueue.store (q : EventQueue) (stamp : Stamp) (e : Event) : EventQueue :=
  { q with queue := q.queue ++ [{ seq := q.seq, stamp := stamp, event := e }], seq := q.seq + 1, attn := .low }

/-- Filing a record: dropped by the mask, stored, or counted lost (R149). -/
def EventQueue.file (q : EventQueue) (stamp : Stamp) (e : Event) : EventQueue :=
  if q.mask.drops e then q
  else if q.queue.length < Config.eventDepth then q.store stamp e
  else { q with lost := if q.lost < Config.maxCount then q.lost + 1 else q.lost }

/-! ## Claims of the lanes (R25 to R27, R121) -/

/-- A lane presents a claim (R121). -/
def State.present (s : State) (l : LaneId) (c : LaneClaim) : State := s.setClaims l (s.claimsOf l ++ [c])

/-- The SEGMENT_FREED of a freeing release that lane l presented (R26). The posts of the lane below the number at which it
presented the release come before it, and those of the Lease Controller before the drain order, if one led to it (R150). -/
def freedPost (s : State) (l : LaneId) (g : Segment) (r : SegmentRef) (below : Nat) (order : Option Nat) : Post :=
  { host := g.owner, stamp := s.time.timestamp, event := .segmentFreed ⟨r.handle, g.generation⟩, rank := 0,
    after := some (l, below), order := order }

/-- A reference release of lane l taken by the Segment Manager (R25, R26): refs falls by 1, and a CONDEMNED entry that reaches 0
is freed, posting SEGMENT_FREED to its owner when notify-on-free is yes. -/
def State.takeRelease (s : State) (l : LaneId) (r : SegmentRef) (below : Nat) (order : Option Nat) : State :=
  match handleSlot r.handle with
  | none => s
  | some i =>
    let g := s.store.entry i
    let s1 := s.setStore (s.store.setRefs i (g.refs - 1))
    if g.state = .condemned ∧ g.refs ≤ 1 then
      let s2 := if g.notifyOnFree then s1.post (freedPost s l g r below order) else s1
      s2.setStore (s2.store.freeEntry i)
    else s1

/-- What the Segment Manager answers an append, by the segment's state (R27). R27 leaves out FREE and PUBLISHED, which an
append cannot meet; there nothing is stored and the answer is GONE (log 20). -/
def appendResult (g : Segment) : AppendResult :=
  if g.state = .opened then (if g.length < capacityOf g then .stored else .full) else .gone

/-- An append taken by the Segment Manager: the word stored at index length if there is room, and the answer (R27). -/
def State.takeAppend (s : State) (l : LaneId) (r : SegmentRef) (id : Nat) (w : Word) : State :=
  match handleSlot r.handle with
  | none => s.setAnswers l (s.answersOf l ++ [⟨id, .gone⟩])
  | some i =>
    let g := s.store.entry i
    let s1 := if appendResult g = .stored then
        s.setStore ((s.store.putWord g g.length w).setEntry i { g with length := g.length + 1 })
      else s
    s1.setAnswers l (s1.answersOf l ++ [⟨id, appendResult g⟩])

/-- The effect of one claim of lane l. -/
def State.takeClaim (s : State) (l : LaneId) : LaneClaim → State
  | .append r id w => s.takeAppend l r id w
  | .release r below order => s.takeRelease l r below order

/-- Every claim lane l has presented is taken, in the order presented (R30, R121). -/
def State.settleClaims (s : State) (l : LaneId) : State :=
  (s.claimsOf l).foldl (fun t c => t.takeClaim l c) (s.setClaims l [])

/-! ## Marks (R134, R136, R142) -/

/-- The walk of a waiter list by a setting (R136): the lanes released, the list left, and whether the mark is left SET. -/
def markWalk : List (LaneId × WaitMode) → List LaneId × List (LaneId × WaitMode) × Bool
  | [] => ([], [], true)
  | (l, .pass) :: rest =>
    let (released, left, set) := markWalk rest
    (l :: released, left, set)
  | (l, .take) :: rest => ([l], rest, false)

/-- A release hands the lane back to its lane sequencer: it is no longer in MARKWAIT, and its entry proceeds in its own
event with the timestamp of the setting (R137, log 9), whose maker `after` names where it is a lane (R150). -/
def State.releaseLane (after : Option (LaneId × Nat)) (s : State) (l : LaneId) : State :=
  s.setLane l { (s.lane l) with state := .released s.time.timestamp after }

/-- A setting of a mark (R136), with the number of lanes released; `after` names the lane that made it, if one did. -/
def State.settleMark (s : State) (m : MarkId) (after : Option (LaneId × Nat)) : State × Nat :=
  if (s.mark m).isSet then (s, 0)
  else
    let w := markWalk (s.mark m).waiters
    (w.1.foldl (State.releaseLane after) (s.setMark m { isSet := w.2.2, waiters := w.2.1 }), w.1.length)

/-- A removal: the lane leaves the waiter list it stands on, and no mark changes its state (R142). -/
def State.removeWaiter (s : State) (l : LaneId) : State :=
  { s with marks := s.marks.map (fun m => { m with waiters := m.waiters.filter (fun w => w.1 != l) }) }

end Sys2Proof.Machine
end

