-- ==== Sys2Proof/Machine/ClaimEvents.lean ====
section
/-! DEFINITION. The two claims of a lane that the Segment Manager takes as events of their own: appends and reference
releases (R25 to R27). The claims of one lane are taken in the order presented (R30), so each event concerns the oldest. -/

namespace Sys2Proof.Machine

/-- The append claim lane l presented is taken (R27), where the lane's oldest claim is one (log 2). -/
def State.appendEvent (s : State) (l : LaneId) : State :=
  match s.claimsOf l with
  | .append r id w :: rest => (s.setClaims l rest).takeAppend l r id w
  | _ => s

/-- APPEND (R27). -/
def execAppend (l : LaneId) (s : State) : Host.Outcome State Fault Refusal := .next (s.appendEvent l)

/-- The reference release lane l presented is taken (R25, R26), where the lane's oldest claim is one (log 2). -/
def State.releaseEvent (s : State) (l : LaneId) : State :=
  match s.claimsOf l with
  | .release r below order :: rest => (s.setClaims l rest).takeRelease l r below order
  | _ => s

/-- REFERENCE_RELEASE (R25). -/
def execReferenceRelease (l : LaneId) (s : State) : Host.Outcome State Fault Refusal := .next (s.releaseEvent l)

end Sys2Proof.Machine
end

