-- ==== Sys2Proof/Machine/LinkOps.lean ====
section
/-! DEFINITION. What a host link does around a request: which request waits for its owner, how a response is held, and how
an owner's answer comes back (chapter 8). -/

namespace Sys2Proof.Machine

/-- The host of an SPI port (00_scope.md, Host model). -/
def spiHost : SpiPort → HostId
  | .a => 0
  | .b => 1

/-- The host whose link a port is. -/
def portHost : Port → HostId
  | .spi p => spiHost p
  | .i2c _ => 2

/-- Hold a response (R170): the frame with its flags composed now; the overrun flag is then clear and the port READY. -/
def State.holdResponse (s : State) (k : HostId) (tag code : Byte) (reply : Reply) (replayed : Bool) : State :=
  let lk := s.link k
  s.setLink k { lk with
    port := .ready, held := some (composeResponse tag code reply (responseFlags replayed lk.overrun)), overrun := false,
    deciding := none }

/-- Hold the response to a request that was handed to its owner: the replay record is replaced (R176). -/
def State.respond (s : State) (k : HostId) (req : Request) (reply : Reply) : State :=
  let s1 := s.holdResponse k req.tag req.code reply false
  s1.setLink k { (s1.link k) with
    replay := some { tag := req.tag, code := req.code, crc := req.crc, reply := reply } }

/-- Whether port k may hand a new frame on: no withdrawal of k by link reset or by its own DETACH is outstanding (R178,
R188), and no request that a link reset left with its owner is undecided (R169). That a DETACH of k still holds the port after
k's link was reset, and that an EVICT, whether it names k or came from k, does not, is the model's choice (log 13). -/
def State.handsOn (s : State) (k : HostId) : Bool :=
  !(s.withdrawals.any (fun w => w.host == k && w.cause != .evicted)) && (s.link k).orphan.isNone

/-- The request of host k that waits for its owner, and whether its response will be held: one that a link reset left with
its owner has its response discarded (R178). -/
def State.waiting (s : State) (k : HostId) : Option (Request × Bool) :=
  match (s.link k).orphan with
  | some req => some (req, false)
  | none => if s.handsOn k then (s.link k).deciding.map (fun req => (req, true)) else none

/-- The owner's answer comes back to the link (R170, R176), or is discarded (R178). -/
def State.answer (s : State) (k : HostId) (req : Request) (live : Bool) (reply : Reply) : State :=
  if live then s.respond k req reply else s.setLink k { (s.link k) with orphan := none }

/-- A request of this kind that waits at link k is decided by its owner and answered. Where no request of the kind waits,
there is nothing to decide and the state stays as it is (log 2). -/
def State.decide (s : State) (k : HostId) (kind : RequestKind) (owner : List Byte → State × Reply) : State :=
  match s.waiting k with
  | none => s
  | some (req, live) =>
    if req.code = requestCode kind then
      let (s1, reply) := owner req.params
      s1.answer k req live reply
    else s

/-- A request that makes a withdrawal (DETACH, EVICT) is decided, and its port stays EXECUTING until the withdrawal is
complete (R187, R188): the request leaves the link for the withdrawal. The owner answers the withdrawal to make, or a
refusal. -/
def State.decideWithdrawal (s : State) (k : HostId) (kind : RequestKind)
    (owner : List Byte → Except Status (HostId × WithdrawalCause)) : State :=
  match s.waiting k with
  | none => s
  | some (req, live) =>
    if req.code = requestCode kind then
      match owner req.params with
      | .error status => s.answer k req live (refusal status)
      | .ok (host, cause) =>
        let s1 := s.setLink k (if live then { (s.link k) with deciding := none }
          else { (s.link k) with orphan := none })
        { s1 with withdrawals := s1.withdrawals ++
            [{ host := host, cause := cause, leaseTaken := false, segmentTaken := false, leasesEnded := 0,
               claimsRemoved := 0, firstOrder := 0, endOrder := 0, answer := if live then some (k, req) else none }] }
    else s

end Sys2Proof.Machine
end

