-- ==== Sys2Proof/Machine/EventCommands.lean ====
section
/-! DEFINITION. The Event Unit: filing a post, FETCH and EVENT_MASK (chapter 7). -/

namespace Sys2Proof.Machine

/-! ## Posts (R149, R150) -/

/-- Whether the Event Unit takes a post before a later presented one (R150, log 7). It does for two posts of one block to one
host, which that block presents in its own order; for a post of the Lease Controller made before the drain order that led to
the later one; and for a post of a lane made before its claim, or its setting of a mark, that led to the later one. Posts of
different blocks are otherwise taken in either order. -/
def Post.before (early late : Post) : Bool :=
  (early.host == late.host && early.event.block == late.event.block) ||
  (early.event.block == .leases && late.order.any (fun n => decide (early.rank < n))) ||
  late.after.any (fun a => early.event.block == .lane a.1 && decide (early.rank < a.2))

/-- The posts that wait for a host, oldest first. -/
def State.postsFor (s : State) (k : HostId) : List Post := s.posts.filter (fun p => p.host == k)

/-- The posts that stand before the i-th one addressed to a host. -/
def postsAhead (k : HostId) : Nat → List Post → List Post
  | _, [] => []
  | i, p :: rest =>
    if p.host = k then
      match i with
      | 0 => []
      | j + 1 => p :: postsAhead k j rest
    else p :: postsAhead k i rest

/-- A list of posts without the i-th one addressed to a host. -/
def withoutPost (k : HostId) : Nat → List Post → List Post
  | _, [] => []
  | i, p :: rest =>
    if p.host = k then
      match i with
      | 0 => rest
      | j + 1 => p :: withoutPost k j rest
    else p :: withoutPost k i rest

/-- The i-th post that waits for a host, where R150 lets it be taken now (log 7). -/
def State.postReady (s : State) (k : HostId) (i : Nat) : Option Post :=
  (s.postsFor k)[i]?.filter (fun p => !(postsAhead k i s.posts).any (fun q => q.before p))

/-- The Event Unit takes the i-th post that waits for host k and files it (R149). -/
def State.filePost (s : State) (k : HostId) (i : Nat) : State :=
  match s.postReady k i with
  | none => s
  | some p => { (s.setEvents k ((s.eventsOf k).file p.stamp p.event)) with posts := withoutPost k i s.posts }

/-- EVENT_POST (R149). -/
def execEventPost (k : HostId) (i : Nat) (s : State) : Host.Outcome State Fault Refusal := .next (s.filePost k i)

/-! ## FETCH (R153) -/

/-- What an accepted FETCH leaves of a queue (R153): n records gone from the head, EVENTS_LOST appended where records were
lost, and the attention line following the queue. -/
def EventQueue.fetched (q : EventQueue) (n : Nat) (stamp : Stamp) : EventQueue :=
  let q1 := { q with queue := q.queue.drop n }
  let q2 := if q.lost = 0 then q1 else { (q1.store stamp (.eventsLost q.lost)) with lost := 0 }
  { q2 with attn := attentionFor q2.queue }

/-- FETCH decided (R153, R197). -/
def fetchRequest (s : State) (k : HostId) (p : List Byte) : State × Reply :=
  let n := (byteAt p 0).toNat
  if n = 0 ∨ 4 < n then (s, refusal .badParam)
  else
    let q := s.eventsOf k
    let q1 := q.fetched n s.time.timestamp
    (s.setEvents k q1,
     okReply ([byteOf q1.queue.length, byteOf (q.queue.take n).length] ++ (q.queue.take n).flatMap recordBytes))

/-- FETCH (R153). -/
def execFetch (k : HostId) (s : State) : Host.Outcome State Fault Refusal :=
  .next (s.decide k .fetch (fetchRequest s k))

/-! ## EVENT_MASK (R155) -/

/-- The three settings of a mask, as R197 answers them. -/
def maskBytes (m : EventMask) : List Byte := [flagByte m.started, flagByte m.done, flagByte m.freed]

/-- EVENT_MASK decided (R155): the requester's whole mask is replaced, and the answer is the mask before. -/
def eventMaskRequest (s : State) (k : HostId) (p : List Byte) : State × Reply :=
  match decodeFlag (byteAt p 0), decodeFlag (byteAt p 1), decodeFlag (byteAt p 2) with
  | some started, some done, some freed =>
    (s.setEvents k { (s.eventsOf k) with mask := { started := started, done := done, freed := freed } },
     okReply (maskBytes (s.eventsOf k).mask))
  | _, _, _ => (s, refusal .badParam)

/-- EVENT_MASK (R155). -/
def execEventMask (k : HostId) (s : State) : Host.Outcome State Fault Refusal :=
  .next (s.decide k .eventMask (eventMaskRequest s k))

end Sys2Proof.Machine
end

