-- ==== Sys2Proof/Machine/LaneOps.lean ====
section
/-! DEFINITION. What a lane sequencer does inside its events: lines, boundaries, waits, pass ends, entry start, entry end
and drain (chapters 3 to 5). -/

namespace Sys2Proof.Machine

/-! ## The current entry -/

/-- Whether a lane in this state has a current entry (R61). -/
def LaneState.hasCurrent : LaneState → Bool
  | .markwait | .released .. | .running | .stalled => true
  | .holding .atBoundary | .holding .inWait | .holding .outOfMarkwait => true
  | _ => false

/-- The current entry: the head of the queue while the lane has one (R61). -/
def Lane.current (ln : Lane) : Option Entry := if ln.state.hasCurrent then ln.queue.head? else none

/-- Kind of an entry. -/
def Entry.kind (e : Entry) : EntryKind := pacingKind e.pacing

/-- A count that saturates at 65535 (R61). -/
def saturate (n : Nat) : Nat := min n Config.maxCount

/-! ## Lines (R86, R87, R99, R114) -/

/-- Drive of a pattern or park word: line i is driven to data bit i where enable bit i is 1 (R86, R200). -/
def Drive.ofWord (w : Word) : Drive :=
  { driven := w.extractLsb' 8 8, level := w.extractLsb' 0 8 &&& w.extractLsb' 8 8 }

/-- The inactive level of STB (R87). -/
def stbInactive : Polarity → Strobe
  | .activeHigh => .low
  | .activeLow => .high

/-- The active level of STB (R87). -/
def stbActive : Polarity → Strobe
  | .activeHigh => .high
  | .activeLow => .low

/-- Whether RTN of a lane, judged against its polarity, is active (R83). -/
def State.rtnActive (s : State) (l : LaneId) : Bool :=
  match (s.lease l).rtnPol with
  | .activeHigh => (s.pinsOf l).rtn
  | .activeLow => !(s.pinsOf l).rtn

/-- RTN of a lane brought to its active level by the fixture. -/
def State.raiseRtn (s : State) (l : LaneId) : State :=
  s.setPins l { (s.pinsOf l) with rtn := (s.lease l).rtnPol == .activeHigh }

/-- Show the park word: its drive on the data lines, STB inactive (R99). -/
def State.showPark (s : State) (l : LaneId) : State :=
  s.setLane l { (s.lane l) with drive := Drive.ofWord (s.lease l).park, stb := stbInactive (s.lease l).stbPol }

/-! ## Boundaries (R86 to R90, R103, R117, R118) -/

/-- The word of index i of the segment an entry names. -/
def State.segmentWord (s : State) (r : SegmentRef) (i : Nat) : Word :=
  match handleSlot r.handle with
  | some k => s.store.word (s.store.entry k) i
  | none => Config.residualWord s.store.epoch i

/-- The timing that governs a boundary that happens: staged timing if present, else the timing in effect (R88, R103). -/
def Lane.boundaryTiming (ln : Lane) (e : Entry) : Timing := (ln.staged.orElse (fun _ => ln.timing)).getD e.timing

/-- What every boundary does to a lane, whatever is driven or sampled: the timing of R103 takes effect, STB pulses if its
strobe is not 0 (R86, R87), the next scheduled point is one period on (R89, R91, R110), and the lane is RUNNING. -/
def Lane.atBoundary (ln : Lane) (t : Timing) (pol : Polarity) (now : Nat) : Lane :=
  { ln with
    state := .running, timing := some t, staged := none, point := some (now + periodTicks t), acked := false,
    stallTimer := none, inactiveAt := none,
    stb := if t.strobe = 0 then stbInactive pol else stbActive pol,
    pulseEnd := if t.strobe = 0 then none else some (now + strobeTicks t) }

/-- The first judgement of a watch of RTN, made at the tick at which the watch starts (log 15): the tick, where RTN is
inactive; an active RTN does not count (R83). -/
def State.judgeNow (s : State) (l : LaneId) : Option Nat := if s.rtnActive l then none else some s.now

/-- Under ACK pacing the lane goes STALLED, watches RTN for an edge and starts its stall timer (R93, R96). -/
def State.startAckWait (s : State) (l : LaneId) : State :=
  s.setLane l { (s.lane l) with state := .stalled, stallTimer := some s.now, inactiveAt := s.judgeNow l }

/-- An RTN_EDGE capture goes STALLED and watches RTN, its capture timer counting from the given tick (R119, R120). -/
def State.startEdgeWatch (s : State) (l : LaneId) (start : Nat) : State :=
  s.setLane l { (s.lane l) with
    state := .stalled, inactiveAt := s.judgeNow l, capture := { (s.lane l).capture with timer := some start } }

/-- A boundary of an output entry happens: the next word is driven and counted (R71, R86). With no strobe the ACK wait
starts at the boundary itself (R93). -/
def State.driveWord (s : State) (l : LaneId) (e : Entry) : State :=
  let ln := s.lane l
  let t := ln.boundaryTiming e
  let w := s.segmentWord e.segment (e.offset + ln.passWords)
  let s1 := s.setLane l { (ln.atBoundary t (s.lease l).stbPol s.now) with
    drive := Drive.ofWord w, words := saturate (ln.words + 1), passWords := ln.passWords + 1 }
  if e.pacing = .ack ∧ t.strobe = 0 then s1.startAckWait l else s1

/-- The capture word of a sample and an elapsed count (R200). -/
def captureWord (sample : Byte) (elapsed : Nat) : Word := byteOf elapsed ++ sample

/-- The boundary count at a boundary: 0 at the entry's first, else one more (R118). -/
def Capture.countAt (c : Capture) : Nat := if c.lastKept.isNone then 0 else min 255 (c.boundaryCount + 1)

/-- Whether a sample is presented as an append: always under STEP; under CHANGE at the first boundary, when it differs
from the last kept sample, or when the boundary count reaches 255 (R117, R118). -/
def Capture.keeps (c : Capture) (pacing : Pacing) (sample : Byte) : Bool :=
  pacing != .change || c.lastKept != some sample || c.countAt == 255

/-- The elapsed count of a sample at a boundary: 0 for the first, then 1 under STEP and the boundary count under CHANGE
(R117, R118). -/
def Capture.elapsedAt (c : Capture) (pacing : Pacing) : Nat :=
  if c.lastKept.isNone then 0 else if pacing = .change then c.countAt else 1

/-- A boundary of a STEP or CHANGE capture: the lines are sampled, STB marks the sample, and a kept sample is presented
as an append (R117, R118, R121). -/
def State.sampleBoundary (s : State) (l : LaneId) (e : Entry) : State :=
  let ln := s.lane l
  let sample := (s.pinsOf l).data
  let c := ln.capture
  let w := captureWord sample (c.elapsedAt e.pacing)
  let keep := c.keeps e.pacing sample
  let s1 := s.setLane l { (ln.atBoundary (ln.boundaryTiming e) (s.lease l).stbPol s.now) with
    capture := { c with
      boundaryCount := if e.pacing = .change then c.countAt else c.boundaryCount,
      pendingAppend := if keep then some w else c.pendingAppend } }
  if keep then s1.present l (.append e.segment e.id w) else s1

/-- A boundary whose moment has come and that no hold defers: under READY the ready check comes first, and an RTN judged
inactive at this tick stalls the lane with the stall timer started (R83, R90). -/
def State.attemptBoundary (s : State) (l : LaneId) (e : Entry) : State :=
  match e.kind with
  | .output =>
    if e.pacing = .ready ∧ s.rtnActive l = false then
      s.setLane l { (s.lane l) with state := .stalled, stallTimer := some s.now, inactiveAt := some s.now }
    else s.driveWord l e
  | .capture => s.sampleBoundary l e

/-- The lane goes HOLDING within the entry or between entries, and the hold request is cleared (R106). -/
def State.holdIn (s : State) (l : LaneId) (form : HoldForm) : State :=
  s.setLane l { (s.lane l) with state := .holding form, holdRequest := false, stallTimer := none }

/-- The scheduled point of a boundary: a pending hold request takes effect instead of it (R106, R128). -/
def State.boundaryPoint (s : State) (l : LaneId) (e : Entry) : State :=
  if (s.lane l).holdRequest then s.holdIn l .atBoundary else s.attemptBoundary l e

/-! ## Entry proceed and start (R67 to R70, R134) -/

/-- The ENTRY_STARTED of an entry (R70, R147), ranked `n`. -/
def startedPost (l : LaneId) (e : Entry) (stamp : Stamp) (after : Option (LaneId × Nat)) (n : Nat) : Post :=
  { host := e.host, stamp := stamp, event := .entryStarted l e.segment e.tag, rank := n, after := after, order := none }

/-- The ENTRY_DONE of an entry (R75, R147), ranked `n`; `order` is the number of the drain order, where a drain ends it (R150). -/
def donePost (l : LaneId) (e : Entry) (stamp : Stamp) (o : EndOutcome) (words : Nat) (discarded : Bool)
    (order : Option Nat) (n : Nat) : Post :=
  { host := e.host, stamp := stamp, event := .entryDone l e.segment e.tag o words discarded, rank := n, after := none,
    order := order }

/-- The current entry proceeds (R70): timing in effect, pass 1 and words 0, ENTRY_STARTED if asked for, and the first
boundary, or for RTN_EDGE the first watch. A capture takes the lines as inputs (R114) with fresh capture state (R115).
`after` names the lane whose post mark released the entry, if one did (R150). -/
def State.proceed (s : State) (l : LaneId) (e : Entry) (stamp : Stamp) (after : Option (LaneId × Nat)) : State :=
  let s1 := s.setLane l { (s.lane l) with
    state := .running, timing := some e.timing, pass := 1, words := 0, passWords := 0, acked := false }
  let s2 := if e.notifyStart then s1.postRanked (startedPost l e stamp after) else s1
  match e.kind with
  | .output => s2.attemptBoundary l e
  | .capture =>
    let s3 := s2.setLane l { (s2.lane l) with
      drive := Drive.none, stb := stbInactive (s.lease l).stbPol, capture := Capture.none }
    if e.pacing = .rtnEdge then s3.startEdgeWatch l s.now else s3.sampleBoundary l e

/-- The current entry's wait is offered to the Mark Unit, if it has one (R69, R134): on a SET mark it proceeds, clearing the
mark with mode TAKE; on a CLEAR mark the lane joins the tail of the list and goes MARKWAIT at its park word. -/
def State.offerWait (s : State) (l : LaneId) (e : Entry) : State :=
  match e.waitMark with
  | none => s.proceed l e s.time.timestamp none
  | some (m, mode) =>
    if (s.mark m).isSet then
      (match mode with
        | .pass => s
        | .take => s.setMark m { (s.mark m) with isSet := false }).proceed l e s.time.timestamp none
    else
      let s1 := s.setMark m { (s.mark m) with waiters := (s.mark m).waiters ++ [(l, mode)] }
      (s1.setLane l { (s1.lane l) with state := .markwait }).showPark l

/-- A lane with no current entry: what belongs to the current entry is cleared, and STB is at its inactive level (R61,
R88, R101, R115). -/
def Lane.clearCurrent (ln : Lane) (pol : Polarity) : Lane :=
  { ln with
    state := .idle, pass := 0, words := 0, passWords := 0, timing := none, staged := none, point := none, acked := false,
    stallTimer := none, inactiveAt := none, stb := stbInactive pol, pulseEnd := none, capture := Capture.none }

/-- Step 2 of an entry end (R74): the post mark of an entry that ends COMPLETE is set, and no other (R139). What the lane has
posted comes before what the setting leads to (R150). -/
def State.setPostMark (s : State) (l : LaneId) (e : Entry) (o : EndOutcome) : State :=
  match o, e.postMark with
  | .complete, some m => (s.settleMark m (some (l, s.orderCount))).1
  | _, _ => s

/-- Steps 2 to 4 of an entry end (R74): the post mark for COMPLETE, ENTRY_DONE unless the drain leaves it out, and the
reference release; `order` is the number of the drain order, where a drain ends the entry. -/
def State.finishEntry (s : State) (l : LaneId) (e : Entry) (o : EndOutcome) (words : Nat) (discarded report : Bool)
    (order : Option Nat) : State :=
  let s1 := s.setPostMark l e o
  let s2 := if report then s1.postRanked (donePost l e s.time.timestamp o words discarded order) else s1
  s2.present l (.release e.segment s2.orderCount order)

/-- The lines at the end of an entry, before what follows takes them (R98): a capture returns them to the park word, having no
word of its own to leave there (R99, R114, log 14); an output leaves its last word. -/
def Lane.driveLeft (ln : Lane) (e : Entry) (park : Word) : Drive :=
  match e.kind with
  | .output => ln.drive
  | .capture => Drive.ofWord park

/-- End of the entry at the head of the queue, which is current (R74). -/
def State.endCurrent (s : State) (l : LaneId) (o : EndOutcome) (report : Bool) (order : Option Nat) : State :=
  match (s.lane l).queue with
  | [] => s
  | e :: rest =>
    let ln := s.lane l
    (s.setLane l { (ln.clearCurrent (s.lease l).stbPol) with
      queue := rest, drive := ln.driveLeft e (s.lease l).park }).finishEntry l e o ln.words ln.staged.isSome report order

/-- Ends entries that are not current and have left the queue, head to tail, with words 0 (R75, R77). -/
def State.endQueued (s : State) (l : LaneId) (o : EndOutcome) (report : Bool) (order : Option Nat) : List Entry → State
  | [] => s
  | e :: rest => (s.finishEntry l e o 0 false report order).endQueued l o report order rest

/-- The lane goes IDLE and drives its park word (R67, R99). -/
def State.goIdle (s : State) (l : LaneId) : State := (s.setLane l { (s.lane l) with state := .idle }).showPark l

/-- Whether the segment an entry names is CONDEMNED: the state claim of a capture entry (R30, R68). -/
def State.entryCondemned (s : State) (e : Entry) : Bool :=
  match handleSlot e.segment.handle with
  | some i => (s.store.entry i).state == .condemned
  | none => true

/-- Entry start on a queue (R67 to R69): the head becomes current with progress pass 0 and words 0; a capture on a
CONDEMNED segment ends SEGMENT_GONE at once and the next head is started; with no entry left the lane goes IDLE. The state claim
of a capture is taken after the lane's earlier claims, in the order presented (R30, log 11). -/
def startQueue (l : LaneId) : List Entry → State → State
  | [], s => s.goIdle l
  | e :: rest, s =>
    let s1 := s.setLane l { (s.lane l) with state := .running, pass := 0, words := 0 }
    let s2 := if e.kind = .capture then s1.settleClaims l else s1
    if e.kind = .capture ∧ s2.entryCondemned e then
      startQueue l rest
        ((s2.setLane l { ((s2.lane l).clearCurrent (s2.lease l).stbPol) with queue := rest }).finishEntry l e
          .segmentGone 0 false true none)
    else s2.offerWait l e

/-- Entry start (R67). -/
def State.entryStart (s : State) (l : LaneId) : State := startQueue l (s.lane l).queue s

/-- What a lane does after the end of its current entry when it neither faults nor is aborted or drained (R76). -/
def State.afterEnd (s : State) (l : LaneId) : State :=
  if (s.lane l).holdRequest then (s.holdIn l .betweenEntries).showPark l else s.entryStart l

/-- The current entry ends with COMPLETE or a capture outcome, and the lane goes on (R74, R76). -/
def State.endAndGoOn (s : State) (l : LaneId) (o : EndOutcome) : State := (s.endCurrent l o true none).afterEnd l

/-- The current entry ends in a pacing fault: the lane keeps its queue and its lines and goes FAULTED (R92, R95, R100). -/
def State.endFaulted (s : State) (l : LaneId) (code : FaultCode) : State :=
  let s1 := s.endCurrent l (faultOutcome code) true none
  s1.setLane l { (s1.lane l) with state := .faulted code, holdRequest := false }

/-! ## Pass ends (R71, R72, R97, R106) -/

/-- Whether a pass end ends the entry: the n-th pass of repeat n, or for a loop entry a successor in the queue. -/
def Lane.lastPass (ln : Lane) (e : Entry) : Bool :=
  if e.repeats = 0 then 1 < ln.queue.length else e.repeats ≤ ln.pass

/-- The pass end of an output entry: it ends COMPLETE, or the next pass begins with its first boundary here, which a
pending hold request defers. -/
def State.takePassEnd (s : State) (l : LaneId) (e : Entry) : State :=
  let ln := s.lane l
  if ln.lastPass e then s.endAndGoOn l .complete
  else (s.setLane l { ln with pass := saturate (ln.pass + 1), passWords := 0, stallTimer := none }).boundaryPoint l e

/-! ## Releases and drain (R137, R80) -/

/-- The event of a released lane: its current entry proceeds (R137). A lane that is not released is left alone. -/
def State.settleRelease (s : State) (l : LaneId) : State :=
  match (s.lane l).state, (s.lane l).queue with
  | .released stamp after, e :: _ => s.proceed l e stamp after
  | _, _ => s

/-- The drain at lease end (R80): out of any waiter list, the current entry and then the queued ones end LEASE_ENDED, and
the lane goes OFF with its lines undriven. ENTRY_DONE is left out when `report` is false (cause WITHDRAWN). The drain order
takes the next number, once a lane that a mark has released has proceeded (R81, R150, log 7). -/
def State.drain (s : State) (l : LaneId) (report : Bool) : State :=
  let s0 := s.settleRelease l
  let order := some s0.orderCount
  let s1 := s0.countOrder
  let s2 := if (s1.lane l).state = .markwait then s1.removeWaiter l else s1
  let s3 := s2.setLane l { (s2.lane l) with holdRequest := false }
  let s4 := if (s3.lane l).state.hasCurrent then s3.endCurrent l .leaseEnded report order else s3
  let queued := (s4.lane l).queue
  let s5 := (s4.setLane l { (s4.lane l) with queue := [] }).endQueued l .leaseEnded report order queued
  s5.setLane l Lane.reset

end Sys2Proof.Machine
end

