-- ==== Sys2Proof/Machine/LaneCommands.lean ====
section
/-! DEFINITION. The requests a lane sequencer decides: ENQUEUE, FLUSH, ABORT, HOLD, RESUME, RETIME (chapters 3 to 5). -/

namespace Sys2Proof.Machine

/-- The first two checks of every lane request: the lane, then the holder (R37). -/
def laneOfHolder (s : State) (k : HostId) (p : List Byte) : Except Status LaneId :=
  match decodeLane (byteAt p 0) with
  | none => .error .badParam
  | some l => if (s.lease l).holder = some k then .ok l else .error .notHolder

/-! ## ENQUEUE (R64 to R66) -/

/-- The Segment Manager's tests on a reference take (R23): the refusal, or the slot whose refs rises by 1. -/
def Store.takeCheck (st : Store) (k : HostId) (kind : EntryKind) (r : SegmentRef) (offset count : Nat) (room : Bool) :
    Except Status Slot :=
  match st.handleCheck r with
  | .error status => .error status
  | .ok i =>
    let g := st.entry i
    match kind with
    | .output =>
      if g.state ≠ .published then .error .wrongState
      else if g.owner ≠ k ∧ g.visibility = .hidden then .error .notVisible
      else if g.length < offset + count then .error .badRange
      else if room then .ok i else .error .queueFull
    | .capture =>
      if g.owner ≠ k then .error .notOwner
      else if g.state ≠ .opened then .error .wrongState
      else if room then .ok i else .error .queueFull

/-- The play entry an ENQUEUE makes (section 3.2). -/
def EntryFields.entry (f : EntryFields) (id : Nat) (timing : Timing) (k : HostId) : Entry :=
  { id := id, pacing := f.pacing, segment := f.segment, offset := f.offset, count := f.count, repeats := f.repeats,
    timing := timing, stallLimit := f.stallLimit, waitMark := f.waitMark, postMark := f.postMark, tag := f.tag,
    notifyStart := f.notifyStart, host := k }

/-- An accepted ENQUEUE (R65, R66): refs rises by 1, the entry joins the tail, and on an IDLE lane entry start runs. -/
def State.acceptEntry (s : State) (l : LaneId) (i : Slot) (e : Entry) : State :=
  let s1 := s.setStore (s.store.setRefs i ((s.store.entry i).refs + 1))
  let s2 := { s1 with nextEntryId := s1.nextEntryId + 1 }
  let s3 := s2.setLane l { (s2.lane l) with queue := (s2.lane l).queue ++ [e] }
  if (s.lane l).state = .idle then s3.entryStart l else s3

/-- ENQUEUE decided (R64). A released lane has proceeded before the reference take (R137, log 9). The Segment Manager takes the
claims of one lane in the order presented, so the lane's earlier claims are taken before it too (R121, log 11). -/
def enqueueRequest (s : State) (k : HostId) (p : List Byte) : State × Reply :=
  match laneOfHolder s k p with
  | .error status => (s, refusal status)
  | .ok l =>
    match decodeEntry p with
    | none => (s, refusal .badParam)
    | some f =>
      match encodeTiming f.period f.strobe with
      | none => (s, refusal .badTiming)
      | some timing =>
        let t := (s.settleRelease l).settleClaims l
        let room := decide ((t.lane l).queue.length < Config.queueDepth)
        match t.store.takeCheck k (pacingKind f.pacing) f.segment f.offset f.count room with
        | .error status => (t, refusal status)
        | .ok i =>
          (t.acceptEntry l i (f.entry t.nextEntryId timing k),
           okReply (byteOf ((t.lane l).queue.length + 1) :: timingBytes timing))

/-- ENQUEUE (R64). -/
def execEnqueue (k : HostId) (s : State) : Host.Outcome State Fault Refusal :=
  .next (s.decide k .enqueue (enqueueRequest s k))

/-! ## FLUSH (R78) -/

/-- The entries of the queue that stay at a FLUSH: the current one, if there is one. -/
def Lane.keptAtFlush (ln : Lane) : List Entry := if ln.state.hasCurrent then ln.queue.take 1 else []

/-- The entries a FLUSH ends. -/
def Lane.flushable (ln : Lane) : List Entry := if ln.state.hasCurrent then ln.queue.drop 1 else ln.queue

/-- An accepted FLUSH (R78): every entry that is not current ends FLUSHED, head to tail. -/
def State.flushLane (s : State) (l : LaneId) : State :=
  (s.setLane l { (s.lane l) with queue := (s.lane l).keptAtFlush }).endQueued l .flushed true none
    (s.lane l).flushable

/-- FLUSH decided (R78). A released lane has already proceeded when the FLUSH arrives (R137, log 9). -/
def flushRequest (s : State) (k : HostId) (p : List Byte) : State × Reply :=
  match laneOfHolder s k p with
  | .error status => (s, refusal status)
  | .ok l =>
    let t := s.settleRelease l
    (t.flushLane l, okReply [byteOf (t.lane l).flushable.length])

/-- FLUSH (R78). -/
def execFlush (k : HostId) (s : State) : Host.Outcome State Fault Refusal :=
  .next (s.decide k .flush (flushRequest s k))

/-! ## ABORT (R112) -/

/-- An accepted ABORT of a lane (R112): off any waiter list, the current entry ends ABORTED, the queued ones FLUSHED, and the
lane goes IDLE at its park word. -/
def State.abortLane (s : State) (l : LaneId) : State :=
  let s1 := if (s.lane l).state = .markwait then s.removeWaiter l else s
  let s2 := s1.setLane l { (s1.lane l) with holdRequest := false, stallTimer := none }
  let s3 := if (s2.lane l).state.hasCurrent then s2.endCurrent l .aborted true none else s2
  let queued := (s3.lane l).queue
  let s4 := (s3.setLane l { (s3.lane l) with queue := [] }).endQueued l .flushed true none queued
  (s4.setLane l { ((s4.lane l).clearCurrent (s4.lease l).stbPol) with queue := [] }).showPark l

/-- ABORT decided (R112). A released lane has already proceeded when the ABORT arrives (R137). -/
def abortRequest (s : State) (k : HostId) (p : List Byte) : State × Reply :=
  match laneOfHolder s k p with
  | .error status => (s, refusal status)
  | .ok l =>
    let t := s.settleRelease l
    let ln := t.lane l
    (t.abortLane l,
     okReply [if ln.state.hasCurrent then 1 else 0, byteOf ln.flushable.length])

/-- ABORT (R112). -/
def execAbort (k : HostId) (s : State) : Host.Outcome State Fault Refusal :=
  .next (s.decide k .abort (abortRequest s k))

/-! ## HOLD (R105) -/

/-- The form in which a STALLED lane holds (R107, R128): at a boundary under READY, else in the wait for an edge. -/
def stalledForm (e : Option Entry) : HoldForm :=
  match e with
  | some x => if x.pacing = .ready then .atBoundary else .inWait
  | none => .inWait

/-- HOLD by lane state (R105). -/
def holdByState (s : State) (l : LaneId) : State × Reply :=
  let ln := s.lane l
  match ln.state with
  | .running => (s.setLane l { ln with holdRequest := true }, okReply [])
  | .stalled =>
    (s.setLane l { ln with
       state := .holding (stalledForm ln.current), stallTimer := none, inactiveAt := none,
       capture := { ln.capture with timer := none } }, okReply [])
  | .markwait => ((s.removeWaiter l).setLane l { ln with state := .holding .outOfMarkwait }, okReply [])
  | .idle => (s.setLane l { ln with state := .holding .outOfIdle }, okReply [])
  | .holding _ => (s, okReply [])
  | _ => (s, refusal .wrongState)

/-- HOLD decided (R105). A released lane has already proceeded when the HOLD arrives (R137). -/
def holdRequest (s : State) (k : HostId) (p : List Byte) : State × Reply :=
  match laneOfHolder s k p with
  | .error status => (s, refusal status)
  | .ok l => holdByState (s.settleRelease l) l

/-- HOLD (R105). -/
def execHold (k : HostId) (s : State) : Host.Outcome State Fault Refusal :=
  .next (s.decide k .hold (holdRequest s k))

/-! ## RESUME (R109 to R111, R123, R129) -/

/-- RESUME of a lane HOLDING within an entry (R110, R129): a capture whose count is stored ends COMPLETE; at a boundary the
boundary is attempted now; in a wait the wait or watch begins afresh. -/
def State.resumeWithin (s : State) (l : LaneId) (form : HoldForm) (e : Entry) : State :=
  if e.kind = .capture ∧ e.count ≤ (s.lane l).words then s.endAndGoOn l .complete
  else match form with
    | .atBoundary => s.attemptBoundary l e
    | _ => if e.kind = .capture then s.startEdgeWatch l s.now else s.startAckWait l

/-- RESUME by lane state (R109). A FAULTED lane loses its fault code and its word leaves the lines: it shows the park word
before entry start runs (R111, log 14). -/
def resumeByState (s : State) (l : LaneId) : State × Reply :=
  let ln := s.lane l
  match ln.state, ln.queue with
  | .running, _ => if ln.holdRequest then (s.setLane l { ln with holdRequest := false }, okReply [])
      else (s, refusal .wrongState)
  | .holding .atBoundary, e :: _ => (s.resumeWithin l .atBoundary e, okReply [])
  | .holding .inWait, e :: _ => (s.resumeWithin l .inWait e, okReply [])
  | .holding .outOfMarkwait, e :: _ => (s.offerWait l e, okReply [])
  | .holding _, _ => (s.entryStart l, okReply [])
  | .faulted _, _ => ((s.goIdle l).entryStart l, okReply [])
  | _, _ => (s, refusal .wrongState)

/-- RESUME decided (R109). A released lane has already proceeded when the RESUME arrives (R137). -/
def resumeRequest (s : State) (k : HostId) (p : List Byte) : State × Reply :=
  match laneOfHolder s k p with
  | .error status => (s, refusal status)
  | .ok l => resumeByState (s.settleRelease l) l

/-- RESUME (R109). -/
def execResume (k : HostId) (s : State) : Host.Outcome State Fault Refusal :=
  .next (s.decide k .resume (resumeRequest s k))

/-! ## RETIME (R102) -/

/-- RETIME on a lane, from its third check on (R102). -/
def retimeLane (s : State) (l : LaneId) (p : List Byte) : State × Reply :=
  match encodeTiming (u32At p 1) (u32At p 5) with
  | none => (s, refusal .badTiming)
  | some t =>
    match (s.lane l).current with
    | none => (s, refusal .nothingPlaying)
    | some e =>
      if e.pacing = .rtnEdge then (s, refusal .wrongState)
      else if (s.lane l).staged.isSome then (s, refusal .busy)
      else (s.setLane l { (s.lane l) with staged := some t }, ⟨.staged, timingBytes t⟩)

/-- RETIME decided (R102). A released lane has already proceeded when the RETIME arrives (R137). -/
def retimeRequest (s : State) (k : HostId) (p : List Byte) : State × Reply :=
  match laneOfHolder s k p with
  | .error status => (s, refusal status)
  | .ok l => retimeLane (s.settleRelease l) l p

/-- RETIME (R102). -/
def execRetime (k : HostId) (s : State) : Host.Outcome State Fault Refusal :=
  .next (s.decide k .retime (retimeRequest s k))

end Sys2Proof.Machine
end

