-- ==== Sys2Proof/Machine/LaneEvents.lean ====
section
/-! DEFINITION. The events a lane makes by itself or that RTN makes on it: boundaries, pulse ends, pacing, pass ends, capture
(chapters 4 and 5). Each event has a test that says when it is due; where it is not, the state stays as it is (log 2). -/

namespace Sys2Proof.Machine

/-- Whether a scheduled point or a pulse end has come. -/
def reached (point : Option Nat) (now : Nat) : Bool :=
  match point with
  | some t => decide (t ≤ now)
  | none => false

/-- Whether a timer has counted the stall limit; a stall limit of 0 is no limit (R96, R120). -/
def limitReached (timer : Option Nat) (limit now : Nat) : Bool :=
  match timer with
  | some t => limit != 0 && decide (t + limit * Config.stallTicks ≤ now)
  | none => false

/-! ## Step boundary (R86, R89, R90, R94, R116) -/

/-- Whether the current entry has a boundary to come at its scheduled point: an output with words left in its pass (under ACK
only once the word is acknowledged), or a STEP or CHANGE capture with words left and no append pending. -/
def Lane.boundaryLeft (ln : Lane) (e : Entry) : Bool :=
  match e.pacing with
  | .free | .ready => decide (ln.passWords < e.count)
  | .ack => decide (ln.passWords < e.count) && ln.acked
  | .step | .change => decide (ln.words < e.count) && ln.capture.pendingAppend.isNone
  | .rtnEdge => false

/-- Whether a boundary of the lane is due now. -/
def Lane.boundaryDue (ln : Lane) (now : Nat) : Option Entry :=
  if ln.state = .running ∧ reached ln.point now = true then ln.current.filter (fun e => ln.boundaryLeft e) else none

/-- STEP_BOUNDARY on the state. -/
def State.stepBoundary (s : State) (l : LaneId) : State :=
  match (s.lane l).boundaryDue s.now with
  | some e => s.boundaryPoint l e
  | none => s

/-- STEP_BOUNDARY (R86): the scheduled point of a boundary. -/
def execStepBoundary (l : LaneId) (s : State) : Host.Outcome State Fault Refusal := .next (s.stepBoundary l)

/-! ## Pulse end (R87, R93, R106, R119, R123) -/

/-- Whether the STB pulse of the lane ends now. -/
def Lane.pulseDue (ln : Lane) (now : Nat) : Bool := reached ln.pulseEnd now

/-- The pulse of the lane ends: STB returns to its inactive level. -/
def State.endPulse (s : State) (l : LaneId) : State :=
  s.setLane l { (s.lane l) with stb := stbInactive (s.lease l).stbPol, pulseEnd := none }

/-- What follows the end of a pulse for the current entry: under ACK pacing the ACK wait (R93), or HOLDING in it (R106); under
RTN_EDGE the end point of a completed count (R123), HOLDING in an edge wait (R128), or the next watch (R119). -/
def State.afterPulse (s : State) (l : LaneId) (e : Entry) : State :=
  match e.pacing with
  | .ack => if (s.lane l).holdRequest then s.holdIn l .inWait else s.startAckWait l
  | .rtnEdge =>
    if e.count ≤ (s.lane l).words then s.endAndGoOn l .complete
    else if (s.lane l).holdRequest then s.holdIn l .inWait
    else s.startEdgeWatch l s.now
  | _ => s

/-- STROBE_END on the state. -/
def State.strobeEnd (s : State) (l : LaneId) : State :=
  if (s.lane l).pulseDue s.now then
    match (s.lane l).state, (s.lane l).current with
    | .running, some e => (s.endPulse l).afterPulse l e
    | _, _ => s.endPulse l
  else s

/-- STROBE_END (R87). -/
def execStrobeEnd (l : LaneId) (s : State) : Host.Outcome State Fault Refusal := .next (s.strobeEnd l)

/-! ## READY stalls (R91, R92) -/

/-- The current entry of a lane STALLED under a pacing or trigger. -/
def Lane.stalledUnder (ln : Lane) (pacing : Pacing) : Option Entry :=
  if ln.state = .stalled then ln.current.filter (fun e => e.pacing == pacing) else none

/-- Whether the lane may judge RTN active now: it makes one judgement a tick, and has not judged RTN inactive at this one
(R83). -/
def Lane.mayJudge (ln : Lane) (now : Nat) : Bool := ln.inactiveAt != some now

/-- Whether an active RTN is an edge now: the watch has judged RTN inactive, at an earlier tick (R83). -/
def Lane.edgeArmed (ln : Lane) (now : Nat) : Bool := ln.inactiveAt.isSome && ln.mayJudge now

/-- RTN_READY_ACTIVE on the state: RTN is active, and a boundary stalled under READY happens (R91) unless the lane has made this
tick's judgement already (R83). -/
def State.rtnReadyActive (s : State) (l : LaneId) : State :=
  match (s.lane l).stalledUnder .ready with
  | some e => if (s.lane l).mayJudge s.now then (s.raiseRtn l).driveWord l e else s.raiseRtn l
  | none => s.raiseRtn l

/-- RTN_READY_ACTIVE (R91). -/
def execRtnReadyActive (l : LaneId) (s : State) : Host.Outcome State Fault Refusal := .next (s.rtnReadyActive l)

/-- Whether the stall timer of a lane STALLED under a pacing has reached its limit (R92, R95, R96). -/
def Lane.stallLimitReached (ln : Lane) (pacing : Pacing) (now : Nat) : Bool :=
  match ln.stalledUnder pacing with
  | some e => limitReached ln.stallTimer e.stallLimit now
  | none => false

/-- READY_TIMEOUT (R92): the entry ends READY_TIMEOUT and the lane is FAULTED. -/
def execReadyTimeout (l : LaneId) (s : State) : Host.Outcome State Fault Refusal :=
  .next (if (s.lane l).stallLimitReached .ready s.now then s.endFaulted l .readyTimeout else s)

/-! ## ACK waits (R94, R95) -/

/-- The acknowledging edge (R94): the stall timer stops; for the last word of a pass the edge is the pass end (R97); else the
next boundary falls at the later of the edge and the scheduled point. -/
def State.acknowledge (s : State) (l : LaneId) (e : Entry) : State :=
  let ln := s.lane l
  if e.count ≤ ln.passWords then s.takePassEnd l e
  else
    let s1 := s.setLane l { ln with state := .running, acked := true, stallTimer := none, inactiveAt := none }
    if reached ln.point s.now then s1.boundaryPoint l e else s1

/-- ACK_EDGE on the state: RTN goes active. It counts where the lane is STALLED under ACK pacing and has judged RTN inactive in
this wait, at an earlier tick (R83, R93). -/
def State.ackEdge (s : State) (l : LaneId) : State :=
  match (s.lane l).stalledUnder .ack with
  | some e => if (s.lane l).edgeArmed s.now then (s.raiseRtn l).acknowledge l e else s.raiseRtn l
  | none => s.raiseRtn l

/-- ACK_EDGE (R94). -/
def execAckEdge (l : LaneId) (s : State) : Host.Outcome State Fault Refusal := .next (s.ackEdge l)

/-- ACK_TIMEOUT (R95): the entry ends ACK_TIMEOUT and the lane is FAULTED. -/
def execAckTimeout (l : LaneId) (s : State) : Host.Outcome State Fault Refusal :=
  .next (if (s.lane l).stallLimitReached .ack s.now then s.endFaulted l .ackTimeout else s)

/-! ## Pass end (R71, R72, R97) -/

/-- The output entry whose end point of a pass is now, under FREE or READY pacing (R97). Under ACK pacing the pass end is in
the acknowledging edge. -/
def Lane.passEndDue (ln : Lane) (now : Nat) : Option Entry :=
  if ln.state = .running ∧ reached ln.point now = true then
    ln.current.filter (fun e => (e.pacing == .free || e.pacing == .ready) && decide (e.count ≤ ln.passWords))
  else none

/-- PASS_END on the state. -/
def State.passEnd (s : State) (l : LaneId) : State :=
  match (s.lane l).passEndDue s.now with
  | some e => s.takePassEnd l e
  | none => s

/-- PASS_END (R71). -/
def execPassEnd (l : LaneId) (s : State) : Host.Outcome State Fault Refusal := .next (s.passEnd l)

/-! ## RTN_EDGE capture (R119, R120) -/

/-- The elapsed count of an RTN_EDGE sample: 0 for the first, else the time since the previous one in units of 10
microseconds, rounded down, at most 255 (R120). -/
def edgeElapsed (prev : Option Nat) (now : Nat) : Nat :=
  match prev with
  | none => 0
  | some t => min 255 ((now - t) / Config.stallTicks)

/-- An edge of RTN_EDGE capture is sampled (R119): the sample is presented as an append, and STB pulses as an acknowledge; with
no pulse the lane watches again from the judgement after the sample (R120). -/
def State.sampleEdge (s : State) (l : LaneId) (e : Entry) : State :=
  let ln := s.lane l
  let t := ln.timing.getD e.timing
  let w := captureWord (s.pinsOf l).data (edgeElapsed ln.capture.prevSample s.now)
  let c := { ln.capture with prevSample := some s.now, pendingAppend := some w,
                             timer := if t.strobe = 0 then some (s.now + 1) else none }
  let pol := (s.lease l).stbPol
  (s.setLane l { ln with
      capture := c, inactiveAt := none,
      state := if t.strobe = 0 then .stalled else .running,
      stb := if t.strobe = 0 then stbInactive pol else stbActive pol,
      pulseEnd := if t.strobe = 0 then none else some (s.now + strobeTicks t) }).present l
    (.append e.segment e.id w)

/-- Whether a watch of RTN_EDGE may sample now: RTN has been judged inactive at an earlier tick (R83), words are left, and no
append is pending (R121). Two samples are so at least 2 ticks apart (R119). -/
def Lane.edgeReady (ln : Lane) (e : Entry) (now : Nat) : Bool :=
  ln.edgeArmed now && decide (ln.words < e.count) && ln.capture.pendingAppend.isNone

/-- RTN_EDGE_SAMPLE on the state: RTN goes active, and the edge is sampled where the lane watches for it. -/
def State.rtnEdgeSample (s : State) (l : LaneId) : State :=
  match (s.lane l).stalledUnder .rtnEdge with
  | some e => if (s.lane l).edgeReady e s.now then (s.raiseRtn l).sampleEdge l e else s.raiseRtn l
  | none => s.raiseRtn l

/-- RTN_EDGE_SAMPLE (R119). -/
def execRtnEdgeSample (l : LaneId) (s : State) : Host.Outcome State Fault Refusal := .next (s.rtnEdgeSample l)

/-- Whether the capture timer of a watch has reached the stall limit (R120). -/
def Lane.captureLimitReached (ln : Lane) (now : Nat) : Bool :=
  match ln.stalledUnder .rtnEdge with
  | some e => limitReached ln.capture.timer e.stallLimit now
  | none => false

/-- CAPTURE_TIMEOUT (R120): the entry ends CAPTURE_TIMEOUT, and the lane goes on. -/
def execCaptureTimeout (l : LaneId) (s : State) : Host.Outcome State Fault Refusal :=
  .next (if (s.lane l).captureLimitReached s.now then s.endAndGoOn l .captureTimeout else s)

/-! ## End point of STEP and CHANGE (R123) -/

/-- Whether the end point of a completed STEP or CHANGE capture is now (R123). -/
def Lane.captureEndDue (ln : Lane) (now : Nat) : Bool :=
  ln.state == .running && reached ln.point now &&
    (match ln.current with
      | some e => (e.pacing == .step || e.pacing == .change) && decide (e.count ≤ ln.words)
      | none => false)

/-- CAPTURE_END_POINT (R123): the entry ends COMPLETE, and the lane goes on. -/
def execCaptureEndPoint (l : LaneId) (s : State) : Host.Outcome State Fault Refusal :=
  .next (if (s.lane l).captureEndDue s.now then s.endAndGoOn l .complete else s)

/-! ## Append answer (R122 to R124) -/

/-- A lane that was HOLDING within the entry that ended goes HOLDING between entries at its park word; else R76 decides
(R122). -/
def State.endCapture (s : State) (l : LaneId) (o : EndOutcome) : State :=
  match (s.lane l).state with
  | .holding _ => ((s.endCurrent l o true none).holdIn l .betweenEntries).showPark l
  | _ => s.endAndGoOn l o

/-- A STORED answer (R122): the word is counted and becomes the last kept sample. Under RTN_EDGE with no pulse in progress
the answer that completes the count is the end point (R123), unless the lane is HOLDING. -/
def State.answerStored (s : State) (l : LaneId) (e : Entry) (w : Word) : State :=
  let ln := s.lane l
  let words := saturate (ln.words + 1)
  let s1 := s.setLane l { ln with
    words := words,
    capture := { ln.capture with lastKept := some (w.extractLsb' 0 8), boundaryCount := 0, pendingAppend := none } }
  if e.pacing = .rtnEdge ∧ e.count ≤ words ∧ ln.pulseEnd = none ∧ ln.state = .stalled then s1.endAndGoOn l .complete
  else s1

/-- The append answer that lane l acts on: its current entry is the capture that presented it, and the append is pending. -/
def Lane.awaits (ln : Lane) (a : AppendAnswer) : Option (Entry × Word) :=
  match ln.current, ln.capture.pendingAppend with
  | some e, some w => if e.id = a.entry ∧ e.kind = .capture then some (e, w) else none
  | _, _ => none

/-- APPEND_ANSWER on the state: the oldest answer reaches the lane; an answer for an entry that has ended is discarded
(R124). -/
def State.appendAnswer (s : State) (l : LaneId) : State :=
  match s.answersOf l with
  | [] => s
  | a :: rest =>
    let s1 := s.setAnswers l rest
    match (s.lane l).awaits a with
    | none => s1
    | some (e, w) =>
      match a.result with
      | .stored => s1.answerStored l e w
      | .full => s1.endCapture l .segmentFull
      | .gone => s1.endCapture l .segmentGone

/-- APPEND_ANSWER (R122). -/
def execAppendAnswer (l : LaneId) (s : State) : Host.Outcome State Fault Refusal := .next (s.appendAnswer l)

/-! ## Released lanes (R137) -/

/-- MARK_RELEASE_PROCEED (R137): the current entry of a released lane proceeds. -/
def execMarkReleaseProceed (l : LaneId) (s : State) : Host.Outcome State Fault Refusal := .next (s.settleRelease l)

end Sys2Proof.Machine
end

