-- ==== Sys2Proof/Machine/LeaseOps.lean ====
section
/-! DEFINITION. What the Lease Controller does inside its events: grant, lease end, and its part of a withdrawal
(R42, R49, R50, R57). -/

namespace Sys2Proof.Machine

/-- Every lane, in ascending order. -/
def laneIds : List LaneId := [0, 1, 2, 3]

/-- A lane as a grant leaves it: IDLE with an empty queue, at the default park word with STB inactive (R42). -/
def Lane.granted : Lane := { Lane.reset with state := .idle, drive := Drive.ofWord 0, stb := .low }

/-- A grant (R42): a fresh lease with the default configuration, and the lane leaves OFF for IDLE. The waiter list is left
as it stands. -/
def State.grant (s : State) (l : LaneId) (k : HostId) (duration : Nat) : State :=
  (s.setLease l { Lease.reset with
    holder := some k, duration := duration, remaining := duration, waiters := (s.lease l).waiters }).setLane l
    Lane.granted

/-- A grant told to the new holder by LEASE_GRANTED (R50, R56). -/
def State.grantPosted (s : State) (l : LaneId) (k : HostId) (duration : Nat) : State :=
  (s.grant l k duration).postLease k (.leaseGranted l duration)

/-- Steps 1 to 3 of a lease end (R49): no holder, the lane drained, the configuration at its defaults. The waiter list
stays. -/
def State.closeLease (s : State) (l : LaneId) (cause : LeaseEndCause) : State :=
  let s1 := s.drain l (cause != .withdrawn)
  s1.setLease l { Lease.reset with waiters := (s1.lease l).waiters }

/-- Step 4 of a lease end (R49, R50): the head of the waiter list is granted the lane; with no waiter it stays OFF. -/
def State.grantHead (s : State) (l : LaneId) : State :=
  match (s.lease l).waiters with
  | [] => s
  | w :: rest => (s.setLease l { (s.lease l) with waiters := rest }).grantPosted l w.host w.duration

/-- A lease end (R49). -/
def State.endLease (s : State) (l : LaneId) (cause : LeaseEndCause) : State := (s.closeLease l cause).grantHead l

/-- The waiter list without a host (R47, R56, R57). -/
def withoutHost (ws : List WaitingClaim) (k : HostId) : List WaitingClaim := ws.filter (fun w => w.host != k)

/-- Whether a host is on the waiter list of a lane. -/
def State.waitsFor (s : State) (k : HostId) (l : LaneId) : Bool := (s.lease l).waiters.any (fun w => w.host == k)

/-- Step 1 of the Lease Controller's part of a withdrawal (R57): the waiting claims of k go. -/
def State.dropClaims (s : State) (k : HostId) : State :=
  laneIds.foldl (fun t l => t.setLease l { (t.lease l) with waiters := withoutHost (t.lease l).waiters k }) s

/-- Step 2 (R57): the leases k holds end with cause WITHDRAWN, in ascending lane order. -/
def State.endLeasesOf (s : State) (k : HostId) : State :=
  laneIds.foldl (fun t l => if (t.lease l).holder = some k then t.endLease l .withdrawn else t) s

/-- The number of leases a host holds. -/
def State.leasesHeld (s : State) (k : HostId) : Nat := (laneIds.filter (fun l => (s.lease l).holder == some k)).length

/-- The number of lanes a host waits for. -/
def State.claimsWaiting (s : State) (k : HostId) : Nat := (laneIds.filter (fun l => s.waitsFor k l)).length

end Sys2Proof.Machine
end

