-- ==== Sys2Proof/Machine/LeaseCommands.lean ====
section
/-! DEFINITION. The requests and timer events of the Lease Controller (chapter 2). -/

namespace Sys2Proof.Machine

/-- A lease duration a host may ask for, in ms (R39, R44). -/
def validDuration (d : Nat) : Bool := 10 ≤ d && d ≤ 60000

/-! ## CLAIM (R39 to R41) -/

/-- CLAIM decided (R39). -/
def claimRequest (s : State) (k : HostId) (p : List Byte) : State × Reply :=
  let duration := u16At p 1
  match decodeLane (byteAt p 0), decodeFlag (byteAt p 3) with
  | some l, some wait =>
    if validDuration duration = false then (s, refusal .badParam)
    else match (s.lease l).holder with
      | none => (s.grant l k duration, okReply ([byteOf l.val] ++ le16 duration ++ le16 duration))
      | some holder =>
        if holder = k then (s, refusal .alreadyHeld)
        else if s.waitsFor k l then (s, refusal .alreadyWaiting)
        else if wait then
          (s.setLease l { (s.lease l) with waiters := (s.lease l).waiters ++ [⟨k, duration⟩] },
           ⟨.queued, [byteOf l.val, byteOf ((s.lease l).waiters.length + 1)]⟩)
        else (s, refusal .laneHeld)
  | _, _ => (s, refusal .badParam)

/-- CLAIM (R39). -/
def execClaim (k : HostId) (s : State) : Host.Outcome State Fault Refusal :=
  .next (s.decide k .claim (claimRequest s k))

/-! ## RENEW (R44) -/

/-- RENEW decided (R44). Taken before an expiry that waits, it sets the lease remaining again and the expiry does not happen
(R45, log 10). -/
def renewRequest (s : State) (k : HostId) (p : List Byte) : State × Reply :=
  let asked := u16At p 1
  match decodeLane (byteAt p 0) with
  | none => (s, refusal .badParam)
  | some l =>
    if asked ≠ 0 ∧ validDuration asked = false then (s, refusal .badParam)
    else if (s.lease l).holder ≠ some k then (s, refusal .notHolder)
    else
      let duration := if asked = 0 then (s.lease l).duration else asked
      (s.setLease l { (s.lease l) with duration := duration, remaining := duration, expiring := false },
       okReply (le16 duration ++ le16 duration))

/-- RENEW (R44). -/
def execRenew (k : HostId) (s : State) : Host.Outcome State Fault Refusal :=
  .next (s.decide k .renew (renewRequest s k))

/-! ## RELEASE (R46, R47) -/

/-- RELEASE decided (R46, R47). -/
def releaseRequest (s : State) (k : HostId) (p : List Byte) : State × Reply :=
  match decodeLane (byteAt p 0) with
  | none => (s, refusal .badParam)
  | some l =>
    if (s.lease l).holder = some k then (s.endLease l .released, okReply [])
    else if s.waitsFor k l then
      (s.setLease l { (s.lease l) with waiters := withoutHost (s.lease l).waiters k }, ⟨.waitCancelled, []⟩)
    else (s, refusal .notHolder)

/-- RELEASE (R46). -/
def execRelease (k : HostId) (s : State) : Host.Outcome State Fault Refusal :=
  .next (s.decide k .release (releaseRequest s k))

/-! ## The lease timer (R43, R45) -/

/-- One lease tick of a lane record: 1 ms less where the lane has a holder (R43). The tick that would bring the remaining time
to 0 ends the lease (R36, R45): it waits to be taken as LEASE_EXPIRY (log 10). -/
def Lease.tick (r : Lease) : Lease :=
  if r.holder.isSome = false then r
  else if r.remaining ≤ 1 then { r with expiring := true }
  else { r with remaining := r.remaining - 1 }

/-- Whether a millisecond has passed since the last lease tick (R43, R82). -/
def State.leaseTickDue (s : State) : Bool := Config.milliTicks ≤ s.time.subMilli

/-- The lease tick (R43), once in every 10000 ticks; before that there is none (log 2). -/
def State.leaseTick (s : State) : State :=
  if s.leaseTickDue then
    { s with leases := s.leases.map Lease.tick,
             time := { s.time with subMilli := s.time.subMilli - Config.milliTicks } }
  else s

/-- LEASE_TICK (R43). -/
def execLeaseTick (s : State) : Host.Outcome State Fault Refusal := .next s.leaseTick

/-- Whether the lease tick that ends the lane's lease has come (R45, log 10). -/
def State.expiryDue (s : State) (l : LaneId) : Bool := (s.lease l).holder.isSome && (s.lease l).expiring

/-- The expiry of a lease (R45): LEASE_LOST (EXPIRED) to the holder, then the lease ends with cause EXPIRED. -/
def State.expire (s : State) (l : LaneId) : State :=
  match (s.lease l).holder with
  | some k => if s.expiryDue l then (s.postLease k (.leaseLost l .expired)).endLease l .expired else s
  | none => s

/-- LEASE_EXPIRY (R45). -/
def execLeaseExpiry (l : LaneId) (s : State) : Host.Outcome State Fault Refusal := .next (s.expire l)

/-! ## CONFIGURE (R51, R52) -/

/-- Whether CONFIGURE is accepted in a lane state (R51). -/
def LaneState.configurable : LaneState → Bool
  | .idle | .holding _ | .faulted _ => true
  | _ => false

/-- Whether the lane drives its park word in this state (R52, R99). -/
def LaneState.showsPark : LaneState → Bool
  | .idle | .markwait => true
  | .holding .outOfMarkwait | .holding .betweenEntries | .holding .outOfIdle => true
  | _ => false

/-- A configuration stored, and on the lines at once where the lane shows it (R52): STB moves to the inactive level of the new
polarity, and a lane that drives its park word drives the new one. -/
def State.configureLane (s : State) (l : LaneId) (park : Word) (stbPol rtnPol : Polarity) : State :=
  let s1 := s.setLease l { (s.lease l) with park := park, stbPol := stbPol, rtnPol := rtnPol }
  let ln := s1.lane l
  s1.setLane l { ln with
    stb := stbInactive stbPol,
    drive := if ln.state.showsPark then Drive.ofWord park else ln.drive }

/-- CONFIGURE decided (R51). -/
def configureRequest (s : State) (k : HostId) (p : List Byte) : State × Reply :=
  match decodeLane (byteAt p 0), decodePolarity (byteAt p 3), decodePolarity (byteAt p 4) with
  | some l, some stbPol, some rtnPol =>
    if (s.lease l).holder ≠ some k then (s, refusal .notHolder)
    else if (s.lane l).state.configurable = false then (s, refusal .wrongState)
    else (s.configureLane l (wordAt p 1) stbPol rtnPol, okReply [])
  | _, _, _ => (s, refusal .badParam)

/-- CONFIGURE (R51). -/
def execConfigure (k : HostId) (s : State) : Host.Outcome State Fault Refusal :=
  .next (s.decide k .configure (configureRequest s k))

/-! ## LANE_STATUS (R55) -/

/-- The two waiter bytes of a lane status record, head first (table 10-7). -/
def waiterBytes (ws : List WaitingClaim) : List Byte :=
  let w := (ws.map (fun c => hostByte (some c.host))).take 2
  w ++ List.replicate (2 - w.length) 0xFF

/-- The lane status record (table 10-7). -/
def laneStatusRecord (lease : Lease) (ln : Lane) : List Byte :=
  let progress := match ln.current with
    | some e => wordBytes e.tag ++ le16 ln.pass ++ le16 ln.words
    | none => le16 0 ++ le16 0 ++ le16 0
  [laneStateByte ln.state, faultByte ln.state, hostByte lease.holder] ++ waiterBytes lease.waiters ++
    [byteOf ln.queue.length, presenceFlags ln.current.isSome ln.staged.isSome] ++ progress ++ le16 lease.remaining

/-- LANE_STATUS decided (R55): a snapshot that changes no state. A released lane is seen as it stands once it has proceeded
(R137, log 9). -/
def laneStatusRequest (s : State) (p : List Byte) : State × Reply :=
  match decodeLane (byteAt p 0) with
  | none => (s, refusal .badParam)
  | some l => (s, okReply (laneStatusRecord (s.lease l) ((s.settleRelease l).lane l)))

/-- LANE_STATUS (R55). -/
def execLaneStatus (k : HostId) (s : State) : Host.Outcome State Fault Refusal :=
  .next (s.decide k .laneStatus (laneStatusRequest s))

end Sys2Proof.Machine
end

