-- ==== Sys2Proof/Machine/LinkCommands.lean ====
section
/-! DEFINITION. The reset pins and the transactions on the ports (R163 to R169, R172 to R179). -/

namespace Sys2Proof.Machine

/-! ## Device reset (R179) -/

/-- A transaction in progress abandoned by a reset: the port ignores the rest of it (R178, R179). -/
def Transaction.abandoned (tr : Transaction) : Transaction := { tr with kind := .ignored }

/-- A host link as device reset leaves it: its reset values, a transaction in progress abandoned, with the level of nLRSTk as
it stands (R168, R179). -/
def Link.deviceReset (lk : Link) : Link :=
  { Link.reset with
    nlrstHigh := lk.nlrstHigh, transaction := lk.transaction.map Transaction.abandoned, bus := lk.bus }

/-- The state while nRESET is low (R179): every block at its reset values, no claim, post or request waiting. The input
levels, the commands that wait, and the model's own clock are not the part's to reset; A0 and the supervisor are sampled
again at the release. -/
def State.deviceReset (s : State) : State :=
  { State.reset with
    nresetHigh := false, a0 := s.a0, supervisor := s.supervisor,
    time := { TimeBase.reset with clock := s.time.clock },
    store := { Store.reset with epoch := s.store.epoch + 1 },
    links := s.links.map Link.deviceReset,
    pins := s.pins, pending := s.pending }

/-- The supervisor the straps SUPV1:SUPV0 name (R181). -/
def supervisorOf (supv1 supv0 : Bool) : Option HostId :=
  match supv1, supv0 with
  | false, false => none
  | false, true => some 0
  | true, false => some 1
  | true, true => some 2

/-- DEVICE_RESET (R179): nRESET is low. -/
def execDeviceReset (s : State) : Host.Outcome State Fault Refusal := .next s.deviceReset

/-- The state as nRESET goes high: A0 and the SUPV pins are sampled (R166, R179, R181). Where nRESET is high already there is
no such edge (log 2). -/
def State.deviceRelease (s : State) (a0 supv1 supv0 : Bool) : State :=
  if s.nresetHigh then s
  else { s with nresetHigh := true, a0 := a0, supervisor := supervisorOf supv1 supv0 }

/-- DEVICE_RESET_RELEASE (R179). -/
def execDeviceResetRelease (a0 supv1 supv0 : Bool) (s : State) : Host.Outcome State Fault Refusal :=
  .next (s.deviceRelease a0 supv1 supv0)

/-! ## Link reset (R178) -/

/-- A link as a link reset leaves it: a transaction in progress abandoned, IDLE and empty. A request already handed to its owner
stays with it, and its response will be discarded; one that the port held back is dropped (log 13). -/
def Link.linkReset (lk : Link) (handed : Bool) : Link :=
  { Link.reset with
    nlrstHigh := false, transaction := lk.transaction.map Transaction.abandoned, bus := lk.bus,
    orphan := if handed then lk.orphan.orElse (fun _ => lk.deciding) else lk.orphan }

/-- A withdrawal whose response was to be held on link k has it discarded (R178). -/
def Withdrawal.withoutAnswerOf (w : Withdrawal) (k : HostId) : Withdrawal :=
  { w with answer := w.answer.filter (fun a => a.1 != k) }

/-- A link reset of link k (R178): the link resets, and host k is withdrawn with cause LINK_RESET. -/
def State.linkReset (s : State) (k : HostId) : State :=
  let s1 := s.setLink k ((s.link k).linkReset (s.handsOn k))
  { s1 with withdrawals := s.withdrawals.map (fun w => w.withoutAnswerOf k) ++
      [{ host := k, cause := .linkReset, leaseTaken := false, segmentTaken := false, leasesEnded := 0,
         claimsRemoved := 0, firstOrder := 0, endOrder := 0, answer := none }] }

/-- nLRSTk goes low (R178, R179): a link reset if nRESET is high; while nRESET is low only the level changes. Where the line
is low already there is no such edge (log 2). -/
def State.nlrstFall (s : State) (k : HostId) : State :=
  if (s.link k).nlrstHigh = false then s
  else if s.nresetHigh then s.linkReset k
  else s.setLink k { (s.link k) with nlrstHigh := false }

/-- LINK_RESET (R178). -/
def execLinkReset (k : HostId) (s : State) : Host.Outcome State Fault Refusal := .next (s.nlrstFall k)

/-- LINK_RESET_RELEASE (R178): port k takes transactions again. -/
def execLinkResetRelease (k : HostId) (s : State) : Host.Outcome State Fault Refusal :=
  .next (s.setLink k { (s.link k) with nlrstHigh := true })

/-! ## Transactions (R163 to R167, R169) -/

/-- The 7-bit address the I2C port answers (R166). -/
def i2cAddress (a0 : Bool) : BitVec 7 := if a0 then 0x4D else 0x4C

/-- Whether the port takes a transaction that begins now: nRESET and its nLRST line are high (R178, R179), and on I2C the address is its own
(R166). -/
def State.listens (s : State) (p : Port) : Bool :=
  s.nresetHigh && (s.link (portHost p)).nlrstHigh &&
    (match p with
      | .spi _ => true
      | .i2c address => address == i2cAddress s.a0)

/-- The kind of an SPI transaction, selected by its first byte (R163). -/
def spiKind (first : Byte) : BusKind :=
  if first = spiWriteByte then .write else if first = spiReadByte then .read else .ignored

/-- The kind that a request write asks for: on SPI by its first byte (R163), on I2C by the write bit (R166). -/
def writeKind : Port → BusKind
  | .spi _ => spiKind spiWriteByte
  | .i2c _ => .write

/-- The kind that a response read asks for: on SPI by its first byte (R163), on I2C by the read bit (R167). -/
def readKind : Port → BusKind
  | .spi _ => spiKind spiReadByte
  | .i2c _ => .read

/-- What a transaction that the host begins on a port becomes: the port ignores it where it does not listen, and the I2C port
does not acknowledge its address with the write bit in EXECUTING, judged as the address byte is received (R166, R178, R179). -/
def State.beginKind (s : State) (p : Port) (kind : BusKind) : BusKind :=
  if s.listens p = false then .ignored
  else match p, kind with
    | .i2c _, .write => if (s.link (portHost p)).port = .executing then .ignored else .write
    | _, _ => kind

/-- A transaction of which nothing but the SPI kind byte or the I2C address has been sent. -/
def Transaction.begun (kind : BusKind) : Transaction := { kind := kind, frame := [], stream := none, sent := 0 }

/-- The transaction in progress on a port, or one of this kind that begins now. -/
def State.transactionFor (s : State) (p : Port) (kind : BusKind) : Transaction :=
  (s.link (portHost p)).transaction.getD (Transaction.begun (s.beginKind p kind))

/-- What the port has put on its bus in the transaction so far. As one begins, an SPI port drives 0xFF while the kind byte is
sent (R163), and the I2C port acknowledges its address unless it ignores the transaction (R166, R167). -/
def State.busFor (s : State) (p : Port) (kind : BusKind) : BusReply :=
  match (s.link (portHost p)).transaction, p with
  | some _, _ => (s.link (portHost p)).bus
  | none, .spi _ => { bytes := [0xFF], acks := [] }
  | none, .i2c _ => { bytes := [], acks := [s.beginKind p kind != .ignored] }

/-- Bytes of 0xFF, as an SPI port drives them while it returns nothing (R163); an I2C port returns none to a write. -/
def idleBytes (p : Port) (n : Nat) : List Byte :=
  match p with
  | .spi _ => List.replicate n 0xFF
  | .i2c _ => []

/-- The acknowledge bits of an I2C port for data bytes that the host sends: given in a write that it takes, and not in one that
it ignores (R166). -/
def dataAcks (p : Port) (taken : Bool) (n : Nat) : List Bool :=
  match p with
  | .spi _ => []
  | .i2c _ => List.replicate n taken

/-- The port returns bytes and acknowledge bits in a transaction, which ends or stays in progress. -/
def State.busStep (s : State) (p : Port) (tr : Transaction) (old : BusReply) (bytes : List Byte) (acks : List Bool)
    (ends : Bool) : State :=
  s.setLink (portHost p) { (s.link (portHost p)) with
    transaction := if ends then none else some tr,
    bus := { bytes := old.bytes ++ bytes, acks := old.acks ++ acks } }

/-- How many of the bytes clocked by a command follow the first byte of an SPI transaction, its kind byte (R163). -/
def State.laterBytes (s : State) (p : Port) (count : Nat) : Nat :=
  match (s.link (portHost p)).transaction, p with
  | none, .spi _ => count - 1
  | _, _ => count

/-- Whether an SPI port drives MISO: while nCS is low, which is while a transaction is in progress (R163). -/
def Link.drivesMiso (lk : Link) : Bool := lk.transaction.isSome

/-- Whether a frame matches the replay record (R177): tag not 0, and tag, code and CRC byte equal. -/
def replayMatch (record : Option ReplayRecord) (req : Request) : Option ReplayRecord :=
  record.filter (fun r => req.tag != 0 && r.tag == req.tag && r.code == req.code && r.crc == req.crc)

/-- Whether the link itself refuses a request: a lane request that names a lane outside 0 to 3 (R173). -/
def linkRefuses (req : Request) : Bool :=
  match requestOfCode req.code with
  | some r => laneRequest r && (decodeLane (byteAt req.params 0)).isNone
  | none => false

/-- A port in EXECUTING processes its frame (R169): frame checks, replay check, then the request goes to its owner, or the
link refuses a lane request BAD_PARAM on the lane sequencer's behalf (R173). A refusal by the frame checks leaves the
replay record as it is (R172). -/
def State.processFrame (s : State) (k : HostId) (frame : List Byte) : State :=
  let req := frameRequest frame
  match frameCheck frame with
  | some status => s.holdResponse k (byteAt frame 0) (byteAt frame 1) (refusal status) false
  | none =>
    match replayMatch (s.link k).replay req with
    | some r => s.holdResponse k req.tag req.code r.reply true
    | none =>
      if linkRefuses req && s.handsOn k then s.respond k req (refusal .badParam)
      else s.setLink k { (s.link k) with deciding := some req }

/-- A frame that ends on a port in IDLE or READY: any held response is discarded and the port goes EXECUTING (R169, R175). -/
def State.acceptFrame (s : State) (k : HostId) (frame : List Byte) : State :=
  (s.setLink k { (s.link k) with port := .executing, held := none, deciding := none }).processFrame k frame

/-- The end of a request frame (R169). In EXECUTING an SPI frame is discarded and sets the overrun flag (R174); the I2C port, which
takes no write in EXECUTING (R166), has no frame to end there. A frame with no byte is a null write (R164). -/
def State.takeFrame (s : State) (p : Port) (frame : List Byte) : State :=
  let k := portHost p
  if frame.isEmpty then s
  else match (s.link k).port, p with
    | .executing, .i2c _ => s
    | .executing, .spi _ => s.setLink k { (s.link k) with overrun := true }
    | _, _ => s.acceptFrame k frame

/-- Frame bytes of a request write, which begins with them where the port has no transaction in progress (R163, R164, R166). The
port takes the end of the frame where the write ends. It ignores the bytes of a transaction that it ignores; those of a
transaction of another kind are no bytes of a write (log 2, log 17). -/
def State.writeBytes (s : State) (p : Port) (bytes : List Byte) (ends : Bool) : State :=
  let tr := s.transactionFor p (writeKind p)
  let old := s.busFor p (writeKind p)
  let step := fun (taken : Bool) (next : Transaction) =>
    s.busStep p next old (idleBytes p bytes.length) (dataAcks p taken bytes.length) ends
  match tr.kind with
  | .read => s
  | .ignored => step false tr
  | .write =>
    let frame := tr.frame ++ bytes
    let s1 := step true { tr with frame := frame }
    if ends then s1.takeFrame p frame else s1

/-- REQUEST_FRAME_END (R169). -/
def execRequestFrameEnd (p : Transfer Port) (frame : List Byte) (s : State) : Host.Outcome State Fault Refusal :=
  .next (s.writeBytes p.port frame p.ends)

/-- A null write (R164, R166): a write that brings no frame byte, so that no state of the port changes but its transaction. A write
that has brought a frame byte already is none (log 2). -/
def State.nullWrite (s : State) (p : Port) (ends : Bool) : State :=
  if (s.transactionFor p (writeKind p)).frame.isEmpty then s.writeBytes p [] ends else s

/-- NULL_WRITE (R164). -/
def execNullWrite (p : Transfer Port) (s : State) : Host.Outcome State Fault Refusal := .next (s.nullWrite p.port p.ends)

/-- An SPI transaction whose first byte selects neither kind (R163): 0xFF for every byte clocked, and nothing changes. A first
byte that does select a kind begins no such transaction, and one of another kind in progress is none (log 2). -/
def State.ignoredTransaction (s : State) (p : SpiPort) (first : Byte) (count : Nat) (ends : Bool) : State :=
  let kind := spiKind first
  let tr := s.transactionFor (.spi p) kind
  if kind ≠ .ignored ∨ tr.kind ≠ .ignored then s
  else s.busStep (.spi p) tr (s.busFor (.spi p) kind) (List.replicate (s.laterBytes (.spi p) count) 0xFF) [] ends

/-- IGNORED_TRANSACTION (R163). -/
def execIgnoredTransaction (p : Transfer SpiPort) (first : Byte) (count : Nat) (s : State) :
    Host.Outcome State Fault Refusal :=
  .next (s.ignoredTransaction p.port first count p.ends)

/-- The bytes of a read from the status byte on, without end: status, then the held frame when READY (R165, R167). -/
def readStream (lk : Link) : List Byte :=
  portStatusByte lk.port :: (match lk.port with
    | .ready => lk.held.getD []
    | _ => [])

/-- A stream of bytes cut or filled with 0xFF to a number of bytes (R165, R167). -/
def clockOut (stream : List Byte) (n : Nat) : List Byte := stream.take n ++ List.replicate (n - stream.length) 0xFF

/-- A response read (R165, R167): the status byte, then the frame when READY, and 0xFF after it. What the read returns is fixed as
its status byte begins, and stays so to its end. Nothing is removed. A transaction that the port ignores returns 0xFF on SPI and
nothing on I2C; one that is a write is no read (log 2). -/
def State.responseRead (s : State) (p : Port) (count : Nat) (ends : Bool) : State :=
  let tr := s.transactionFor p (readKind p)
  let old := s.busFor p (readKind p)
  let n := s.laterBytes p count
  match tr.kind with
  | .write => s
  | .ignored => s.busStep p tr old (idleBytes p n) [] ends
  | .read =>
    let stream := tr.stream.getD (readStream (s.link (portHost p)))
    s.busStep p { tr with stream := if n = 0 then tr.stream else some stream, sent := tr.sent + n } old
      (clockOut (stream.drop tr.sent) n) [] ends

/-- RESPONSE_READ (R165, R167). -/
def execResponseRead (p : Transfer Port) (count : Nat) (s : State) : Host.Outcome State Fault Refusal :=
  .next (s.responseRead p.port count p.ends)

end Sys2Proof.Machine
end

