-- ==== Sys2Proof/Machine/MarkCommands.lean ====
section
/-! DEFINITION. The requests of the Mark Unit (sections 6.3 to 6.6). -/

namespace Sys2Proof.Machine

/-- Every mark, M0 first. -/
def markIds : List MarkId := [0, 1, 2, 3, 4, 5, 6, 7]

/-! ## MARK_SET (R138) -/

/-- MARK_SET decided (R138): a setting, answered with the lanes released and the state in which it left the mark. -/
def markSetRequest (s : State) (p : List Byte) : State × Reply :=
  match decodeMark (byteAt p 0) with
  | none => (s, refusal .badParam)
  | some m =>
    let t := s.settleMark m none
    (t.1, okReply [byteOf t.2, markStateByte (t.1.mark m).isSet])

/-- MARK_SET (R138). -/
def execMarkSet (k : HostId) (s : State) : Host.Outcome State Fault Refusal :=
  .next (s.decide k .markSet (markSetRequest s))

/-! ## MARK_CLEAR (R140) -/

/-- MARK_CLEAR decided (R140): the mark is CLEAR, its list untouched, and the answer is the state it had. -/
def markClearRequest (s : State) (p : List Byte) : State × Reply :=
  match decodeMark (byteAt p 0) with
  | none => (s, refusal .badParam)
  | some m =>
    (s.setMark m { (s.mark m) with isSet := false }, okReply [markStateByte (s.mark m).isSet])

/-- MARK_CLEAR (R140). -/
def execMarkClear (k : HostId) (s : State) : Host.Outcome State Fault Refusal :=
  .next (s.decide k .markClear (markClearRequest s))

/-! ## MARK_STATUS (R144) -/

/-- MARK_STATUS decided (R144): eight mark records, M0 first, and no state changed. -/
def markStatusRequest (s : State) : State × Reply :=
  (s, okReply (markIds.flatMap (fun m => markRecord (s.mark m))))

/-- MARK_STATUS (R144). -/
def execMarkStatus (k : HostId) (s : State) : Host.Outcome State Fault Refusal :=
  .next (s.decide k .markStatus (fun _ => markStatusRequest s))

end Sys2Proof.Machine
end

