-- ==== Sys2Proof/Machine/SegmentCommands.lean ====
section
/-! DEFINITION. The eight segment requests (section 1.4, R10 to R22). Each `…Request` is what the Segment Manager decides on
the parameters; each `exec…` takes the request that waits at the link. -/

namespace Sys2Proof.Machine

/-- Blocks that hold a number of words. -/
def blocksFor (words : Nat) : Nat := ceilDiv words Config.blockWords

/-- Whether an OPEN or PUBLISHED entry, of any owner, has a name (R8). -/
def Store.nameTaken (st : Store) (name : List Byte) : Bool :=
  slots.any (fun i => (st.entry i).live && (st.entry i).name == some name)

/-- The lowest-numbered FREE entry (R14). -/
def Store.lowestFree (st : Store) : Option Slot := slots.find? (fun i => (st.entry i).state == .free)

/-! ## DEFINE (R13, R14) -/

/-- An accepted DEFINE of n blocks in a FREE entry (R14). -/
def Store.defineIn (st : Store) (i : Slot) (k : HostId) (name : List Byte) (visibility : Visibility) (n : Nat) : Store :=
  (st.setEntry i { state := .opened, generation := nextGeneration (st.entry i).generation, name := some name, owner := k,
                   visibility := visibility, length := 0, chain := [], refs := 0, notifyOnFree := false }).allocate i n

/-- DEFINE decided (R13, R14). -/
def defineRequest (s : State) (k : HostId) (p : List Byte) : State × Reply :=
  let capacity := u16At p 8
  let n := blocksFor capacity
  match decodeName (p.take 8), decodeVisibility (byteAt p 10) with
  | some name, some visibility =>
    if capacity = 0 ∨ Config.maxWords < capacity then (s, refusal .badParam)
    else if s.store.nameTaken name then (s, refusal .nameInUse)
    else match s.store.lowestFree with
      | none => (s, refusal .tableFull)
      | some i =>
        if Config.quota < s.store.usage k + n then (s, refusal .quota)
        else if s.store.pool.length < n then (s, refusal .noSpace)
        else
          (s.setStore (s.store.defineIn i k name visibility n),
           okReply ([slotHandle i, nextGeneration (s.store.entry i).generation] ++ le16 (Config.blockWords * n)))
  | _, _ => (s, refusal .badParam)

/-- DEFINE (R14). -/
def execDefine (k : HostId) (s : State) : Host.Outcome State Fault Refusal :=
  .next (s.decide k .define (defineRequest s k))

/-! ## EXTEND (R15) -/

/-- EXTEND decided (R15). -/
def extendRequest (s : State) (k : HostId) (p : List Byte) : State × Reply :=
  let additional := u16At p 2
  let n := blocksFor additional
  if additional = 0 ∨ Config.maxWords < additional then (s, refusal .badParam)
  else match s.store.handleCheck (segmentAt p 0) with
    | .error status => (s, refusal status)
    | .ok i =>
      let g := s.store.entry i
      if g.owner ≠ k then (s, refusal .notOwner)
      else if g.state = .published then (s, refusal .wrongState)
      else if Config.quota < g.chain.length + n then (s, refusal .badRange)
      else if Config.quota < s.store.usage k + n then (s, refusal .quota)
      else if s.store.pool.length < n then (s, refusal .noSpace)
      else
        (s.setStore (s.store.allocate i n),
         okReply (le16 (Config.blockWords * (g.chain.length + n)) ++ le16 (g.chain.length + n)))

/-- EXTEND (R15). -/
def execExtend (k : HostId) (s : State) : Host.Outcome State Fault Refusal :=
  .next (s.decide k .extend (extendRequest s k))

/-! ## WRITE (R16) -/

/-- The words of a WRITE, from the parameter bytes after the offset (R195, R196). -/
def wordsOf : List Byte → List Word
  | lo :: hi :: rest => (hi ++ lo) :: wordsOf rest
  | _ => []

/-- WRITE decided (R16). -/
def writeRequest (s : State) (k : HostId) (p : List Byte) : State × Reply :=
  let offset := u16At p 2
  let words := wordsOf (p.drop 4)
  match s.store.handleCheck (segmentAt p 0) with
  | .error status => (s, refusal status)
  | .ok i =>
    let g := s.store.entry i
    if g.owner ≠ k then (s, refusal .notOwner)
    else if g.state = .published then (s, refusal .wrongState)
    else if g.refs ≠ 0 then (s, refusal .inUse)
    else if g.length < offset ∨ capacityOf g < offset + words.length then (s, refusal .badRange)
    else
      let length := max g.length (offset + words.length)
      (s.setStore ((s.store.putWords g offset words).setEntry i { g with length := length }), okReply (le16 length))

/-- WRITE (R16). -/
def execWrite (k : HostId) (s : State) : Host.Outcome State Fault Refusal :=
  .next (s.decide k .write (writeRequest s k))

/-! ## READ (R17) -/

/-- READ decided (R17). -/
def readRequest (s : State) (k : HostId) (p : List Byte) : State × Reply :=
  let offset := u16At p 2
  let count := (byteAt p 4).toNat
  if count = 0 ∨ 28 < count then (s, refusal .badParam)
  else match s.store.handleCheck (segmentAt p 0) with
    | .error status => (s, refusal status)
    | .ok i =>
      let g := s.store.entry i
      if g.owner ≠ k ∧ ¬(g.visibility = .shared ∧ g.state = .published) then (s, refusal .notVisible)
      else if g.length < offset + count then (s, refusal .badRange)
      else (s, okReply ((s.store.getWords g offset count).flatMap wordBytes))

/-- READ (R17). -/
def execRead (k : HostId) (s : State) : Host.Outcome State Fault Refusal := .next (s.decide k .read (readRequest s k))

/-! ## PUBLISH (R18) -/

/-- An accepted PUBLISH (R18): PUBLISHED, and the blocks past the length join the tail of the pool in chain order (R4). -/
def Store.publishEntry (st : Store) (i : Slot) : Store :=
  let g := st.entry i
  let n := blocksFor g.length
  { (st.setEntry i { g with state := .published, chain := g.chain.take n }) with pool := st.pool ++ g.chain.drop n }

/-- PUBLISH decided (R18). -/
def publishRequest (s : State) (k : HostId) (p : List Byte) : State × Reply :=
  match s.store.handleCheck (segmentAt p 0) with
  | .error status => (s, refusal status)
  | .ok i =>
    let g := s.store.entry i
    if g.owner ≠ k then (s, refusal .notOwner)
    else if g.state = .published then (s, refusal .wrongState)
    else if g.length = 0 then (s, refusal .empty)
    else if g.refs ≠ 0 then (s, refusal .inUse)
    else (s.setStore (s.store.publishEntry i), okReply (le16 g.length ++ le16 (blocksFor g.length)))

/-- PUBLISH (R18). -/
def execPublish (k : HostId) (s : State) : Host.Outcome State Fault Refusal :=
  .next (s.decide k .publish (publishRequest s k))

/-! ## DELETE (R19, R20) -/

/-- DELETE decided (R19, R20). -/
def deleteRequest (s : State) (k : HostId) (p : List Byte) : State × Reply :=
  match s.store.handleCheck (segmentAt p 0) with
  | .error status => (s, refusal status)
  | .ok i =>
    let g := s.store.entry i
    if g.owner ≠ k then (s, refusal .notOwner)
    else (s.setStore (s.store.removeEntry i true), ⟨if g.refs = 0 then .freed else .condemned, []⟩)

/-- DELETE (R19). -/
def execDelete (k : HostId) (s : State) : Host.Outcome State Fault Refusal :=
  .next (s.decide k .delete (deleteRequest s k))

/-! ## CATALOG (R21) -/

/-- Whether CATALOG shows an entry to a host (R21). -/
def catalogShows (k : HostId) (g : Segment) : Bool :=
  if g.owner = k then g.live else g.visibility == .shared && g.state == .published

/-- The slots CATALOG shows a host from a handle on, ascending (R21). -/
def Store.catalogFrom (st : Store) (k : HostId) (start : Nat) : List Slot :=
  slots.filter (fun i => start ≤ i.val + 1 && catalogShows k (st.entry i))

/-- CATALOG decided (R21). -/
def catalogRequest (s : State) (k : HostId) (p : List Byte) : State × Reply :=
  let start := (byteAt p 0).toNat
  if start = 0 ∨ 64 < start then (s, refusal .badParam)
  else
    let visible := s.store.catalogFrom k start
    let shown := visible.take 4
    let nextHandle := match visible[4]? with
      | some i => slotHandle i
      | none => 0
    (s, okReply ([nextHandle, byteOf shown.length] ++ shown.flatMap (fun i => segmentRecord i (s.store.entry i))))

/-- CATALOG (R21). -/
def execCatalog (k : HostId) (s : State) : Host.Outcome State Fault Refusal :=
  .next (s.decide k .catalog (catalogRequest s k))

/-! ## QUERY (R22) -/

/-- QUERY decided (R22). -/
def queryRequest (s : State) (k : HostId) (p : List Byte) : State × Reply :=
  match s.store.queryCheck (segmentAt p 0) with
  | .error status => (s, refusal status)
  | .ok i =>
    let g := s.store.entry i
    if g.owner ≠ k ∧ g.visibility = .hidden then (s, refusal .notVisible)
    else (s, okReply (queryRecord i g))

/-- QUERY (R22). -/
def execQuery (k : HostId) (s : State) : Host.Outcome State Fault Refusal := .next (s.decide k .query (queryRequest s k))

end Sys2Proof.Machine
end

