-- ==== Sys2Proof/Machine/Supervision.lean ====
section
/-! DEFINITION. Supervision, DEVICE_STATUS, and the parts of a withdrawal (chapter 9, R31, R32, R56, R57, R158, R180). -/

namespace Sys2Proof.Machine

/-- The permission check (R182): only the supervisor passes. -/
def State.permitted (s : State) (k : HostId) : Bool := s.supervisor == some k

/-! ## REVOKE (R56, R183) -/

/-- The duration a REVOKE grant-to host gets: that of its waiting claim, else 1000 ms (R56). -/
def grantToTerm (ws : List WaitingClaim) (k : HostId) : Nat :=
  match ws.find? (fun w => w.host == k) with
  | some w => w.duration
  | none => Config.grantToDuration

/-- Step 4 of a REVOKE (R56): the grant-to host leaves the waiter list, if it stands there, and is granted the lane. -/
def State.grantTo (s : State) (l : LaneId) (k : HostId) : State :=
  let ws := (s.lease l).waiters
  (s.setLease l { (s.lease l) with waiters := withoutHost ws k }).grantPosted l k (grantToTerm ws k)

/-- A permitted REVOKE of a lane that has a holder (R56). The drain's references have been released to the Segment Manager
when the REVOKE is taken as a whole (R183, log 11). A lane that a mark has just released proceeds in the drain; its
ENTRY_STARTED and the LEASE_LOST may be filed in either order (R150, log 7). -/
def State.revoke (s : State) (l : LaneId) (former : HostId) (target : Option HostId) : State :=
  let s1 := ((s.postLease former (.leaseLost l .revoked)).closeLease l .revoked).settleClaims l
  match target with
  | none => s1.grantHead l
  | some k => s1.grantTo l k

/-- REVOKE decided (R182, R56, R183). -/
def revokeRequest (s : State) (k : HostId) (p : List Byte) : State × Reply :=
  if s.permitted k = false then (s, refusal .notPermitted)
  else match decodeLane (byteAt p 0), decodeGrantTo (byteAt p 1) with
    | some l, some target =>
      match (s.lease l).holder with
      | none => (s, refusal .wrongState)
      | some former =>
        (s.revoke l former target,
         okReply [hostByte (some former), hostByte ((s.revoke l former target).lease l).holder])
    | _, _ => (s, refusal .badParam)

/-- REVOKE (R56). -/
def execRevoke (k : HostId) (s : State) : Host.Outcome State Fault Refusal :=
  .next (s.decide k .revoke (revokeRequest s k))

/-! ## PURGE (R31, R185) -/

/-- The OPEN and PUBLISHED entries a host owns, in ascending handle order. -/
def Store.liveOf (st : Store) (k : HostId) : List Slot :=
  slots.filter (fun i => (st.entry i).live && (st.entry i).owner == k)

/-- Every OPEN or PUBLISHED entry of a host is deleted, in ascending handle order, each as DELETE does (R31); `notify` is the
notify-on-free of those condemned. -/
def Store.purge (st : Store) (k : HostId) (notify : Bool) : Store :=
  (st.liveOf k).foldl (fun t i => t.removeEntry i notify) st

/-- PURGE decided (R182, R31). -/
def purgeRequest (s : State) (k : HostId) (p : List Byte) : State × Reply :=
  if s.permitted k = false then (s, refusal .notPermitted)
  else match decodeHost (byteAt p 0) with
    | none => (s, refusal .badParam)
    | some h =>
      let live := s.store.liveOf h
      let freed := live.filter (fun i => (s.store.entry i).refs == 0)
      (s.setStore (s.store.purge h true), okReply [byteOf freed.length, byteOf (live.length - freed.length)])

/-- PURGE (R31). -/
def execPurge (k : HostId) (s : State) : Host.Outcome State Fault Refusal :=
  .next (s.decide k .purge (purgeRequest s k))

/-! ## EVICT and DETACH (R187, R188) -/

/-- EVICT checked (R182, R187): the withdrawal it makes, or its refusal. -/
def evictRequest (s : State) (k : HostId) (p : List Byte) : Except Status (HostId × WithdrawalCause) :=
  if s.permitted k = false then .error .notPermitted
  else match decodeHost (byteAt p 0) with
    | none => .error .badParam
    | some h => .ok (h, .evicted)

/-- EVICT (R187). -/
def execEvict (k : HostId) (s : State) : Host.Outcome State Fault Refusal :=
  .next (s.decideWithdrawal k .evict (evictRequest s k))

/-- DETACH (R188): the requester is withdrawn. -/
def execDetach (k : HostId) (s : State) : Host.Outcome State Fault Refusal :=
  .next (s.decideWithdrawal k .detach (fun _ => .ok (k, .detached)))

/-! ## DEVICE_STATUS (R180, R34) -/

/-- The next block, 0xFFFF where the pool is empty (R34, table 10-7). -/
def nextBlock (st : Store) : Nat := st.pool.headD 0xFFFF

/-- The device status record (table 10-7). -/
def deviceStatusRecord (s : State) : List Byte :=
  le16 Config.partCode ++ [Config.revision, hostByte s.supervisor] ++ le16 s.store.pool.length ++
    le16 (nextBlock s.store) ++ le16 (s.store.usage 0) ++ le16 (s.store.usage 1) ++ le16 (s.store.usage 2) ++
    [byteOf (s.store.countState .free), byteOf (s.store.countState .opened), byteOf (s.store.countState .published),
     byteOf (s.store.countState .condemned)] ++ le32 s.time.timestamp.toNat

/-- DEVICE_STATUS (R180): it changes no state. -/
def execDeviceStatus (k : HostId) (s : State) : Host.Outcome State Fault Refusal :=
  .next (s.decide k .deviceStatus (fun _ => (s, okReply (deviceStatusRecord s))))

/-! ## The parts of a withdrawal (R57, R32, R158, R189) -/

/-- Replace the n-th outstanding withdrawal. -/
def State.setWithdrawal (s : State) (n : Nat) (w : Withdrawal) : State :=
  { s with withdrawals := s.withdrawals.set n w }

/-- The Lease Controller's part (R57): the waiting claims of the host go, then its leases end. The withdrawal keeps the two
counts for its response (R187, R188), and which of the Lease Controller's numbers the part used (R158). -/
def State.leasePart (s : State) (n : Nat) : State :=
  match s.withdrawals[n]? with
  | none => s
  | some w =>
    if w.leaseTaken then s
    else
      let t := (s.dropClaims w.host).endLeasesOf w.host
      t.setWithdrawal n { w with
        leaseTaken := true, leasesEnded := s.leasesHeld w.host, claimsRemoved := s.claimsWaiting w.host,
        firstOrder := s.orderCount, endOrder := t.orderCount }

/-- WITHDRAWAL_LEASE_PART (R57). -/
def execWithdrawalLeasePart (n : Nat) (s : State) : Host.Outcome State Fault Refusal := .next (s.leasePart n)

/-- A withdrawal reaches one entry of the segment table (R32). -/
def Store.withdrawEntry (st : Store) (k : HostId) (i : Slot) : Store :=
  let g := st.entry i
  if g.owner ≠ k then st
  else if g.live then st.removeEntry i false
  else if g.state = .condemned then st.setEntry i { g with notifyOnFree := false }
  else st

/-- The Segment Manager's part on the store (R32), in ascending handle order. -/
def Store.withdraw (st : Store) (k : HostId) : Store := slots.foldl (fun t i => t.withdrawEntry k i) st

/-- The Segment Manager's part (R32). -/
def State.segmentPart (s : State) (n : Nat) : State :=
  match s.withdrawals[n]? with
  | none => s
  | some w =>
    if w.segmentTaken then s
    else (s.setWithdrawal n { w with segmentTaken := true }).setStore (s.store.withdraw w.host)

/-- WITHDRAWAL_SEGMENT_PART (R32). -/
def execWithdrawalSegmentPart (n : Nat) (s : State) : Host.Outcome State Fault Refusal := .next (s.segmentPart n)

/-- What the Event Unit's part leaves of the queue of the host (R158). -/
def EventQueue.withdraw (q : EventQueue) (cause : WithdrawalCause) (stamp : Stamp) : EventQueue :=
  let q1 := { q with queue := [], lost := 0, mask := EventMask.all }
  let q2 := if cause = .evicted then q1.store stamp .withdrawn else q1
  { q2 with attn := attentionFor q2.queue }

/-- The results of the response to the request that made a withdrawal (R187, R188, R197). -/
def Withdrawal.results (w : Withdrawal) : List Byte :=
  (if w.cause = .evicted then [hostByte (some w.host)] else []) ++ [byteOf w.leasesEnded, byteOf w.claimsRemoved]

/-- The completed withdrawal's response is held on the link that asked for it, if one did (R189). -/
def State.answerWithdrawal (s : State) (w : Withdrawal) : State :=
  match w.answer with
  | some (k, req) => s.respond k req (okReply w.results)
  | none => s

/-- Whether one of the Lease Controller's numbers belongs to its part of a withdrawal (R158). -/
def Withdrawal.numbered (w : Withdrawal) (n : Nat) : Bool := decide (w.firstOrder ≤ n) && decide (n < w.endOrder)

/-- Whether the Event Unit takes a post before its part of a withdrawal: one addressed to the withdrawn host, a LEASE_GRANTED
of the Lease Controller's part, or a SEGMENT_FREED that the part's drains led to (R158, R159, R190, log 12). -/
def Withdrawal.awaitsPost (w : Withdrawal) (p : Post) : Bool :=
  p.host == w.host || (p.event.block == .leases && w.numbered p.rank) || p.order.any w.numbered

/-- Whether the Segment Manager takes a claim before the Event Unit's part of a withdrawal: a release that the drains of the
Lease Controller's part presented (R158, R189, log 12). -/
def Withdrawal.awaitsClaim (w : Withdrawal) : LaneClaim → Bool
  | .release _ _ order => order.any w.numbered
  | .append .. => false

/-- Whether the Event Unit's part of a withdrawal may be taken: both other parts have been, and so has every post that they
present or that is addressed to the host (R158, log 12). -/
def State.eventPartDue (s : State) (w : Withdrawal) : Bool :=
  w.leaseTaken && w.segmentTaken && !s.posts.any w.awaitsPost && laneIds.all (fun l => !(s.claimsOf l).any w.awaitsClaim)

/-- The Event Unit's part (R158), with which the withdrawal is complete (R189). -/
def State.eventPart (s : State) (n : Nat) : State :=
  match s.withdrawals[n]? with
  | none => s
  | some w =>
    if s.eventPartDue w then
      ({ (s.setEvents w.host ((s.eventsOf w.host).withdraw w.cause s.time.timestamp)) with
          withdrawals := s.withdrawals.eraseIdx n }).answerWithdrawal w
    else s

/-- WITHDRAWAL_EVENT_PART (R158). -/
def execWithdrawalEventPart (n : Nat) (s : State) : Host.Outcome State Fault Refusal := .next (s.eventPart n)

end Sys2Proof.Machine
end

