-- ==== Sys2Proof/Machine/TimeEvents.lean ====
section
/-! DEFINITION. Time: the timestamp tick (R82), the 100 ns tick of REFCLK, and which inside event the part takes by itself when
no command waits (log 1, log 16). -/

namespace Sys2Proof.Machine

/-! ## The timestamp (R82) -/

/-- The claim of a lane that the Segment Manager takes next, as a command. -/
def State.claimDue (s : State) (l : LaneId) : Option Instr :=
  match s.claimsOf l with
  | .append .. :: _ => some (.append l)
  | .release .. :: _ => some (.referenceRelease l)
  | [] => none

/-- The answer or release that a lane has yet to act on, as a command. -/
def State.handbackDue (s : State) (l : LaneId) : Option Instr :=
  if (s.answersOf l).isEmpty = false then some (.appendAnswer l)
  else match (s.lane l).state with
    | .released .. => some (.markReleaseProceed l)
    | _ => none

/-- Whether everything that the events of this moment lead to has been taken: no post, claim or append answer waits, and no
released lane has yet to proceed. -/
def State.settled (s : State) : Bool :=
  s.posts.isEmpty && laneIds.all (fun l => (s.claimDue l).isNone && (s.handbackDue l).isNone)

/-- Whether a microsecond has passed since the last rise of the timestamp (R82). What the moment before led to is taken first,
with the timestamp of that moment, so that the timestamps of a queue do not fall (R148, log 16). -/
def State.timestampDue (s : State) : Bool := Config.microTicks ≤ s.time.subMicro && s.settled

/-- The timestamp rises by 1, wrapping from 2^32 - 1 to 0, once in every ten ticks (R82). -/
def State.timestampTick (s : State) : State :=
  if s.timestampDue then
    { s with time := { s.time with timestamp := s.time.timestamp + 1,
                                   subMicro := s.time.subMicro - Config.microTicks } }
  else s

/-- TIMESTAMP_TICK (R82). -/
def execTimestampTick (s : State) : Host.Outcome State Fault Refusal := .next s.timestampTick

/-! ## The 100 ns tick (R82, R83) -/

/-- The levels the fixture gives a lane's inputs at a tick: free values (log 4). -/
def pinsAt (l : LaneId) (tick : Nat) : LanePins := { rtn := Config.rtnLevel l tick, data := Config.dataLevel l tick }

/-- A lane as a passing tick leaves it. One that watches RTN, being STALLED, has judged the line: an RTN judged inactive is noted
with the tick (R83). An RTN judged active ends the stall, in an event of its own. -/
def State.judgedLane (s : State) (l : LaneId) : Lane :=
  if (s.lane l).state = .stalled ∧ s.rtnActive l = false then { (s.lane l) with inactiveAt := some s.now } else s.lane l

/-- One tick of REFCLK passes (R82): every lane that watches RTN has judged it, the clock counts, the two dividers count unless
device reset holds them, and the inputs are sampled anew. -/
def State.tick (s : State) : State :=
  let run := if s.nresetHigh then 1 else 0
  let clock := s.time.clock + 1
  { s with
    lanes := Vector.ofFn s.judgedLane,
    time := { s.time with clock := clock, subMicro := s.time.subMicro + run, subMilli := s.time.subMilli + run },
    pins := Vector.ofFn (fun l => pinsAt l clock) }

/-! ## The inside event that is taken when no command waits (log 1, log 16) -/

/-- The command of a request kind at a link. -/
def requestCommand (k : HostId) : RequestKind → Instr
  | .define => .define k | .extend => .extend k | .write => .write k | .read => .read k | .publish => .publish k
  | .delete => .delete k | .catalog => .catalog k | .query => .query k
  | .claim => .claim k | .renew => .renew k | .release => .release k | .configure => .configure k
  | .laneStatus => .laneStatus k
  | .enqueue => .enqueue k | .flush => .flush k | .abort => .abort k | .hold => .hold k | .resume => .resume k
  | .retime => .retime k
  | .markSet => .markSet k | .markClear => .markClear k | .markStatus => .markStatus k
  | .fetch => .fetch k | .eventMask => .eventMask k
  | .deviceStatus => .deviceStatus k | .detach => .detach k
  | .revoke => .revoke k | .purge => .purge k | .evict => .evict k

/-- The request that waits at a link, as a command. -/
def State.requestDue (s : State) (k : HostId) : Option Instr :=
  match s.waiting k with
  | some (req, _) => (requestOfCode req.code).map (requestCommand k)
  | none => none

/-- The part of a withdrawal that is due, as a command. -/
def State.withdrawalDue (s : State) (n : Nat) : Option Instr :=
  match s.withdrawals[n]? with
  | none => none
  | some w =>
    if w.leaseTaken = false then some (.withdrawalLeasePart n)
    else if w.segmentTaken = false then some (.withdrawalSegmentPart n)
    else if s.eventPartDue w then some (.withdrawalEventPart n)
    else none

/-- The event of RTN that a lane takes now, as a command. -/
def State.rtnDue (s : State) (l : LaneId) : Option Instr :=
  let ln := s.lane l
  if (ln.stalledUnder .ready).isSome && s.rtnActive l && ln.mayJudge s.now then some (.rtnReadyActive l)
  else if (ln.stalledUnder .ack).isSome && s.rtnActive l && ln.edgeArmed s.now then some (.ackEdge l)
  else match ln.stalledUnder .rtnEdge with
    | some e => if ln.edgeReady e s.now && s.rtnActive l then some (.rtnEdgeSample l) else none
    | none => none

/-- The timed event of a lane that is due now, as a command. -/
def State.timedDue (s : State) (l : LaneId) : Option Instr :=
  let ln := s.lane l
  if ln.pulseDue s.now then some (.strobeEnd l)
  else if (s.rtnDue l).isSome then s.rtnDue l
  else if ln.stallLimitReached .ready s.now then some (.readyTimeout l)
  else if ln.stallLimitReached .ack s.now then some (.ackTimeout l)
  else if ln.captureLimitReached s.now then some (.captureTimeout l)
  else if (ln.passEndDue s.now).isSome then some (.passEnd l)
  else if ln.captureEndDue s.now then some (.captureEndPoint l)
  else if (ln.boundaryDue s.now).isSome then some (.stepBoundary l)
  else none

/-- Every host, in ascending order. -/
def hostIds : List HostId := [0, 1, 2]

/-- The post that the Event Unit takes next, as a command: the one presented first, which nothing comes before. -/
def State.postDue (s : State) : Option Instr := s.posts.head?.map (fun p => .eventPost p.host 0)

/-- The inside event the part takes next by itself, in the model's fixed order (log 16): posts, claims, what is handed back to
lanes, time, expiries, withdrawals, requests, and the timed events of the lanes. None where nothing is due. -/
def State.internal (s : State) : Option Instr :=
  s.postDue.orElse fun _ =>
  (laneIds.findSome? s.claimDue).orElse fun _ =>
  (laneIds.findSome? s.handbackDue).orElse fun _ =>
  (if s.timestampDue then some .timestampTick else if s.leaseTickDue then some .leaseTick else none).orElse fun _ =>
  (laneIds.findSome? (fun l => if s.expiryDue l then some (.leaseExpiry l) else none)).orElse fun _ =>
  ((List.range s.withdrawals.length).findSome? s.withdrawalDue).orElse fun _ =>
  (hostIds.findSome? s.requestDue).orElse fun _ =>
  laneIds.findSome? s.timedDue

end Sys2Proof.Machine
end

