-- ==== Sys2Proof/Machine/Dispatch.lean ====
section
/-! DEFINITION. One arm for each command: the call of its meaning. -/

namespace Sys2Proof.Machine

/-- The effect of a command on everything but the queue of waiting commands. -/
def exec (i : Instr) (s : State) : Host.Outcome State Fault Refusal :=
  match i with
  | .deviceReset => Sys2Proof.Machine.execDeviceReset s
  | .deviceResetRelease a0 supv1 supv0 => Sys2Proof.Machine.execDeviceResetRelease a0 supv1 supv0 s
  | .linkReset k => Sys2Proof.Machine.execLinkReset k s
  | .linkResetRelease k => Sys2Proof.Machine.execLinkResetRelease k s
  | .requestFrameEnd p frame => Sys2Proof.Machine.execRequestFrameEnd p frame s
  | .nullWrite p => Sys2Proof.Machine.execNullWrite p s
  | .ignoredTransaction p first count => Sys2Proof.Machine.execIgnoredTransaction p first count s
  | .responseRead p count => Sys2Proof.Machine.execResponseRead p count s
  | .define k => Sys2Proof.Machine.execDefine k s
  | .extend k => Sys2Proof.Machine.execExtend k s
  | .write k => Sys2Proof.Machine.execWrite k s
  | .read k => Sys2Proof.Machine.execRead k s
  | .publish k => Sys2Proof.Machine.execPublish k s
  | .delete k => Sys2Proof.Machine.execDelete k s
  | .catalog k => Sys2Proof.Machine.execCatalog k s
  | .query k => Sys2Proof.Machine.execQuery k s
  | .claim k => Sys2Proof.Machine.execClaim k s
  | .renew k => Sys2Proof.Machine.execRenew k s
  | .release k => Sys2Proof.Machine.execRelease k s
  | .leaseTick => Sys2Proof.Machine.execLeaseTick s
  | .leaseExpiry l => Sys2Proof.Machine.execLeaseExpiry l s
  | .configure k => Sys2Proof.Machine.execConfigure k s
  | .laneStatus k => Sys2Proof.Machine.execLaneStatus k s
  | .enqueue k => Sys2Proof.Machine.execEnqueue k s
  | .flush k => Sys2Proof.Machine.execFlush k s
  | .abort k => Sys2Proof.Machine.execAbort k s
  | .hold k => Sys2Proof.Machine.execHold k s
  | .resume k => Sys2Proof.Machine.execResume k s
  | .retime k => Sys2Proof.Machine.execRetime k s
  | .stepBoundary l => Sys2Proof.Machine.execStepBoundary l s
  | .strobeEnd l => Sys2Proof.Machine.execStrobeEnd l s
  | .rtnReadyActive l => Sys2Proof.Machine.execRtnReadyActive l s
  | .ackEdge l => Sys2Proof.Machine.execAckEdge l s
  | .readyTimeout l => Sys2Proof.Machine.execReadyTimeout l s
  | .ackTimeout l => Sys2Proof.Machine.execAckTimeout l s
  | .passEnd l => Sys2Proof.Machine.execPassEnd l s
  | .rtnEdgeSample l => Sys2Proof.Machine.execRtnEdgeSample l s
  | .captureTimeout l => Sys2Proof.Machine.execCaptureTimeout l s
  | .append l => Sys2Proof.Machine.execAppend l s
  | .appendAnswer l => Sys2Proof.Machine.execAppendAnswer l s
  | .captureEndPoint l => Sys2Proof.Machine.execCaptureEndPoint l s
  | .referenceRelease l => Sys2Proof.Machine.execReferenceRelease l s
  | .markSet k => Sys2Proof.Machine.execMarkSet k s
  | .markReleaseProceed l => Sys2Proof.Machine.execMarkReleaseProceed l s
  | .markClear k => Sys2Proof.Machine.execMarkClear k s
  | .markStatus k => Sys2Proof.Machine.execMarkStatus k s
  | .eventPost k n => Sys2Proof.Machine.execEventPost k n s
  | .fetch k => Sys2Proof.Machine.execFetch k s
  | .eventMask k => Sys2Proof.Machine.execEventMask k s
  | .deviceStatus k => Sys2Proof.Machine.execDeviceStatus k s
  | .detach k => Sys2Proof.Machine.execDetach k s
  | .revoke k => Sys2Proof.Machine.execRevoke k s
  | .purge k => Sys2Proof.Machine.execPurge k s
  | .evict k => Sys2Proof.Machine.execEvict k s
  | .withdrawalLeasePart n => Sys2Proof.Machine.execWithdrawalLeasePart n s
  | .withdrawalSegmentPart n => Sys2Proof.Machine.execWithdrawalSegmentPart n s
  | .withdrawalEventPart n => Sys2Proof.Machine.execWithdrawalEventPart n s
  | .timestampTick => Sys2Proof.Machine.execTimestampTick s

end Sys2Proof.Machine
end

