-- ==== Sys2Proof/Safety.lean ====
section
/-! DEFINITION. What the statements say of states: the invariants that the rules give each block, which reset satisfies and every
step keeps, and what an answer and an end of entries leave. -/

namespace Sys2Proof.Machine

/-! ## Segment Manager -/

/-- Where the blocks stand: the free pool, then the chains of the entries in handle order. -/
def Store.blocks (st : Store) : List Nat := st.pool ++ slots.flatMap (fun i => (st.entry i).chain)

/-- Each block is in the free pool or in one chain, and never in two places (R2). -/
def Store.partitioned (st : Store) : Prop := st.blocks.Perm (List.range Config.blockCount)

/-- What the fields of a segment table entry satisfy in each state: R5 for FREE; R6, R7 and R8 for the others; R18 for
PUBLISHED; R20 and R26 for CONDEMNED. -/
def Segment.wf (g : Segment) : Prop :=
  (g.state = .free → g.name = none ∧ g.chain = [] ∧ g.length = 0 ∧ g.refs = 0 ∧ g.notifyOnFree = false) ∧
  (g.state ≠ .free → g.generation ≠ 0 ∧ g.name.isSome = true ∧ 1 ≤ g.chain.length ∧ g.chain.length ≤ Config.quota ∧
    g.length ≤ capacityOf g) ∧
  (g.state = .published → 1 ≤ g.length ∧ g.chain.length = ceilDiv g.length Config.blockWords) ∧
  (g.state = .condemned → 1 ≤ g.refs) ∧
  (g.live = true → g.notifyOnFree = false)

/-- No two OPEN or PUBLISHED entries have the same name (R8). -/
def Store.namesDiffer (st : Store) : Prop :=
  ∀ i j, (st.entry i).live = true → (st.entry j).live = true → (st.entry i).name = (st.entry j).name → i = j

/-- Pattern memory has its canonical form and lists no word outside its 1024 blocks of 32 (R1). -/
def Store.memoryOk (st : Store) : Prop :=
  memoryWf st.memory = true ∧ ∀ c ∈ st.memory, c.1 < Config.blockCount * Config.blockWords

/-- Every word below the length of a segment has been stored since device reset: no host reads the free content that reset
leaves (R1). -/
def Store.wordsStored (st : Store) : Prop :=
  ∀ i j, j < (st.entry i).length →
    ∃ a, wordAddress (st.entry i).chain j = some a ∧ (memoryRead st.memory a).isSome = true

/-- The invariant of the Segment Manager. -/
def Store.wf (st : Store) : Prop :=
  st.partitioned ∧ (∀ i, (st.entry i).wf) ∧ st.namesDiffer ∧ st.memoryOk ∧ st.wordsStored

/-- No host's usage exceeds the quota (R9). -/
def Store.quotaKept (st : Store) : Prop := ∀ k, st.usage k ≤ Config.quota

/-! ## References (R23) -/

/-- The segment a waiting reference release names. -/
def LaneClaim.released : LaneClaim → Option SegmentRef
  | .release r _ _ => some r
  | .append .. => none

/-- Every reference that stands: those of the play entries, and those whose release waits to be taken. -/
def State.references (s : State) : List SegmentRef :=
  laneIds.flatMap (fun l => (s.lane l).queue.map (fun e => e.segment) ++ (s.claimsOf l).filterMap LaneClaim.released)

/-- Whether a reference names the present use of its handle: the entry is not FREE and has that generation (R62). -/
def Store.namesLive (st : Store) (r : SegmentRef) : Prop :=
  ∃ i, handleSlot r.handle = some i ∧ (st.entry i).state ≠ .free ∧ (st.entry i).generation = r.generation

/-- The refs of every entry count the references that name it, and each names the present use of its handle (R23, R62). -/
def State.referencesCounted (s : State) : Prop :=
  (∀ r ∈ s.references, s.store.namesLive r) ∧
  ∀ i, (s.store.entry i).refs = s.references.countP (fun r => handleSlot r.handle == some i)

/-- What R62 says of every play entry: its host is the lane's holder (R63); the segment it names is PUBLISHED or CONDEMNED for an
output, whose words lie below its length, and for a capture CONDEMNED, or OPEN and owned by the holder. -/
def State.entriesOk (s : State) : Prop :=
  ∀ l, ∀ e ∈ (s.lane l).queue, (s.lease l).holder = some e.host ∧
    ∀ i, handleSlot e.segment.handle = some i →
      let g := s.store.entry i
      (e.kind = .output → (g.state = .published ∨ g.state = .condemned) ∧ e.offset + e.count ≤ g.length) ∧
      (e.kind = .capture → g.state = .condemned ∨ (g.state = .opened ∧ g.owner = e.host))

/-! ## Event Unit -/

/-- The invariant of one host's events: at most 16 records (R149); a lost count only while the queue is full (R152); the
attention line low, which is asserted, exactly when the queue is not empty (R157); sequence numbers that run on to the counter (R151). -/
def EventQueue.wf (q : EventQueue) : Prop :=
  q.queue.length ≤ Config.eventDepth ∧ q.lost ≤ Config.maxCount ∧
  (0 < q.lost → q.queue.length = Config.eventDepth) ∧ (q.attn = .low ↔ q.queue ≠ []) ∧
  ∀ i (h : i < q.queue.length), q.queue[i].seq = q.seq - BitVec.ofNat 16 (q.queue.length - i)

/-- The invariant of the Event Unit. -/
def State.eventsOk (s : State) : Prop := ∀ k, (s.eventsOf k).wf

/-- Every post that waits, and every lane between a mark's release and its own event, carries the present timestamp, so that the
records of a queue are filed in the order of their timestamps (R148). -/
def State.stampsOk (s : State) : Prop :=
  (∀ p ∈ s.posts, p.stamp = s.time.timestamp) ∧
  ∀ l x after, (s.lane l).state = .released x after → x = s.time.timestamp

/-! ## Host Links -/

/-- The invariant of one link: a response is held exactly when the port is READY (R168), and its CRC is right (R170, R171); a
request is being decided, and the overrun flag set, only in EXECUTING (R169, R174). -/
def Link.wf (lk : Link) : Prop :=
  (lk.port = .ready ↔ lk.held.isSome = true) ∧ (lk.deciding.isSome = true → lk.port = .executing) ∧
  (lk.overrun = true → lk.port = .executing) ∧
  ∀ f, lk.held = some f → f ≠ [] ∧ crc8 f.dropLast = byteAt f (f.length - 1)

/-- The invariant of the Host Links: every link's; a port in EXECUTING has its request at an owner or in a withdrawal that will
answer it (R169, R188, R189); a port whose nLRST line or nRESET is low ignores any transaction in progress (R178, R179); and no
overrun arises on link 2 (R167). -/
def State.linksOk (s : State) : Prop :=
  (∀ k, (s.link k).wf ∧
    ((s.link k).port = .executing →
      (s.link k).deciding.isSome = true ∨ ∃ w ∈ s.withdrawals, ∃ req, w.answer = some (k, req)) ∧
    ∀ tr, (s.link k).transaction = some tr → tr.kind ≠ .ignored → s.nresetHigh = true ∧ (s.link k).nlrstHigh = true) ∧
  (s.link 2).overrun = false

/-! ## Lanes, leases and marks -/

/-- Whether the current entry of a lane in this state has proceeded (R70). -/
def LaneState.proceeded : LaneState → Bool
  | .running | .stalled | .holding .atBoundary | .holding .inWait => true
  | _ => false

/-- The invariant of one lane sequencer: at most 8 entries (R63); a current entry at the head where the state has one (R61), and
none queued in IDLE (R67); OFF as after reset (R37, R60); nothing of a current entry where there is none (R61, R88, R101); no
capture state for an entry that has not proceeded (R115); a hold request only in RUNNING (R105). -/
def Lane.wf (ln : Lane) : Prop :=
  ln.queue.length ≤ Config.queueDepth ∧
  (ln.state.hasCurrent = true → ln.queue ≠ []) ∧
  (ln.state = .idle → ln.queue = []) ∧
  (ln.state = .off → ln = Lane.reset) ∧
  (ln.state.hasCurrent = false → ln.pass = 0 ∧ ln.words = 0 ∧ ln.timing = none ∧ ln.staged = none) ∧
  (ln.state.proceeded = false → ln.capture = Capture.none) ∧
  (ln.holdRequest = true → ln.state = .running)

/-- The invariant of one lane record beside the state of its lane: OFF exactly without a holder, and then at its reset values
(R36, R37); durations in range and the remaining time at least 1 ms and within the duration, 1 ms where the lease's last tick
waits to be taken (R36, R45, log 10); at most 2 waiters, none twice, and never the
holder (R38). -/
def Lease.wf (r : Lease) (state : LaneState) : Prop :=
  (r.holder = none ↔ state = .off) ∧
  (r.holder = none → r = Lease.reset) ∧
  (r.holder ≠ none → 10 ≤ r.duration ∧ r.duration ≤ 60000 ∧ 1 ≤ r.remaining ∧ r.remaining ≤ r.duration) ∧
  (r.expiring = true → r.remaining = 1) ∧
  r.waiters.length ≤ 2 ∧ (r.waiters.map (fun w => w.host)).Nodup ∧
  (∀ w ∈ r.waiters, r.holder ≠ some w.host ∧ 10 ≤ w.duration ∧ w.duration ≤ 60000)

/-- How often a lane stands on the waiter lists of the marks. -/
def State.timesWaiting (s : State) (l : LaneId) : Nat :=
  ((List.finRange 8).flatMap (fun m => (s.mark m).waiters.map (fun w => w.1))).count l

/-- The invariant of the Mark Unit: a SET mark has an empty list, and a lane is on a list, once, exactly while it is in MARKWAIT
(R133). -/
def State.marksOk (s : State) : Prop :=
  (∀ m, (s.mark m).isSet = true → (s.mark m).waiters = []) ∧
  ∀ l, s.timesWaiting l = if (s.lane l).state = .markwait then 1 else 0

/-- The invariant of lanes, leases and marks together. -/
def State.lanesOk (s : State) : Prop :=
  (∀ l, (s.lane l).wf) ∧ (∀ l, (s.lease l).wf (s.lane l).state) ∧ s.marksOk

/-! ## What the statements say of an answer -/

/-- A request of this kind waits at link k for its owner; `live` is false where a link reset has left it with its owner and its
response will be discarded (R178). -/
def State.waits (s : State) (k : HostId) (kind : RequestKind) (req : Request) (live : Bool) : Prop :=
  s.waiting k = some (req, live) ∧ req.code = requestCode kind

/-- The links of `t` are those of `s` after the answer to a request that waited at link k: the response is held, the overrun flag
reported and cleared, the replay record replaced (R170, R174, R176), or the answer is discarded (R178). -/
def State.answered (s t : State) (k : HostId) (req : Request) (live : Bool) (reply : Reply) : Prop :=
  (∀ j, j ≠ k → t.link j = s.link j) ∧
  t.link k =
    if live then
      { (s.link k) with
        port := .ready,
        held := some (composeResponse req.tag req.code reply (responseFlags false (s.link k).overrun)),
        overrun := false, deciding := none,
        replay := some { tag := req.tag, code := req.code, crc := req.crc, reply := reply } }
    else { (s.link k) with orphan := none }

/-- `t` is `s` after a refusal of the request that waited at link k: nothing but the links differs (R170). -/
def State.refused (s t : State) (k : HostId) (req : Request) (live : Bool) (status : Status) : Prop :=
  t = { s with links := t.links } ∧ s.answered t k req live (refusal status)

/-- Every status of 0x10 or above is a refusal (R194). -/
def Status.refuses (x : Status) : Bool := decide (0x10 ≤ (statusByte x).toNat)

/-! ## What the statements say of a lane -/

/-- The moves that R6 lets the state of a segment table entry make, and no move. -/
def SegmentState.mayBecome : SegmentState → SegmentState → Bool
  | .free, .opened => true
  | .opened, .published => true
  | .opened, .free => true
  | .opened, .condemned => true
  | .published, .free => true
  | .published, .condemned => true
  | .condemned, .free => true
  | a, b => a == b

/-- The ENTRY_DONE posts of entries that end without being current, head to tail, ranked from `n` on (R75, R77). -/
def queuedPosts (l : LaneId) (stamp : Stamp) (o : EndOutcome) (order : Option Nat) (n : Nat) (es : List Entry) :
    List Post :=
  es.mapIdx fun i e => donePost l e stamp o 0 false order (n + i)

/-- The releases of entries that end one after another, each presented at the number that its ENTRY_DONE leaves, or all at `n` where
none is posted (R74, log 7). -/
def endReleases (order : Option Nat) (posted : Bool) (n : Nat) (es : List Entry) : List LaneClaim :=
  es.mapIdx fun i e => .release e.segment (if posted then n + i + 1 else n) order

/-- The ENTRY_DONE posts of a lane whose entries all end, the current one first and then those queued, head to tail, ranked from `n`
on (R75, R77). -/
def Lane.endPosts (ln : Lane) (l : LaneId) (stamp : Stamp) (current queued : EndOutcome) (order : Option Nat) (n : Nat) :
    List Post :=
  match ln.state.hasCurrent, ln.queue with
  | true, e :: rest =>
    donePost l e stamp current ln.words ln.staged.isSome order n :: queuedPosts l stamp queued order (n + 1) rest
  | _, es => queuedPosts l stamp queued order n es

/-- `t` is `u` after a lane without a lease has gone to the head of its waiter list, or stayed OFF where none waits (R50, R42). -/
def State.passedOn (u t : State) (l : LaneId) : Prop :=
  match (u.lease l).waiters with
  | [] => t = { u with leases := u.leases.upd l Lease.reset }
  | w :: rest =>
    t = { u with
      leases := u.leases.upd l { Lease.reset with
        holder := some w.host, duration := w.duration, remaining := w.duration, waiters := rest },
      lanes := u.lanes.upd l { Lane.reset with state := .idle, stb := .low },
      posts := u.posts ++ [{ host := w.host, stamp := u.time.timestamp, event := .leaseGranted l w.duration,
                             rank := u.orderCount, after := none, order := none }],
      orderCount := u.orderCount + 1 }

/-- `t` is `u` after lane l has been taken from host k where k holds it (R57): the lane drains without ENTRY_DONE and passes on. -/
def State.takenFrom (u t : State) (k : HostId) (l : LaneId) : Prop :=
  if (u.lease l).holder = some k then (u.drain l false).passedOn t l else t = u

/-! ## Everything -/

/-- Every invariant together. -/
def State.wf (s : State) : Prop :=
  s.store.wf ∧ s.store.quotaKept ∧ s.referencesCounted ∧ s.entriesOk ∧ s.eventsOk ∧ s.stampsOk ∧ s.linksOk ∧ s.lanesOk

end Sys2Proof.Machine
end

