-- ==== Sys2Proof/Certificates/Slice0/Obligations.lean ====
section
/-! DEFINITION. The statements for the provers. In those about a request, `req` is the request that waits at link k, its parameters
are the bytes of the frame, and `live` tells an answer that is held from one that a link reset discards (R178). Each gives the
whole next state `t`: the fields named after `with`, and every other field as in `s`. -/

open Sys2Proof Sys2Proof.Machine

/-! ## Steps and the whole part -/

/-- One step with commands waiting takes the first of them and runs it with the rest of the queue. -/
def Obligations.StepRunsTheFrontCommand : Prop :=
  ∀ (c : Instr) (s : State), step { s with pending := c :: s.pending } = exec c s

/-- The model's choice (log 1): with no command waiting, time passes only when nothing inside the part is left to be taken. No post,
claim or append answer waits, no request waits for its owner, no lane is released or expired, and neither the timestamp nor the
lease tick is due (R121, R149, R170). -/
def Obligations.TimePassesOnlyWhenNothingWaits : Prop :=
  ∀ s : State, s.pending = [] →
    (∀ c, s.internal = some c → step s = exec c s) ∧
    (s.internal = none →
      step s = .next s.tick ∧ s.posts = [] ∧
      (∀ l, s.claimsOf l = [] ∧ s.answersOf l = [] ∧ s.expiryDue l = false ∧
        ∀ x a, (s.lane l).state ≠ .released x a) ∧
      (∀ k req live, s.waiting k = some (req, live) → requestOfCode req.code = none) ∧
      s.time.subMicro < 10 ∧ s.time.subMilli < 10000)

/-- Every command completes (DEDUCED, log 21). None touches the queue of commands (DESIGN CHOICE, log 28) or the model's clock (log 19),
device reset included. Only the release of nRESET samples the supervisor and A0 (R166, R181); that DEVICE_RESET keeps their old
values until then is a DESIGN CHOICE (log 24). Only a timestamp tick and device reset change the timestamp (R82). -/
def Obligations.CommandsLeaveQueueSupervisorAndTime : Prop :=
  ∀ (c : Instr) (s : State), ∃ t, exec c s = .next t ∧
    t.pending = s.pending ∧ t.time.clock = s.time.clock ∧
    ((∀ a v w, c ≠ .deviceResetRelease a v w) → t.supervisor = s.supervisor ∧ t.a0 = s.a0) ∧
    (c ≠ .timestampTick → c ≠ .deviceReset → t.time.timestamp = s.time.timestamp)

/-- Pattern memory changes only where R1 says: by WRITE, by an append that is taken, and by device reset, the only one that leaves new
free content. First: where no append waits and no lane is between a mark's release and its own event, only WRITE and device reset
change it. Second: in any state only WRITE and the commands in which a lane's earlier claims, appends among them, may be taken: the
APPEND itself, ENQUEUE, REVOKE and entry start (R30, R121, log 11). -/
def Obligations.PatternMemoryChangesOnlyByStores : Prop :=
  ∀ (c : Instr) (s t : State), exec c s = .next t → c ≠ .deviceReset →
    t.store.epoch = s.store.epoch ∧
    ((∀ k, c ≠ .write k) →
      (∀ l r id w, .append r id w ∉ s.claimsOf l) → (∀ l x a, (s.lane l).state ≠ .released x a) →
      t.store.memory = s.store.memory) ∧
    ((∀ k, c ∉ [Instr.write k, .enqueue k, .revoke k, .resume k]) →
      (∀ l, c ∉ [Instr.append l, .strobeEnd l, .passEnd l, .ackEdge l, .captureTimeout l, .captureEndPoint l,
        .appendAnswer l]) →
      t.store.memory = s.store.memory)

/-- Whatever command is taken but device reset, each segment table entry moves as R6 lets it, and its generation advances exactly when
it goes from FREE to OPEN, from 255 to 1 (R7). -/
def Obligations.SegmentStatesMoveByTheTable : Prop :=
  ∀ (c : Instr) (s t : State) (i : Slot), exec c s = .next t → c ≠ .deviceReset →
    (s.store.entry i).state.mayBecome (t.store.entry i).state = true ∧
    (t.store.entry i).generation =
      if (s.store.entry i).state = .free ∧ (t.store.entry i).state = .opened then
        (if (s.store.entry i).generation = 255 then 1 else (s.store.entry i).generation + 1)
      else (s.store.entry i).generation

/-- The length and the words of a PUBLISHED or CONDEMNED segment do not change until it is freed, whatever command is taken (R62, R20).
Premise: the store invariant, which keeps chains apart. -/
def Obligations.PublishedWordsStay : Prop :=
  ∀ (c : Instr) (s t : State) (i : Slot), s.store.wf → exec c s = .next t → c ≠ .deviceReset →
    (s.store.entry i).state = .published ∨ (s.store.entry i).state = .condemned →
    (t.store.entry i).state ≠ .free →
    let g := s.store.entry i
    let h := t.store.entry i
    h.name = g.name ∧ h.owner = g.owner ∧ h.visibility = g.visibility ∧ h.length = g.length ∧ h.chain = g.chain ∧
      ∀ j, j < g.length → t.store.word h j = s.store.word g j

/-- A request that its owner refuses changes nothing but its own link (R11, R39, R102, R182). Premises: its port is EXECUTING; no
lane is between a mark release and its own event, and no claim of a lane waits, since the model settles these inside lane requests
(log 9, log 11). -/
def Obligations.RefusedRequestsChangeNothing : Prop :=
  ∀ (s t : State) (k : HostId) (kind : RequestKind) (req : Request) (r : ReplayRecord),
    s.waits k kind req true → (s.link k).port = .executing →
    (∀ l, s.claimsOf l = [] ∧ ∀ x a, (s.lane l).state ≠ .released x a) →
    exec (requestCommand k kind) s = .next t →
    (t.link k).port = .ready → (t.link k).replay = some r → r.reply.status.refuses = true →
    r.reply.results = [] ∧ s.refused t k req true r.reply.status

/-- Where there is nothing for it to act on, a command leaves the state as it is (the model's choice, log 2): a request command with no
request of its kind waiting, the events of an OFF lane, and takings with nothing presented. An RTN level on an OFF lane has no effect
but on the pin (R37). -/
def Obligations.NothingToActOn : Prop :=
  (∀ (s : State) (k : HostId) (kind : RequestKind),
    (∀ req live, s.waiting k = some (req, live) → req.code ≠ requestCode kind) →
    exec (requestCommand k kind) s = .next s) ∧
  (∀ (s : State) (l : LaneId), s.lane l = Lane.reset →
    (∀ c ∈ [Instr.stepBoundary l, .strobeEnd l, .readyTimeout l, .ackTimeout l, .passEnd l, .captureTimeout l,
      .captureEndPoint l, .markReleaseProceed l], exec c s = .next s) ∧
    ∀ c ∈ [Instr.rtnReadyActive l, .ackEdge l, .rtnEdgeSample l],
      exec c s = .next (s.setPins l { (s.pinsOf l) with rtn := (s.lease l).rtnPol == .activeHigh })) ∧
  (∀ (s : State) (l : LaneId), s.claimsOf l = [] →
    exec (.append l) s = .next s ∧ exec (.referenceRelease l) s = .next s) ∧
  (∀ (s : State) (l : LaneId), s.answersOf l = [] → exec (.appendAnswer l) s = .next s) ∧
  (∀ (s : State) (k : HostId) (i : Nat), s.posts = [] → exec (.eventPost k i) s = .next s) ∧
  (∀ (s : State) (n : Nat), s.withdrawals = [] →
    exec (.withdrawalLeasePart n) s = .next s ∧ exec (.withdrawalSegmentPart n) s = .next s ∧
    exec (.withdrawalEventPart n) s = .next s)

/-! ## Time -/

/-- The timestamp rises by 1, modulo 2^32, once ten ticks have passed (R82) and what the moment before led to has been taken, posts, claims,
append answers and released lanes (R148; the model's order, log 16). The lease tick, once 10000 have passed, takes 1 ms from the lease
remaining of every lane that has a holder (R43), and where it would bring it to 0 the lease's end waits to be taken (R36, R45, log
10). Before that neither happens (log 2). As a tick of REFCLK passes, every lane that is STALLED has judged its RTN at that tick, an
RTN judged inactive being noted (R83, log 15); the clock counts, the two dividers count unless device reset holds them, the input
levels are free (log 4), and nothing else changes. -/
def Obligations.TimeTicks : Prop :=
  (∀ s : State, (s.settled = true ↔
    s.posts = [] ∧ ∀ l, s.claimsOf l = [] ∧ s.answersOf l = [] ∧ ∀ x a, (s.lane l).state ≠ .released x a)) ∧
  (∀ s : State, exec .timestampTick s = .next
    (if 10 ≤ s.time.subMicro ∧ s.settled = true then
      { s with time := { s.time with timestamp := s.time.timestamp + 1, subMicro := s.time.subMicro - 10 } } else s)) ∧
  (∀ s : State, ∃ t, exec .leaseTick s = .next t ∧
    if 10000 ≤ s.time.subMilli then
      t = { s with leases := t.leases, time := { s.time with subMilli := s.time.subMilli - 10000 } } ∧
      ∀ l, t.lease l = if (s.lease l).holder = none then s.lease l
        else if (s.lease l).remaining ≤ 1 then { (s.lease l) with expiring := true }
        else { (s.lease l) with remaining := (s.lease l).remaining - 1 }
    else t = s) ∧
  ∀ s : State,
    let run := if s.nresetHigh then 1 else 0
    s.tick = { s with
      lanes := s.tick.lanes, pins := s.tick.pins,
      time := { s.time with
        clock := s.time.clock + 1, subMicro := s.time.subMicro + run, subMilli := s.time.subMilli + run } } ∧
    ∀ l,
      let inactive := match (s.lease l).rtnPol with | .activeHigh => false | .activeLow => true
      s.tick.lane l = (if (s.lane l).state = .stalled ∧ (s.pinsOf l).rtn = inactive then
        { (s.lane l) with inactiveAt := some s.time.clock } else s.lane l) ∧
      s.tick.pinsOf l =
        { rtn := Config.rtnLevel l (s.time.clock + 1), data := Config.dataLevel l (s.time.clock + 1) }

/-! ## Resets -/

/-- Device reset gives every block its reset values (R2, R5, R36, R60, R82, R132, R146, R157, R168, R179) and abandons a transaction in
progress on each port, whose rest is ignored (R179). The inputs, the commands waiting, the record of each bus and the model's clock
stand (logs 19, 28), and A0 and the supervisor keep their old values until the release (log 24). The release samples A0 and the SUPV
pins by the table of R181. -/
def Obligations.DeviceResetResetsEveryBlock : Prop :=
  (∀ s : State, ∃ t, exec .deviceReset s = .next t ∧
    t.nresetHigh = false ∧ t.a0 = s.a0 ∧ t.supervisor = s.supervisor ∧
    t.time = { clock := s.time.clock, subMicro := 0, subMilli := 0, timestamp := 0 } ∧
    t.store.memory = [] ∧ t.store.pool = List.range 1024 ∧ t.store.epoch = s.store.epoch + 1 ∧
    (∀ i, t.store.entry i =
      { state := .free, generation := 0, name := none, owner := 0, visibility := .hidden, length := 0, chain := [], refs := 0,
        notifyOnFree := false }) ∧
    (∀ l, t.lease l =
      { holder := none, duration := 0, remaining := 0, expiring := false, waiters := [], park := 0, stbPol := .activeHigh,
        rtnPol := .activeHigh }) ∧
    (∀ l, t.lane l =
      { state := .off, queue := [], pass := 0, words := 0, passWords := 0, timing := none, staged := none, holdRequest := false,
        point := none, acked := false, stallTimer := none, inactiveAt := none, drive := { driven := 0, level := 0 },
        stb := .undriven, pulseEnd := none,
        capture := { lastKept := none, boundaryCount := 0, prevSample := none, pendingAppend := none, timer := none } }) ∧
    (∀ l, t.claimsOf l = [] ∧ t.answersOf l = []) ∧ (∀ m, t.mark m = { isSet := false, waiters := [] }) ∧
    (∀ k, t.eventsOf k =
      { queue := [], lost := 0, mask := { started := true, done := true, freed := true }, seq := 0, attn := .high }) ∧
    t.posts = [] ∧ t.nextEntryId = 0 ∧ t.orderCount = 0 ∧
    (∀ k, t.link k =
      { port := .idle, held := none, replay := none, overrun := false, deciding := none, orphan := none,
        nlrstHigh := (s.link k).nlrstHigh,
        transaction := (s.link k).transaction.map (fun tr => { tr with kind := .ignored }), bus := (s.link k).bus }) ∧
    t.withdrawals = [] ∧ t.pins = s.pins ∧ t.pending = s.pending) ∧
  (∀ (s : State) (a0 supv1 supv0 : Bool), s.nresetHigh = false →
    exec (.deviceResetRelease a0 supv1 supv0) s = .next { s with
      nresetHigh := true, a0 := a0,
      supervisor := if supv1 then (if supv0 then some 2 else some 1) else (if supv0 then some 0 else none) })

/-- The assertion of nLRSTk abandons a transaction in progress on port k, whose rest is ignored, empties link k, leaves a request that was
handed on with its owner, discards the answer of a withdrawal that link k waited for, and makes a withdrawal of host k with cause
LINK_RESET (R178). While nRESET is low only the level is noted (R179). After the release the port takes transactions again. It hands
a new frame on once that withdrawal is complete and the request left with its owner is decided; that an outstanding DETACH of k holds
it too, and an EVICT does not, is the model's choice (log 13). -/
def Obligations.LinkResetEmptiesTheLink : Prop :=
  (∀ (s : State) (k : HostId), (s.link k).nlrstHigh = true → ∃ t, exec (.linkReset k) s = .next t ∧
    t = { s with links := t.links, withdrawals := t.withdrawals } ∧ (∀ j, j ≠ k → t.link j = s.link j) ∧
    if s.nresetHigh then
      t.link k = { port := .idle, held := none, replay := none, overrun := false, deciding := none,
                   orphan := if s.handsOn k then (s.link k).deciding else (s.link k).orphan, nlrstHigh := false,
                   transaction := (s.link k).transaction.map (fun tr => { tr with kind := .ignored }),
                   bus := (s.link k).bus } ∧
      t.withdrawals =
        s.withdrawals.map (fun w => { w with answer := w.answer.filter (fun a => a.1 != k) }) ++
          [{ host := k, cause := .linkReset, leaseTaken := false, segmentTaken := false, leasesEnded := 0,
             claimsRemoved := 0, firstOrder := 0, endOrder := 0, answer := none }]
    else t.link k = { (s.link k) with nlrstHigh := false } ∧ t.withdrawals = s.withdrawals) ∧
  (∀ (s : State) (k : HostId), ∃ t, exec (.linkResetRelease k) s = .next t ∧
    t = { s with links := t.links } ∧ (∀ j, j ≠ k → t.link j = s.link j) ∧
    t.link k = { (s.link k) with nlrstHigh := true }) ∧
  ∀ (s : State) (k : HostId), s.handsOn k = true ↔
    (s.link k).orphan = none ∧ ∀ w ∈ s.withdrawals, w.host = k → w.cause = .evicted

/-! ## Host links -/

/-- A frame that ends on a port in IDLE or READY, its bytes those of one command or of several, discards any held response and is checked in
the order of R172; one that matches the replay record is answered from it (R177); a lane request for no lane is refused by the link
(R173); any other request is left with its owner, the port EXECUTING (R169). Where the port holds new frames back, a lane request for
no lane is left too and refused later (DEDUCED, log 25 with log 13). Then the bytes of a response (R170, R194), the status codes
(table 10-2), and the code and admitted lengths of each request (table 10-3, R195, R196). -/
def Obligations.FrameEndOnAFreePort : Prop :=
  (∀ (s : State) (p : Port) (bytes : List Byte) (tr : Transaction),
    (s.link (portHost p)).port ≠ .executing →
    ((s.link (portHost p)).transaction = none ∧ s.listens p = true ∧
        tr = { kind := .write, frame := [], stream := none, sent := 0 } ∨
      (s.link (portHost p)).transaction = some tr ∧ tr.kind = .write) →
    tr.frame ++ bytes ≠ [] →
    let k := portHost p
    let frame := tr.frame ++ bytes
    let bus := s.busFor p .write
    let old := { s.link k with
      transaction := none,
      bus := match p with
        | .spi _ => { bytes := bus.bytes ++ List.replicate bytes.length 0xFF, acks := bus.acks }
        | .i2c _ => { bytes := bus.bytes, acks := bus.acks ++ List.replicate bytes.length true } }
    let n := (byteAt frame 2).toNat
    let req := frameRequest frame
    let hold := fun (reply : Reply) (replayed : Bool) =>
      { old with
        port := .ready, held := some (composeResponse (byteAt frame 0) (byteAt frame 1) reply
          (responseFlags replayed (s.link k).overrun)), overrun := false, deciding := none }
    ∃ t, exec (.requestFrameEnd ⟨p, true⟩ bytes) s = .next t ∧ t = { s with links := t.links } ∧
      (∀ j, j ≠ k → t.link j = s.link j) ∧
      t.link k =
        if frame.length < 4 ∨ 64 < n ∨ frame.length ≠ 4 + n then hold (refusal .frameError) false
        else if crc8 frame.dropLast ≠ byteAt frame (frame.length - 1) then hold (refusal .crcError) false
        else match requestOfCode (byteAt frame 1) with
          | none => hold (refusal .unknownRequest) false
          | some kind =>
            if lengthAdmitted kind n = false then hold (refusal .badLength) false
            else match (s.link k).replay.filter (fun r =>
                byteAt frame 0 != 0 && r.tag == req.tag && r.code == req.code && r.crc == req.crc) with
              | some r => hold r.reply true
              | none =>
                if laneRequest kind = true ∧ decodeLane (byteAt req.params 0) = none ∧ s.handsOn k = true then
                  { hold (refusal .badParam) false with
                    replay := some { tag := req.tag, code := req.code, crc := req.crc, reply := refusal .badParam } }
                else { old with port := .executing, held := none, deciding := some req }) ∧
  (∀ (tag code : Byte) (reply : Reply) (replayed overrun : Bool),
    let flags : Byte := (if replayed then 0x01 else 0x00) ||| (if overrun then 0x02 else 0x00)
    let body := [tag, code, statusByte reply.status, flags, BitVec.ofNat 8 reply.results.length] ++ reply.results
    composeResponse tag code reply (responseFlags replayed overrun) = body ++ [crc8 body]) ∧
  (∀ x : Status × Byte, x ∈ [(Status.ok, 0x00), (.queued, 0x01), (.staged, 0x02), (.freed, 0x03), (.condemned, 0x04),
    (.waitCancelled, 0x05), (.frameError, 0x10), (.crcError, 0x11), (.unknownRequest, 0x12), (.badLength, 0x13),
    (.badParam, 0x20), (.badTiming, 0x21), (.badRange, 0x22), (.badHandle, 0x30), (.staleHandle, 0x31), (.gone, 0x32),
    (.notOwner, 0x33), (.notVisible, 0x34), (.wrongState, 0x35), (.inUse, 0x40), (.empty, 0x41), (.nameInUse, 0x42),
    (.noSpace, 0x44), (.quota, 0x45), (.tableFull, 0x46), (.notHolder, 0x50), (.laneHeld, 0x51), (.alreadyHeld, 0x52),
    (.alreadyWaiting, 0x53), (.queueFull, 0x54), (.busy, 0x55), (.nothingPlaying, 0x56), (.notPermitted, 0x60)] ↔
    statusByte x.1 = x.2) ∧
  ∀ (kind : RequestKind) (code : Byte) (n : Nat),
    (requestOfCode code = some kind ↔ requestCode kind = code) ∧
    (kind, requestCode kind, lengthAdmitted kind n) ∈
      [(RequestKind.define, (0x10 : Byte), n == 11), (.extend, 0x11, n == 4),
       (.write, 0x12, decide (6 ≤ n ∧ n ≤ 60 ∧ n % 2 = 0)), (.read, 0x13, n == 5), (.publish, 0x14, n == 2),
       (.delete, 0x15, n == 2), (.catalog, 0x16, n == 1), (.query, 0x17, n == 2),
       (.claim, 0x20, n == 4), (.renew, 0x21, n == 3), (.release, 0x22, n == 1), (.configure, 0x23, n == 5),
       (.laneStatus, 0x24, n == 1),
       (.enqueue, 0x30, n == 25), (.flush, 0x31, n == 1), (.abort, 0x32, n == 1), (.hold, 0x33, n == 1),
       (.resume, 0x34, n == 1), (.retime, 0x35, n == 9),
       (.markSet, 0x40, n == 1), (.markClear, 0x41, n == 1), (.markStatus, 0x42, n == 0),
       (.fetch, 0x50, n == 1), (.eventMask, 0x51, n == 3), (.deviceStatus, 0x60, n == 0), (.detach, 0x61, n == 0),
       (.revoke, 0x70, n == 2), (.purge, 0x71, n == 1), (.evict, 0x72, n == 1)]

/-- Bytes of a request write that end no frame on a free port. A transaction that a port ignores, because it does not listen (R178, R179),
because it is abandoned (R178, R179), or on I2C because its address came in EXECUTING (R166), has no effect: an SPI port drives 0xFF,
the I2C port acknowledges nothing. An SPI frame that ends in EXECUTING is discarded and sets the overrun flag (R174). A write that
goes on only gathers its bytes, the I2C port acknowledging each (R166). Bytes of a write in a read are none (log 2, log 17). -/
def Obligations.FrameEndOnABusyOrSilentPort : Prop :=
  ∀ (s : State) (p : Port) (ends : Bool) (bytes : List Byte),
    let k := portHost p
    let lk := s.link k
    let begun := fun (kind : BusKind) => ({ kind := kind, frame := [], stream := none, sent := 0 } : Transaction)
    let tr := match lk.transaction with
      | some tr => tr
      | none =>
        if s.listens p = false then begun .ignored
        else match p with
          | .spi _ => begun .write
          | .i2c _ => if lk.port = .executing then begun .ignored else begun .write
    let old := s.busFor p .write
    let bus := fun (taken : Bool) => (match p with
      | .spi _ => { bytes := old.bytes ++ List.replicate bytes.length 0xFF, acks := old.acks }
      | .i2c _ => { bytes := old.bytes, acks := old.acks ++ List.replicate bytes.length taken } : BusReply)
    ∃ t, exec (.requestFrameEnd ⟨p, ends⟩ bytes) s = .next t ∧ t = { s with links := t.links } ∧
      (∀ j, j ≠ k → t.link j = s.link j) ∧
      (tr.kind = .ignored →
        t.link k = { lk with transaction := if ends then none else some tr, bus := bus false }) ∧
      (tr.kind = .write → ends = true → lk.port = .executing → tr.frame ++ bytes ≠ [] →
        t.link k = { lk with
          transaction := none, bus := bus true,
          overrun := match p with | .spi _ => true | .i2c _ => lk.overrun }) ∧
      (tr.kind = .write → ends = false →
        t.link k = { lk with
          transaction := some { tr with frame := tr.frame ++ bytes }, bus := bus true }) ∧
      (tr.kind = .read → t = s)

/-- A null write (R164), an SPI transaction of neither kind (R163) and a response read (R165, R167) leave everything as it is but the
transaction and the record of the bus. A read returns the port status byte, then the held response when READY, then 0xFF; what it
returns is fixed as its status byte begins, and on SPI the kind byte, during which the port drives 0xFF, comes first. Before them, how a
transaction begins: the kind that the first SPI byte selects (R163), which port listens and to which address (R166, R178, R179), what is
acknowledged (R166, R167), and that MISO is driven only while a transaction is in progress (R163). A command that does not fit the
transaction in progress changes nothing (log 2, log 17). -/
def Obligations.TransactionsThatChangeNoPort : Prop :=
  (∀ first : Byte, spiKind first = if first = 0xA5 then .write else if first = 0x5A then .read else .ignored) ∧
  (∀ lk : Link, lk.drivesMiso = true ↔ lk.transaction ≠ none) ∧
  (∀ (s : State) (p : Port) (kind : BusKind),
    let lk := s.link (portHost p)
    (s.listens p = true ↔ s.nresetHigh = true ∧ lk.nlrstHigh = true ∧
      ∀ address, p = .i2c address → address = if s.a0 then 0x4D else 0x4C) ∧
    s.beginKind p kind = (if s.listens p = false then .ignored
      else match p with
        | .spi _ => kind
        | .i2c _ => if kind = .write ∧ lk.port = .executing then .ignored else kind) ∧
    s.busFor p kind = match lk.transaction, p with
      | some _, _ => lk.bus
      | none, .spi _ => { bytes := [0xFF], acks := [] }
      | none, .i2c _ => { bytes := [], acks := [decide (s.beginKind p kind ≠ .ignored)] }) ∧
  (∀ (s : State) (p : Port) (ends : Bool),
    let lk := s.link (portHost p)
    let begun : Transaction := { kind := s.beginKind p .write, frame := [], stream := none, sent := 0 }
    ∃ t, exec (.nullWrite ⟨p, ends⟩) s = .next t ∧ t = { s with links := t.links } ∧
      (∀ j, j ≠ portHost p → t.link j = s.link j) ∧
      t.link (portHost p) = match lk.transaction with
        | none => { lk with transaction := if ends then none else some begun, bus := s.busFor p .write }
        | some tr =>
          if tr.kind = .read ∨ tr.frame ≠ [] then lk else { lk with transaction := if ends then none else some tr }) ∧
  (∀ (s : State) (p : SpiPort) (first : Byte) (n : Nat) (ends : Bool), first ≠ 0xA5 → first ≠ 0x5A →
    let lk := s.link (portHost (.spi p))
    let begun : Transaction := { kind := .ignored, frame := [], stream := none, sent := 0 }
    ∃ t, exec (.ignoredTransaction ⟨p, ends⟩ first n) s = .next t ∧ t = { s with links := t.links } ∧
      (∀ j, j ≠ portHost (.spi p) → t.link j = s.link j) ∧
      t.link (portHost (.spi p)) = match lk.transaction with
        | none => { lk with
            transaction := if ends then none else some begun,
            bus := { bytes := 0xFF :: List.replicate (n - 1) 0xFF, acks := [] } }
        | some tr =>
          if tr.kind = .ignored then { lk with
            transaction := if ends then none else some tr,
            bus := { bytes := lk.bus.bytes ++ List.replicate n 0xFF, acks := lk.bus.acks } }
          else lk) ∧
  ∀ (s : State) (p : Port) (n : Nat) (ends : Bool),
    let lk := s.link (portHost p)
    let begun : Transaction := { kind := s.beginKind p .read, frame := [], stream := none, sent := 0 }
    let tr := lk.transaction.getD begun
    let m := match lk.transaction, p with
      | none, .spi _ => n - 1
      | _, _ => n
    let stream := tr.stream.getD (match lk.port with
      | .idle => [0x00]
      | .executing => [0x01]
      | .ready => 0x02 :: lk.held.getD [])
    let old := s.busFor p .read
    ∃ t out, exec (.responseRead ⟨p, ends⟩ n) s = .next t ∧ t = { s with links := t.links } ∧
      (∀ j, j ≠ portHost p → t.link j = s.link j) ∧
      (tr.kind = .read → out.length = m ∧ (∀ i, i < m → out.getD i 0 = stream.getD (tr.sent + i) 0xFF) ∧
        t.link (portHost p) = { lk with
          transaction := if ends then none
            else some { tr with stream := if m = 0 then tr.stream else some stream, sent := tr.sent + m },
          bus := { bytes := old.bytes ++ out, acks := old.acks } }) ∧
      (tr.kind = .ignored → out = (match p with | .spi _ => List.replicate m 0xFF | .i2c _ => []) ∧
        t.link (portHost p) = { lk with
          transaction := if ends then none else some tr, bus := { bytes := old.bytes ++ out, acks := old.acks } }) ∧
      (tr.kind = .write → t = s)

/-- Changing one byte changes the CRC of the bytes (R171): a frame one byte of which is altered, its CRC byte or another, no longer passes
the CRC check. -/
def Obligations.CrcDetectsAChangedByte : Prop :=
  (∀ (a b : List Byte) (x y : Byte), x ≠ y → crc8 (a ++ x :: b) ≠ crc8 (a ++ y :: b)) ∧
  ∀ (body : List Byte) (i : Nat) (x : Byte), i < body.length + 1 →
    let frame := body ++ [crc8 body]
    byteAt frame i ≠ x →
    crc8 (frame.set i x).dropLast ≠ byteAt (frame.set i x) ((frame.set i x).length - 1)

/-! ## Segments -/

/-- The handle check, by the first row that applies (R10), and QUERY's reading of it, which takes the GONE row as a pass (R22). -/
def Obligations.HandleCheckByTheTable : Prop :=
  ∀ (st : Store) (r : SegmentRef),
    (r.handle.toNat = 0 ∨ 64 < r.handle.toNat ∨ r.generation = 0 → st.handleCheck r = .error .badHandle) ∧
    ∀ i : Slot, r.handle.toNat = i.val + 1 → r.generation ≠ 0 →
      let g := st.entry i
      (st.handleCheck r =
        if g.state = .free then (if g.generation = 0 then .error .badHandle else .error .staleHandle)
        else if g.generation ≠ r.generation then .error .staleHandle
        else if g.state = .condemned then .error .gone
        else .ok i) ∧
      st.queryCheck r = if g.state = .condemned ∧ g.generation = r.generation then .ok i else st.handleCheck r

/-- DEFINE and EXTEND make their checks in order (R13, R15) and, when accepted, take blocks from the head of the pool to the end of the
chain (R3); DEFINE takes the lowest FREE entry (R14). -/
def Obligations.DefineAndExtendAllocate : Prop :=
  (∀ (s : State) (k : HostId) (req : Request) (live : Bool), s.waits k .define req live →
    ∃ t, exec (.define k) s = .next t ∧
      let capacity := u16At req.params 8
      let n := ceilDiv capacity 32
      match decodeName (req.params.take 8), decodeVisibility (byteAt req.params 10) with
      | some name, some visibility =>
        if capacity = 0 ∨ 16384 < capacity then s.refused t k req live .badParam
        else if ∃ i, (s.store.entry i).live = true ∧ (s.store.entry i).name = some name then
          s.refused t k req live .nameInUse
        else if ∀ i, (s.store.entry i).state ≠ .free then s.refused t k req live .tableFull
        else if 512 < s.store.usage k + n then s.refused t k req live .quota
        else if s.store.pool.length < n then s.refused t k req live .noSpace
        else ∃ i, (s.store.entry i).state = .free ∧ (∀ j, j < i → (s.store.entry j).state ≠ .free) ∧
          let generation := nextGeneration (s.store.entry i).generation
          t = { s with links := t.links, store := { s.store with
                table := s.store.table.upd i
                  { state := .opened, generation := generation, name := some name, owner := k, visibility := visibility,
                    length := 0, chain := s.store.pool.take n, refs := 0, notifyOnFree := false },
                pool := s.store.pool.drop n } } ∧
          s.answered t k req live (okReply ([slotHandle i, generation] ++ le16 (32 * n)))
      | _, _ => s.refused t k req live .badParam) ∧
  (∀ (s : State) (k : HostId) (req : Request) (live : Bool), s.waits k .extend req live →
    ∃ t, exec (.extend k) s = .next t ∧
      let additional := u16At req.params 2
      let n := ceilDiv additional 32
      if additional = 0 ∨ 16384 < additional then s.refused t k req live .badParam
      else match s.store.handleCheck (segmentAt req.params 0) with
        | .error x => s.refused t k req live x
        | .ok i =>
          let g := s.store.entry i
          if g.owner ≠ k then s.refused t k req live .notOwner
          else if g.state = .published then s.refused t k req live .wrongState
          else if 512 < g.chain.length + n then s.refused t k req live .badRange
          else if 512 < s.store.usage k + n then s.refused t k req live .quota
          else if s.store.pool.length < n then s.refused t k req live .noSpace
          else
            t = { s with links := t.links, store := { s.store with
                  table := s.store.table.upd i { g with chain := g.chain ++ s.store.pool.take n },
                  pool := s.store.pool.drop n } } ∧
            s.answered t k req live
              (okReply (le16 (32 * (g.chain.length + n)) ++ le16 (g.chain.length + n))))

/-- WRITE makes its checks in order (R16); accepted, it stores its words from the offset on and the length grows over them, each in the
block and at the position R1 gives, the content of every other address of pattern memory stays, so that every other word of every
segment does, and nothing else changes. Premise: the store invariant, which keeps chains apart. -/
def Obligations.WriteStoresItsWords : Prop :=
  ∀ (s : State) (k : HostId) (req : Request) (live : Bool), s.store.wf → s.waits k .write req live →
    ∃ t, exec (.write k) s = .next t ∧
      let offset := u16At req.params 2
      let words := wordsOf (req.params.drop 4)
      match s.store.handleCheck (segmentAt req.params 0) with
      | .error x => s.refused t k req live x
      | .ok i =>
        let g := s.store.entry i
        if g.owner ≠ k then s.refused t k req live .notOwner
        else if g.state = .published then s.refused t k req live .wrongState
        else if 1 ≤ g.refs then s.refused t k req live .inUse
        else if g.length < offset ∨ 32 * g.chain.length < offset + words.length then s.refused t k req live .badRange
        else
          let length := max g.length (offset + words.length)
          t = { s with links := t.links, store := { s.store with
                memory := t.store.memory, table := s.store.table.upd i { g with length := length } } } ∧
          s.answered t k req live (okReply (le16 length)) ∧
          (∀ j, j < words.length → t.store.word (t.store.entry i) (offset + j) = words.getD j 0) ∧
          (∀ a, (∀ j, j < words.length →
              a ≠ g.chain.getD ((offset + j) / 32) 0 * 32 + (offset + j) % 32) → t.store.content a = s.store.content a) ∧
          ∀ (i' : Slot) (j : Nat), j < 32 * (s.store.entry i').chain.length →
            (i' = i → j < offset ∨ offset + words.length ≤ j) →
            t.store.word (t.store.entry i') j = s.store.word (s.store.entry i') j

/-- PUBLISH (R18) keeps the blocks that hold the length and returns the rest to the tail of the pool in chain order; DELETE frees an
unreferenced segment, its chain joining the tail of the pool (R19), and condemns a referenced one (R20). -/
def Obligations.PublishAndDelete : Prop :=
  (∀ (s : State) (k : HostId) (req : Request) (live : Bool), s.waits k .publish req live →
    ∃ t, exec (.publish k) s = .next t ∧
      match s.store.handleCheck (segmentAt req.params 0) with
      | .error x => s.refused t k req live x
      | .ok i =>
        let g := s.store.entry i
        let n := ceilDiv g.length 32
        if g.owner ≠ k then s.refused t k req live .notOwner
        else if g.state = .published then s.refused t k req live .wrongState
        else if g.length = 0 then s.refused t k req live .empty
        else if 1 ≤ g.refs then s.refused t k req live .inUse
        else
          t = { s with links := t.links, store := { s.store with
                table := s.store.table.upd i { g with state := .published, chain := g.chain.take n },
                pool := s.store.pool ++ g.chain.drop n } } ∧
          s.answered t k req live (okReply (le16 g.length ++ le16 n))) ∧
  (∀ (s : State) (k : HostId) (req : Request) (live : Bool), s.waits k .delete req live →
    ∃ t, exec (.delete k) s = .next t ∧
      match s.store.handleCheck (segmentAt req.params 0) with
      | .error x => s.refused t k req live x
      | .ok i =>
        let g := s.store.entry i
        if g.owner ≠ k then s.refused t k req live .notOwner
        else if g.refs = 0 then
          t = { s with links := t.links, store := { s.store with
                table := s.store.table.upd i
                  { state := .free, generation := g.generation, name := none, owner := g.owner, visibility := g.visibility,
                    length := 0, chain := [], refs := 0, notifyOnFree := false },
                pool := s.store.pool ++ g.chain } } ∧
          s.answered t k req live { status := .freed, results := [] }
        else
          t = { s with links := t.links, store := { s.store with
                table := s.store.table.upd i { g with state := .condemned, notifyOnFree := true } } } ∧
          s.answered t k req live { status := .condemned, results := [] })

/-- READ (R17), CATALOG (R21) and QUERY (R22) change no state but the link's: what each refuses, and the words or records it returns. Then
the bytes of a segment record and of a query record (table 10-6), the two-byte fields low byte first and the name filled with 0x00
to 8 bytes (R193). -/
def Obligations.SegmentInspections : Prop :=
  (∀ (s : State) (k : HostId) (req : Request) (live : Bool), s.waits k .read req live →
    ∃ t, exec (.read k) s = .next t ∧
      let offset := u16At req.params 2
      let count := (byteAt req.params 4).toNat
      if count = 0 ∨ 28 < count then s.refused t k req live .badParam
      else match s.store.handleCheck (segmentAt req.params 0) with
        | .error x => s.refused t k req live x
        | .ok i =>
          let g := s.store.entry i
          if g.owner ≠ k ∧ ¬(g.visibility = .shared ∧ g.state = .published) then s.refused t k req live .notVisible
          else if g.length < offset + count then s.refused t k req live .badRange
          else
            t = { s with links := t.links } ∧
            s.answered t k req live
              (okReply ((List.range count).flatMap (fun j => le16 (s.store.word g (offset + j)).toNat)))) ∧
  (∀ (s : State) (k : HostId) (req : Request) (live : Bool), s.waits k .catalog req live →
    ∃ t, exec (.catalog k) s = .next t ∧
      let start := (byteAt req.params 0).toNat
      let seen := slots.filter (fun i =>
        let g := s.store.entry i
        decide (start ≤ i.val + 1) &&
          ((g.owner == k && (g.state == .opened || g.state == .published)) ||
            (g.visibility == .shared && g.state == .published)))
      if start = 0 ∨ 64 < start then s.refused t k req live .badParam
      else
        t = { s with links := t.links } ∧
        s.answered t k req live (okReply
          ([match seen[4]? with | some i => byteOf (i.val + 1) | none => 0, byteOf (min 4 seen.length)] ++
            (seen.take 4).flatMap (fun i => segmentRecord i (s.store.entry i))))) ∧
  (∀ (s : State) (k : HostId) (req : Request) (live : Bool), s.waits k .query req live →
    ∃ t, exec (.query k) s = .next t ∧
      match s.store.queryCheck (segmentAt req.params 0) with
      | .error x => s.refused t k req live x
      | .ok i =>
        let g := s.store.entry i
        if g.owner ≠ k ∧ g.visibility = .hidden then s.refused t k req live .notVisible
        else
          t = { s with links := t.links } ∧ s.answered t k req live (okReply (queryRecord i g))) ∧
  ∀ (i : Slot) (g : Segment),
    let two := fun (n : Nat) => ([BitVec.ofNat 8 n, BitVec.ofNat 8 (n / 256)] : List Byte)
    let handle : Byte := BitVec.ofNat 8 (i.val + 1)
    let name := (List.range 8).map (fun j => (g.name.getD []).getD j 0)
    let owner : Byte := BitVec.ofNat 8 g.owner.val
    let visibility : Byte := match g.visibility with | .hidden => 0x00 | .shared => 0x01
    let state : Byte := match g.state with | .free => 0x00 | .opened => 0x01 | .published => 0x02 | .condemned => 0x03
    segmentRecord i g = [handle, g.generation] ++ name ++ [owner, visibility, state] ++ two g.length ∧
    queryRecord i g = [handle, g.generation, state] ++ name ++ [owner, visibility] ++ two g.length ++
      two (32 * g.chain.length) ++ two g.chain.length ++ two (g.chain.headD 0) ++
      [BitVec.ofNat 8 g.refs, if g.notifyOnFree then 0x01 else 0x00]

/-- An append that the Segment Manager takes is answered by the state of its segment (R27): stored at index length while the length is
below the capacity, in the block and at the position R1 gives, else FULL; GONE on a CONDEMNED segment. The lane's later claims stay.
Premise: pattern memory has its canonical form. -/
def Obligations.AppendAnsweredByState : Prop :=
  ∀ (s : State) (l : LaneId) (r : SegmentRef) (id : Nat) (w : Word) (rest : List LaneClaim) (i : Slot),
    s.store.memoryOk → s.claimsOf l = .append r id w :: rest → r.handle.toNat = i.val + 1 →
    (s.store.entry i).state = .opened ∨ (s.store.entry i).state = .condemned →
    let g := s.store.entry i
    let answer := fun a => s.answers.upd l (s.answersOf l ++ [{ entry := id, result := a }])
    ∃ t, exec (.append l) s = .next t ∧
      if g.state = .condemned then
        t = { s with claims := s.claims.upd l rest, answers := answer .gone }
      else if g.length < 32 * g.chain.length then
        t = { s with
          claims := s.claims.upd l rest, answers := answer .stored,
          store := { s.store with
            memory := t.store.memory, table := s.store.table.upd i { g with length := g.length + 1 } } } ∧
        t.store.word g g.length = w ∧
        ∀ a, a ≠ g.chain.getD (g.length / 32) 0 * 32 + g.length % 32 → t.store.content a = s.store.content a
      else t = { s with claims := s.claims.upd l rest, answers := answer .full }

/-- A reference release lowers refs by 1, whatever the state of the segment (R25); on a CONDEMNED segment the last one frees it, its
chain joining the tail of the pool, and posts SEGMENT_FREED to the owner where notify-on-free is yes (R26). What stands beside the
event in the post says which posts it may not overtake: those of the lane ranked below the number at which the release was presented,
and those of the Lease Controller before the drain order (log 7). -/
def Obligations.ReferenceReleaseLowersRefs : Prop :=
  ∀ (s : State) (l : LaneId) (r : SegmentRef) (n : Nat) (x : Option Nat) (rest : List LaneClaim) (i : Slot),
    s.claimsOf l = .release r n x :: rest → r.handle.toNat = i.val + 1 →
    (s.store.entry i).state ≠ .free → 1 ≤ (s.store.entry i).refs →
    let g := s.store.entry i
    exec (.referenceRelease l) s = .next
      (if g.state = .condemned ∧ g.refs = 1 then
        { s with
          claims := s.claims.upd l rest,
          store := { s.store with
            table := s.store.table.upd i
              { state := .free, generation := g.generation, name := none, owner := g.owner, visibility := g.visibility,
                length := 0, chain := [], refs := 0, notifyOnFree := false },
            pool := s.store.pool ++ g.chain },
          posts := s.posts ++ (if g.notifyOnFree then
            [{ host := g.owner, stamp := s.time.timestamp, event := .segmentFreed ⟨r.handle, g.generation⟩, rank := 0,
               after := some (l, n), order := x }] else []) }
      else
        { s with
          claims := s.claims.upd l rest,
          store := { s.store with table := s.store.table.upd i { g with refs := g.refs - 1 } } })

/-! ## Leases -/

/-- CLAIM by the first row of R39 that applies: a lane without a holder is granted at once, a fresh lease with the default configuration
and the lane IDLE at the default park word with STB low (R40, R42); a waiting claim joins the tail of the waiter list (R41). -/
def Obligations.ClaimByTheTable : Prop :=
  ∀ (s : State) (k : HostId) (req : Request) (live : Bool), s.waits k .claim req live →
    ∃ t, exec (.claim k) s = .next t ∧
      let d := u16At req.params 1
      match decodeLane (byteAt req.params 0), decodeFlag (byteAt req.params 3) with
      | some l, some wait =>
        let r := s.lease l
        if d < 10 ∨ 60000 < d then s.refused t k req live .badParam
        else if r.holder = none then
          t = { s with
            links := t.links,
            leases := s.leases.upd l
              { holder := some k, duration := d, remaining := d, expiring := false, waiters := r.waiters, park := 0,
                stbPol := .activeHigh, rtnPol := .activeHigh },
            lanes := s.lanes.upd l { Lane.reset with state := .idle, stb := .low } } ∧
          s.answered t k req live (okReply ([byteOf l.val] ++ le16 d ++ le16 d))
        else if r.holder = some k then s.refused t k req live .alreadyHeld
        else if ∃ w ∈ r.waiters, w.host = k then s.refused t k req live .alreadyWaiting
        else if wait = false then s.refused t k req live .laneHeld
        else
          t = { s with
            links := t.links,
            leases := s.leases.upd l { r with waiters := r.waiters ++ [{ host := k, duration := d }] } } ∧
          s.answered t k req live { status := .queued, results := [byteOf l.val, byteOf (r.waiters.length + 1)] }
      | _, _ => s.refused t k req live .badParam

/-- RENEW (R44): its two checks, then the lease duration becomes the one asked for, or is kept where 0 is asked, and the lease remaining
is set to it. It is accepted in every lane state and changes nothing else, but that an expiry which waits to be taken does not happen
(the model's choice, log 10). -/
def Obligations.RenewSetsTheLease : Prop :=
  ∀ (s : State) (k : HostId) (req : Request) (live : Bool), s.waits k .renew req live →
    ∃ t, exec (.renew k) s = .next t ∧
      let asked := u16At req.params 1
      match decodeLane (byteAt req.params 0) with
      | none => s.refused t k req live .badParam
      | some l =>
        let r := s.lease l
        let d := if asked = 0 then r.duration else asked
        if asked ≠ 0 ∧ (asked < 10 ∨ 60000 < asked) then s.refused t k req live .badParam
        else if r.holder ≠ some k then s.refused t k req live .notHolder
        else
          t = { s with links := t.links, leases := s.leases.upd l { r with
            duration := d, remaining := d, expiring := false } } ∧
          s.answered t k req live (okReply (le16 d ++ le16 d))

/-- RELEASE from a host that does not hold the lane (R47): a waiting claim is removed, those behind it moving up, and nothing else
changes; a host that does not wait either is refused NOT_HOLDER and nothing changes. -/
def Obligations.ReleaseByANonHolder : Prop :=
  ∀ (s : State) (k : HostId) (req : Request) (live : Bool) (l : LaneId),
    s.waits k .release req live → (byteAt req.params 0).toNat = l.val → (s.lease l).holder ≠ some k →
    ∃ t, exec (.release k) s = .next t ∧
      if ∃ w ∈ (s.lease l).waiters, w.host = k then
        t = { s with
          links := t.links,
          leases := s.leases.upd l { (s.lease l) with waiters := (s.lease l).waiters.filter (fun w => w.host != k) } } ∧
        s.answered t k req live { status := .waitCancelled, results := [] }
      else s.refused t k req live .notHolder

/-- A lease end by RELEASE from the holder (R46) or by expiry (R45) drains the lane, returns the configuration to its defaults, and gives
the lane to the head of the waiter list under a fresh lease, or leaves it OFF (R49, R50). The expiry is taken where the lease tick that
ends the lease has come (R36, R45, log 10), and LEASE_LOST comes before what the drain posts. What the drain does is stated apart. The
numbers of the Lease Controller's posts are the model's (log 7). -/
def Obligations.LeaseEndPassesTheLane : Prop :=
  (∀ (s : State) (k : HostId) (req : Request) (live : Bool), s.waits k .release req live →
    ∃ t, exec (.release k) s = .next t ∧
      match decodeLane (byteAt req.params 0) with
      | none => s.refused t k req live .badParam
      | some l =>
        (s.lease l).holder = some k →
        (∃ u, (s.drain l true).passedOn u l ∧ t = { u with links := t.links }) ∧
        s.answered t k req live (okReply [])) ∧
  (∀ (s : State) (l : LaneId) (k : HostId), (s.lease l).holder = some k → (s.lease l).expiring = true →
    let u : State := { s with
      posts := s.posts ++ [{ host := k, stamp := s.time.timestamp, event := .leaseLost l .expired,
                             rank := s.orderCount, after := none, order := none }],
      orderCount := s.orderCount + 1 }
    ∃ t, exec (.leaseExpiry l) s = .next t ∧ (u.drain l true).passedOn t l) ∧
  (∀ (s : State) (l : LaneId), (s.lease l).holder = none ∨ (s.lease l).expiring = false →
    exec (.leaseExpiry l) s = .next s)

/-- The drain at lease end (R80): the lane leaves any waiter list; its current entry and then those queued end LEASE_ENDED, each releasing
its reference and, unless the cause is WITHDRAWN, posting ENTRY_DONE to its host; no mark is set; the lane goes OFF with its lines and
STB undriven. A lane that a mark has just released has proceeded when the drain takes it (R81, log 9). The drain order and then each
ENTRY_DONE take the next number, and each release stands behind the posts presented before it (R150, log 7). Premise: the invariant of
lanes and marks. -/
def Obligations.DrainEndsEveryEntry : Prop :=
  (∀ (s : State) (l : LaneId) (report : Bool), s.lanesOk → (∀ x a, (s.lane l).state ≠ .released x a) →
    s.drain l report = { s with
      lanes := s.lanes.upd l Lane.reset,
      claims := s.claims.upd l
        (s.claimsOf l ++ endReleases (some s.orderCount) report (s.orderCount + 1) (s.lane l).queue),
      posts := s.posts ++
        (if report then
          (s.lane l).endPosts l s.time.timestamp .leaseEnded .leaseEnded (some s.orderCount) (s.orderCount + 1)
        else []),
      orderCount := s.orderCount + 1 + (if report then (s.lane l).queue.length else 0),
      marks := s.marks.map (fun m => { m with waiters := m.waiters.filter (fun w => w.1 != l) }) }) ∧
  ∀ (s : State) (l : LaneId) (report : Bool) (x : Stamp) (a : Option (LaneId × Nat)) (e : Entry) (rest : List Entry),
    (s.lane l).state = .released x a → (s.lane l).queue = e :: rest →
    s.drain l report = (s.proceed l e x a).drain l report

/-- CONFIGURE makes its checks in order (R51), accepted in IDLE (0x01), HOLDING (0x05) and FAULTED (0x06), and replaces the configuration as
a whole; STB moves to the inactive level of the new polarity, and a lane that shows its park word shows the new one, line i driven to
data bit i where enable bit i is 1 (R52). -/
def Obligations.ConfigureReachesTheLines : Prop :=
  ∀ (s : State) (k : HostId) (req : Request) (live : Bool), s.waits k .configure req live →
    ∃ t, exec (.configure k) s = .next t ∧
      let park := wordAt req.params 1
      match decodeLane (byteAt req.params 0), decodePolarity (byteAt req.params 3), decodePolarity (byteAt req.params 4) with
      | some l, some stbPol, some rtnPol =>
        let ln := s.lane l
        if (s.lease l).holder ≠ some k then s.refused t k req live .notHolder
        else if laneStateByte ln.state ∉ ([0x01, 0x05, 0x06] : List Byte) then
          s.refused t k req live .wrongState
        else
          let shows := ln.state = .idle ∨ ln.state = .holding .outOfIdle ∨ ln.state = .holding .outOfMarkwait ∨
            ln.state = .holding .betweenEntries
          t = { s with
            links := t.links,
            leases := s.leases.upd l { (s.lease l) with park := park, stbPol := stbPol, rtnPol := rtnPol },
            lanes := s.lanes.upd l { ln with
              stb := if stbPol = .activeHigh then .low else .high,
              drive := (t.lane l).drive } } ∧
          (shows → (t.lane l).drive.driven = park.extractLsb' 8 8 ∧
            ∀ i, i < 8 → (t.lane l).drive.level.getLsbD i = (park.getLsbD i && park.getLsbD (8 + i))) ∧
          (¬shows → (t.lane l).drive = ln.drive) ∧
          s.answered t k req live (okReply [])
      | _, _, _ => s.refused t k req live .badParam

/-- REVOKE (R182, R56, R183): only the supervisor may; accepted, LEASE_LOST (REVOKED) is posted to the former holder, the lane drains and its
references are released to the Segment Manager and taken (R183, log 11), and the lane goes to the grant-to host, with the duration of
its waiting claim or 1000 ms, or else to the head of the waiter list. The numbers of the Lease Controller's posts are the model's (log
7). -/
def Obligations.RevokeMovesTheLane : Prop :=
  ∀ (s : State) (k : HostId) (req : Request) (live : Bool), s.waits k .revoke req live →
    ∃ t, exec (.revoke k) s = .next t ∧
      let laneByte := (byteAt req.params 0).toNat
      let hostCode := (byteAt req.params 1).toNat
      if s.supervisor ≠ some k then s.refused t k req live .notPermitted
      else if 3 < laneByte ∨ (2 < hostCode ∧ hostCode ≠ 255) then s.refused t k req live .badParam
      else ∃ l : LaneId, laneByte = l.val ∧
        match (s.lease l).holder with
        | none => s.refused t k req live .wrongState
        | some former =>
          let told : State := { s with
            posts := s.posts ++ [{ host := former, stamp := s.time.timestamp, event := .leaseLost l .revoked,
                                   rank := s.orderCount, after := none, order := none }],
            orderCount := s.orderCount + 1 }
          let u := (told.drain l true).settleClaims l
          let ws := (s.lease l).waiters
          if hostCode = 255 then
            (∃ v, u.passedOn v l ∧ t = { v with links := t.links }) ∧
            s.answered t k req live
              (okReply [byteOf former.val, hostByte (ws.head?.map (fun w => w.host))])
          else ∃ h : HostId, hostCode = h.val ∧
            let d := ((ws.find? (fun w => w.host == h)).map (fun w => w.duration)).getD 1000
            t = { u with
              links := t.links,
              leases := u.leases.upd l { Lease.reset with
                holder := some h, duration := d, remaining := d, waiters := ws.filter (fun w => w.host != h) },
              lanes := u.lanes.upd l { Lane.reset with state := .idle, stb := .low },
              posts := u.posts ++ [{ host := h, stamp := s.time.timestamp, event := .leaseGranted l d,
                                     rank := u.orderCount, after := none, order := none }],
              orderCount := u.orderCount + 1 } ∧
            s.answered t k req live (okReply [byteOf former.val, byteOf h.val])

/-! ## Requests of the lane sequencers -/

/-- ENQUEUE makes its checks in order: holder, fields, timing (R64), and the reference take against the store as the lane's earlier claims
leave it (R23, R121, log 11), a lane that a mark has just released having proceeded (log 9). Accepted, refs rises by 1, the entry joins
the tail, and on an IDLE lane entry start runs at once (R65, R66); the response gives the place in the queue and the timing, its unit by
the codes 0 to 3 for 100 ns, 1 us, 10 us and 100 us (R200). The fields are read by table 10-5 (R198). And each of the six lane
requests that names no lane and waits, the port having held it back, is refused BAD_PARAM (R37, R173; DEDUCED, log 25). -/
def Obligations.EnqueueQueuesOrStarts : Prop :=
  (∀ (s : State) (k : HostId) (req : Request) (live : Bool) (l : LaneId),
    s.waits k .enqueue req live → (byteAt req.params 0).toNat = l.val →
    ∃ t, exec (.enqueue k) s = .next t ∧
      if (s.lease l).holder ≠ some k then s.refused t k req live .notHolder
      else match decodeEntry req.params with
      | none => s.refused t k req live .badParam
      | some f =>
        match encodeTiming f.period f.strobe with
        | none => s.refused t k req live .badTiming
        | some timing =>
          let u := (s.settleRelease l).settleClaims l
          let ln := u.lane l
          match u.store.handleCheck f.segment with
          | .error x => u.refused t k req live x
          | .ok i =>
            let g := u.store.entry i
            let e : Entry :=
              { id := u.nextEntryId, pacing := f.pacing, segment := f.segment, offset := f.offset, count := f.count,
                repeats := f.repeats, timing := timing, stallLimit := f.stallLimit, waitMark := f.waitMark,
                postMark := f.postMark, tag := f.tag, notifyStart := f.notifyStart, host := k }
            let v := { u with
              store := { u.store with table := u.store.table.upd i { g with refs := g.refs + 1 } },
              nextEntryId := u.nextEntryId + 1,
              lanes := u.lanes.upd l { ln with queue := ln.queue ++ [e] } }
            if pacingKind f.pacing = .output ∧ g.state ≠ .published then u.refused t k req live .wrongState
            else if pacingKind f.pacing = .output ∧ g.owner ≠ k ∧ g.visibility = .hidden then
              u.refused t k req live .notVisible
            else if pacingKind f.pacing = .capture ∧ g.owner ≠ k then u.refused t k req live .notOwner
            else if pacingKind f.pacing = .capture ∧ g.state ≠ .opened then u.refused t k req live .wrongState
            else if pacingKind f.pacing = .output ∧ g.length < f.offset + f.count then u.refused t k req live .badRange
            else if 8 ≤ ln.queue.length then u.refused t k req live .queueFull
            else
              t = { (if ln.state = .idle then v.entryStart l else v) with links := t.links } ∧
              let unit : Byte := match timing.unit with | .ns100 => 0x00 | .us1 => 0x01 | .us10 => 0x02 | .us100 => 0x03
              s.answered t k req live (okReply
                [byteOf (ln.queue.length + 1), unit, BitVec.ofNat 8 timing.period, BitVec.ofNat 8 timing.strobe])) ∧
  (∀ p : List Byte,
    let field := fun i => byteAt p i
    let fits :=
      ((field 1 = 0 ∧ (field 17).toNat ≤ 2) ∨
        (field 1 = 1 ∧ 0x10 ≤ (field 17).toNat ∧ (field 17).toNat ≤ 0x12 ∧ u16At p 4 = 0 ∧ field 8 = 1)) ∧
      u16At p 4 ≤ 16383 ∧ 1 ≤ u16At p 6 ∧ u16At p 6 ≤ 16384 ∧ (field 20 = 0 ∨ field 20 &&& 0xF0 = 0x80) ∧
      (field 21 = 0 ∨ field 21 &&& 0xF8 = 0x80) ∧ (field 24).toNat ≤ 1
    match decodeEntry p with
    | none => ¬fits
    | some f =>
      fits ∧
      (match f.pacing with
        | .free => 0x00 | .ready => 0x01 | .ack => 0x02 | .step => 0x10 | .change => 0x11 | .rtnEdge => 0x12) = field 17 ∧
      f.segment = ⟨field 2, field 3⟩ ∧ f.offset = u16At p 4 ∧ f.count = u16At p 6 ∧ f.repeats = (field 8).toNat ∧
      f.period = u32At p 9 ∧ f.strobe = u32At p 13 ∧ f.stallLimit = u16At p 18 ∧
      (match f.waitMark with
        | none => 0x00
        | some (m, mode) => 0x80 + byteOf m.val + (match mode with | .pass => 0x00 | .take => 0x08)) = field 20 ∧
      (match f.postMark with
        | none => 0x00
        | some m => 0x80 + byteOf m.val) = field 21 ∧
      f.tag = wordAt p 22 ∧ (f.notifyStart = true ↔ field 24 = 1)) ∧
  ∀ (s : State) (k : HostId) (req : Request) (live : Bool) (kind : RequestKind),
    kind ∈ [RequestKind.enqueue, .flush, .abort, .hold, .resume, .retime] → s.waits k kind req live →
    3 < (byteAt req.params 0).toNat →
    ∃ t, exec (requestCommand k kind) s = .next t ∧ s.refused t k req live .badParam

/-- FLUSH (R78): every entry that is not current ends FLUSHED, head to tail, each with its ENTRY_DONE and its reference release; the
current entry and everything else of the lane stay, and the response counts the entries ended. A lane that a mark has just released has
proceeded when the FLUSH is taken (the model's choice, log 9). Each ENTRY_DONE takes the next number (log 7). -/
def Obligations.FlushEndsQueuedEntries : Prop :=
  ∀ (s : State) (k : HostId) (req : Request) (live : Bool) (l : LaneId),
    s.waits k .flush req live → (byteAt req.params 0).toNat = l.val →
    ∃ t, exec (.flush k) s = .next t ∧
      let u := s.settleRelease l
      let ln := u.lane l
      let kept := if ln.state.hasCurrent then ln.queue.take 1 else []
      let ended := if ln.state.hasCurrent then ln.queue.drop 1 else ln.queue
      if (s.lease l).holder ≠ some k then s.refused t k req live .notHolder
      else
        t = { u with
          links := t.links,
          lanes := u.lanes.upd l { ln with queue := kept },
          claims := u.claims.upd l
            (u.claimsOf l ++ ended.mapIdx (fun i e => .release e.segment (u.orderCount + i + 1) none)),
          posts := u.posts ++ ended.mapIdx (fun i e =>
            { host := e.host, stamp := s.time.timestamp, event := .entryDone l e.segment e.tag .flushed 0 false,
              rank := u.orderCount + i, after := none, order := none }),
          orderCount := u.orderCount + ended.length } ∧
        s.answered t k req live (okReply [byteOf ended.length])

/-- ABORT (R112): the lane leaves any waiter list, its current entry ends ABORTED and those queued FLUSHED, each with its ENTRY_DONE and its
reference release, no mark is set, and the lane goes IDLE with an empty queue at its park word, STB inactive. A lane that a mark has
just released has proceeded when the ABORT is taken (R113, log 9). Premise: the invariant of lanes and marks. -/
def Obligations.AbortEmptiesTheLane : Prop :=
  ∀ (s : State) (k : HostId) (req : Request) (live : Bool) (l : LaneId),
    s.lanesOk → s.waits k .abort req live → (byteAt req.params 0).toNat = l.val →
    ∃ t, exec (.abort k) s = .next t ∧
      let u := s.settleRelease l
      let ln := u.lane l
      if (s.lease l).holder ≠ some k then s.refused t k req live .notHolder
      else
        t = { u with
          links := t.links,
          lanes := u.lanes.upd l { Lane.reset with
            state := .idle, drive := Drive.ofWord (s.lease l).park, stb := stbInactive (s.lease l).stbPol },
          claims := u.claims.upd l (u.claimsOf l ++ endReleases none true u.orderCount ln.queue),
          posts := u.posts ++ ln.endPosts l s.time.timestamp .aborted .flushed none u.orderCount,
          orderCount := u.orderCount + ln.queue.length,
          marks := u.marks.map (fun m => { m with waiters := m.waiters.filter (fun w => w.1 != l) }) } ∧
        s.answered t k req live (okReply
          (if ln.state.hasCurrent then [1, byteOf (ln.queue.length - 1)] else [0, byteOf ln.queue.length]))

/-- HOLD by the lane state (R105, R107, R128): a request that waits in RUNNING; HOLDING at once in STALLED, MARKWAIT and IDLE, in the form
that RESUME needs, the lane off any waiter list and its timers discarded; no change in HOLDING; refused in FAULTED. A lane that a mark
has just released has proceeded when the HOLD is taken (the model's choice, log 9). -/
def Obligations.HoldByLaneState : Prop :=
  ∀ (s : State) (k : HostId) (req : Request) (live : Bool) (l : LaneId),
    s.waits k .hold req live → (byteAt req.params 0).toNat = l.val →
    ∃ t, exec (.hold k) s = .next t ∧
      let u := s.settleRelease l
      let ln := u.lane l
      let goes := fun (v : Lane) =>
        t = { u with links := t.links, lanes := u.lanes.upd l v } ∧ s.answered t k req live (okReply [])
      if (s.lease l).holder ≠ some k then s.refused t k req live .notHolder
      else match ln.state with
        | .running => goes { ln with holdRequest := true }
        | .stalled =>
          let ready : Bool := match ln.queue with | e :: _ => e.pacing == .ready | [] => false
          goes { ln with
            state := .holding (if ready then .atBoundary else .inWait), stallTimer := none, inactiveAt := none,
            capture := { ln.capture with timer := none } }
        | .markwait =>
          t = { u with
            links := t.links,
            lanes := u.lanes.upd l { ln with state := .holding .outOfMarkwait },
            marks := u.marks.map (fun m => { m with waiters := m.waiters.filter (fun w => w.1 != l) }) } ∧
          s.answered t k req live (okReply [])
        | .idle => goes { ln with state := .holding .outOfIdle }
        | .holding _ => goes ln
        | .faulted _ => u.refused t k req live .wrongState
        | _ => True

/-- RESUME by the lane state (R109 to R111, R123, R129): a pending hold request is cleared; within an entry the deferred boundary, the ACK
wait or the edge watch begins now, or a complete capture ends; out of MARKWAIT the wait is offered again; between entries, out of IDLE
and in FAULTED entry start runs, the faulted word having left the lines (log 14); else it is refused. That the wait or watch makes its
first judgement of RTN at the tick of the RESUME is DEDUCED (log 15). A lane that a mark has just released has proceeded when the RESUME
is taken (the model's choice, log 9). -/
def Obligations.ResumeByLaneState : Prop :=
  ∀ (s : State) (k : HostId) (req : Request) (live : Bool) (l : LaneId),
    s.waits k .resume req live → (byteAt req.params 0).toNat = l.val →
    ∃ t, exec (.resume k) s = .next t ∧
      let u := s.settleRelease l
      let ln := u.lane l
      let becomes := fun (v : State) => t = { v with links := t.links } ∧ s.answered t k req live (okReply [])
      if (s.lease l).holder ≠ some k then s.refused t k req live .notHolder
      else match ln.state, ln.queue with
        | .running, _ =>
          if ln.holdRequest then becomes { u with lanes := u.lanes.upd l { ln with holdRequest := false } }
          else u.refused t k req live .wrongState
        | .holding .atBoundary, e :: _ =>
          if e.kind = .capture ∧ e.count ≤ ln.words then becomes (u.endAndGoOn l .complete)
          else becomes (u.attemptBoundary l e)
        | .holding .inWait, e :: _ =>
          if e.kind = .capture ∧ e.count ≤ ln.words then becomes (u.endAndGoOn l .complete)
          else if e.kind = .capture then
            becomes { u with lanes := u.lanes.upd l { ln with
              state := .stalled, inactiveAt := if s.rtnActive l then none else some s.now,
              capture := { ln.capture with timer := some s.now } } }
          else
            becomes { u with lanes := u.lanes.upd l { ln with
              state := .stalled, inactiveAt := if s.rtnActive l then none else some s.now,
              stallTimer := some s.now } }
        | .holding .outOfMarkwait, e :: _ => becomes (u.offerWait l e)
        | .holding .betweenEntries, _ => becomes (u.entryStart l)
        | .holding .outOfIdle, _ => becomes (u.entryStart l)
        | .faulted _, _ =>
          becomes (State.entryStart { u with lanes := u.lanes.upd l { ln with
            state := .idle, drive := Drive.ofWord (s.lease l).park, stb := stbInactive (s.lease l).stbPol } } l)
        | .stalled, _ => u.refused t k req live .wrongState
        | .markwait, _ => u.refused t k req live .wrongState
        | .idle, _ => u.refused t k req live .wrongState
        | _, _ => True

/-- RETIME makes its checks in order (R102) and, accepted, stores the encoding as staged timing; nothing else is changed by it, but that a
lane that a mark has just released has first proceeded (section 6.3; the model's choice, log 9). The response gives the code of the unit,
0 to 3 for 100 ns, 1 us, 10 us and 100 us, and the two mantissas (R200). -/
def Obligations.RetimeStagesTiming : Prop :=
  ∀ (s : State) (k : HostId) (req : Request) (live : Bool) (l : LaneId),
    s.waits k .retime req live → (byteAt req.params 0).toNat = l.val →
    ∃ t, exec (.retime k) s = .next t ∧
      let u := s.settleRelease l
      let ln := u.lane l
      if (s.lease l).holder ≠ some k then s.refused t k req live .notHolder
      else match encodeTiming (u32At req.params 1) (u32At req.params 5) with
        | none => u.refused t k req live .badTiming
        | some timing =>
          match ln.state.hasCurrent, ln.queue with
          | true, e :: _ =>
            if e.pacing = .rtnEdge then u.refused t k req live .wrongState
            else if ln.staged ≠ none then u.refused t k req live .busy
            else
              t = { u with links := t.links, lanes := u.lanes.upd l { ln with staged := some timing } } ∧
              let unit : Byte := match timing.unit with | .ns100 => 0x00 | .us1 => 0x01 | .us10 => 0x02 | .us100 => 0x03
              s.answered t k req live
                { status := .staged, results := [unit, BitVec.ofNat 8 timing.period, BitVec.ofNat 8 timing.strobe] }
          | _, _ => u.refused t k req live .nothingPlaying

/-- The timing encoding of a period p and a strobe q, both in ns (R84, R85): refused outside 400 ns to 25.5 ms; else the smallest of the four
units in which the period's mantissa is at most 255, mantissas rounded up, the period's at least 4 for 100 ns and 26 for the other
units; refused where the strobe's mantissa is not below the period's. -/
def Obligations.TimingEncodingRoundsUp : Prop :=
  ∀ p q : Nat,
    if p < 400 ∨ 25500000 < p then encodeTiming p q = none
    else ∃ u : TimeUnit,
      ceilDiv p (unitNs u) ≤ 255 ∧ (∀ v, unitNs v < unitNs u → 255 < ceilDiv p (unitNs v)) ∧
      (if u = .ns100 then 4 else 26) ≤ ceilDiv p (unitNs u) ∧
      p ≤ ceilDiv p (unitNs u) * unitNs u ∧ ceilDiv p (unitNs u) * unitNs u < p + unitNs u ∧
      q ≤ ceilDiv q (unitNs u) * unitNs u ∧ ceilDiv q (unitNs u) * unitNs u < q + unitNs u ∧
      encodeTiming p q =
        if ceilDiv p (unitNs u) ≤ ceilDiv q (unitNs u) then none
        else some { unit := u, period := ceilDiv p (unitNs u), strobe := ceilDiv q (unitNs u) }

/-! ## Boundaries, waits and ends of the lanes -/

/-- The boundary of an output entry (R86 to R89, R103). At its scheduled point it drives the next word of the pass, line i to data bit i
where enable bit i is 1, counts it, starts the STB pulse, and sets the next point one period on; staged timing takes effect there. A
pending hold request defers it (R106), and under READY an inactive RTN stalls it (R90), that tick's judgement being made (R83). Before
the point nothing happens. That an ACK wait begun here, with strobe 0, makes its first judgement of RTN at this tick is DEDUCED (log
15). -/
def Obligations.OutputBoundaryDrivesTheWord : Prop :=
  (∀ (s : State) (l : LaneId) (e : Entry),
    let ln := s.lane l
    let timing := ln.staged.getD (ln.timing.getD e.timing)
    let pol := (s.lease l).stbPol
    let word := s.segmentWord e.segment (e.offset + ln.passWords)
    let waits := e.pacing = .ack ∧ timing.strobe = 0
    s.driveWord l e = { s with lanes := s.lanes.upd l { ln with
      state := if waits then .stalled else .running,
      timing := some timing, staged := none, point := some (s.now + periodTicks timing), acked := false,
      stallTimer := if waits then some s.now else none,
      inactiveAt := if waits then (if s.rtnActive l then none else some s.now) else none,
      drive := { driven := word.extractLsb' 8 8, level := word.extractLsb' 0 8 &&& word.extractLsb' 8 8 },
      stb := if timing.strobe = 0 then stbInactive pol else stbActive pol,
      pulseEnd := if timing.strobe = 0 then none else some (s.now + strobeTicks timing),
      words := min (ln.words + 1) 65535, passWords := ln.passWords + 1 } }) ∧
  (∀ (s : State) (l : LaneId) (e : Entry) (rest : List Entry) (p : Nat),
    let ln := s.lane l
    ln.state = .running → ln.queue = e :: rest → e.kind = .output → ln.point = some p → ln.passWords < e.count →
    (e.pacing = .ack → ln.acked = true) →
    exec (.stepBoundary l) s = .next
      (if s.now < p then s
      else if ln.holdRequest then
        { s with
          lanes := s.lanes.upd l { ln with state := .holding .atBoundary, holdRequest := false, stallTimer := none } }
      else if e.pacing = .ready ∧ s.rtnActive l = false then
        { s with lanes := s.lanes.upd l { ln with
            state := .stalled, stallTimer := some s.now, inactiveAt := some s.now } }
      else s.driveWord l e))

/-- The boundary of a STEP or CHANGE capture (R116 to R118, R121). At its scheduled point the data lines are sampled and STB marks the sample;
under STEP each sample is presented as an append with elapsed count 0 for the first and 1 after; under CHANGE the first, one that differs
from the last kept, and one at boundary count 255, with the boundary count. A hold request defers it (R128). -/
def Obligations.CaptureBoundarySamples : Prop :=
  (∀ (s : State) (l : LaneId) (e : Entry), e.pacing = .step ∨ e.pacing = .change →
    let ln := s.lane l
    let c := ln.capture
    let timing := ln.staged.getD (ln.timing.getD e.timing)
    let pol := (s.lease l).stbPol
    let sample := (s.pinsOf l).data
    let count := if c.lastKept = none then 0 else min 255 (c.boundaryCount + 1)
    let keeps := e.pacing = .step ∨ c.lastKept ≠ some sample ∨ count = 255
    let elapsed := if c.lastKept = none then 0 else if e.pacing = .step then 1 else count
    let word : Word := byteOf elapsed ++ sample
    s.sampleBoundary l e = { s with
      claims := if keeps then s.claims.upd l (s.claimsOf l ++ [.append e.segment e.id word]) else s.claims,
      lanes := s.lanes.upd l { ln with
        state := .running, timing := some timing, staged := none, point := some (s.now + periodTicks timing),
        acked := false, stallTimer := none, inactiveAt := none,
        stb := if timing.strobe = 0 then stbInactive pol else stbActive pol,
        pulseEnd := if timing.strobe = 0 then none else some (s.now + strobeTicks timing),
        capture := { c with
          boundaryCount := if e.pacing = .change then count else c.boundaryCount,
          pendingAppend := if keeps then some word else c.pendingAppend } } }) ∧
  (∀ (s : State) (l : LaneId) (e : Entry) (rest : List Entry) (p : Nat),
    let ln := s.lane l
    ln.state = .running → ln.queue = e :: rest → e.pacing = .step ∨ e.pacing = .change → ln.point = some p →
    ln.words < e.count → ln.capture.pendingAppend = none →
    exec (.stepBoundary l) s = .next
      (if s.now < p then s
      else if ln.holdRequest then
        { s with
          lanes := s.lanes.upd l { ln with state := .holding .atBoundary, holdRequest := false, stallTimer := none } }
      else s.sampleBoundary l e))

/-- The end of an STB pulse (R87): STB returns to its inactive level. Under ACK pacing the lane then waits for its edge (R93), under RTN_EDGE
the watch begins, or a complete capture ends (R119, R123); a pending hold request makes it HOLDING in that wait instead (R106, R128).
That the wait or watch makes its first judgement of RTN at this tick is DEDUCED (log 15). -/
def Obligations.StrobeEndStartsTheWait : Prop :=
  ∀ (s : State) (l : LaneId),
    let ln := s.lane l
    let off := { ln with stb := stbInactive (s.lease l).stbPol, pulseEnd := none }
    let becomes := fun (v : Lane) => { s with lanes := s.lanes.upd l v }
    let held := { off with state := .holding .inWait, holdRequest := false, stallTimer := none }
    exec (.strobeEnd l) s = .next
      (match ln.pulseEnd with
      | none => s
      | some p =>
        if s.now < p then s
        else match ln.state, ln.queue with
          | .running, e :: _ =>
            (match e.pacing with
            | .ack =>
              if ln.holdRequest then becomes held
              else becomes { off with
                state := .stalled, stallTimer := some s.now, inactiveAt := if s.rtnActive l then none else some s.now }
            | .rtnEdge =>
              if e.count ≤ ln.words then (becomes off).endAndGoOn l .complete
              else if ln.holdRequest then becomes held
              else becomes { off with
                state := .stalled, inactiveAt := if s.rtnActive l then none else some s.now,
                capture := { ln.capture with timer := some s.now } }
            | _ => becomes off)
          | _, _ => becomes off)

/-- RTN becoming active lets a boundary STALLED under READY happen (R91); the acknowledging edge of a lane STALLED under ACK is the pass end
for the last word, and else lets the next boundary fall at the later of the edge and the scheduled point (R94, R97). A lane makes one
judgement of RTN a tick, so neither happens at a tick at which it has judged RTN inactive, and an edge needs an inactive judgement at
an earlier tick (R83). Else, and on a lane that does not watch for it, the line moves and nothing else. -/
def Obligations.RtnEndsStalls : Prop :=
  (∀ (s : State) (l : LaneId) (e : Entry) (rest : List Entry),
    let ln := s.lane l
    let u := s.setPins l { (s.pinsOf l) with rtn := (s.lease l).rtnPol == .activeHigh }
    (ln.state = .stalled → ln.queue = e :: rest → e.pacing = .ready → ln.inactiveAt ≠ some s.now →
      exec (.rtnReadyActive l) s = .next (u.driveWord l e)) ∧
    (ln.state ≠ .stalled ∨ (ln.queue = e :: rest ∧ e.pacing ≠ .ready) ∨ ln.inactiveAt = some s.now →
      exec (.rtnReadyActive l) s = .next u)) ∧
  (∀ (s : State) (l : LaneId) (e : Entry) (rest : List Entry),
    let ln := s.lane l
    let u := s.setPins l { (s.pinsOf l) with rtn := (s.lease l).rtnPol == .activeHigh }
    let v := { u with
      lanes := u.lanes.upd l { ln with state := .running, acked := true, stallTimer := none, inactiveAt := none } }
    (ln.state = .stalled → ln.queue = e :: rest → e.pacing = .ack →
      (∃ n, ln.inactiveAt = some n ∧ n ≠ s.now) → ln.holdRequest = false →
      exec (.ackEdge l) s = .next
        (if e.count ≤ ln.passWords then u.takePassEnd l e
        else match ln.point with
          | some p => if p ≤ s.now then v.driveWord l e else v
          | none => v)) ∧
    (ln.state ≠ .stalled ∨ (ln.queue = e :: rest ∧ e.pacing ≠ .ack) ∨ ln.inactiveAt = none ∨
        ln.inactiveAt = some s.now →
      exec (.ackEdge l) s = .next u))

/-- A stall timer that has counted the entry's stall limit in units of 100 ticks ends the entry READY_TIMEOUT or ACK_TIMEOUT (R92, R95, R96): no
mark is set, ENTRY_DONE carries the words and the "retime discarded" mark, the reference is released, and the lane goes FAULTED with
its queue and its lines kept and STB inactive (R100). Below the limit, or with limit 0, nothing happens. -/
def Obligations.StallLimitFaults : Prop :=
  ∀ (s : State) (l : LaneId) (e : Entry) (rest : List Entry) (start : Nat) (code : FaultCode),
    let ln := s.lane l
    let pacing := match code with | .readyTimeout => Pacing.ready | .ackTimeout => .ack
    let command := match code with | .readyTimeout => Instr.readyTimeout l | .ackTimeout => .ackTimeout l
    ln.state = .stalled → ln.queue = e :: rest → e.pacing = pacing → ln.stallTimer = some start →
    exec command s = .next
      (if e.stallLimit = 0 ∨ s.now < start + 100 * e.stallLimit then s
      else { s with
        lanes := s.lanes.upd l { Lane.reset with
          state := .faulted code, queue := rest, drive := ln.drive, stb := stbInactive (s.lease l).stbPol },
        claims := s.claims.upd l (s.claimsOf l ++ [.release e.segment (s.orderCount + 1) none]),
        posts := s.posts ++
          [{ host := e.host, stamp := s.time.timestamp,
             event := .entryDone l e.segment e.tag (faultOutcome code) ln.words ln.staged.isSome,
             rank := s.orderCount, after := none, order := none }],
        orderCount := s.orderCount + 1 })

/-- The pass end of an output entry (R71, R72): after the last pass, or for a loop entry with a successor, the entry ends COMPLETE; else the
pass rises and its first boundary falls here, unless a hold request defers it (R106). Under FREE and READY pacing it falls at the
scheduled point after the last word (R97). -/
def Obligations.PassEndTaken : Prop :=
  (∀ (s : State) (l : LaneId) (e : Entry),
    let ln := s.lane l
    let last := if e.repeats = 0 then 1 < ln.queue.length else e.repeats ≤ ln.pass
    let next := { ln with pass := min (ln.pass + 1) 65535, passWords := 0, stallTimer := none }
    s.takePassEnd l e =
      if last then s.endAndGoOn l .complete
      else if ln.holdRequest then
        { s with lanes := s.lanes.upd l { next with state := .holding .atBoundary, holdRequest := false } }
      else State.attemptBoundary { s with lanes := s.lanes.upd l next } l e) ∧
  (∀ (s : State) (l : LaneId) (e : Entry) (rest : List Entry) (p : Nat),
    let ln := s.lane l
    ln.state = .running → ln.queue = e :: rest → e.pacing = .free ∨ e.pacing = .ready → ln.point = some p →
    e.count ≤ ln.passWords →
    exec (.passEnd l) s = .next (if s.now < p then s else s.takePassEnd l e))

/-- The end of a current entry that neither faults nor is aborted or drained (R74, R76): the lane has no current entry; for COMPLETE the
post mark is set; ENTRY_DONE is posted with the words and the "retime discarded" mark; the reference is released; then the lane goes
HOLDING between entries at its park word where a hold request is pending, and else entry start runs. The capture timer's limit ends
an RTN_EDGE capture so (R120), and the end point a complete STEP or CHANGE capture (R123). A capture, which has no word to leave on the
lines, leaves the park word there until what follows takes them (R99; DEDUCED, log 14). The lanes that the post mark releases proceed in
their own events (log 9), and what they then post stands behind what this lane posted before (R150, log 7). -/
def Obligations.EntryEndThenGoesOn : Prop :=
  (∀ (s : State) (l : LaneId) (e : Entry) (rest : List Entry) (o : EndOutcome), (s.lane l).queue = e :: rest →
    let ln := s.lane l
    let park := (s.lease l).park
    let stb := stbInactive (s.lease l).stbPol
    let cleared := { Lane.reset with
      state := .idle, queue := rest, holdRequest := ln.holdRequest,
      drive := if e.kind = .capture then Drive.ofWord park else ln.drive, stb := stb }
    let u := { s with lanes := s.lanes.upd l cleared }
    let v : State := match o, e.postMark with
      | .complete, some m => (u.settleMark m (some (l, s.orderCount))).1
      | _, _ => u
    let w : State := { v with
      posts := v.posts ++
        [{ host := e.host, stamp := s.time.timestamp,
           event := .entryDone l e.segment e.tag o ln.words ln.staged.isSome, rank := s.orderCount, after := none,
           order := none }],
      orderCount := s.orderCount + 1,
      claims := v.claims.upd l (s.claimsOf l ++ [.release e.segment (s.orderCount + 1) none]) }
    (∀ m, ∀ x ∈ (s.mark m).waiters, x.1 ≠ l) →
    s.endAndGoOn l o =
      if ln.holdRequest then
        { w with lanes := w.lanes.upd l { cleared with
          state := .holding .betweenEntries, holdRequest := false, drive := Drive.ofWord park } }
      else w.entryStart l) ∧
  (∀ (s : State) (l : LaneId) (e : Entry) (rest : List Entry) (start : Nat),
    let ln := s.lane l
    ln.state = .stalled → ln.queue = e :: rest → e.pacing = .rtnEdge → ln.capture.timer = some start →
    exec (.captureTimeout l) s = .next
      (if e.stallLimit = 0 ∨ s.now < start + 100 * e.stallLimit then s else s.endAndGoOn l .captureTimeout)) ∧
  (∀ (s : State) (l : LaneId) (e : Entry) (rest : List Entry) (p : Nat),
    let ln := s.lane l
    ln.state = .running → ln.queue = e :: rest → e.pacing = .step ∨ e.pacing = .change → ln.point = some p →
    e.count ≤ ln.words →
    exec (.captureEndPoint l) s = .next (if s.now < p then s else s.endAndGoOn l .complete))

/-- A current entry proceeds (R70), and in its own event one that a mark released (R137): its timing takes effect, pass 1 and words 0,
ENTRY_STARTED where asked for, with the timestamp of the release and the next number (log 7); then its first boundary falls, subject to
READY pacing (R90), a stalled one leaving the lines as they are (log 14). A capture takes the lines as inputs with fresh capture state
(R114, R115), and under RTN_EDGE begins its watch (R119), its first judgement of RTN at this tick (DEDUCED, log 15). The released state
and its own event are the model's (log 9); on a lane that no mark has released the command leaves the state as it is (log 2). -/
def Obligations.EntryProceeds : Prop :=
  (∀ (s : State) (l : LaneId) (e : Entry) (stamp : Stamp) (after : Option (LaneId × Nat)),
    let ln := s.lane l
    let begun := { ln with
      state := .running, timing := some e.timing, pass := 1, words := 0, passWords := 0, acked := false }
    let posts := s.posts ++ if e.notifyStart then
      [{ host := e.host, stamp := stamp, event := .entryStarted l e.segment e.tag, rank := s.orderCount, after := after,
         order := none }] else []
    let told := { s with posts := posts, orderCount := s.orderCount + if e.notifyStart then 1 else 0 }
    let output := { told with lanes := s.lanes.upd l begun }
    let capturing := { begun with
      drive := { driven := 0, level := 0 }, stb := stbInactive (s.lease l).stbPol, capture := Capture.none }
    s.proceed l e stamp after =
      match e.pacing with
      | .free => output.driveWord l e
      | .ack => output.driveWord l e
      | .ready =>
        if s.rtnActive l then output.driveWord l e
        else { told with
          lanes := s.lanes.upd l { begun with
            state := .stalled, stallTimer := some s.now, inactiveAt := some s.now } }
      | .rtnEdge =>
        { told with
          lanes := s.lanes.upd l { capturing with
            state := .stalled, inactiveAt := if s.rtnActive l then none else some s.now,
            capture := { Capture.none with timer := some s.now } } }
      | _ => State.sampleBoundary { told with lanes := s.lanes.upd l capturing } l e) ∧
  (∀ (s : State) (l : LaneId) (e : Entry) (rest : List Entry) (stamp : Stamp)
      (after : Option (LaneId × Nat)),
    (s.lane l).state = .released stamp after → (s.lane l).queue = e :: rest →
    exec (.markReleaseProceed l) s = .next (s.proceed l e stamp after)) ∧
  ∀ (s : State) (l : LaneId), (∀ x a, (s.lane l).state ≠ .released x a) → exec (.markReleaseProceed l) s = .next s

/-- The offer of a wait (R134): on a SET mark the entry proceeds at once, a TAKE offer clearing the mark; on a CLEAR mark the lane and its mode
join the tail of the waiter list and the lane goes MARKWAIT at its park word, STB inactive (R69). Entry start makes the head of the
queue current (R67) and offers its wait; a capture on a CONDEMNED segment ends SEGMENT_GONE and the next head is started (R68), which is
judged once the lane's earlier claims have been taken (R30, log 11), a handle outside 1 to 64 counting as gone (log 20), its ENTRY_DONE
taking the next number (log 7); with no entry left the lane goes IDLE at its park word. -/
def Obligations.WaitOfferedAtEntryStart : Prop :=
  (∀ (s : State) (l : LaneId) (e : Entry),
    s.offerWait l e =
      match e.waitMark with
      | none => s.proceed l e s.time.timestamp none
      | some (m, mode) =>
        if (s.mark m).isSet then
          (match mode with
          | .pass => s.proceed l e s.time.timestamp none
          | .take => State.proceed { s with
              marks := s.marks.upd m { isSet := false, waiters := (s.mark m).waiters } } l e s.time.timestamp none)
        else { s with
          marks := s.marks.upd m { isSet := false, waiters := (s.mark m).waiters ++ [(l, mode)] },
          lanes := s.lanes.upd l { (s.lane l) with
            state := .markwait, drive := Drive.ofWord (s.lease l).park, stb := stbInactive (s.lease l).stbPol } }) ∧
  (∀ (s : State) (l : LaneId), (s.lane l).queue = [] →
    s.entryStart l = { s with lanes := s.lanes.upd l { (s.lane l) with
      state := .idle, drive := Drive.ofWord (s.lease l).park, stb := stbInactive (s.lease l).stbPol } }) ∧
  (∀ (s : State) (l : LaneId) (e : Entry) (rest : List Entry), (s.lane l).queue = e :: rest →
    let ln := s.lane l
    let u := if e.kind = .capture then s.settleClaims l else s
    let gone := e.kind = .capture ∧
      ∀ i : Slot, e.segment.handle.toNat = i.val + 1 → (u.store.entry i).state = .condemned
    (¬gone → s.entryStart l =
      State.offerWait { u with lanes := u.lanes.upd l { ln with state := .running, pass := 0, words := 0 } } l e) ∧
    (gone → s.entryStart l = State.entryStart { u with
      lanes := u.lanes.upd l { Lane.reset with
        state := .idle, queue := rest, holdRequest := ln.holdRequest, drive := ln.drive,
        stb := stbInactive (s.lease l).stbPol },
      posts := u.posts ++
        [{ host := e.host, stamp := s.time.timestamp, event := .entryDone l e.segment e.tag .segmentGone 0 false,
           rank := s.orderCount, after := none, order := none }],
      orderCount := s.orderCount + 1,
      claims := u.claims.upd l [.release e.segment (s.orderCount + 1) none] } l))

/-- An RTN edge on a lane that watches for it under RTN_EDGE (R119, R120): the data lines are sampled and presented as an append, with the
time since the previous sample in units of 100 ticks, rounded down and at most 255, and STB acknowledges; with strobe 0 the next watch
begins at the next tick. Where the lane does not watch, or has not judged RTN inactive at an earlier tick, the line moves and nothing
else (R83), so that two samples are at least 2 ticks apart. The same where an append is pending or the words stored are the entry's
count: the lane presents no more appends than these leave room for (R121). -/
def Obligations.RtnEdgeSamples : Prop :=
  ∀ (s : State) (l : LaneId) (e : Entry) (rest : List Entry),
    let ln := s.lane l
    let u := s.setPins l { (s.pinsOf l) with rtn := (s.lease l).rtnPol == .activeHigh }
    let timing := ln.timing.getD e.timing
    let pol := (s.lease l).stbPol
    let elapsed := match ln.capture.prevSample with
      | none => 0
      | some p => min 255 ((s.now - p) / 100)
    let word : Word := byteOf elapsed ++ (s.pinsOf l).data
    (ln.state = .stalled → ln.queue = e :: rest → e.pacing = .rtnEdge →
      (∃ n, ln.inactiveAt = some n ∧ n ≠ s.now) → ln.words < e.count → ln.capture.pendingAppend = none →
      exec (.rtnEdgeSample l) s = .next { u with
        claims := s.claims.upd l (s.claimsOf l ++ [.append e.segment e.id word]),
        lanes := s.lanes.upd l { ln with
          state := if timing.strobe = 0 then .stalled else .running,
          inactiveAt := none,
          stb := if timing.strobe = 0 then stbInactive pol else stbActive pol,
          pulseEnd := if timing.strobe = 0 then none else some (s.now + strobeTicks timing),
          capture := { ln.capture with
            prevSample := some s.now, pendingAppend := some word,
            timer := if timing.strobe = 0 then some (s.now + 1) else none } } }) ∧
    (ln.state ≠ .stalled ∨ (ln.queue = e :: rest ∧ e.pacing ≠ .rtnEdge) ∨ ln.inactiveAt = none ∨
        ln.inactiveAt = some s.now ∨ ln.capture.pendingAppend ≠ none ∨ (ln.queue = e :: rest ∧ e.count ≤ ln.words) →
      exec (.rtnEdgeSample l) s = .next u)

/-- The answer to a pending append acts on the capture entry that presented it (R122): STORED counts the word, which becomes the last kept
sample, and under RTN_EDGE with no pulse in progress a complete count ends the entry (R123); FULL and GONE end it SEGMENT_FULL or
SEGMENT_GONE, a lane HOLDING within it going HOLDING between entries at its park word. Any other answer is discarded (R124). -/
def Obligations.AppendAnswerActs : Prop :=
  ∀ (s : State) (l : LaneId) (a : AppendAnswer) (answers : List AppendAnswer), s.answersOf l = a :: answers →
    let ln := s.lane l
    let u := { s with answers := s.answers.upd l answers }
    let ends := fun (o : EndOutcome) =>
      match ln.state with
      | .holding _ =>
        let v := u.endCurrent l o true none
        { v with lanes := v.lanes.upd l { (v.lane l) with
          state := .holding .betweenEntries, holdRequest := false, stallTimer := none,
          drive := Drive.ofWord (s.lease l).park, stb := stbInactive (s.lease l).stbPol } }
      | _ => u.endAndGoOn l o
    exec (.appendAnswer l) s = .next
      (match ln.state.hasCurrent, ln.queue, ln.capture.pendingAppend with
      | true, e :: _, some w =>
        if e.id ≠ a.entry ∨ e.kind = .output then u
        else match a.result with
          | .full => ends .segmentFull
          | .gone => ends .segmentGone
          | .stored =>
            let words := min (ln.words + 1) 65535
            let v := { u with lanes := s.lanes.upd l { ln with
              words := words,
              capture := { ln.capture with
                lastKept := some (w.extractLsb' 0 8), boundaryCount := 0, pendingAppend := none } } }
            if e.pacing = .rtnEdge ∧ e.count ≤ words ∧ ln.pulseEnd = none ∧ ln.state = .stalled then
              v.endAndGoOn l .complete
            else v
      | _, _, _ => u)

/-! ## Marks -/

/-- A setting of a mark (R136): of a SET mark it does nothing; of a CLEAR mark it releases every PASS waiter up to and including the first TAKE
waiter, head first, leaves the rest waiting in their order, and leaves the mark SET exactly when no TAKE waiter was released. MARK_SET
is a setting, answered with the number of lanes released and the state the mark is left in (R138); no other lane changes. The released
lanes are left in the model's own state RELEASED with the timestamp of the setting, and proceed in their own event (log 9). -/
def Obligations.MarkSettingWalksTheList : Prop :=
  ∀ (s : State) (k : HostId) (req : Request) (live : Bool), s.waits k .markSet req live →
    ∃ t, exec (.markSet k) s = .next t ∧
      match decodeMark (byteAt req.params 0) with
      | none => s.refused t k req live .badParam
      | some m =>
        let ws := (s.mark m).waiters
        let passes := ws.takeWhile (fun w => w.2 == .pass)
        let others := ws.dropWhile (fun w => w.2 == .pass)
        if (s.mark m).isSet then
          t = { s with links := t.links } ∧ s.answered t k req live (okReply [0, 1])
        else
          let released := (passes ++ others.take 1).map (fun w => w.1)
          t = { s with
            links := t.links, lanes := t.lanes,
            marks := s.marks.upd m { isSet := others.isEmpty, waiters := others.drop 1 } } ∧
          (∀ l, t.lane l =
            if l ∈ released then { (s.lane l) with state := .released s.time.timestamp none } else s.lane l) ∧
          s.answered t k req live (okReply [byteOf released.length, if others.isEmpty then 1 else 0])

/-- MARK_CLEAR (R140): refused only for a mark outside M0 to M7; else the mark is CLEAR, its waiter list is not touched, no lane is released,
and the response is the state the mark had. -/
def Obligations.MarkClearTouchesNoWaiter : Prop :=
  ∀ (s : State) (k : HostId) (req : Request) (live : Bool), s.waits k .markClear req live →
    ∃ t, exec (.markClear k) s = .next t ∧
      (7 < (byteAt req.params 0).toNat → s.refused t k req live .badParam) ∧
      ∀ m : MarkId, (byteAt req.params 0).toNat = m.val →
        t = { s with
          links := t.links, marks := s.marks.upd m { isSet := false, waiters := (s.mark m).waiters } } ∧
        s.answered t k req live (okReply [if (s.mark m).isSet then 1 else 0])

/-! ## Status reports -/

/-- LANE_STATUS (R55), MARK_STATUS (R144) and DEVICE_STATUS (R180) change no state but the link's and answer the records of tables 10-4 and
10-7, with the codes of the lane states and of the two faults spelled. LANE_STATUS sees a lane that a mark has just released as it
stands once it has proceeded (the model's choice, log 9). -/
def Obligations.StatusReportsChangeNoState : Prop :=
  (∀ (s : State) (k : HostId) (req : Request) (live : Bool), s.waits k .laneStatus req live →
    ∃ t, exec (.laneStatus k) s = .next t ∧
      match decodeLane (byteAt req.params 0) with
      | none => s.refused t k req live .badParam
      | some l =>
        let r := s.lease l
        let ln := (s.settleRelease l).lane l
        let host := fun (i : Nat) => match r.waiters[i]? with | some w => byteOf w.host.val | none => 0xFF
        let state : Byte := match ln.state with
          | .off => 0x00 | .idle => 0x01 | .markwait => 0x02 | .released .. => 0x03 | .running => 0x03 | .stalled => 0x04
          | .holding _ => 0x05 | .faulted _ => 0x06
        let fault : Byte := match ln.state with
          | .faulted .readyTimeout => 0x05
          | .faulted .ackTimeout => 0x06
          | _ => 0x00
        let current := match ln.state.hasCurrent, ln.queue with
          | true, e :: _ => some e
          | _, _ => none
        t = { s with links := t.links } ∧
        s.answered t k req live (okReply
          ([state, fault, hostByte r.holder, host 0, host 1, byteOf ln.queue.length,
            (if current.isSome then 0x01 else 0x00) ||| (if ln.staged.isSome then 0x02 else 0x00)] ++
          (match current with
            | some e => le16 e.tag.toNat ++ le16 ln.pass ++ le16 ln.words
            | none => [0, 0, 0, 0, 0, 0]) ++ le16 r.remaining))) ∧
  (∀ (s : State) (k : HostId) (req : Request) (live : Bool), s.waits k .markStatus req live →
    ∃ t, exec (.markStatus k) s = .next t ∧ t = { s with links := t.links } ∧
      s.answered t k req live (okReply ((List.finRange 8).flatMap (fun m =>
        let waiter := fun (i : Nat) => match (s.mark m).waiters[i]? with
          | some (l, mode) => byteOf l.val ||| (match mode with | .pass => 0x00 | .take => 0x80)
          | none => 0xFF
        [if (s.mark m).isSet then 1 else 0, waiter 0, waiter 1, waiter 2, waiter 3])))) ∧
  (∀ (s : State) (k : HostId) (req : Request) (live : Bool), s.waits k .deviceStatus req live →
    ∃ t, exec (.deviceStatus k) s = .next t ∧ t = { s with links := t.links } ∧
      let inState := fun x => byteOf (slots.countP (fun i => (s.store.entry i).state == x))
      s.answered t k req live (okReply
        ([0x04, 0x32, 0x01, hostByte s.supervisor] ++ le16 s.store.pool.length ++ le16 (s.store.pool.headD 0xFFFF) ++
          le16 (s.store.usage 0) ++ le16 (s.store.usage 1) ++ le16 (s.store.usage 2) ++
          [inState .free, inState .opened, inState .published, inState .condemned] ++ le32 s.time.timestamp.toNat)))

/-! ## Events -/

/-- A post taken by the Event Unit (R149): dropped by the mask of the host it names, only the three maskable kinds; else stored at the tail with
the sequence counter where the queue holds fewer than 16 records, the attention line asserted; else counted lost up to 65535. The post
is gone, the others wait in their order, and nothing else changes. The i-th post that waits for the host is taken where no post that
stands ahead of it comes before it, and else the command leaves the state as it is (log 2); which posts come before which is DEDUCED
from R150 (log 7) and spelled here. -/
def Obligations.EventPostFilesTheRecord : Prop :=
  (∀ early late : Post, early.before late = true ↔
    (early.host = late.host ∧ early.event.block = late.event.block) ∨
    (early.event.block = .leases ∧ ∃ n, late.order = some n ∧ early.rank < n) ∨
    ∃ l n, late.after = some (l, n) ∧ early.event.block = .lane l ∧ early.rank < n) ∧
  (∀ (s : State) (k : HostId) (i : Nat), s.posts.countP (fun q => q.host == k) ≤ i →
    exec (.eventPost k i) s = .next s) ∧
  ∀ (s : State) (k : HostId) (ahead behind : List Post) (p : Post), s.posts = ahead ++ p :: behind → p.host = k →
    let i := ahead.countP (fun q => q.host == k)
    ∃ t, exec (.eventPost k i) s = .next t ∧
      if ∃ q ∈ ahead, q.before p = true then t = s
      else
        t = { s with events := t.events, posts := ahead ++ behind } ∧ (∀ j, j ≠ k → t.eventsOf j = s.eventsOf j) ∧
        let q := s.eventsOf k
        let masked := match p.event with
          | .entryStarted .. => !q.mask.started
          | .entryDone .. => !q.mask.done
          | .segmentFreed .. => !q.mask.freed
          | _ => false
        t.eventsOf k =
          if masked then q
          else if q.queue.length < 16 then
            { q with
              queue := q.queue ++ [{ seq := q.seq, stamp := p.stamp, event := p.event }], seq := q.seq + 1,
              attn := .low }
          else if q.lost = 65535 then q
          else if q.lost < 65535 then { q with lost := q.lost + 1 }
          else q

/-- FETCH (R153): refused only for a count outside 1 to 4; else it removes that many records from the head of the requester's queue, appends
EVENTS_LOST where records were lost, the attention line follows the queue, low where a record is left and else high (R157), and the
response holds the number of records left and those removed, oldest first (R197). Then the 15 bytes of a record of each kind: its
fields, and the sentinels of R199 for the fields that its kind does not carry (R147). -/
def Obligations.FetchRemovesAndReports : Prop :=
  (∀ (s : State) (k : HostId) (req : Request) (live : Bool), s.waits k .fetch req live →
    ∃ t, exec (.fetch k) s = .next t ∧
      let n := (byteAt req.params 0).toNat
      if n = 0 ∨ 4 < n then s.refused t k req live .badParam
      else
        let q := s.eventsOf k
        let left := q.queue.drop n ++
          if q.lost = 0 then []
          else [{ seq := q.seq, stamp := s.time.timestamp, event := .eventsLost q.lost }]
        t = { s with
          links := t.links,
          events := s.events.upd k
            { queue := left, lost := 0, mask := q.mask, seq := if q.lost = 0 then q.seq else q.seq + 1,
              attn := if left = [] then .high else .low } } ∧
        s.answered t k req live (okReply
          ([byteOf left.length, byteOf (min n q.queue.length)] ++ (q.queue.take n).flatMap recordBytes))) ∧
  ∀ r : Record,
    let two := fun (n : Nat) => ([BitVec.ofNat 8 n, BitVec.ofNat 8 (n / 256)] : List Byte)
    let stamp := r.stamp.toNat
    let head := fun (kind : Byte) => two r.seq.toNat ++ [kind] ++ two stamp ++ two (stamp / 65536)
    let lane := fun (l : LaneId) => (BitVec.ofNat 8 l.val : Byte)
    recordBytes r = match r.event with
      | .entryStarted l g tag => head 0x01 ++ [lane l, g.handle, g.generation] ++ two tag.toNat ++ [0x00, 0x00, 0x00]
      | .entryDone l g tag o words discarded =>
        let code : Byte := match o with
          | .complete => 0x01 | .aborted => 0x02 | .flushed => 0x03 | .leaseEnded => 0x04 | .readyTimeout => 0x05
          | .ackTimeout => 0x06 | .segmentFull => 0x07 | .segmentGone => 0x08 | .captureTimeout => 0x09
        head (if discarded then 0x82 else 0x02) ++ [lane l, g.handle, g.generation] ++ two tag.toNat ++ [code] ++ two words
      | .leaseGranted l d => head 0x03 ++ [lane l, 0x00, 0x00, 0x00, 0x00, 0x00] ++ two d
      | .leaseLost l cause =>
        let code : Byte := match cause with | .expired => 0x21 | .revoked => 0x22
        head 0x04 ++ [lane l, 0x00, 0x00, 0x00, 0x00, code, 0x00, 0x00]
      | .segmentFreed g => head 0x05 ++ [0xFF, g.handle, g.generation, 0x00, 0x00, 0x00, 0x00, 0x00]
      | .eventsLost n => head 0x06 ++ [0xFF, 0x00, 0x00, 0x00, 0x00, 0x00] ++ two n
      | .withdrawn => head 0x07 ++ [0xFF, 0x00, 0x00, 0x00, 0x00, 0x23, 0x00, 0x00]

/-- EVENT_MASK (R155): refused only where a setting is neither enabled nor disabled; else the requester's whole mask is replaced, its records,
lost count and sequence counter stay, no other host's state changes, and the response is the mask as it stood. -/
def Obligations.EventMaskReplacesTheMask : Prop :=
  ∀ (s : State) (k : HostId) (req : Request) (live : Bool), s.waits k .eventMask req live →
    ∃ t, exec (.eventMask k) s = .next t ∧
      let b := fun i => byteAt req.params i
      let q := s.eventsOf k
      if 1 < (b 0).toNat ∨ 1 < (b 1).toNat ∨ 1 < (b 2).toNat then s.refused t k req live .badParam
      else
        t = { s with
          links := t.links,
          events := s.events.upd k { q with
            mask := { started := b 0 == 1, done := b 1 == 1, freed := b 2 == 1 } } } ∧
        s.answered t k req live (okReply
          [if q.mask.started then 1 else 0, if q.mask.done then 1 else 0, if q.mask.freed then 1 else 0])

/-! ## Supervision and withdrawal -/

/-- PURGE (R182, R31): only the supervisor may; every OPEN or PUBLISHED entry of the named host is freed where its refs is 0, its chain joining
the tail of the pool in ascending handle order, and else condemned with notify-on-free yes; CONDEMNED entries and other hosts' entries
stay; the response counts both. -/
def Obligations.PurgeDeletesEverySegment : Prop :=
  ∀ (s : State) (k : HostId) (req : Request) (live : Bool), s.waits k .purge req live →
    ∃ t, exec (.purge k) s = .next t ∧
      if s.supervisor ≠ some k then s.refused t k req live .notPermitted
      else match decodeHost (byteAt req.params 0) with
      | none => s.refused t k req live .badParam
      | some h =>
        let purged := fun i => (s.store.entry i).live && (s.store.entry i).owner == h
        let frees := slots.filter (fun i => purged i && (s.store.entry i).refs == 0)
        let condemns := slots.filter (fun i => purged i && (s.store.entry i).refs != 0)
        t = { s with
          links := t.links,
          store := { s.store with
            table := t.store.table, pool := s.store.pool ++ frees.flatMap (fun i => (s.store.entry i).chain) } } ∧
        (∀ i, t.store.entry i =
          if i ∈ frees then (s.store.entry i).freed
          else if i ∈ condemns then { (s.store.entry i) with state := .condemned, notifyOnFree := true }
          else s.store.entry i) ∧
        s.answered t k req live (okReply [byteOf frees.length, byteOf condemns.length])

/-- EVICT (R182, R187) and DETACH (R188) make a withdrawal and change nothing else; the request leaves the link for the withdrawal, whose
completion answers it, and the port stays EXECUTING. -/
def Obligations.EvictAndDetachWithdraw : Prop :=
  (∀ (s : State) (k : HostId) (req : Request) (live : Bool), s.waits k .evict req live →
    ∃ t, exec (.evict k) s = .next t ∧
      if s.supervisor ≠ some k then s.refused t k req live .notPermitted
      else match decodeHost (byteAt req.params 0) with
      | none => s.refused t k req live .badParam
      | some h =>
        t = { s with
          links := s.links.upd k (if live then { (s.link k) with deciding := none } else { (s.link k) with orphan := none }),
          withdrawals := s.withdrawals ++
            [{ host := h, cause := .evicted, leaseTaken := false, segmentTaken := false, leasesEnded := 0,
               claimsRemoved := 0, firstOrder := 0, endOrder := 0, answer := if live then some (k, req) else none }] }) ∧
  (∀ (s : State) (k : HostId) (req : Request) (live : Bool), s.waits k .detach req live →
    exec (.detach k) s = .next { s with
      links := s.links.upd k (if live then { (s.link k) with deciding := none } else { (s.link k) with orphan := none }),
      withdrawals := s.withdrawals ++
        [{ host := k, cause := .detached, leaseTaken := false, segmentTaken := false, leasesEnded := 0,
           claimsRemoved := 0, firstOrder := 0, endOrder := 0, answer := if live then some (k, req) else none }] })

/-- The three parts of a withdrawal of host h. Leases (R57): its waiting claims go; then in ascending lane order each lane it holds drains
without ENTRY_DONE, its references released and its lane off any mark list, and passes to the head waiter with LEASE_GRANTED or goes
OFF (R49, R50, R80); no other lane changes, and the counts and the numbers of the part are kept. Segments (R32): its unreferenced
segments are freed in handle order, the referenced condemned silently, its condemned ones made silent. Events (R158), once both are
taken, and no post that they present or that is addressed to h waits, nor a release of those drains (DEDUCED, log 12): its queue is
emptied, an eviction leaves WITHDRAWN, and the answer is held (R189). A part that is not due leaves the state as it is (log 2). -/
def Obligations.WithdrawalPartsUndoTheHost : Prop :=
  ∀ (s : State) (n : Nat) (w : Withdrawal), s.withdrawals[n]? = some w →
    (w.leaseTaken = false →
      let u : State := { s with
        leases := s.leases.map (fun r => { r with waiters := r.waiters.filter (fun c => c.host != w.host) }) }
      ∃ t, exec (.withdrawalLeasePart n) s = .next t ∧
        (∃ u0 u1 u2 u3 : State,
          u.takenFrom u0 w.host 0 ∧ u0.takenFrom u1 w.host 1 ∧ u1.takenFrom u2 w.host 2 ∧ u2.takenFrom u3 w.host 3 ∧
          t = { u3 with withdrawals := s.withdrawals.set n { w with
            leaseTaken := true,
            leasesEnded := (List.finRange 4).countP (fun l => (s.lease l).holder == some w.host),
            claimsRemoved := (List.finRange 4).countP (fun l => (s.lease l).waiters.any (fun c => c.host == w.host)),
            firstOrder := s.orderCount, endOrder := u3.orderCount } }) ∧
        t = { s with
          leases := t.leases, lanes := t.lanes, claims := t.claims, posts := t.posts, marks := t.marks,
          orderCount := t.orderCount, withdrawals := t.withdrawals } ∧
        ∀ l : LaneId,
          let ws := (s.lease l).waiters.filter (fun c => c.host != w.host)
          if (s.lease l).holder = some w.host then
            (match ws with
            | [] => t.lease l = Lease.reset ∧ t.lane l = Lane.reset
            | c :: rest =>
              t.lease l = { Lease.reset with
                holder := some c.host, duration := c.duration, remaining := c.duration, waiters := rest } ∧
              t.lane l = { Lane.reset with state := .idle, stb := .low })
          else t.lease l = { (s.lease l) with waiters := ws } ∧ t.lane l = s.lane l ∧ t.claimsOf l = s.claimsOf l) ∧
    (w.leaseTaken = true → exec (.withdrawalLeasePart n) s = .next s) ∧
    (w.segmentTaken = false → ∃ t, exec (.withdrawalSegmentPart n) s = .next t ∧
      let frees := slots.filter (fun i =>
        (s.store.entry i).live && (s.store.entry i).owner == w.host && (s.store.entry i).refs == 0)
      t = { s with
        store := { s.store with
          table := t.store.table, pool := s.store.pool ++ frees.flatMap (fun i => (s.store.entry i).chain) },
        withdrawals := s.withdrawals.set n { w with segmentTaken := true } } ∧
      ∀ i, t.store.entry i =
        if i ∈ frees then (s.store.entry i).freed
        else if (s.store.entry i).owner = w.host ∧ (s.store.entry i).state ≠ .free then
          { (s.store.entry i) with state := .condemned, notifyOnFree := false }
        else s.store.entry i) ∧
    (w.segmentTaken = true → exec (.withdrawalSegmentPart n) s = .next s) ∧
    let part := fun (x : Nat) => w.firstOrder ≤ x ∧ x < w.endOrder
    let waits :=
      (∃ p ∈ s.posts, p.host = w.host ∨ (p.event.block = .leases ∧ part p.rank) ∨ ∃ x, p.order = some x ∧ part x) ∨
      ∃ l r y x, .release r y (some x) ∈ s.claimsOf l ∧ part x
    (w.leaseTaken = false ∨ w.segmentTaken = false ∨ waits → exec (.withdrawalEventPart n) s = .next s) ∧
    (w.leaseTaken = true → w.segmentTaken = true → ¬waits →
      ∃ t, exec (.withdrawalEventPart n) s = .next t ∧
        let q := s.eventsOf w.host
        let u := { s with
          events := s.events.upd w.host
            { queue := if w.cause = .evicted then [{ seq := q.seq, stamp := s.time.timestamp, event := .withdrawn }] else [],
              lost := 0, mask := { started := true, done := true, freed := true },
              seq := if w.cause = .evicted then q.seq + 1 else q.seq,
              attn := if w.cause = .evicted then .low else .high },
          withdrawals := s.withdrawals.eraseIdx n }
        match w.answer with
        | none => t = u
        | some (k, req) =>
          t = { u with links := t.links } ∧
          s.answered t k req true (okReply
            ((if w.cause = .evicted then [byteOf w.host.val] else []) ++ [byteOf w.leasesEnded, byteOf w.claimsRemoved])))

/-! ## Invariants -/

/-- Every step keeps the invariants of the Segment Manager: each block in the pool or in one chain (R2), the fields each state of an entry
requires (R5 to R7, R18, R20, R26), no name twice (R8), every word below a length stored since device reset (R1), the quota (R9), and
refs that count the references that stand (R23, R62); and what R62 says of the play entries: an output entry's segment is PUBLISHED or
CONDEMNED, a capture entry's is CONDEMNED, or OPEN and owned by the lane's holder. Premise: the invariant of lanes and leases, by which
a lane without a holder has no entry queued. -/
def Obligations.EveryStepKeepsTheStore : Prop :=
  ∀ s t : State, s.lanesOk → s.store.wf → s.store.quotaKept → s.referencesCounted → step s = .next t →
    t.store.wf ∧ t.store.quotaKept ∧ t.referencesCounted ∧ (s.entriesOk → t.entriesOk)

/-- Every step keeps the invariants of the event queues (R149, R151, R152, R157) and of the host links (R168 to R171, R174, R178, R179). It
keeps as well that every post that waits, and every lane that a mark has released (log 9), carries the present timestamp, so that a
step files in a queue only records of the present timestamp, behind those that stand there (R148; the model's order, log 16). -/
def Obligations.EveryStepKeepsEventsAndLinks : Prop :=
  ∀ s t : State, s.eventsOk → s.linksOk → step s = .next t →
    t.eventsOk ∧ t.linksOk ∧
    (s.stampsOk → t.stampsOk ∧
      ∀ k, ∃ n new, (t.eventsOf k).queue = (s.eventsOf k).queue.drop n ++ new ∧
        ∀ r ∈ new, r.stamp = s.time.timestamp)

/-- Every step keeps the invariant of lanes, leases and marks: each lane's own (R61, R63, R67, R101, R105, R115), a lane OFF exactly without a
holder and then at its defaults, the bounds of the lease, its remaining time 1 to 60000 ms (R36, R37) and 1 where the expiry waits to
be taken (log 10), its waiter list (R38), a SET mark with an empty list, and a lane on a list, once, exactly in MARKWAIT (R133). -/
def Obligations.EveryStepKeepsLanesLeasesAndMarks : Prop :=
  ∀ s t : State, s.lanesOk → step s = .next t → t.lanesOk

/-- The state after device reset satisfies every invariant, those of R62 and R148 among them. In the values that the rules do not give
(log 10, log 19) it stands at the model's. -/
def Obligations.ResetIsWellFormed : Prop := State.reset.wf
end

