-- ==== Sys2Proof/Laws/State.lean ====
section
/-! SUPPORT. What each update of the state leaves of each field: one lemma a field and an update, so that no proof unfolds a record
update. -/

namespace Sys2Proof

/-! ## Banks -/

@[simp] theorem Bank.sel_upd_self {n : Nat} {α : Type} (b : Bank n α) (i : Fin n) (v : α) : (b.upd i v).sel i = v := by
  simp [Bank.sel, Bank.upd]

@[simp] theorem Bank.sel_upd_ne {n : Nat} {α : Type} (b : Bank n α) {i j : Fin n} (v : α) (h : i ≠ j) :
    (b.upd i v).sel j = b.sel j := by
  have h' : (i : Nat) ≠ (j : Nat) := fun e => h (Fin.ext e)
  simp [Bank.sel, Bank.upd, Vector.getElem_set_ne _ _ h']

theorem Bank.sel_upd {n : Nat} {α : Type} (b : Bank n α) (i j : Fin n) (v : α) :
    (b.upd i v).sel j = if i = j then v else b.sel j := by
  by_cases h : i = j
  · subst h; simp
  · simp [h]

/-- Two banks with the same elements are the same. -/
theorem Bank.ext_sel {n : Nat} {α : Type} {b c : Bank n α} (h : ∀ i, b.sel i = c.sel i) : b = c := by
  apply Vector.ext
  intro i hi
  exact h ⟨i, hi⟩

@[simp] theorem Bank.upd_sel_self {n : Nat} {α : Type} (b : Bank n α) (i : Fin n) : b.upd i (b.sel i) = b := by
  apply Bank.ext_sel
  intro j
  rw [Bank.sel_upd]
  split
  · subst_vars; rfl
  · rfl

@[simp] theorem Bank.upd_upd_self {n : Nat} {α : Type} (b : Bank n α) (i : Fin n) (v w : α) :
    (b.upd i v).upd i w = b.upd i w := by
  apply Bank.ext_sel
  intro j
  simp only [Bank.sel_upd]
  split <;> rfl

@[simp] theorem Bank.sel_map {n : Nat} {α β : Type} (b : Bank n α) (f : α → β) (i : Fin n) :
    Bank.sel (Vector.map f b) i = f (b.sel i) := by
  simp [Bank.sel]

@[simp] theorem Bank.sel_replicate {n : Nat} {α : Type} (v : α) (i : Fin n) :
    Bank.sel (Vector.replicate n v : Bank n α) i = v := by
  simp [Bank.sel]

@[simp] theorem Bank.sel_ofFn {n : Nat} {α : Type} (f : Fin n → α) (i : Fin n) :
    Bank.sel (Vector.ofFn f : Bank n α) i = f i := by
  simp [Bank.sel]

namespace Machine

variable (s : State)

/-! ## setLane -/

@[simp] theorem State.setLane_nresetHigh (l : LaneId) (v : Lane) : (s.setLane l v).nresetHigh = s.nresetHigh := rfl
@[simp] theorem State.setLane_a0 (l : LaneId) (v : Lane) : (s.setLane l v).a0 = s.a0 := rfl
@[simp] theorem State.setLane_supervisor (l : LaneId) (v : Lane) : (s.setLane l v).supervisor = s.supervisor := rfl
@[simp] theorem State.setLane_time (l : LaneId) (v : Lane) : (s.setLane l v).time = s.time := rfl
@[simp] theorem State.setLane_store (l : LaneId) (v : Lane) : (s.setLane l v).store = s.store := rfl
@[simp] theorem State.setLane_leases (l : LaneId) (v : Lane) : (s.setLane l v).leases = s.leases := rfl
@[simp] theorem State.setLane_claims (l : LaneId) (v : Lane) : (s.setLane l v).claims = s.claims := rfl
@[simp] theorem State.setLane_answers (l : LaneId) (v : Lane) : (s.setLane l v).answers = s.answers := rfl
@[simp] theorem State.setLane_marks (l : LaneId) (v : Lane) : (s.setLane l v).marks = s.marks := rfl
@[simp] theorem State.setLane_events (l : LaneId) (v : Lane) : (s.setLane l v).events = s.events := rfl
@[simp] theorem State.setLane_posts (l : LaneId) (v : Lane) : (s.setLane l v).posts = s.posts := rfl
@[simp] theorem State.setLane_links (l : LaneId) (v : Lane) : (s.setLane l v).links = s.links := rfl
@[simp] theorem State.setLane_withdrawals (l : LaneId) (v : Lane) : (s.setLane l v).withdrawals = s.withdrawals := rfl
@[simp] theorem State.setLane_pins (l : LaneId) (v : Lane) : (s.setLane l v).pins = s.pins := rfl
@[simp] theorem State.setLane_nextEntryId (l : LaneId) (v : Lane) : (s.setLane l v).nextEntryId = s.nextEntryId := rfl
@[simp] theorem State.setLane_orderCount (l : LaneId) (v : Lane) : (s.setLane l v).orderCount = s.orderCount := rfl
@[simp] theorem State.setLane_pending (l : LaneId) (v : Lane) : (s.setLane l v).pending = s.pending := rfl
@[simp] theorem State.setLane_lease (l : LaneId) (v : Lane) (j : LaneId) : (s.setLane l v).lease j = s.lease j := rfl
@[simp] theorem State.setLane_mark (l : LaneId) (v : Lane) (j : MarkId) : (s.setLane l v).mark j = s.mark j := rfl
@[simp] theorem State.setLane_eventsOf (l : LaneId) (v : Lane) (j : HostId) : (s.setLane l v).eventsOf j = s.eventsOf j := rfl
@[simp] theorem State.setLane_link (l : LaneId) (v : Lane) (j : HostId) : (s.setLane l v).link j = s.link j := rfl
@[simp] theorem State.setLane_claimsOf (l : LaneId) (v : Lane) (j : LaneId) : (s.setLane l v).claimsOf j = s.claimsOf j := rfl
@[simp] theorem State.setLane_answersOf (l : LaneId) (v : Lane) (j : LaneId) : (s.setLane l v).answersOf j = s.answersOf j := rfl
@[simp] theorem State.setLane_pinsOf (l : LaneId) (v : Lane) (j : LaneId) : (s.setLane l v).pinsOf j = s.pinsOf j := rfl
@[simp] theorem State.setLane_now (l : LaneId) (v : Lane) : (s.setLane l v).now = s.now := rfl
@[simp] theorem State.setLane_lane_self (l : LaneId) (v : Lane) : (s.setLane l v).lane l = v := Bank.sel_upd_self _ _ _
@[simp] theorem State.setLane_lane_ne (l : LaneId) (v : Lane) {j : LaneId} (h : l ≠ j) : (s.setLane l v).lane j = s.lane j := Bank.sel_upd_ne _ _ h
theorem State.setLane_lane (l : LaneId) (v : Lane) (j : LaneId) : (s.setLane l v).lane j = if l = j then v else s.lane j := Bank.sel_upd _ _ _ _

/-! ## setLease -/

@[simp] theorem State.setLease_nresetHigh (l : LaneId) (v : Lease) : (s.setLease l v).nresetHigh = s.nresetHigh := rfl
@[simp] theorem State.setLease_a0 (l : LaneId) (v : Lease) : (s.setLease l v).a0 = s.a0 := rfl
@[simp] theorem State.setLease_supervisor (l : LaneId) (v : Lease) : (s.setLease l v).supervisor = s.supervisor := rfl
@[simp] theorem State.setLease_time (l : LaneId) (v : Lease) : (s.setLease l v).time = s.time := rfl
@[simp] theorem State.setLease_store (l : LaneId) (v : Lease) : (s.setLease l v).store = s.store := rfl
@[simp] theorem State.setLease_lanes (l : LaneId) (v : Lease) : (s.setLease l v).lanes = s.lanes := rfl
@[simp] theorem State.setLease_claims (l : LaneId) (v : Lease) : (s.setLease l v).claims = s.claims := rfl
@[simp] theorem State.setLease_answers (l : LaneId) (v : Lease) : (s.setLease l v).answers = s.answers := rfl
@[simp] theorem State.setLease_marks (l : LaneId) (v : Lease) : (s.setLease l v).marks = s.marks := rfl
@[simp] theorem State.setLease_events (l : LaneId) (v : Lease) : (s.setLease l v).events = s.events := rfl
@[simp] theorem State.setLease_posts (l : LaneId) (v : Lease) : (s.setLease l v).posts = s.posts := rfl
@[simp] theorem State.setLease_links (l : LaneId) (v : Lease) : (s.setLease l v).links = s.links := rfl
@[simp] theorem State.setLease_withdrawals (l : LaneId) (v : Lease) : (s.setLease l v).withdrawals = s.withdrawals := rfl
@[simp] theorem State.setLease_pins (l : LaneId) (v : Lease) : (s.setLease l v).pins = s.pins := rfl
@[simp] theorem State.setLease_nextEntryId (l : LaneId) (v : Lease) : (s.setLease l v).nextEntryId = s.nextEntryId := rfl
@[simp] theorem State.setLease_orderCount (l : LaneId) (v : Lease) : (s.setLease l v).orderCount = s.orderCount := rfl
@[simp] theorem State.setLease_pending (l : LaneId) (v : Lease) : (s.setLease l v).pending = s.pending := rfl
@[simp] theorem State.setLease_lane (l : LaneId) (v : Lease) (j : LaneId) : (s.setLease l v).lane j = s.lane j := rfl
@[simp] theorem State.setLease_mark (l : LaneId) (v : Lease) (j : MarkId) : (s.setLease l v).mark j = s.mark j := rfl
@[simp] theorem State.setLease_eventsOf (l : LaneId) (v : Lease) (j : HostId) : (s.setLease l v).eventsOf j = s.eventsOf j := rfl
@[simp] theorem State.setLease_link (l : LaneId) (v : Lease) (j : HostId) : (s.setLease l v).link j = s.link j := rfl
@[simp] theorem State.setLease_claimsOf (l : LaneId) (v : Lease) (j : LaneId) : (s.setLease l v).claimsOf j = s.claimsOf j := rfl
@[simp] theorem State.setLease_answersOf (l : LaneId) (v : Lease) (j : LaneId) : (s.setLease l v).answersOf j = s.answersOf j := rfl
@[simp] theorem State.setLease_pinsOf (l : LaneId) (v : Lease) (j : LaneId) : (s.setLease l v).pinsOf j = s.pinsOf j := rfl
@[simp] theorem State.setLease_now (l : LaneId) (v : Lease) : (s.setLease l v).now = s.now := rfl
@[simp] theorem State.setLease_lease_self (l : LaneId) (v : Lease) : (s.setLease l v).lease l = v := Bank.sel_upd_self _ _ _
@[simp] theorem State.setLease_lease_ne (l : LaneId) (v : Lease) {j : LaneId} (h : l ≠ j) : (s.setLease l v).lease j = s.lease j := Bank.sel_upd_ne _ _ h
theorem State.setLease_lease (l : LaneId) (v : Lease) (j : LaneId) : (s.setLease l v).lease j = if l = j then v else s.lease j := Bank.sel_upd _ _ _ _

/-! ## setMark -/

@[simp] theorem State.setMark_nresetHigh (m : MarkId) (v : Mark) : (s.setMark m v).nresetHigh = s.nresetHigh := rfl
@[simp] theorem State.setMark_a0 (m : MarkId) (v : Mark) : (s.setMark m v).a0 = s.a0 := rfl
@[simp] theorem State.setMark_supervisor (m : MarkId) (v : Mark) : (s.setMark m v).supervisor = s.supervisor := rfl
@[simp] theorem State.setMark_time (m : MarkId) (v : Mark) : (s.setMark m v).time = s.time := rfl
@[simp] theorem State.setMark_store (m : MarkId) (v : Mark) : (s.setMark m v).store = s.store := rfl
@[simp] theorem State.setMark_leases (m : MarkId) (v : Mark) : (s.setMark m v).leases = s.leases := rfl
@[simp] theorem State.setMark_lanes (m : MarkId) (v : Mark) : (s.setMark m v).lanes = s.lanes := rfl
@[simp] theorem State.setMark_claims (m : MarkId) (v : Mark) : (s.setMark m v).claims = s.claims := rfl
@[simp] theorem State.setMark_answers (m : MarkId) (v : Mark) : (s.setMark m v).answers = s.answers := rfl
@[simp] theorem State.setMark_events (m : MarkId) (v : Mark) : (s.setMark m v).events = s.events := rfl
@[simp] theorem State.setMark_posts (m : MarkId) (v : Mark) : (s.setMark m v).posts = s.posts := rfl
@[simp] theorem State.setMark_links (m : MarkId) (v : Mark) : (s.setMark m v).links = s.links := rfl
@[simp] theorem State.setMark_withdrawals (m : MarkId) (v : Mark) : (s.setMark m v).withdrawals = s.withdrawals := rfl
@[simp] theorem State.setMark_pins (m : MarkId) (v : Mark) : (s.setMark m v).pins = s.pins := rfl
@[simp] theorem State.setMark_nextEntryId (m : MarkId) (v : Mark) : (s.setMark m v).nextEntryId = s.nextEntryId := rfl
@[simp] theorem State.setMark_orderCount (m : MarkId) (v : Mark) : (s.setMark m v).orderCount = s.orderCount := rfl
@[simp] theorem State.setMark_pending (m : MarkId) (v : Mark) : (s.setMark m v).pending = s.pending := rfl
@[simp] theorem State.setMark_lane (m : MarkId) (v : Mark) (j : LaneId) : (s.setMark m v).lane j = s.lane j := rfl
@[simp] theorem State.setMark_lease (m : MarkId) (v : Mark) (j : LaneId) : (s.setMark m v).lease j = s.lease j := rfl
@[simp] theorem State.setMark_eventsOf (m : MarkId) (v : Mark) (j : HostId) : (s.setMark m v).eventsOf j = s.eventsOf j := rfl
@[simp] theorem State.setMark_link (m : MarkId) (v : Mark) (j : HostId) : (s.setMark m v).link j = s.link j := rfl
@[simp] theorem State.setMark_claimsOf (m : MarkId) (v : Mark) (j : LaneId) : (s.setMark m v).claimsOf j = s.claimsOf j := rfl
@[simp] theorem State.setMark_answersOf (m : MarkId) (v : Mark) (j : LaneId) : (s.setMark m v).answersOf j = s.answersOf j := rfl
@[simp] theorem State.setMark_pinsOf (m : MarkId) (v : Mark) (j : LaneId) : (s.setMark m v).pinsOf j = s.pinsOf j := rfl
@[simp] theorem State.setMark_now (m : MarkId) (v : Mark) : (s.setMark m v).now = s.now := rfl
@[simp] theorem State.setMark_mark_self (m : MarkId) (v : Mark) : (s.setMark m v).mark m = v := Bank.sel_upd_self _ _ _
@[simp] theorem State.setMark_mark_ne (m : MarkId) (v : Mark) {j : MarkId} (h : m ≠ j) : (s.setMark m v).mark j = s.mark j := Bank.sel_upd_ne _ _ h
theorem State.setMark_mark (m : MarkId) (v : Mark) (j : MarkId) : (s.setMark m v).mark j = if m = j then v else s.mark j := Bank.sel_upd _ _ _ _

/-! ## setEvents -/

@[simp] theorem State.setEvents_nresetHigh (k : HostId) (v : EventQueue) : (s.setEvents k v).nresetHigh = s.nresetHigh := rfl
@[simp] theorem State.setEvents_a0 (k : HostId) (v : EventQueue) : (s.setEvents k v).a0 = s.a0 := rfl
@[simp] theorem State.setEvents_supervisor (k : HostId) (v : EventQueue) : (s.setEvents k v).supervisor = s.supervisor := rfl
@[simp] theorem State.setEvents_time (k : HostId) (v : EventQueue) : (s.setEvents k v).time = s.time := rfl
@[simp] theorem State.setEvents_store (k : HostId) (v : EventQueue) : (s.setEvents k v).store = s.store := rfl
@[simp] theorem State.setEvents_leases (k : HostId) (v : EventQueue) : (s.setEvents k v).leases = s.leases := rfl
@[simp] theorem State.setEvents_lanes (k : HostId) (v : EventQueue) : (s.setEvents k v).lanes = s.lanes := rfl
@[simp] theorem State.setEvents_claims (k : HostId) (v : EventQueue) : (s.setEvents k v).claims = s.claims := rfl
@[simp] theorem State.setEvents_answers (k : HostId) (v : EventQueue) : (s.setEvents k v).answers = s.answers := rfl
@[simp] theorem State.setEvents_marks (k : HostId) (v : EventQueue) : (s.setEvents k v).marks = s.marks := rfl
@[simp] theorem State.setEvents_posts (k : HostId) (v : EventQueue) : (s.setEvents k v).posts = s.posts := rfl
@[simp] theorem State.setEvents_links (k : HostId) (v : EventQueue) : (s.setEvents k v).links = s.links := rfl
@[simp] theorem State.setEvents_withdrawals (k : HostId) (v : EventQueue) : (s.setEvents k v).withdrawals = s.withdrawals := rfl
@[simp] theorem State.setEvents_pins (k : HostId) (v : EventQueue) : (s.setEvents k v).pins = s.pins := rfl
@[simp] theorem State.setEvents_nextEntryId (k : HostId) (v : EventQueue) : (s.setEvents k v).nextEntryId = s.nextEntryId := rfl
@[simp] theorem State.setEvents_orderCount (k : HostId) (v : EventQueue) : (s.setEvents k v).orderCount = s.orderCount := rfl
@[simp] theorem State.setEvents_pending (k : HostId) (v : EventQueue) : (s.setEvents k v).pending = s.pending := rfl
@[simp] theorem State.setEvents_lane (k : HostId) (v : EventQueue) (j : LaneId) : (s.setEvents k v).lane j = s.lane j := rfl
@[simp] theorem State.setEvents_lease (k : HostId) (v : EventQueue) (j : LaneId) : (s.setEvents k v).lease j = s.lease j := rfl
@[simp] theorem State.setEvents_mark (k : HostId) (v : EventQueue) (j : MarkId) : (s.setEvents k v).mark j = s.mark j := rfl
@[simp] theorem State.setEvents_link (k : HostId) (v : EventQueue) (j : HostId) : (s.setEvents k v).link j = s.link j := rfl
@[simp] theorem State.setEvents_claimsOf (k : HostId) (v : EventQueue) (j : LaneId) : (s.setEvents k v).claimsOf j = s.claimsOf j := rfl
@[simp] theorem State.setEvents_answersOf (k : HostId) (v : EventQueue) (j : LaneId) : (s.setEvents k v).answersOf j = s.answersOf j := rfl
@[simp] theorem State.setEvents_pinsOf (k : HostId) (v : EventQueue) (j : LaneId) : (s.setEvents k v).pinsOf j = s.pinsOf j := rfl
@[simp] theorem State.setEvents_now (k : HostId) (v : EventQueue) : (s.setEvents k v).now = s.now := rfl
@[simp] theorem State.setEvents_eventsOf_self (k : HostId) (v : EventQueue) : (s.setEvents k v).eventsOf k = v := Bank.sel_upd_self _ _ _
@[simp] theorem State.setEvents_eventsOf_ne (k : HostId) (v : EventQueue) {j : HostId} (h : k ≠ j) : (s.setEvents k v).eventsOf j = s.eventsOf j := Bank.sel_upd_ne _ _ h
theorem State.setEvents_eventsOf (k : HostId) (v : EventQueue) (j : HostId) : (s.setEvents k v).eventsOf j = if k = j then v else s.eventsOf j := Bank.sel_upd _ _ _ _

/-! ## setLink -/

@[simp] theorem State.setLink_nresetHigh (k : HostId) (v : Link) : (s.setLink k v).nresetHigh = s.nresetHigh := rfl
@[simp] theorem State.setLink_a0 (k : HostId) (v : Link) : (s.setLink k v).a0 = s.a0 := rfl
@[simp] theorem State.setLink_supervisor (k : HostId) (v : Link) : (s.setLink k v).supervisor = s.supervisor := rfl
@[simp] theorem State.setLink_time (k : HostId) (v : Link) : (s.setLink k v).time = s.time := rfl
@[simp] theorem State.setLink_store (k : HostId) (v : Link) : (s.setLink k v).store = s.store := rfl
@[simp] theorem State.setLink_leases (k : HostId) (v : Link) : (s.setLink k v).leases = s.leases := rfl
@[simp] theorem State.setLink_lanes (k : HostId) (v : Link) : (s.setLink k v).lanes = s.lanes := rfl
@[simp] theorem State.setLink_claims (k : HostId) (v : Link) : (s.setLink k v).claims = s.claims := rfl
@[simp] theorem State.setLink_answers (k : HostId) (v : Link) : (s.setLink k v).answers = s.answers := rfl
@[simp] theorem State.setLink_marks (k : HostId) (v : Link) : (s.setLink k v).marks = s.marks := rfl
@[simp] theorem State.setLink_events (k : HostId) (v : Link) : (s.setLink k v).events = s.events := rfl
@[simp] theorem State.setLink_posts (k : HostId) (v : Link) : (s.setLink k v).posts = s.posts := rfl
@[simp] theorem State.setLink_withdrawals (k : HostId) (v : Link) : (s.setLink k v).withdrawals = s.withdrawals := rfl
@[simp] theorem State.setLink_pins (k : HostId) (v : Link) : (s.setLink k v).pins = s.pins := rfl
@[simp] theorem State.setLink_nextEntryId (k : HostId) (v : Link) : (s.setLink k v).nextEntryId = s.nextEntryId := rfl
@[simp] theorem State.setLink_orderCount (k : HostId) (v : Link) : (s.setLink k v).orderCount = s.orderCount := rfl
@[simp] theorem State.setLink_pending (k : HostId) (v : Link) : (s.setLink k v).pending = s.pending := rfl
@[simp] theorem State.setLink_lane (k : HostId) (v : Link) (j : LaneId) : (s.setLink k v).lane j = s.lane j := rfl
@[simp] theorem State.setLink_lease (k : HostId) (v : Link) (j : LaneId) : (s.setLink k v).lease j = s.lease j := rfl
@[simp] theorem State.setLink_mark (k : HostId) (v : Link) (j : MarkId) : (s.setLink k v).mark j = s.mark j := rfl
@[simp] theorem State.setLink_eventsOf (k : HostId) (v : Link) (j : HostId) : (s.setLink k v).eventsOf j = s.eventsOf j := rfl
@[simp] theorem State.setLink_claimsOf (k : HostId) (v : Link) (j : LaneId) : (s.setLink k v).claimsOf j = s.claimsOf j := rfl
@[simp] theorem State.setLink_answersOf (k : HostId) (v : Link) (j : LaneId) : (s.setLink k v).answersOf j = s.answersOf j := rfl
@[simp] theorem State.setLink_pinsOf (k : HostId) (v : Link) (j : LaneId) : (s.setLink k v).pinsOf j = s.pinsOf j := rfl
@[simp] theorem State.setLink_now (k : HostId) (v : Link) : (s.setLink k v).now = s.now := rfl
@[simp] theorem State.setLink_link_self (k : HostId) (v : Link) : (s.setLink k v).link k = v := Bank.sel_upd_self _ _ _
@[simp] theorem State.setLink_link_ne (k : HostId) (v : Link) {j : HostId} (h : k ≠ j) : (s.setLink k v).link j = s.link j := Bank.sel_upd_ne _ _ h
theorem State.setLink_link (k : HostId) (v : Link) (j : HostId) : (s.setLink k v).link j = if k = j then v else s.link j := Bank.sel_upd _ _ _ _

/-! ## setClaims -/

@[simp] theorem State.setClaims_nresetHigh (l : LaneId) (v : List LaneClaim) : (s.setClaims l v).nresetHigh = s.nresetHigh := rfl
@[simp] theorem State.setClaims_a0 (l : LaneId) (v : List LaneClaim) : (s.setClaims l v).a0 = s.a0 := rfl
@[simp] theorem State.setClaims_supervisor (l : LaneId) (v : List LaneClaim) : (s.setClaims l v).supervisor = s.supervisor := rfl
@[simp] theorem State.setClaims_time (l : LaneId) (v : List LaneClaim) : (s.setClaims l v).time = s.time := rfl
@[simp] theorem State.setClaims_store (l : LaneId) (v : List LaneClaim) : (s.setClaims l v).store = s.store := rfl
@[simp] theorem State.setClaims_leases (l : LaneId) (v : List LaneClaim) : (s.setClaims l v).leases = s.leases := rfl
@[simp] theorem State.setClaims_lanes (l : LaneId) (v : List LaneClaim) : (s.setClaims l v).lanes = s.lanes := rfl
@[simp] theorem State.setClaims_answers (l : LaneId) (v : List LaneClaim) : (s.setClaims l v).answers = s.answers := rfl
@[simp] theorem State.setClaims_marks (l : LaneId) (v : List LaneClaim) : (s.setClaims l v).marks = s.marks := rfl
@[simp] theorem State.setClaims_events (l : LaneId) (v : List LaneClaim) : (s.setClaims l v).events = s.events := rfl
@[simp] theorem State.setClaims_posts (l : LaneId) (v : List LaneClaim) : (s.setClaims l v).posts = s.posts := rfl
@[simp] theorem State.setClaims_links (l : LaneId) (v : List LaneClaim) : (s.setClaims l v).links = s.links := rfl
@[simp] theorem State.setClaims_withdrawals (l : LaneId) (v : List LaneClaim) : (s.setClaims l v).withdrawals = s.withdrawals := rfl
@[simp] theorem State.setClaims_pins (l : LaneId) (v : List LaneClaim) : (s.setClaims l v).pins = s.pins := rfl
@[simp] theorem State.setClaims_nextEntryId (l : LaneId) (v : List LaneClaim) : (s.setClaims l v).nextEntryId = s.nextEntryId := rfl
@[simp] theorem State.setClaims_orderCount (l : LaneId) (v : List LaneClaim) : (s.setClaims l v).orderCount = s.orderCount := rfl
@[simp] theorem State.setClaims_pending (l : LaneId) (v : List LaneClaim) : (s.setClaims l v).pending = s.pending := rfl
@[simp] theorem State.setClaims_lane (l : LaneId) (v : List LaneClaim) (j : LaneId) : (s.setClaims l v).lane j = s.lane j := rfl
@[simp] theorem State.setClaims_lease (l : LaneId) (v : List LaneClaim) (j : LaneId) : (s.setClaims l v).lease j = s.lease j := rfl
@[simp] theorem State.setClaims_mark (l : LaneId) (v : List LaneClaim) (j : MarkId) : (s.setClaims l v).mark j = s.mark j := rfl
@[simp] theorem State.setClaims_eventsOf (l : LaneId) (v : List LaneClaim) (j : HostId) : (s.setClaims l v).eventsOf j = s.eventsOf j := rfl
@[simp] theorem State.setClaims_link (l : LaneId) (v : List LaneClaim) (j : HostId) : (s.setClaims l v).link j = s.link j := rfl
@[simp] theorem State.setClaims_answersOf (l : LaneId) (v : List LaneClaim) (j : LaneId) : (s.setClaims l v).answersOf j = s.answersOf j := rfl
@[simp] theorem State.setClaims_pinsOf (l : LaneId) (v : List LaneClaim) (j : LaneId) : (s.setClaims l v).pinsOf j = s.pinsOf j := rfl
@[simp] theorem State.setClaims_now (l : LaneId) (v : List LaneClaim) : (s.setClaims l v).now = s.now := rfl
@[simp] theorem State.setClaims_claimsOf_self (l : LaneId) (v : List LaneClaim) : (s.setClaims l v).claimsOf l = v := Bank.sel_upd_self _ _ _
@[simp] theorem State.setClaims_claimsOf_ne (l : LaneId) (v : List LaneClaim) {j : LaneId} (h : l ≠ j) : (s.setClaims l v).claimsOf j = s.claimsOf j := Bank.sel_upd_ne _ _ h
theorem State.setClaims_claimsOf (l : LaneId) (v : List LaneClaim) (j : LaneId) : (s.setClaims l v).claimsOf j = if l = j then v else s.claimsOf j := Bank.sel_upd _ _ _ _

/-! ## setAnswers -/

@[simp] theorem State.setAnswers_nresetHigh (l : LaneId) (v : List AppendAnswer) : (s.setAnswers l v).nresetHigh = s.nresetHigh := rfl
@[simp] theorem State.setAnswers_a0 (l : LaneId) (v : List AppendAnswer) : (s.setAnswers l v).a0 = s.a0 := rfl
@[simp] theorem State.setAnswers_supervisor (l : LaneId) (v : List AppendAnswer) : (s.setAnswers l v).supervisor = s.supervisor := rfl
@[simp] theorem State.setAnswers_time (l : LaneId) (v : List AppendAnswer) : (s.setAnswers l v).time = s.time := rfl
@[simp] theorem State.setAnswers_store (l : LaneId) (v : List AppendAnswer) : (s.setAnswers l v).store = s.store := rfl
@[simp] theorem State.setAnswers_leases (l : LaneId) (v : List AppendAnswer) : (s.setAnswers l v).leases = s.leases := rfl
@[simp] theorem State.setAnswers_lanes (l : LaneId) (v : List AppendAnswer) : (s.setAnswers l v).lanes = s.lanes := rfl
@[simp] theorem State.setAnswers_claims (l : LaneId) (v : List AppendAnswer) : (s.setAnswers l v).claims = s.claims := rfl
@[simp] theorem State.setAnswers_marks (l : LaneId) (v : List AppendAnswer) : (s.setAnswers l v).marks = s.marks := rfl
@[simp] theorem State.setAnswers_events (l : LaneId) (v : List AppendAnswer) : (s.setAnswers l v).events = s.events := rfl
@[simp] theorem State.setAnswers_posts (l : LaneId) (v : List AppendAnswer) : (s.setAnswers l v).posts = s.posts := rfl
@[simp] theorem State.setAnswers_links (l : LaneId) (v : List AppendAnswer) : (s.setAnswers l v).links = s.links := rfl
@[simp] theorem State.setAnswers_withdrawals (l : LaneId) (v : List AppendAnswer) : (s.setAnswers l v).withdrawals = s.withdrawals := rfl
@[simp] theorem State.setAnswers_pins (l : LaneId) (v : List AppendAnswer) : (s.setAnswers l v).pins = s.pins := rfl
@[simp] theorem State.setAnswers_nextEntryId (l : LaneId) (v : List AppendAnswer) : (s.setAnswers l v).nextEntryId = s.nextEntryId := rfl
@[simp] theorem State.setAnswers_orderCount (l : LaneId) (v : List AppendAnswer) : (s.setAnswers l v).orderCount = s.orderCount := rfl
@[simp] theorem State.setAnswers_pending (l : LaneId) (v : List AppendAnswer) : (s.setAnswers l v).pending = s.pending := rfl
@[simp] theorem State.setAnswers_lane (l : LaneId) (v : List AppendAnswer) (j : LaneId) : (s.setAnswers l v).lane j = s.lane j := rfl
@[simp] theorem State.setAnswers_lease (l : LaneId) (v : List AppendAnswer) (j : LaneId) : (s.setAnswers l v).lease j = s.lease j := rfl
@[simp] theorem State.setAnswers_mark (l : LaneId) (v : List AppendAnswer) (j : MarkId) : (s.setAnswers l v).mark j = s.mark j := rfl
@[simp] theorem State.setAnswers_eventsOf (l : LaneId) (v : List AppendAnswer) (j : HostId) : (s.setAnswers l v).eventsOf j = s.eventsOf j := rfl
@[simp] theorem State.setAnswers_link (l : LaneId) (v : List AppendAnswer) (j : HostId) : (s.setAnswers l v).link j = s.link j := rfl
@[simp] theorem State.setAnswers_claimsOf (l : LaneId) (v : List AppendAnswer) (j : LaneId) : (s.setAnswers l v).claimsOf j = s.claimsOf j := rfl
@[simp] theorem State.setAnswers_pinsOf (l : LaneId) (v : List AppendAnswer) (j : LaneId) : (s.setAnswers l v).pinsOf j = s.pinsOf j := rfl
@[simp] theorem State.setAnswers_now (l : LaneId) (v : List AppendAnswer) : (s.setAnswers l v).now = s.now := rfl
@[simp] theorem State.setAnswers_answersOf_self (l : LaneId) (v : List AppendAnswer) : (s.setAnswers l v).answersOf l = v := Bank.sel_upd_self _ _ _
@[simp] theorem State.setAnswers_answersOf_ne (l : LaneId) (v : List AppendAnswer) {j : LaneId} (h : l ≠ j) : (s.setAnswers l v).answersOf j = s.answersOf j := Bank.sel_upd_ne _ _ h
theorem State.setAnswers_answersOf (l : LaneId) (v : List AppendAnswer) (j : LaneId) : (s.setAnswers l v).answersOf j = if l = j then v else s.answersOf j := Bank.sel_upd _ _ _ _

/-! ## setPins -/

@[simp] theorem State.setPins_nresetHigh (l : LaneId) (v : LanePins) : (s.setPins l v).nresetHigh = s.nresetHigh := rfl
@[simp] theorem State.setPins_a0 (l : LaneId) (v : LanePins) : (s.setPins l v).a0 = s.a0 := rfl
@[simp] theorem State.setPins_supervisor (l : LaneId) (v : LanePins) : (s.setPins l v).supervisor = s.supervisor := rfl
@[simp] theorem State.setPins_time (l : LaneId) (v : LanePins) : (s.setPins l v).time = s.time := rfl
@[simp] theorem State.setPins_store (l : LaneId) (v : LanePins) : (s.setPins l v).store = s.store := rfl
@[simp] theorem State.setPins_leases (l : LaneId) (v : LanePins) : (s.setPins l v).leases = s.leases := rfl
@[simp] theorem State.setPins_lanes (l : LaneId) (v : LanePins) : (s.setPins l v).lanes = s.lanes := rfl
@[simp] theorem State.setPins_claims (l : LaneId) (v : LanePins) : (s.setPins l v).claims = s.claims := rfl
@[simp] theorem State.setPins_answers (l : LaneId) (v : LanePins) : (s.setPins l v).answers = s.answers := rfl
@[simp] theorem State.setPins_marks (l : LaneId) (v : LanePins) : (s.setPins l v).marks = s.marks := rfl
@[simp] theorem State.setPins_events (l : LaneId) (v : LanePins) : (s.setPins l v).events = s.events := rfl
@[simp] theorem State.setPins_posts (l : LaneId) (v : LanePins) : (s.setPins l v).posts = s.posts := rfl
@[simp] theorem State.setPins_links (l : LaneId) (v : LanePins) : (s.setPins l v).links = s.links := rfl
@[simp] theorem State.setPins_withdrawals (l : LaneId) (v : LanePins) : (s.setPins l v).withdrawals = s.withdrawals := rfl
@[simp] theorem State.setPins_nextEntryId (l : LaneId) (v : LanePins) : (s.setPins l v).nextEntryId = s.nextEntryId := rfl
@[simp] theorem State.setPins_orderCount (l : LaneId) (v : LanePins) : (s.setPins l v).orderCount = s.orderCount := rfl
@[simp] theorem State.setPins_pending (l : LaneId) (v : LanePins) : (s.setPins l v).pending = s.pending := rfl
@[simp] theorem State.setPins_lane (l : LaneId) (v : LanePins) (j : LaneId) : (s.setPins l v).lane j = s.lane j := rfl
@[simp] theorem State.setPins_lease (l : LaneId) (v : LanePins) (j : LaneId) : (s.setPins l v).lease j = s.lease j := rfl
@[simp] theorem State.setPins_mark (l : LaneId) (v : LanePins) (j : MarkId) : (s.setPins l v).mark j = s.mark j := rfl
@[simp] theorem State.setPins_eventsOf (l : LaneId) (v : LanePins) (j : HostId) : (s.setPins l v).eventsOf j = s.eventsOf j := rfl
@[simp] theorem State.setPins_link (l : LaneId) (v : LanePins) (j : HostId) : (s.setPins l v).link j = s.link j := rfl
@[simp] theorem State.setPins_claimsOf (l : LaneId) (v : LanePins) (j : LaneId) : (s.setPins l v).claimsOf j = s.claimsOf j := rfl
@[simp] theorem State.setPins_answersOf (l : LaneId) (v : LanePins) (j : LaneId) : (s.setPins l v).answersOf j = s.answersOf j := rfl
@[simp] theorem State.setPins_now (l : LaneId) (v : LanePins) : (s.setPins l v).now = s.now := rfl
@[simp] theorem State.setPins_pinsOf_self (l : LaneId) (v : LanePins) : (s.setPins l v).pinsOf l = v := Bank.sel_upd_self _ _ _
@[simp] theorem State.setPins_pinsOf_ne (l : LaneId) (v : LanePins) {j : LaneId} (h : l ≠ j) : (s.setPins l v).pinsOf j = s.pinsOf j := Bank.sel_upd_ne _ _ h
theorem State.setPins_pinsOf (l : LaneId) (v : LanePins) (j : LaneId) : (s.setPins l v).pinsOf j = if l = j then v else s.pinsOf j := Bank.sel_upd _ _ _ _

/-! ## setStore -/

@[simp] theorem State.setStore_nresetHigh (v : Store) : (s.setStore v).nresetHigh = s.nresetHigh := rfl
@[simp] theorem State.setStore_a0 (v : Store) : (s.setStore v).a0 = s.a0 := rfl
@[simp] theorem State.setStore_supervisor (v : Store) : (s.setStore v).supervisor = s.supervisor := rfl
@[simp] theorem State.setStore_time (v : Store) : (s.setStore v).time = s.time := rfl
@[simp] theorem State.setStore_leases (v : Store) : (s.setStore v).leases = s.leases := rfl
@[simp] theorem State.setStore_lanes (v : Store) : (s.setStore v).lanes = s.lanes := rfl
@[simp] theorem State.setStore_claims (v : Store) : (s.setStore v).claims = s.claims := rfl
@[simp] theorem State.setStore_answers (v : Store) : (s.setStore v).answers = s.answers := rfl
@[simp] theorem State.setStore_marks (v : Store) : (s.setStore v).marks = s.marks := rfl
@[simp] theorem State.setStore_events (v : Store) : (s.setStore v).events = s.events := rfl
@[simp] theorem State.setStore_posts (v : Store) : (s.setStore v).posts = s.posts := rfl
@[simp] theorem State.setStore_links (v : Store) : (s.setStore v).links = s.links := rfl
@[simp] theorem State.setStore_withdrawals (v : Store) : (s.setStore v).withdrawals = s.withdrawals := rfl
@[simp] theorem State.setStore_pins (v : Store) : (s.setStore v).pins = s.pins := rfl
@[simp] theorem State.setStore_nextEntryId (v : Store) : (s.setStore v).nextEntryId = s.nextEntryId := rfl
@[simp] theorem State.setStore_orderCount (v : Store) : (s.setStore v).orderCount = s.orderCount := rfl
@[simp] theorem State.setStore_pending (v : Store) : (s.setStore v).pending = s.pending := rfl
@[simp] theorem State.setStore_lane (v : Store) (j : LaneId) : (s.setStore v).lane j = s.lane j := rfl
@[simp] theorem State.setStore_lease (v : Store) (j : LaneId) : (s.setStore v).lease j = s.lease j := rfl
@[simp] theorem State.setStore_mark (v : Store) (j : MarkId) : (s.setStore v).mark j = s.mark j := rfl
@[simp] theorem State.setStore_eventsOf (v : Store) (j : HostId) : (s.setStore v).eventsOf j = s.eventsOf j := rfl
@[simp] theorem State.setStore_link (v : Store) (j : HostId) : (s.setStore v).link j = s.link j := rfl
@[simp] theorem State.setStore_claimsOf (v : Store) (j : LaneId) : (s.setStore v).claimsOf j = s.claimsOf j := rfl
@[simp] theorem State.setStore_answersOf (v : Store) (j : LaneId) : (s.setStore v).answersOf j = s.answersOf j := rfl
@[simp] theorem State.setStore_pinsOf (v : Store) (j : LaneId) : (s.setStore v).pinsOf j = s.pinsOf j := rfl
@[simp] theorem State.setStore_now (v : Store) : (s.setStore v).now = s.now := rfl

/-! ## post -/

@[simp] theorem State.post_nresetHigh (p : Post) : (s.post p).nresetHigh = s.nresetHigh := rfl
@[simp] theorem State.post_a0 (p : Post) : (s.post p).a0 = s.a0 := rfl
@[simp] theorem State.post_supervisor (p : Post) : (s.post p).supervisor = s.supervisor := rfl
@[simp] theorem State.post_time (p : Post) : (s.post p).time = s.time := rfl
@[simp] theorem State.post_store (p : Post) : (s.post p).store = s.store := rfl
@[simp] theorem State.post_leases (p : Post) : (s.post p).leases = s.leases := rfl
@[simp] theorem State.post_lanes (p : Post) : (s.post p).lanes = s.lanes := rfl
@[simp] theorem State.post_claims (p : Post) : (s.post p).claims = s.claims := rfl
@[simp] theorem State.post_answers (p : Post) : (s.post p).answers = s.answers := rfl
@[simp] theorem State.post_marks (p : Post) : (s.post p).marks = s.marks := rfl
@[simp] theorem State.post_events (p : Post) : (s.post p).events = s.events := rfl
@[simp] theorem State.post_links (p : Post) : (s.post p).links = s.links := rfl
@[simp] theorem State.post_withdrawals (p : Post) : (s.post p).withdrawals = s.withdrawals := rfl
@[simp] theorem State.post_pins (p : Post) : (s.post p).pins = s.pins := rfl
@[simp] theorem State.post_nextEntryId (p : Post) : (s.post p).nextEntryId = s.nextEntryId := rfl
@[simp] theorem State.post_orderCount (p : Post) : (s.post p).orderCount = s.orderCount := rfl
@[simp] theorem State.post_pending (p : Post) : (s.post p).pending = s.pending := rfl
@[simp] theorem State.post_lane (p : Post) (j : LaneId) : (s.post p).lane j = s.lane j := rfl
@[simp] theorem State.post_lease (p : Post) (j : LaneId) : (s.post p).lease j = s.lease j := rfl
@[simp] theorem State.post_mark (p : Post) (j : MarkId) : (s.post p).mark j = s.mark j := rfl
@[simp] theorem State.post_eventsOf (p : Post) (j : HostId) : (s.post p).eventsOf j = s.eventsOf j := rfl
@[simp] theorem State.post_link (p : Post) (j : HostId) : (s.post p).link j = s.link j := rfl
@[simp] theorem State.post_claimsOf (p : Post) (j : LaneId) : (s.post p).claimsOf j = s.claimsOf j := rfl
@[simp] theorem State.post_answersOf (p : Post) (j : LaneId) : (s.post p).answersOf j = s.answersOf j := rfl
@[simp] theorem State.post_pinsOf (p : Post) (j : LaneId) : (s.post p).pinsOf j = s.pinsOf j := rfl
@[simp] theorem State.post_now (p : Post) : (s.post p).now = s.now := rfl

/-! ## countOrder -/

@[simp] theorem State.countOrder_nresetHigh : s.countOrder.nresetHigh = s.nresetHigh := rfl
@[simp] theorem State.countOrder_a0 : s.countOrder.a0 = s.a0 := rfl
@[simp] theorem State.countOrder_supervisor : s.countOrder.supervisor = s.supervisor := rfl
@[simp] theorem State.countOrder_time : s.countOrder.time = s.time := rfl
@[simp] theorem State.countOrder_store : s.countOrder.store = s.store := rfl
@[simp] theorem State.countOrder_leases : s.countOrder.leases = s.leases := rfl
@[simp] theorem State.countOrder_lanes : s.countOrder.lanes = s.lanes := rfl
@[simp] theorem State.countOrder_claims : s.countOrder.claims = s.claims := rfl
@[simp] theorem State.countOrder_answers : s.countOrder.answers = s.answers := rfl
@[simp] theorem State.countOrder_marks : s.countOrder.marks = s.marks := rfl
@[simp] theorem State.countOrder_events : s.countOrder.events = s.events := rfl
@[simp] theorem State.countOrder_links : s.countOrder.links = s.links := rfl
@[simp] theorem State.countOrder_withdrawals : s.countOrder.withdrawals = s.withdrawals := rfl
@[simp] theorem State.countOrder_pins : s.countOrder.pins = s.pins := rfl
@[simp] theorem State.countOrder_nextEntryId : s.countOrder.nextEntryId = s.nextEntryId := rfl
@[simp] theorem State.countOrder_pending : s.countOrder.pending = s.pending := rfl
@[simp] theorem State.countOrder_lane (j : LaneId) : s.countOrder.lane j = s.lane j := rfl
@[simp] theorem State.countOrder_lease (j : LaneId) : s.countOrder.lease j = s.lease j := rfl
@[simp] theorem State.countOrder_mark (j : MarkId) : s.countOrder.mark j = s.mark j := rfl
@[simp] theorem State.countOrder_eventsOf (j : HostId) : s.countOrder.eventsOf j = s.eventsOf j := rfl
@[simp] theorem State.countOrder_link (j : HostId) : s.countOrder.link j = s.link j := rfl
@[simp] theorem State.countOrder_claimsOf (j : LaneId) : s.countOrder.claimsOf j = s.claimsOf j := rfl
@[simp] theorem State.countOrder_answersOf (j : LaneId) : s.countOrder.answersOf j = s.answersOf j := rfl
@[simp] theorem State.countOrder_pinsOf (j : LaneId) : s.countOrder.pinsOf j = s.pinsOf j := rfl
@[simp] theorem State.countOrder_now : s.countOrder.now = s.now := rfl
@[simp] theorem State.countOrder_posts : s.countOrder.posts = s.posts := rfl
@[simp] theorem State.countOrder_orderCount : s.countOrder.orderCount = s.orderCount + 1 := rfl

/-! ## postRanked -/

@[simp] theorem State.postRanked_nresetHigh (p : Nat → Post) : (s.postRanked p).nresetHigh = s.nresetHigh := rfl
@[simp] theorem State.postRanked_a0 (p : Nat → Post) : (s.postRanked p).a0 = s.a0 := rfl
@[simp] theorem State.postRanked_supervisor (p : Nat → Post) : (s.postRanked p).supervisor = s.supervisor := rfl
@[simp] theorem State.postRanked_time (p : Nat → Post) : (s.postRanked p).time = s.time := rfl
@[simp] theorem State.postRanked_store (p : Nat → Post) : (s.postRanked p).store = s.store := rfl
@[simp] theorem State.postRanked_leases (p : Nat → Post) : (s.postRanked p).leases = s.leases := rfl
@[simp] theorem State.postRanked_lanes (p : Nat → Post) : (s.postRanked p).lanes = s.lanes := rfl
@[simp] theorem State.postRanked_claims (p : Nat → Post) : (s.postRanked p).claims = s.claims := rfl
@[simp] theorem State.postRanked_answers (p : Nat → Post) : (s.postRanked p).answers = s.answers := rfl
@[simp] theorem State.postRanked_marks (p : Nat → Post) : (s.postRanked p).marks = s.marks := rfl
@[simp] theorem State.postRanked_events (p : Nat → Post) : (s.postRanked p).events = s.events := rfl
@[simp] theorem State.postRanked_links (p : Nat → Post) : (s.postRanked p).links = s.links := rfl
@[simp] theorem State.postRanked_withdrawals (p : Nat → Post) : (s.postRanked p).withdrawals = s.withdrawals := rfl
@[simp] theorem State.postRanked_pins (p : Nat → Post) : (s.postRanked p).pins = s.pins := rfl
@[simp] theorem State.postRanked_nextEntryId (p : Nat → Post) : (s.postRanked p).nextEntryId = s.nextEntryId := rfl
@[simp] theorem State.postRanked_pending (p : Nat → Post) : (s.postRanked p).pending = s.pending := rfl
@[simp] theorem State.postRanked_lane (p : Nat → Post) (j : LaneId) : (s.postRanked p).lane j = s.lane j := rfl
@[simp] theorem State.postRanked_lease (p : Nat → Post) (j : LaneId) : (s.postRanked p).lease j = s.lease j := rfl
@[simp] theorem State.postRanked_mark (p : Nat → Post) (j : MarkId) : (s.postRanked p).mark j = s.mark j := rfl
@[simp] theorem State.postRanked_eventsOf (p : Nat → Post) (j : HostId) : (s.postRanked p).eventsOf j = s.eventsOf j := rfl
@[simp] theorem State.postRanked_link (p : Nat → Post) (j : HostId) : (s.postRanked p).link j = s.link j := rfl
@[simp] theorem State.postRanked_claimsOf (p : Nat → Post) (j : LaneId) : (s.postRanked p).claimsOf j = s.claimsOf j := rfl
@[simp] theorem State.postRanked_answersOf (p : Nat → Post) (j : LaneId) : (s.postRanked p).answersOf j = s.answersOf j := rfl
@[simp] theorem State.postRanked_pinsOf (p : Nat → Post) (j : LaneId) : (s.postRanked p).pinsOf j = s.pinsOf j := rfl
@[simp] theorem State.postRanked_now (p : Nat → Post) : (s.postRanked p).now = s.now := rfl
@[simp] theorem State.postRanked_posts (p : Nat → Post) : (s.postRanked p).posts = s.posts ++ [p s.orderCount] := rfl
@[simp] theorem State.postRanked_orderCount (p : Nat → Post) : (s.postRanked p).orderCount = s.orderCount + 1 := rfl

/-! ## postLease -/

@[simp] theorem State.postLease_nresetHigh (k : HostId) (e : Event) : (s.postLease k e).nresetHigh = s.nresetHigh := rfl
@[simp] theorem State.postLease_a0 (k : HostId) (e : Event) : (s.postLease k e).a0 = s.a0 := rfl
@[simp] theorem State.postLease_supervisor (k : HostId) (e : Event) : (s.postLease k e).supervisor = s.supervisor := rfl
@[simp] theorem State.postLease_time (k : HostId) (e : Event) : (s.postLease k e).time = s.time := rfl
@[simp] theorem State.postLease_store (k : HostId) (e : Event) : (s.postLease k e).store = s.store := rfl
@[simp] theorem State.postLease_leases (k : HostId) (e : Event) : (s.postLease k e).leases = s.leases := rfl
@[simp] theorem State.postLease_lanes (k : HostId) (e : Event) : (s.postLease k e).lanes = s.lanes := rfl
@[simp] theorem State.postLease_claims (k : HostId) (e : Event) : (s.postLease k e).claims = s.claims := rfl
@[simp] theorem State.postLease_answers (k : HostId) (e : Event) : (s.postLease k e).answers = s.answers := rfl
@[simp] theorem State.postLease_marks (k : HostId) (e : Event) : (s.postLease k e).marks = s.marks := rfl
@[simp] theorem State.postLease_events (k : HostId) (e : Event) : (s.postLease k e).events = s.events := rfl
@[simp] theorem State.postLease_links (k : HostId) (e : Event) : (s.postLease k e).links = s.links := rfl
@[simp] theorem State.postLease_withdrawals (k : HostId) (e : Event) : (s.postLease k e).withdrawals = s.withdrawals := rfl
@[simp] theorem State.postLease_pins (k : HostId) (e : Event) : (s.postLease k e).pins = s.pins := rfl
@[simp] theorem State.postLease_nextEntryId (k : HostId) (e : Event) : (s.postLease k e).nextEntryId = s.nextEntryId := rfl
@[simp] theorem State.postLease_pending (k : HostId) (e : Event) : (s.postLease k e).pending = s.pending := rfl
@[simp] theorem State.postLease_lane (k : HostId) (e : Event) (j : LaneId) : (s.postLease k e).lane j = s.lane j := rfl
@[simp] theorem State.postLease_lease (k : HostId) (e : Event) (j : LaneId) : (s.postLease k e).lease j = s.lease j := rfl
@[simp] theorem State.postLease_mark (k : HostId) (e : Event) (j : MarkId) : (s.postLease k e).mark j = s.mark j := rfl
@[simp] theorem State.postLease_eventsOf (k : HostId) (e : Event) (j : HostId) : (s.postLease k e).eventsOf j = s.eventsOf j := rfl
@[simp] theorem State.postLease_link (k : HostId) (e : Event) (j : HostId) : (s.postLease k e).link j = s.link j := rfl
@[simp] theorem State.postLease_claimsOf (k : HostId) (e : Event) (j : LaneId) : (s.postLease k e).claimsOf j = s.claimsOf j := rfl
@[simp] theorem State.postLease_answersOf (k : HostId) (e : Event) (j : LaneId) : (s.postLease k e).answersOf j = s.answersOf j := rfl
@[simp] theorem State.postLease_pinsOf (k : HostId) (e : Event) (j : LaneId) : (s.postLease k e).pinsOf j = s.pinsOf j := rfl
@[simp] theorem State.postLease_now (k : HostId) (e : Event) : (s.postLease k e).now = s.now := rfl

/-! ## present -/

@[simp] theorem State.present_nresetHigh (l : LaneId) (c : LaneClaim) : (s.present l c).nresetHigh = s.nresetHigh := rfl
@[simp] theorem State.present_a0 (l : LaneId) (c : LaneClaim) : (s.present l c).a0 = s.a0 := rfl
@[simp] theorem State.present_supervisor (l : LaneId) (c : LaneClaim) : (s.present l c).supervisor = s.supervisor := rfl
@[simp] theorem State.present_time (l : LaneId) (c : LaneClaim) : (s.present l c).time = s.time := rfl
@[simp] theorem State.present_store (l : LaneId) (c : LaneClaim) : (s.present l c).store = s.store := rfl
@[simp] theorem State.present_leases (l : LaneId) (c : LaneClaim) : (s.present l c).leases = s.leases := rfl
@[simp] theorem State.present_lanes (l : LaneId) (c : LaneClaim) : (s.present l c).lanes = s.lanes := rfl
@[simp] theorem State.present_answers (l : LaneId) (c : LaneClaim) : (s.present l c).answers = s.answers := rfl
@[simp] theorem State.present_marks (l : LaneId) (c : LaneClaim) : (s.present l c).marks = s.marks := rfl
@[simp] theorem State.present_events (l : LaneId) (c : LaneClaim) : (s.present l c).events = s.events := rfl
@[simp] theorem State.present_posts (l : LaneId) (c : LaneClaim) : (s.present l c).posts = s.posts := rfl
@[simp] theorem State.present_links (l : LaneId) (c : LaneClaim) : (s.present l c).links = s.links := rfl
@[simp] theorem State.present_withdrawals (l : LaneId) (c : LaneClaim) : (s.present l c).withdrawals = s.withdrawals := rfl
@[simp] theorem State.present_pins (l : LaneId) (c : LaneClaim) : (s.present l c).pins = s.pins := rfl
@[simp] theorem State.present_nextEntryId (l : LaneId) (c : LaneClaim) : (s.present l c).nextEntryId = s.nextEntryId := rfl
@[simp] theorem State.present_orderCount (l : LaneId) (c : LaneClaim) : (s.present l c).orderCount = s.orderCount := rfl
@[simp] theorem State.present_pending (l : LaneId) (c : LaneClaim) : (s.present l c).pending = s.pending := rfl
@[simp] theorem State.present_lane (l : LaneId) (c : LaneClaim) (j : LaneId) : (s.present l c).lane j = s.lane j := rfl
@[simp] theorem State.present_lease (l : LaneId) (c : LaneClaim) (j : LaneId) : (s.present l c).lease j = s.lease j := rfl
@[simp] theorem State.present_mark (l : LaneId) (c : LaneClaim) (j : MarkId) : (s.present l c).mark j = s.mark j := rfl
@[simp] theorem State.present_eventsOf (l : LaneId) (c : LaneClaim) (j : HostId) : (s.present l c).eventsOf j = s.eventsOf j := rfl
@[simp] theorem State.present_link (l : LaneId) (c : LaneClaim) (j : HostId) : (s.present l c).link j = s.link j := rfl
@[simp] theorem State.present_answersOf (l : LaneId) (c : LaneClaim) (j : LaneId) : (s.present l c).answersOf j = s.answersOf j := rfl
@[simp] theorem State.present_pinsOf (l : LaneId) (c : LaneClaim) (j : LaneId) : (s.present l c).pinsOf j = s.pinsOf j := rfl
@[simp] theorem State.present_now (l : LaneId) (c : LaneClaim) : (s.present l c).now = s.now := rfl

/-! ## setWithdrawal -/

@[simp] theorem State.setWithdrawal_nresetHigh (n : Nat) (w : Withdrawal) : (s.setWithdrawal n w).nresetHigh = s.nresetHigh := rfl
@[simp] theorem State.setWithdrawal_a0 (n : Nat) (w : Withdrawal) : (s.setWithdrawal n w).a0 = s.a0 := rfl
@[simp] theorem State.setWithdrawal_supervisor (n : Nat) (w : Withdrawal) : (s.setWithdrawal n w).supervisor = s.supervisor := rfl
@[simp] theorem State.setWithdrawal_time (n : Nat) (w : Withdrawal) : (s.setWithdrawal n w).time = s.time := rfl
@[simp] theorem State.setWithdrawal_store (n : Nat) (w : Withdrawal) : (s.setWithdrawal n w).store = s.store := rfl
@[simp] theorem State.setWithdrawal_leases (n : Nat) (w : Withdrawal) : (s.setWithdrawal n w).leases = s.leases := rfl
@[simp] theorem State.setWithdrawal_lanes (n : Nat) (w : Withdrawal) : (s.setWithdrawal n w).lanes = s.lanes := rfl
@[simp] theorem State.setWithdrawal_claims (n : Nat) (w : Withdrawal) : (s.setWithdrawal n w).claims = s.claims := rfl
@[simp] theorem State.setWithdrawal_answers (n : Nat) (w : Withdrawal) : (s.setWithdrawal n w).answers = s.answers := rfl
@[simp] theorem State.setWithdrawal_marks (n : Nat) (w : Withdrawal) : (s.setWithdrawal n w).marks = s.marks := rfl
@[simp] theorem State.setWithdrawal_events (n : Nat) (w : Withdrawal) : (s.setWithdrawal n w).events = s.events := rfl
@[simp] theorem State.setWithdrawal_posts (n : Nat) (w : Withdrawal) : (s.setWithdrawal n w).posts = s.posts := rfl
@[simp] theorem State.setWithdrawal_links (n : Nat) (w : Withdrawal) : (s.setWithdrawal n w).links = s.links := rfl
@[simp] theorem State.setWithdrawal_pins (n : Nat) (w : Withdrawal) : (s.setWithdrawal n w).pins = s.pins := rfl
@[simp] theorem State.setWithdrawal_nextEntryId (n : Nat) (w : Withdrawal) : (s.setWithdrawal n w).nextEntryId = s.nextEntryId := rfl
@[simp] theorem State.setWithdrawal_orderCount (n : Nat) (w : Withdrawal) : (s.setWithdrawal n w).orderCount = s.orderCount := rfl
@[simp] theorem State.setWithdrawal_pending (n : Nat) (w : Withdrawal) : (s.setWithdrawal n w).pending = s.pending := rfl
@[simp] theorem State.setWithdrawal_lane (n : Nat) (w : Withdrawal) (j : LaneId) : (s.setWithdrawal n w).lane j = s.lane j := rfl
@[simp] theorem State.setWithdrawal_lease (n : Nat) (w : Withdrawal) (j : LaneId) : (s.setWithdrawal n w).lease j = s.lease j := rfl
@[simp] theorem State.setWithdrawal_mark (n : Nat) (w : Withdrawal) (j : MarkId) : (s.setWithdrawal n w).mark j = s.mark j := rfl
@[simp] theorem State.setWithdrawal_eventsOf (n : Nat) (w : Withdrawal) (j : HostId) : (s.setWithdrawal n w).eventsOf j = s.eventsOf j := rfl
@[simp] theorem State.setWithdrawal_link (n : Nat) (w : Withdrawal) (j : HostId) : (s.setWithdrawal n w).link j = s.link j := rfl
@[simp] theorem State.setWithdrawal_claimsOf (n : Nat) (w : Withdrawal) (j : LaneId) : (s.setWithdrawal n w).claimsOf j = s.claimsOf j := rfl
@[simp] theorem State.setWithdrawal_answersOf (n : Nat) (w : Withdrawal) (j : LaneId) : (s.setWithdrawal n w).answersOf j = s.answersOf j := rfl
@[simp] theorem State.setWithdrawal_pinsOf (n : Nat) (w : Withdrawal) (j : LaneId) : (s.setWithdrawal n w).pinsOf j = s.pinsOf j := rfl
@[simp] theorem State.setWithdrawal_now (n : Nat) (w : Withdrawal) : (s.setWithdrawal n w).now = s.now := rfl

@[simp] theorem State.setStore_store (v : Store) : (s.setStore v).store = v := rfl
@[simp] theorem State.post_posts (p : Post) : (s.post p).posts = s.posts ++ [p] := rfl
@[simp] theorem State.postLease_posts (k : HostId) (e : Event) :
    (s.postLease k e).posts = s.posts ++
      [{ host := k, stamp := s.time.timestamp, event := e, rank := s.orderCount, after := none, order := none }] := rfl
@[simp] theorem State.postLease_orderCount (k : HostId) (e : Event) :
    (s.postLease k e).orderCount = s.orderCount + 1 := rfl
@[simp] theorem State.setWithdrawal_withdrawals (n : Nat) (w : Withdrawal) :
    (s.setWithdrawal n w).withdrawals = s.withdrawals.set n w := rfl
@[simp] theorem State.present_claimsOf_self (l : LaneId) (c : LaneClaim) :
    (s.present l c).claimsOf l = s.claimsOf l ++ [c] := by
  simp [State.present]
@[simp] theorem State.present_claimsOf_ne (l : LaneId) (c : LaneClaim) {j : LaneId} (h : l ≠ j) :
    (s.present l c).claimsOf j = s.claimsOf j := by
  simp [State.present, h]
theorem State.present_claimsOf (l : LaneId) (c : LaneClaim) (j : LaneId) :
    (s.present l c).claimsOf j = if l = j then s.claimsOf l ++ [c] else s.claimsOf j := by
  simp [State.present, State.setClaims_claimsOf]

/-! ## The segment table -/

variable (st : Store)

@[simp] theorem Store.setEntry_entry_self (i : Slot) (g : Segment) : (st.setEntry i g).entry i = g := Bank.sel_upd_self _ _ _
@[simp] theorem Store.setEntry_entry_ne (i : Slot) (g : Segment) {j : Slot} (h : i ≠ j) :
    (st.setEntry i g).entry j = st.entry j := Bank.sel_upd_ne _ _ h
theorem Store.setEntry_entry (i : Slot) (g : Segment) (j : Slot) :
    (st.setEntry i g).entry j = if i = j then g else st.entry j := Bank.sel_upd _ _ _ _
@[simp] theorem Store.setEntry_pool (i : Slot) (g : Segment) : (st.setEntry i g).pool = st.pool := rfl
@[simp] theorem Store.setEntry_memory (i : Slot) (g : Segment) : (st.setEntry i g).memory = st.memory := rfl
@[simp] theorem Store.setEntry_epoch (i : Slot) (g : Segment) : (st.setEntry i g).epoch = st.epoch := rfl
@[simp] theorem Store.setRefs_pool (i : Slot) (n : Nat) : (st.setRefs i n).pool = st.pool := rfl
@[simp] theorem Store.setRefs_memory (i : Slot) (n : Nat) : (st.setRefs i n).memory = st.memory := rfl
@[simp] theorem Store.setRefs_epoch (i : Slot) (n : Nat) : (st.setRefs i n).epoch = st.epoch := rfl
@[simp] theorem Store.condemnEntry_pool (i : Slot) (b : Bool) : (st.condemnEntry i b).pool = st.pool := rfl
@[simp] theorem Store.condemnEntry_memory (i : Slot) (b : Bool) : (st.condemnEntry i b).memory = st.memory := rfl
@[simp] theorem Store.condemnEntry_epoch (i : Slot) (b : Bool) : (st.condemnEntry i b).epoch = st.epoch := rfl
@[simp] theorem Store.freeEntry_pool (i : Slot) : (st.freeEntry i).pool = st.pool ++ (st.entry i).chain := rfl
@[simp] theorem Store.freeEntry_memory (i : Slot) : (st.freeEntry i).memory = st.memory := rfl
@[simp] theorem Store.freeEntry_epoch (i : Slot) : (st.freeEntry i).epoch = st.epoch := rfl
theorem Store.freeEntry_entry (i j : Slot) :
    (st.freeEntry i).entry j = if i = j then (st.entry i).freed else st.entry j := Bank.sel_upd _ _ _ _
theorem Store.condemnEntry_entry (i : Slot) (b : Bool) (j : Slot) :
    (st.condemnEntry i b).entry j =
      if i = j then { (st.entry i) with state := .condemned, notifyOnFree := b } else st.entry j := Bank.sel_upd _ _ _ _
theorem Store.setRefs_entry (i : Slot) (n : Nat) (j : Slot) :
    (st.setRefs i n).entry j = if i = j then { (st.entry i) with refs := n } else st.entry j := Bank.sel_upd _ _ _ _
@[simp] theorem Store.allocate_memory (i : Slot) (n : Nat) : (st.allocate i n).memory = st.memory := rfl
@[simp] theorem Store.allocate_pool (i : Slot) (n : Nat) : (st.allocate i n).pool = st.pool.drop n := rfl
theorem Store.allocate_entry (i : Slot) (n : Nat) (j : Slot) :
    (st.allocate i n).entry j =
      if i = j then { (st.entry i) with chain := (st.entry i).chain ++ st.pool.take n } else st.entry j :=
  Bank.sel_upd _ _ _ _

end Machine

end Sys2Proof
end

