-- ==== Sys2Proof/Laws/Links.lean ====
section
/-! SUPPORT. The host links: what holding a response, answering a request and deciding one leave of every block (chapter 8). -/

namespace Sys2Proof.Machine

/-! ## The CRC (R171) -/

/-- One shift of the running value, undone. -/
def crcUnshift (v : Byte) : Byte := if v.getLsbD 0 then ((v ^^^ 0x07) >>> 1) ||| 0x80 else v >>> 1

theorem crcUnshift_crcShift : ∀ a : Byte, crcUnshift (crcShift a) = a := by decide +kernel

theorem crcShift_inj (a b : Byte) (h : crcShift a = crcShift b) : a = b := by
  rw [← crcUnshift_crcShift a, h, crcUnshift_crcShift]

/-- The running value after a byte tells the byte apart. -/
theorem crcByte_inj_byte (v a b : Byte) (h : crcByte v a = crcByte v b) : a = b := by
  unfold crcByte at h
  have := crcShift_inj _ _ (crcShift_inj _ _ (crcShift_inj _ _ (crcShift_inj _ _
    (crcShift_inj _ _ (crcShift_inj _ _ (crcShift_inj _ _ (crcShift_inj _ _ h)))))))
  exact (BitVec.xor_right_inj v).1 this

/-- The running value after a byte tells the value before it apart. -/
theorem crcByte_inj_value (a v w : Byte) (h : crcByte v a = crcByte w a) : v = w := by
  unfold crcByte at h
  have := crcShift_inj _ _ (crcShift_inj _ _ (crcShift_inj _ _ (crcShift_inj _ _
    (crcShift_inj _ _ (crcShift_inj _ _ (crcShift_inj _ _ (crcShift_inj _ _ h)))))))
  exact (BitVec.xor_left_inj a).1 this

theorem crcFold_inj (bytes : List Byte) : ∀ v w : Byte, bytes.foldl crcByte v = bytes.foldl crcByte w → v = w := by
  induction bytes with
  | nil => intro v w h; exact h
  | cons b bs ih => intro v w h; exact crcByte_inj_value b v w (ih _ _ h)

/-! ## A response held (R170) -/

variable (s : State) (k : HostId)

@[simp] theorem composeResponse_ne_nil (t c : Byte) (r : Reply) (f : Byte) : composeResponse t c r f ≠ [] := by
  simp [composeResponse]

/-- A composed response ends with the CRC of what stands before it. -/
theorem composeResponse_crc (t c : Byte) (r : Reply) (f : Byte) :
    crc8 (composeResponse t c r f).dropLast =
      byteAt (composeResponse t c r f) ((composeResponse t c r f).length - 1) := by
  unfold composeResponse byteAt
  dsimp only
  rw [List.dropLast_concat]
  simp [List.getD_eq_getElem?_getD]

/-- The link after a response is held. -/
theorem holdResponse_link (t c : Byte) (r : Reply) (b : Bool) :
    (s.holdResponse k t c r b).link k = { (s.link k) with
      port := .ready, held := some (composeResponse t c r (responseFlags b (s.link k).overrun)), overrun := false,
      deciding := none } := by
  simp [State.holdResponse]

theorem Link.wf_held {lk : Link} (f : List Byte) (h1 : lk.port = .ready) (h2 : lk.held = some f) (h3 : lk.overrun = false)
    (h4 : lk.deciding = none) (h5 : f ≠ [] ∧ crc8 f.dropLast = byteAt f (f.length - 1)) : lk.wf := by
  refine ⟨by simp [h1, h2], by simp [h4], by simp [h3], ?_⟩
  intro g hg
  rw [h2] at hg
  cases hg
  exact h5

theorem holdResponse_wf (t c : Byte) (r : Reply) (b : Bool) : ((s.holdResponse k t c r b).link k).wf := by
  rw [holdResponse_link]
  exact Link.wf_held _ rfl rfl rfl rfl ⟨composeResponse_ne_nil _ _ _ _, composeResponse_crc _ _ _ _⟩

/-- The link after the response to a decided request is held: the response, with OVERRUN if the flag was set, and the request
in the replay record (R170, R176). -/
theorem respond_link (req : Request) (r : Reply) :
    (s.respond k req r).link k = { (s.link k) with
      port := .ready, held := some (composeResponse req.tag req.code r (responseFlags false (s.link k).overrun)),
      overrun := false, deciding := none,
      replay := some { tag := req.tag, code := req.code, crc := req.crc, reply := r } } := by
  unfold State.respond
  dsimp only
  rw [holdResponse_link]
  simp

theorem respond_link_ne (req : Request) (r : Reply) {j : HostId} (h : k ≠ j) :
    (s.respond k req r).link j = s.link j := by
  simp [State.respond, State.holdResponse, h]

/-- Holding a response changes one link and nothing else. -/
theorem respond_eq (req : Request) (r : Reply) :
    s.respond k req r = { s with links := (s.respond k req r).links } := rfl

theorem answer_eq (req : Request) (live : Bool) (r : Reply) :
    s.answer k req live r = { s with links := (s.answer k req live r).links } := by
  unfold State.answer
  cases live <;> rfl

theorem respond_wf (req : Request) (r : Reply) : ((s.respond k req r).link k).wf := by
  rw [respond_link]
  exact Link.wf_held _ rfl rfl rfl rfl ⟨composeResponse_ne_nil _ _ _ _, composeResponse_crc _ _ _ _⟩

/-- What deciding a request can be: nothing waits and nothing changes, or the owner decided on the parameters of the one request
that waits, and its answer came back. -/
theorem decide_cases (kind : RequestKind) (owner : List Byte → State × Reply) :
    s.decide k kind owner = s ∨
    ∃ req live, s.waiting k = some (req, live) ∧ req.code = requestCode kind ∧
      s.decide k kind owner = (owner req.params).1.answer k req live (owner req.params).2 := by
  unfold State.decide
  split
  · exact .inl rfl
  · rename_i req live hw
    split
    · rename_i hc
      exact .inr ⟨req, live, hw, hc, rfl⟩
    · exact .inl rfl

/-- A request that waits is decided. -/
theorem decide_waiting (kind : RequestKind) (owner : List Byte → State × Reply) {req : Request} {live : Bool}
    (hw : s.waiting k = some (req, live)) (hc : req.code = requestCode kind) :
    s.decide k kind owner = (owner req.params).1.answer k req live (owner req.params).2 := by
  simp [State.decide, hw, hc]

/-- A request that makes a withdrawal: nothing, a refusal, or the withdrawal outstanding and the link waiting for it. -/
theorem decideWithdrawal_cases (kind : RequestKind) (owner : List Byte → Except Status (HostId × WithdrawalCause)) :
    s.decideWithdrawal k kind owner = s ∨
    ∃ req live, s.waiting k = some (req, live) ∧ req.code = requestCode kind ∧
      ((∃ st, owner req.params = .error st ∧
          s.decideWithdrawal k kind owner = s.answer k req live (refusal st)) ∨
       (∃ host cause, owner req.params = .ok (host, cause) ∧
          s.decideWithdrawal k kind owner =
            { s with
              links := s.links.upd k (if live then { (s.link k) with deciding := none }
                else { (s.link k) with orphan := none }),
              withdrawals := s.withdrawals ++
                [{ host := host, cause := cause, leaseTaken := false, segmentTaken := false, leasesEnded := 0,
                   claimsRemoved := 0, firstOrder := 0, endOrder := 0, answer := if live then some (k, req) else none }] })) := by
  unfold State.decideWithdrawal
  split
  · exact .inl rfl
  · rename_i req live hw
    split
    · rename_i hc
      refine .inr ⟨req, live, hw, hc, ?_⟩
      cases ho : owner req.params with
      | error st => exact .inl ⟨st, rfl, rfl⟩
      | ok p =>
        obtain ⟨host, cause⟩ := p
        exact .inr ⟨host, cause, rfl, rfl⟩
    · exact .inl rfl

/-! ## Transactions (R163 to R169) -/

/-- t differs from s in link k only. -/
def LinkFrame (k : HostId) (s t : State) : Prop := t = { s with links := t.links } ∧ ∀ j, j ≠ k → t.link j = s.link j

theorem LinkFrame.refl (k : HostId) (s : State) : LinkFrame k s s := ⟨rfl, fun _ _ => rfl⟩

theorem LinkFrame.trans {k : HostId} {s t u : State} (h : LinkFrame k s t) (g : LinkFrame k t u) : LinkFrame k s u := by
  obtain ⟨h1, h2⟩ := h
  obtain ⟨g1, g2⟩ := g
  refine ⟨?_, fun j hj => (g2 j hj).trans (h2 j hj)⟩
  rw [g1, h1]

theorem setLink_frame (v : Link) : LinkFrame k s (s.setLink k v) :=
  ⟨rfl, fun _ hj => State.setLink_link_ne s k v (Ne.symm hj)⟩

theorem holdResponse_frame (t c : Byte) (r : Reply) (b : Bool) : LinkFrame k s (s.holdResponse k t c r b) := setLink_frame s k _

theorem respond_frame (req : Request) (r : Reply) : LinkFrame k s (s.respond k req r) :=
  (holdResponse_frame s k _ _ _ _).trans (setLink_frame _ k _)

theorem processFrame_frame (f : List Byte) : LinkFrame k s (s.processFrame k f) := by
  unfold State.processFrame
  dsimp only
  cases frameCheck f with
  | some x => exact holdResponse_frame s k _ _ _ _
  | none =>
    dsimp only
    cases replayMatch (s.link k).replay (frameRequest f) with
    | some r => exact holdResponse_frame s k _ _ _ _
    | none =>
      dsimp only
      split
      · exact respond_frame s k _ _
      · exact setLink_frame s k _

theorem takeFrame_frame (p : Port) (f : List Byte) : LinkFrame (portHost p) s (s.takeFrame p f) := by
  unfold State.takeFrame
  dsimp only
  split
  · exact LinkFrame.refl _ s
  · split
    · exact LinkFrame.refl _ s
    · exact setLink_frame s _ _
    · exact (setLink_frame s _ _).trans (processFrame_frame _ _ _)

theorem busStep_frame (p : Port) (tr : Transaction) (old : BusReply) (b : List Byte) (a : List Bool) (e : Bool) :
    LinkFrame (portHost p) s (s.busStep p tr old b a e) := setLink_frame s _ _

/-- The four transaction commands touch the link of their port only. -/
theorem writeBytes_frame (p : Port) (b : List Byte) (e : Bool) : LinkFrame (portHost p) s (s.writeBytes p b e) := by
  unfold State.writeBytes
  dsimp only
  split
  · exact LinkFrame.refl _ s
  · exact busStep_frame s p _ _ _ _ _
  · split
    · exact (busStep_frame s p _ _ _ _ _).trans (takeFrame_frame _ p _)
    · exact busStep_frame s p _ _ _ _ _

theorem nullWrite_frame (p : Port) (e : Bool) : LinkFrame (portHost p) s (s.nullWrite p e) := by
  unfold State.nullWrite
  split
  · exact writeBytes_frame s p [] e
  · exact LinkFrame.refl _ s

theorem ignoredTransaction_frame (p : SpiPort) (b : Byte) (n : Nat) (e : Bool) :
    LinkFrame (spiHost p) s (s.ignoredTransaction p b n e) := by
  unfold State.ignoredTransaction
  dsimp only
  split
  · exact LinkFrame.refl _ s
  · exact busStep_frame s (.spi p) _ _ _ _ _

theorem responseRead_frame (p : Port) (n : Nat) (e : Bool) : LinkFrame (portHost p) s (s.responseRead p n e) := by
  unfold State.responseRead
  dsimp only
  split
  · exact LinkFrame.refl _ s
  · exact busStep_frame s p _ _ _ _ _
  · exact busStep_frame s p _ _ _ _ _

end Sys2Proof.Machine
end

