-- ==== Sys2Proof/Laws/Answers.lean ====
section
/-! SUPPORT. What comes back of a request: everything an answer and a refusal do, and what the fields of a frame name. -/

namespace Sys2Proof.Machine

/-- All that an answer does: nothing but the links changes, and they change as `answered` says. -/
theorem answer_answered {s u : State} (h : u.links = s.links) (k : HostId) (req : Request) (live : Bool) (r : Reply) :
    u.answer k req live r = { u with links := (u.answer k req live r).links } ∧
    s.answered (u.answer k req live r) k req live r := by
  have hl : ∀ j, u.link j = s.link j := fun j => by simp [State.link, h]
  constructor
  · cases live <;> rfl
  · cases live
    · refine ⟨fun j hj => ?_, ?_⟩
      · simp [State.answer, State.link, State.setLink, h, hj.symm]
      · simp [State.answer, State.link, State.setLink, h]
    · refine ⟨fun j hj => ?_, ?_⟩
      · have := respond_link_ne (s := u) (k := k) req r (j := j) (Ne.symm hj)
        simp only [State.answer, if_true]
        rw [this, hl]
      · have := respond_link (s := u) (k := k) req r
        simp only [State.answer, if_true]
        rw [this, hl]

/-- A refusal answered is a request refused. -/
theorem refused_of {s : State} (k : HostId) (req : Request) (live : Bool) (x : Status) :
    s.refused (s.answer k req live (refusal x)) k req live x := answer_answered rfl k req live _

/-- An answer from a state whose links are those of `s`, that state given as it is to be written. -/
theorem answered_from {s u : State} (h : u.links = s.links) (k : HostId) (req : Request) (live : Bool) (r : Reply) (v : State)
    (hv : u = v) :
    (u.answer k req live r) = { v with links := (u.answer k req live r).links } ∧
    s.answered (u.answer k req live r) k req live r := by subst hv; exact answer_answered h k req live r

/-- A request that waits is decided by its owner on its parameters. -/
theorem decide_of_waits {s : State} {k : HostId} {kind : RequestKind} {req : Request} {live : Bool}
    (h : s.waits k kind req live) (owner : List Byte → State × Reply) :
    s.decide k kind owner = (owner req.params).1.answer k req live (owner req.params).2 :=
  decide_waiting s k kind owner h.1 h.2

/-- A byte decodes to a lane exactly when it is the lane's code. -/
theorem decodeLane_iff (b : Byte) (l : LaneId) : decodeLane b = some l ↔ b.toNat = l.val := by
  unfold decodeLane
  split
  · simp [Fin.ext_iff]
  · simp; omega

/-- A handle names a slot exactly when it is one more than the slot. -/
theorem handleSlot_iff (b : Byte) (i : Slot) : handleSlot b = some i ↔ b.toNat = i.val + 1 := by
  unfold handleSlot
  split
  · simp [Fin.ext_iff]; omega
  · simp; omega

end Sys2Proof.Machine
end

