-- ==== Sys2Proof/Laws/Store.lean ====
section
/-! SUPPORT. Pattern memory and the segment table: reads after writes, and what each operation over the table does to the block
partition, the entries, the names, the stored words and the usage. -/

namespace Sys2Proof.Machine

/-! ## Pattern memory -/

/-- Every address of a canonical memory lies at or above its first, and strictly above below the head. -/
theorem memoryWf_cons {a : Nat} {w : Word} {m : List (Nat × Word)} (h : memoryWf ((a, w) :: m) = true) :
    memoryWf m = true ∧ ∀ c ∈ m, a < c.1 := by
  induction m generalizing a w with
  | nil => simp [memoryWf]
  | cons c m ih =>
    obtain ⟨b, v⟩ := c
    simp only [memoryWf, Bool.and_eq_true, decide_eq_true_eq] at h
    refine ⟨h.2, ?_⟩
    intro c hc
    rcases List.mem_cons.1 hc with rfl | hc
    · exact h.1
    · exact lt_trans h.1 ((ih h.2).2 c hc)

theorem memoryWf_of_cons {a : Nat} {w : Word} {m : List (Nat × Word)} (h : memoryWf m = true)
    (g : ∀ c ∈ m, a < c.1) : memoryWf ((a, w) :: m) = true := by
  cases m with
  | nil => rfl
  | cons c m =>
    obtain ⟨b, v⟩ := c
    simp only [memoryWf, Bool.and_eq_true, decide_eq_true_eq]
    exact ⟨g (b, v) List.mem_cons_self, h⟩

/-- Each cell after a store is an old one or the one stored. -/
theorem mem_memoryWrite (m : List (Nat × Word)) (x : Nat) (v : Word) (c : Nat × Word) (h : c ∈ memoryWrite m x v) :
    c = (x, v) ∨ c ∈ m := by
  induction m with
  | nil => simpa [memoryWrite] using h
  | cons d m ih =>
    obtain ⟨a, w⟩ := d
    simp only [memoryWrite] at h
    split at h
    · simpa using h
    · split at h
      · rcases List.mem_cons.1 h with h | h
        · exact .inl h
        · exact .inr (List.mem_cons_of_mem _ h)
      · rcases List.mem_cons.1 h with h | h
        · exact .inr (h ▸ List.mem_cons_self)
        · exact (ih h).imp id (List.mem_cons_of_mem _)

/-- A store keeps the canonical form. -/
theorem memoryWf_memoryWrite (m : List (Nat × Word)) (x : Nat) (v : Word) (h : memoryWf m = true) :
    memoryWf (memoryWrite m x v) = true := by
  induction m with
  | nil => rfl
  | cons c m ih =>
    obtain ⟨a, w⟩ := c
    have hc := memoryWf_cons h
    simp only [memoryWrite]
    split
    · rename_i hx
      refine memoryWf_of_cons h ?_
      intro c hm
      rcases List.mem_cons.1 hm with rfl | hm
      · exact hx
      · exact lt_trans hx (hc.2 c hm)
    · split
      · rename_i _ hx
        subst hx
        exact memoryWf_of_cons hc.1 hc.2
      · rename_i h1 h2
        refine memoryWf_of_cons (ih hc.1) ?_
        intro c hm
        rcases mem_memoryWrite m x v c hm with rfl | hm
        · simp only; omega
        · exact hc.2 c hm

/-- A word just stored is read back. -/
theorem memoryRead_memoryWrite_self (m : List (Nat × Word)) (x : Nat) (v : Word) :
    memoryRead (memoryWrite m x v) x = some v := by
  induction m with
  | nil => simp [memoryWrite, memoryRead]
  | cons c m ih =>
    obtain ⟨a, w⟩ := c
    simp only [memoryWrite]
    split
    · simp [memoryRead]
    · split
      · simp [memoryRead]
      · rename_i h1 h2
        simp [memoryRead, h1, h2, ih]

/-- A store leaves every other address as it was. -/
theorem memoryRead_memoryWrite_ne (m : List (Nat × Word)) (x y : Nat) (v : Word) (h : x ≠ y)
    (hm : memoryWf m = true) : memoryRead (memoryWrite m x v) y = memoryRead m y := by
  induction m with
  | nil =>
    simp only [memoryWrite, memoryRead]
    split
    · rfl
    · simp [Ne.symm h]
  | cons c m ih =>
    obtain ⟨a, w⟩ := c
    have hc := memoryWf_cons hm
    simp only [memoryWrite]
    split
    · rename_i hx
      simp only [memoryRead]
      split
      · rename_i hy
        rw [if_pos (by omega)]
      · rw [if_neg (Ne.symm h)]
    · split
      · rename_i hx1 hx
        subst hx
        simp only [memoryRead]
        split
        · rfl
        · rw [if_neg (Ne.symm h), if_neg (Ne.symm h)]
      · simp only [memoryRead, ih hc.1]

/-! ## The slots of the table -/

theorem mem_slots (i : Slot) : i ∈ slots := List.mem_finRange i

theorem slots_nodup : slots.Nodup := List.nodup_finRange 64

/-- The slots, with one of them taken out. -/
theorem slots_split (i : Slot) : ∃ a b, slots = a ++ i :: b ∧ i ∉ a ∧ i ∉ b := by
  obtain ⟨a, b, h⟩ := List.append_of_mem (mem_slots i)
  have hn := slots_nodup
  rw [h] at hn
  have hn' := List.nodup_append.1 hn
  refine ⟨a, b, h, ?_, ?_⟩
  · intro hi
    exact hn'.2.2 i hi i List.mem_cons_self rfl
  · exact (List.nodup_cons.1 hn'.2.1).1

theorem flatMap_congr_of {α β : Type} {f g : α → List β} {xs : List α} (h : ∀ x ∈ xs, g x = f x) :
    xs.flatMap g = xs.flatMap f := by
  induction xs with
  | nil => rfl
  | cons x xs ih =>
    simp only [List.flatMap_cons]
    rw [h x List.mem_cons_self, ih (fun y hy => h y (List.mem_cons_of_mem _ hy))]

/-- Two tables of lists that differ in one slot: what is left beside that slot is the same. -/
theorem slots_flatMap_one {β : Type} (f g : Slot → List β) (i : Slot) (h : ∀ j, j ≠ i → g j = f j) :
    ∃ rest, (slots.flatMap f).Perm (f i ++ rest) ∧ (slots.flatMap g).Perm (g i ++ rest) := by
  obtain ⟨a, b, hs, ha, hb⟩ := slots_split i
  refine ⟨a.flatMap f ++ b.flatMap f, ?_, ?_⟩
  · rw [hs, List.flatMap_append, List.flatMap_cons]
    exact List.perm_append_comm_assoc _ _ _
  · have ga : a.flatMap g = a.flatMap f := flatMap_congr_of fun x hx => h x (fun e => ha (e ▸ hx))
    have gb : b.flatMap g = b.flatMap f := flatMap_congr_of fun x hx => h x (fun e => hb (e ▸ hx))
    rw [hs, List.flatMap_append, List.flatMap_cons, ga, gb]
    exact List.perm_append_comm_assoc _ _ _

/-- Two tables of numbers that differ in one slot: the sums differ as the slot does. -/
theorem slots_sum_one (f g : Slot → Nat) (i : Slot) (h : ∀ j, j ≠ i → g j = f j) :
    ∃ rest, (slots.map f).sum = f i + rest ∧ (slots.map g).sum = g i + rest := by
  obtain ⟨a, b, hs, ha, hb⟩ := slots_split i
  refine ⟨(a.map f).sum + (b.map f).sum, ?_, ?_⟩
  · rw [hs]; simp only [List.map_append, List.map_cons, List.sum_append, List.sum_cons]; omega
  · have ga : a.map g = a.map f := List.map_congr_left fun x hx => h x (fun e => ha (e ▸ hx))
    have gb : b.map g = b.map f := List.map_congr_left fun x hx => h x (fun e => hb (e ▸ hx))
    rw [hs]; simp only [List.map_append, List.map_cons, List.sum_append, List.sum_cons, ga, gb]; omega

/-! ## The partition of the blocks (R2) -/

/-- Where one entry changes, the blocks stay the same if the pool and that entry's chain together do. -/
theorem blocks_perm_of_one {st st' : Store} (i : Slot) (h : ∀ j, j ≠ i → (st'.entry j).chain = (st.entry j).chain)
    (hp : (st'.pool ++ (st'.entry i).chain).Perm (st.pool ++ (st.entry i).chain)) :
    st'.blocks.Perm st.blocks := by
  obtain ⟨rest, h1, h2⟩ := slots_flatMap_one (fun j => (st.entry j).chain) (fun j => (st'.entry j).chain) i h
  unfold Store.blocks
  refine (h2.append_left _).trans (.trans ?_ (h1.append_left _).symm)
  rw [← List.append_assoc, ← List.append_assoc]
  exact hp.append_right rest

theorem partitioned_of_one {st st' : Store} (i : Slot) (hs : st.partitioned)
    (h : ∀ j, j ≠ i → st'.entry j = st.entry j)
    (hp : (st'.pool ++ (st'.entry i).chain).Perm (st.pool ++ (st.entry i).chain)) : st'.partitioned :=
  (blocks_perm_of_one i (fun j hj => by rw [h j hj]) hp).trans hs

/-- A block of a chain is one of the 1024. -/
theorem chain_lt {st : Store} (h : st.partitioned) {i : Slot} {b : Nat} (hb : b ∈ (st.entry i).chain) :
    b < Config.blockCount := by
  have : b ∈ st.blocks := List.mem_append_right _ (List.mem_flatMap.2 ⟨i, mem_slots i, hb⟩)
  exact List.mem_range.1 ((h.mem_iff).1 this)

/-- The address of a word of a segment lies in pattern memory. -/
theorem wordAddress_lt {st : Store} (h : st.partitioned) {i : Slot} {j a : Nat}
    (ha : wordAddress (st.entry i).chain j = some a) : a < Config.blockCount * Config.blockWords := by
  unfold wordAddress at ha
  cases hb : (st.entry i).chain[j / Config.blockWords]? with
  | none => simp [hb] at ha
  | some b =>
    simp only [hb, Option.map_some, Option.some.injEq] at ha
    have hl := chain_lt h (List.mem_of_getElem? hb)
    have hm : j % Config.blockWords < Config.blockWords := Nat.mod_lt _ (by decide)
    subst ha
    simp only [Config.blockCount, Config.blockWords] at *
    omega

/-- Every word within the capacity of a segment has an address. -/
theorem wordAddress_isSome (chain : List Nat) (j : Nat) (h : j < Config.blockWords * chain.length) :
    ∃ a, wordAddress chain j = some a := by
  have hj : j / Config.blockWords < chain.length := Nat.div_lt_of_lt_mul h
  exact ⟨_, by rw [wordAddress, List.getElem?_eq_getElem hj]; rfl⟩

/-- Two words of one duplicate-free chain at one address are the same word. -/
theorem wordAddress_inj {chain : List Nat} (hn : chain.Nodup) {i j a : Nat} (hi : wordAddress chain i = some a)
    (hj : wordAddress chain j = some a) : i = j := by
  unfold wordAddress at hi hj
  cases hbi : chain[i / Config.blockWords]? with
  | none => simp [hbi] at hi
  | some b =>
    cases hbj : chain[j / Config.blockWords]? with
    | none => simp [hbj] at hj
    | some c =>
      simp only [hbi, hbj, Option.map_some, Option.some.injEq] at hi hj
      have h1 : i % Config.blockWords < Config.blockWords := Nat.mod_lt _ (by decide)
      have h2 : j % Config.blockWords < Config.blockWords := Nat.mod_lt _ (by decide)
      obtain ⟨l1, e1⟩ := List.getElem?_eq_some_iff.1 hbi
      obtain ⟨l2, e2⟩ := List.getElem?_eq_some_iff.1 hbj
      have hbc : b = c := by simp only [Config.blockWords] at *; omega
      have hd : i / Config.blockWords = j / Config.blockWords := by
        exact (List.Nodup.getElem_inj_iff hn (hi := l1) (hj := l2)).1 (by rw [e1, e2, hbc])
      simp only [Config.blockWords] at *
      omega

/-- A chain holds no block twice. -/
theorem chain_nodup {st : Store} (h : st.partitioned) (i : Slot) : (st.entry i).chain.Nodup := by
  have hn : st.blocks.Nodup := h.nodup_iff.2 List.nodup_range
  obtain ⟨rest, h1, -⟩ := slots_flatMap_one (fun j => (st.entry j).chain) (fun j => (st.entry j).chain) i (fun _ _ => rfl)
  have h2 := (List.nodup_append.1 hn).2.1
  exact (List.nodup_append.1 ((h1.nodup_iff).1 h2)).1

/-- Words of two segments lie at different addresses. -/
theorem wordAddress_apart {st : Store} (h : st.partitioned) {i j : Slot} (hij : i ≠ j) {m n a b : Nat}
    (ha : wordAddress (st.entry i).chain m = some a) (hb : wordAddress (st.entry j).chain n = some b) : a ≠ b := by
  intro e
  subst e
  have key : ∀ {ch : List Nat} {m : Nat}, wordAddress ch m = some a → a / Config.blockWords ∈ ch := by
    intro ch m hc
    unfold wordAddress at hc
    cases hx : ch[m / Config.blockWords]? with
    | none => simp [hx] at hc
    | some x =>
      simp only [hx, Option.map_some, Option.some.injEq] at hc
      have hm : m % Config.blockWords < Config.blockWords := Nat.mod_lt _ (by decide)
      have : a / Config.blockWords = x := by subst hc; simp only [Config.blockWords] at *; omega
      rw [this]; exact List.mem_of_getElem? hx
  have h1 := key ha
  have h2 := key hb
  have hn : (slots.flatMap (fun k => (st.entry k).chain)).Nodup :=
    (List.nodup_append.1 (h.nodup_iff.2 List.nodup_range)).2.1
  have := (List.nodup_flatMap.1 hn).2
  obtain ⟨as, bs, hs, hna, hnb⟩ := slots_split i
  rw [hs] at this
  have hp := List.pairwise_append.1 this
  have hj := mem_slots j
  rw [hs] at hj
  rcases List.mem_append.1 hj with hj | hj
  · exact (hp.2.2 j hj i (by simp)) h2 h1
  · rcases List.mem_cons.1 hj with hj | hj
    · exact hij hj.symm
    · exact (List.pairwise_cons.1 hp.2.1).1 j hj h1 h2

/-! ## The invariant, where one entry changes and no word does -/

/-- A store that differs from a well-formed one in one entry and the pool is well formed if the new entry is, takes no other
live entry's name, and has as its words words that were stored. -/
theorem Store.wf_of_one {st st' : Store} (i : Slot) (hs : st.wf) (h : ∀ j, j ≠ i → st'.entry j = st.entry j)
    (hp : (st'.pool ++ (st'.entry i).chain).Perm (st.pool ++ (st.entry i).chain)) (hm : st'.memory = st.memory)
    (hg : (st'.entry i).wf)
    (hn : (st'.entry i).live = true →
      ∀ j, j ≠ i → (st.entry j).live = true → (st.entry j).name ≠ (st'.entry i).name)
    (hw : ∀ j, j < (st'.entry i).length →
      j < (st.entry i).length ∧ wordAddress (st'.entry i).chain j = wordAddress (st.entry i).chain j) : st'.wf := by
  obtain ⟨h1, h2, h3, h4, h5⟩ := hs
  refine ⟨partitioned_of_one i h1 h hp, ?_, ?_, ?_, ?_⟩
  · intro j
    by_cases e : j = i
    · subst e; exact hg
    · rw [h j e]; exact h2 j
  · intro a b ha hb hab
    by_cases ea : a = i <;> by_cases eb : b = i
    · rw [ea, eb]
    · subst ea; rw [h b eb] at hb hab; exact absurd hab.symm (hn ha b eb hb)
    · subst eb; rw [h a ea] at ha hab; exact absurd hab (hn hb a ea ha)
    · rw [h a ea] at ha hab; rw [h b eb] at hb hab; exact h3 a b ha hb hab
  · unfold Store.memoryOk; rw [hm]; exact h4
  · intro a j hj
    by_cases e : a = i
    · subst e
      obtain ⟨hl, he⟩ := hw j hj
      obtain ⟨x, hx⟩ := h5 a j hl
      exact ⟨x, by rw [he]; exact hx.1, by rw [hm]; exact hx.2⟩
    · rw [h a e] at hj ⊢; rw [hm]; exact h5 a j hj

/-- A live entry's name is taken by no other live entry (R8). -/
theorem Store.wf.name_ne {st : Store} (hs : st.wf) {i : Slot} (hi : (st.entry i).live = true) :
    ∀ j, j ≠ i → (st.entry j).live = true → (st.entry j).name ≠ (st.entry i).name :=
  fun j hj hl he => hj (hs.2.2.1 j i hl hi he)

/-! ## Operations over the table -/

theorem wf_freed (g : Segment) : g.freed.wf := by
  simp [Segment.wf, Segment.freed, Segment.live]

theorem Store.wf_freeEntry {st : Store} (hs : st.wf) (i : Slot) : (st.freeEntry i).wf := by
  refine Store.wf_of_one i hs (fun j hj => ?_) ?_ rfl ?_ ?_ ?_
  · rw [Store.freeEntry_entry, if_neg (Ne.symm hj)]
  · rw [Store.freeEntry_entry, if_pos rfl]
    simp [Segment.freed]
  · rw [Store.freeEntry_entry, if_pos rfl]; exact wf_freed _
  · rw [Store.freeEntry_entry, if_pos rfl]; simp [Segment.freed, Segment.live]
  · rw [Store.freeEntry_entry, if_pos rfl]; simp [Segment.freed]

theorem Store.wf_condemnEntry {st : Store} (hs : st.wf) (i : Slot) (b : Bool) (hl : (st.entry i).live = true)
    (hr : (st.entry i).refs ≠ 0) : (st.condemnEntry i b).wf := by
  have hg := hs.2.1 i
  have hf : (st.entry i).state ≠ .free := by
    intro e; simp [Segment.live, e] at hl
  refine Store.wf_of_one i hs (fun j hj => ?_) ?_ rfl ?_ ?_ ?_
  · rw [Store.condemnEntry_entry, if_neg (Ne.symm hj)]
  · rw [Store.condemnEntry_entry, if_pos rfl]; simp
  · rw [Store.condemnEntry_entry, if_pos rfl]
    have h2 := hg.2.1 hf
    refine ⟨by simp, fun _ => h2, by simp, fun _ => ?_, by simp [Segment.live]⟩
    simp only; omega
  · rw [Store.condemnEntry_entry, if_pos rfl]; simp [Segment.live]
  · rw [Store.condemnEntry_entry, if_pos rfl]; intro j hj; exact ⟨hj, rfl⟩

theorem Store.wf_removeEntry {st : Store} (hs : st.wf) (i : Slot) (b : Bool) (hl : (st.entry i).live = true) :
    (st.removeEntry i b).wf := by
  unfold Store.removeEntry
  split
  · exact Store.wf_freeEntry hs i
  · rename_i h; exact Store.wf_condemnEntry hs i b hl h

/-- A change of refs keeps the invariant where the entry is not FREE, and a CONDEMNED one keeps a reference. -/
theorem Store.wf_setRefs {st : Store} (hs : st.wf) (i : Slot) (n : Nat) (hf : (st.entry i).state ≠ .free)
    (hc : (st.entry i).state = .condemned → 1 ≤ n) : (st.setRefs i n).wf := by
  have hg := hs.2.1 i
  refine Store.wf_of_one i hs (fun j hj => ?_) ?_ rfl ?_ ?_ ?_
  · rw [Store.setRefs_entry, if_neg (Ne.symm hj)]
  · rw [Store.setRefs_entry, if_pos rfl]; simp
  · rw [Store.setRefs_entry, if_pos rfl]
    exact ⟨fun h => absurd h hf, fun _ => hg.2.1 hf, hg.2.2.1, hc, hg.2.2.2.2⟩
  · rw [Store.setRefs_entry, if_pos rfl]; intro hl; exact hs.name_ne hl
  · rw [Store.setRefs_entry, if_pos rfl]; intro j hj; exact ⟨hj, rfl⟩

theorem Store.wf_setNotify {st : Store} (hs : st.wf) (i : Slot) (hc : (st.entry i).state = .condemned) :
    (st.setEntry i { (st.entry i) with notifyOnFree := false }).wf := by
  have hg := hs.2.1 i
  refine Store.wf_of_one i hs (fun j hj => ?_) ?_ rfl ?_ ?_ ?_
  · rw [Store.setEntry_entry, if_neg (Ne.symm hj)]
  · rw [Store.setEntry_entry, if_pos rfl]; simp
  · rw [Store.setEntry_entry, if_pos rfl]
    exact ⟨fun h => by simp [hc] at h, fun h => hg.2.1 h, hg.2.2.1, hg.2.2.2.1, fun _ => rfl⟩
  · rw [Store.setEntry_entry, if_pos rfl]; intro hl; exact hs.name_ne hl
  · rw [Store.setEntry_entry, if_pos rfl]; intro j hj; exact ⟨hj, rfl⟩

/-- The removal of a list of live entries, each OPEN or PUBLISHED when its turn comes. -/
theorem Store.removeEntry_entry_ne (st : Store) (i : Slot) (b : Bool) {j : Slot} (h : i ≠ j) :
    (st.removeEntry i b).entry j = st.entry j := by
  unfold Store.removeEntry
  split
  · rw [Store.freeEntry_entry, if_neg h]
  · rw [Store.condemnEntry_entry, if_neg h]

theorem Store.removeEntry_memory (st : Store) (i : Slot) (b : Bool) : (st.removeEntry i b).memory = st.memory := by
  unfold Store.removeEntry
  split <;> rfl

theorem Store.wf_removeList (b : Bool) (is : List Slot) (hn : is.Nodup) : ∀ {st : Store}, st.wf →
    (∀ i ∈ is, (st.entry i).live = true) → (is.foldl (fun t i => t.removeEntry i b) st).wf := by
  induction is with
  | nil => intro st hs _; exact hs
  | cons i is ih =>
    intro st hs hl
    have hn' := List.nodup_cons.1 hn
    refine ih hn'.2 (Store.wf_removeEntry hs i b (hl i List.mem_cons_self)) ?_
    intro j hj
    rw [Store.removeEntry_entry_ne st i b (fun e => hn'.1 (e ▸ hj))]
    exact hl j (List.mem_cons_of_mem _ hj)

theorem Store.wf_purge {st : Store} (hs : st.wf) (k : HostId) (b : Bool) : (st.purge k b).wf := by
  refine Store.wf_removeList b _ (slots_nodup.filter _) hs ?_
  intro i hi
  have := (List.mem_filter.1 hi).2
  simp only [Bool.and_eq_true] at this
  exact this.1

theorem Store.wf_withdrawEntry {st : Store} (hs : st.wf) (k : HostId) (i : Slot) : (st.withdrawEntry k i).wf := by
  unfold Store.withdrawEntry
  dsimp only
  split
  · exact hs
  · split
    · rename_i hl; exact Store.wf_removeEntry hs i false hl
    · split
      · rename_i hc; exact Store.wf_setNotify hs i hc
      · exact hs

theorem Store.wf_withdraw {st : Store} (hs : st.wf) (k : HostId) : (st.withdraw k).wf := by
  unfold Store.withdraw
  generalize slots = is
  induction is generalizing st with
  | nil => exact hs
  | cons i is ih => exact ih (Store.wf_withdrawEntry hs k i)

/-- A chain that grows keeps the addresses of the words it had. -/
theorem wordAddress_append (c d : List Nat) (j : Nat) (h : j < Config.blockWords * c.length) :
    wordAddress (c ++ d) j = wordAddress c j := by
  unfold wordAddress
  rw [List.getElem?_append_left (Nat.div_lt_of_lt_mul h)]

/-- A chain cut to n blocks keeps the addresses of the words in them. -/
theorem wordAddress_take (c : List Nat) (n j : Nat) (h : j < Config.blockWords * n) :
    wordAddress (c.take n) j = wordAddress c j := by
  unfold wordAddress
  rw [List.getElem?_take_of_lt (Nat.div_lt_of_lt_mul h)]

theorem Store.wf_allocate {st : Store} (hs : st.wf) (i : Slot) (n : Nat) (ho : (st.entry i).state = .opened)
    (hq : (st.entry i).chain.length + n ≤ Config.quota) : (st.allocate i n).wf := by
  have hg := hs.2.1 i
  have h2 := hg.2.1 (by simp [ho])
  refine Store.wf_of_one i hs (fun j hj => ?_) ?_ rfl ?_ ?_ ?_
  · rw [Store.allocate_entry, if_neg (Ne.symm hj)]
  · rw [Store.allocate_entry, if_pos rfl, Store.allocate_pool]
    dsimp only
    have h := List.take_append_drop n st.pool
    conv_rhs => rw [← h]
    have e1 := List.perm_append_comm (l₁ := st.pool.drop n) (l₂ := (st.entry i).chain ++ st.pool.take n)
    refine e1.trans ?_
    rw [List.append_assoc, List.take_append_drop]
    exact List.perm_append_comm
  · rw [Store.allocate_entry, if_pos rfl]
    refine ⟨fun h => by simp [ho] at h, fun _ => ⟨h2.1, h2.2.1, ?_, ?_, ?_⟩, fun h => by simp [ho] at h,
      fun h => by simp [ho] at h, hg.2.2.2.2⟩
    · simp only [List.length_append]; omega
    · simp only [List.length_append, List.length_take]; omega
    · have := h2.2.2.2.2
      simp only [capacityOf, List.length_append] at this ⊢
      have : Config.blockWords * (st.entry i).chain.length ≤
        Config.blockWords * ((st.entry i).chain.length + (List.take n st.pool).length) := Nat.mul_le_mul_left _ (by omega)
      omega
  · rw [Store.allocate_entry, if_pos rfl]; intro hl; exact hs.name_ne hl
  · rw [Store.allocate_entry, if_pos rfl]
    dsimp only
    intro j hj
    refine ⟨hj, wordAddress_append _ _ _ ?_⟩
    have := h2.2.2.2.2
    simp only [capacityOf] at this
    omega

/-! ## Stored words -/

/-- The cells of a memory are addresses of pattern memory. -/
def inRam (m : List (Nat × Word)) : Prop := ∀ c ∈ m, c.1 < Config.blockCount * Config.blockWords

@[simp] theorem Store.putWord_pool (st : Store) (g : Segment) (i : Nat) (w : Word) : (st.putWord g i w).pool = st.pool := by
  unfold Store.putWord; split <;> rfl
@[simp] theorem Store.putWord_table (st : Store) (g : Segment) (i : Nat) (w : Word) :
    (st.putWord g i w).table = st.table := by
  unfold Store.putWord; split <;> rfl
@[simp] theorem Store.putWord_epoch (st : Store) (g : Segment) (i : Nat) (w : Word) :
    (st.putWord g i w).epoch = st.epoch := by
  unfold Store.putWord; split <;> rfl

@[simp] theorem Store.putWords_pool (g : Segment) (ws : List Word) : ∀ (st : Store) (i : Nat),
    (st.putWords g i ws).pool = st.pool := by
  induction ws with
  | nil => intro st i; rfl
  | cons w ws ih => intro st i; simp [Store.putWords, ih]
@[simp] theorem Store.putWords_table (g : Segment) (ws : List Word) : ∀ (st : Store) (i : Nat),
    (st.putWords g i ws).table = st.table := by
  induction ws with
  | nil => intro st i; rfl
  | cons w ws ih => intro st i; simp [Store.putWords, ih]
@[simp] theorem Store.putWords_epoch (g : Segment) (ws : List Word) : ∀ (st : Store) (i : Nat),
    (st.putWords g i ws).epoch = st.epoch := by
  induction ws with
  | nil => intro st i; rfl
  | cons w ws ih => intro st i; simp [Store.putWords, ih]

@[simp] theorem Store.putWord_entry (st : Store) (g : Segment) (i : Nat) (w : Word) (j : Slot) :
    (st.putWord g i w).entry j = st.entry j := by simp [Store.entry]
@[simp] theorem Store.putWords_entry (st : Store) (g : Segment) (i : Nat) (ws : List Word) (j : Slot) :
    (st.putWords g i ws).entry j = st.entry j := by simp [Store.entry]

/-- One word stored in a segment: the memory keeps its form and its range, every word stored stays stored, and the word is
stored if its index has an address. -/
theorem putWord_spec {st : Store} {g : Segment} {i : Nat} {w : Word} (h : memoryWf st.memory = true)
    (hr : inRam st.memory) (ha : ∀ j a, wordAddress g.chain j = some a → a < Config.blockCount * Config.blockWords) :
    memoryWf (st.putWord g i w).memory = true ∧ inRam (st.putWord g i w).memory ∧
    (∀ x, (memoryRead st.memory x).isSome = true → (memoryRead (st.putWord g i w).memory x).isSome = true) ∧
    (∀ a, wordAddress g.chain i = some a → memoryRead (st.putWord g i w).memory a = some w) ∧
    (∀ x, wordAddress g.chain i ≠ some x → memoryRead (st.putWord g i w).memory x = memoryRead st.memory x) := by
  unfold Store.putWord
  split
  · rename_i a hia
    refine ⟨memoryWf_memoryWrite _ _ _ h, ?_, ?_, ?_, ?_⟩
    · intro c hc
      rcases mem_memoryWrite _ _ _ c hc with rfl | hc
      · exact ha i a hia
      · exact hr c hc
    · intro x hx
      by_cases e : a = x
      · subst e; simp [memoryRead_memoryWrite_self]
      · simp only; rw [memoryRead_memoryWrite_ne _ _ _ _ e h]; exact hx
    · intro b hb
      rw [hia] at hb
      cases hb
      exact memoryRead_memoryWrite_self _ _ _
    · intro x hx
      exact memoryRead_memoryWrite_ne _ _ _ _ (fun e => hx (by rw [hia, e])) h
  · rename_i hia
    exact ⟨h, hr, fun x hx => hx, fun a ha => (by rw [hia] at ha; cases ha), fun x _ => rfl⟩

/-- Several words stored in a segment (R16): the same, and every one of them is stored. -/
theorem putWords_spec {g : Segment}
    (ha : ∀ j a, wordAddress g.chain j = some a → a < Config.blockCount * Config.blockWords) (ws : List Word) :
    ∀ (st : Store) (i : Nat), memoryWf st.memory = true → inRam st.memory →
    memoryWf (st.putWords g i ws).memory = true ∧ inRam (st.putWords g i ws).memory ∧
    (∀ x, (memoryRead st.memory x).isSome = true → (memoryRead (st.putWords g i ws).memory x).isSome = true) ∧
    (∀ j a, i ≤ j → j < i + ws.length → wordAddress g.chain j = some a →
      (memoryRead (st.putWords g i ws).memory a).isSome = true) := by
  induction ws with
  | nil => intro st i h hr; exact ⟨h, hr, fun x hx => hx, fun j a h1 h2 => by simp at h2; omega⟩
  | cons w ws ih =>
    intro st i h hr
    obtain ⟨h1, h2, h3, h4, -⟩ := putWord_spec (i := i) (w := w) h hr ha
    obtain ⟨g1, g2, g3, g4⟩ := ih (st.putWord g i w) (i + 1) h1 h2
    refine ⟨g1, g2, fun x hx => g3 x (h3 x hx), ?_⟩
    intro j a hij hj hja
    by_cases e : i = j
    · subst e; exact g3 a (by rw [h4 a hja]; rfl)
    · refine g4 j a (by omega) ?_ hja
      simp only [List.length_cons] at hj; omega

/-- The words a store of words leaves, and the addresses it leaves alone (R1, R16). -/
theorem putWords_read {g : Segment} (hn : g.chain.Nodup) (ws : List Word)
    (ha : ∀ j a, wordAddress g.chain j = some a → a < Config.blockCount * Config.blockWords) :
    ∀ (st : Store) (i : Nat), memoryWf st.memory = true → inRam st.memory →
    (∀ j (h : j < ws.length) a, wordAddress g.chain (i + j) = some a →
      memoryRead (st.putWords g i ws).memory a = some ws[j]) ∧
    (∀ x, (∀ j, j < ws.length → wordAddress g.chain (i + j) ≠ some x) →
      memoryRead (st.putWords g i ws).memory x = memoryRead st.memory x) := by
  induction ws with
  | nil => intro st i _ _; exact ⟨fun j h => by simp at h, fun x _ => rfl⟩
  | cons w ws ih =>
    intro st i h hr
    obtain ⟨h1, h2, -, h4, h5⟩ := putWord_spec (i := i) (w := w) h hr ha
    obtain ⟨g1, g2⟩ := ih (st.putWord g i w) (i + 1) h1 h2
    constructor
    · intro j hj a hja
      cases j with
      | zero =>
        simp only [Nat.add_zero] at hja
        show memoryRead ((st.putWord g i w).putWords g (i + 1) ws).memory a = some w
        rw [g2 a ?_]
        · exact h4 a hja
        · intro j' _ e
          have := wordAddress_inj hn hja e
          omega
      | succ j =>
        simp only [List.length_cons] at hj
        have := g1 j (by omega) a (by rw [← hja]; congr 1; omega)
        simpa [Store.putWords] using this
    · intro x hx
      show memoryRead ((st.putWord g i w).putWords g (i + 1) ws).memory x = _
      rw [g2 x ?_, h5 x ?_]
      · have := hx 0 (by simp); simpa using this
      · intro j hj
        have := hx (j + 1) (by simp; omega)
        rw [show i + 1 + j = i + (j + 1) by omega]; exact this

/-- Words stored in an OPEN segment, and its length raised over them, keep the invariant (R16, R27). -/
theorem Store.wf_putWords {st : Store} (hs : st.wf) (i : Slot) (offset n : Nat) (ws : List Word)
    (ho : (st.entry i).state = .opened) (h1 : offset ≤ (st.entry i).length) (hlen : n = offset + ws.length ∨
      n = max (st.entry i).length (offset + ws.length)) (h2 : offset + ws.length ≤ capacityOf (st.entry i))
    (hge : (st.entry i).length ≤ n) :
    ((st.putWords (st.entry i) offset ws).setEntry i { (st.entry i) with length := n }).wf := by
  obtain ⟨p1, p2, p3, p4, p5⟩ := hs
  have hg := p2 i
  have hcap := (hg.2.1 (by simp [ho])).2.2.2.2
  have hn : n ≤ capacityOf (st.entry i) := by rcases hlen with h | h <;> omega
  obtain ⟨q1, q2, q3, q4⟩ := putWords_spec (g := st.entry i) (fun j a ha => wordAddress_lt p1 ha) ws st offset p4.1 p4.2
  have he : ∀ j, ((st.putWords (st.entry i) offset ws).setEntry i { (st.entry i) with length := n }).entry j =
      if i = j then { (st.entry i) with length := n } else st.entry j := by
    intro j; rw [Store.setEntry_entry]; simp
  refine ⟨?_, ?_, ?_, ⟨q1, q2⟩, ?_⟩
  · refine partitioned_of_one i p1 (fun j hj => by rw [he, if_neg (Ne.symm hj)]) ?_
    rw [he, if_pos rfl]; simp
  · intro j
    rw [he]
    split
    · subst_vars
      have h2' := hg.2.1 (by simp [ho])
      exact ⟨fun h => by simp [ho] at h, fun _ => ⟨h2'.1, h2'.2.1, h2'.2.2.1, h2'.2.2.2.1, hn⟩, fun h => by simp [ho] at h,
        fun h => by simp [ho] at h, hg.2.2.2.2⟩
    · exact p2 j
  · have hlive : ∀ j, (((st.putWords (st.entry i) offset ws).setEntry i { (st.entry i) with length := n }).entry j).live =
        (st.entry j).live := by
      intro j; rw [he]; split
      · subst_vars; rfl
      · rfl
    have hname : ∀ j, (((st.putWords (st.entry i) offset ws).setEntry i { (st.entry i) with length := n }).entry j).name =
        (st.entry j).name := by
      intro j; rw [he]; split
      · subst_vars; rfl
      · rfl
    intro a b ha hb hab
    rw [hlive] at ha hb; rw [hname, hname] at hab
    exact p3 a b ha hb hab
  · intro a j hj
    rw [he] at hj ⊢
    split at hj
    · rename_i e
      subst e
      simp only [if_pos]
      by_cases hjl : j < (st.entry i).length
      · obtain ⟨x, hx⟩ := p5 i j hjl
        exact ⟨x, hx.1, q3 x hx.2⟩
      · have hj' : j < n := hj
        have : j < capacityOf (st.entry i) := by omega
        obtain ⟨x, hx⟩ := wordAddress_isSome (st.entry i).chain j this
        exact ⟨x, hx, q4 j x (by omega) (by rcases hlen with h | h <;> omega) hx⟩
    · rename_i e
      rw [if_neg e]
      obtain ⟨x, hx⟩ := p5 a j hj
      exact ⟨x, hx.1, q3 x hx.2⟩

/-! ## PUBLISH and DEFINE -/

theorem blocksFor_pos {n : Nat} (h : 1 ≤ n) : 1 ≤ ceilDiv n Config.blockWords := by
  simp only [ceilDiv, Config.blockWords]; omega

theorem Store.publishEntry_entry (st : Store) (i j : Slot) :
    (st.publishEntry i).entry j =
      if i = j then { (st.entry i) with
        state := .published, chain := (st.entry i).chain.take (ceilDiv (st.entry i).length Config.blockWords) }
      else st.entry j := Bank.sel_upd _ _ _ _

theorem Store.wf_publishEntry {st : Store} (hs : st.wf) (i : Slot) (ho : (st.entry i).state = .opened)
    (hl : (st.entry i).length ≠ 0) : (st.publishEntry i).wf := by
  have hg := hs.2.1 i
  have h2 := hg.2.1 (by simp [ho])
  have hcap := h2.2.2.2.2
  have hc : ceilDiv (st.entry i).length Config.blockWords ≤ (st.entry i).chain.length := by
    simp only [ceilDiv, Config.blockWords, capacityOf] at hcap ⊢; omega
  have hlive : (st.entry i).live = true := by simp [Segment.live, ho]
  refine Store.wf_of_one i hs (fun j hj => ?_) ?_ rfl ?_ ?_ ?_
  · rw [Store.publishEntry_entry, if_neg (Ne.symm hj)]
  · rw [Store.publishEntry_entry, if_pos rfl]
    show ((st.pool ++ (st.entry i).chain.drop _) ++ (st.entry i).chain.take _).Perm _
    rw [List.append_assoc]
    refine List.Perm.append_left _ ?_
    refine List.perm_append_comm.trans ?_
    rw [show blocksFor (st.entry i).length = ceilDiv (st.entry i).length Config.blockWords from rfl,
      List.take_append_drop]
  · rw [Store.publishEntry_entry, if_pos rfl]
    refine ⟨fun h => by simp at h, fun _ => ⟨h2.1, h2.2.1, ?_, ?_, ?_⟩, fun _ => ⟨?_, ?_⟩, fun h => by simp at h,
      fun _ => hg.2.2.2.2 hlive⟩
    · have := blocksFor_pos (n := (st.entry i).length) (by omega)
      simp only [List.length_take]; omega
    · have := h2.2.2.2.1
      simp only [List.length_take]; omega
    · simp only [capacityOf, List.length_take, ceilDiv, Config.blockWords] at hc hcap ⊢; omega
    · simp only; omega
    · simp only [List.length_take]; omega
  · rw [Store.publishEntry_entry, if_pos rfl]; intro _; exact hs.name_ne hlive
  · rw [Store.publishEntry_entry, if_pos rfl]
    intro j hj
    refine ⟨hj, wordAddress_take _ _ _ ?_⟩
    simp only [ceilDiv, Config.blockWords] at hj ⊢; omega

theorem nextGeneration_ne (g : Byte) : nextGeneration g ≠ 0 := by
  unfold nextGeneration
  split
  · decide
  · rename_i h
    intro e
    apply h
    have := congrArg (fun x => x - 1) e
    simpa using this

theorem Store.nameTaken_false {st : Store} {name : List Byte} (h : st.nameTaken name = false) (j : Slot)
    (hj : (st.entry j).live = true) : (st.entry j).name ≠ some name := by
  intro e
  have : st.nameTaken name = true := by
    unfold Store.nameTaken
    exact List.any_eq_true.2 ⟨j, mem_slots j, by simp [hj, e]⟩
  rw [h] at this; cases this

/-- The lowest FREE entry is FREE, and no entry below it is (R14). -/
theorem Store.lowestFree_spec {st : Store} {i : Slot} (h : st.lowestFree = some i) : (st.entry i).state = .free := by
  have := List.find?_some h
  simpa using this

theorem Store.defineIn_entry (st : Store) (i : Slot) (k : HostId) (name : List Byte) (v : Visibility) (n : Nat) (j : Slot) :
    (st.defineIn i k name v n).entry j =
      if i = j then { state := .opened, generation := nextGeneration (st.entry i).generation, name := some name, owner := k,
                      visibility := v, length := 0, chain := st.pool.take n, refs := 0, notifyOnFree := false }
      else st.entry j := by
  unfold Store.defineIn
  rw [Store.allocate_entry]
  simp only [Store.setEntry_entry]
  split <;> simp

theorem Store.wf_defineIn {st : Store} (hs : st.wf) (i : Slot) (k : HostId) (name : List Byte) (v : Visibility) (n : Nat)
    (hf : (st.entry i).state = .free) (hn : st.nameTaken name = false) (h1 : 1 ≤ n) (h2 : n ≤ Config.quota)
    (h3 : n ≤ st.pool.length) : (st.defineIn i k name v n).wf := by
  have hc := ((hs.2.1 i).1 hf).2.1
  refine Store.wf_of_one i hs (fun j hj => ?_) ?_ rfl ?_ ?_ ?_
  · rw [Store.defineIn_entry, if_neg (Ne.symm hj)]
  · rw [Store.defineIn_entry, if_pos rfl, hc]
    show (st.pool.drop n ++ st.pool.take n).Perm _
    refine List.perm_append_comm.trans ?_
    rw [List.take_append_drop]; simp
  · rw [Store.defineIn_entry, if_pos rfl]
    refine ⟨fun h => by simp at h, fun _ => ⟨nextGeneration_ne _, rfl, ?_, ?_, ?_⟩, fun h => by simp at h,
      fun h => by simp at h, fun _ => rfl⟩
    · simp only [List.length_take]; omega
    · simp only [List.length_take]; omega
    · simp
  · rw [Store.defineIn_entry, if_pos rfl]; intro _ j _ hj; exact Store.nameTaken_false hn j hj
  · rw [Store.defineIn_entry, if_pos rfl]; intro j hj; simp at hj

end Sys2Proof.Machine
end

