-- ==== Sys2Proof/Laws/Claims.lean ====
section
/-! SUPPORT. The claims of the lanes: what taking an append or a release can touch, and that it keeps the store's invariant
(R25 to R27). -/

namespace Sys2Proof.Machine

/-- t differs from s in the store, the append answers, the posts and the claims only. -/
def StoreFrame (s t : State) : Prop :=
  ∃ store answers posts claims, t = { s with store := store, answers := answers, posts := posts, claims := claims }

theorem StoreFrame.refl (s : State) : StoreFrame s s := ⟨s.store, s.answers, s.posts, s.claims, rfl⟩

theorem StoreFrame.trans {s t u : State} (h : StoreFrame s t) (g : StoreFrame t u) : StoreFrame s u := by
  obtain ⟨a, b, c, d, rfl⟩ := h
  obtain ⟨a', b', c', d', rfl⟩ := g
  exact ⟨a', b', c', d', rfl⟩

theorem StoreFrame.lanes {s t : State} (h : StoreFrame s t) : t.lanes = s.lanes := by obtain ⟨a, b, c, d, rfl⟩ := h; rfl
theorem StoreFrame.lane {s t : State} (h : StoreFrame s t) (l : LaneId) : t.lane l = s.lane l := by
  obtain ⟨a, b, c, d, rfl⟩ := h; rfl
theorem StoreFrame.leases {s t : State} (h : StoreFrame s t) : t.leases = s.leases := by obtain ⟨a, b, c, d, rfl⟩ := h; rfl
theorem StoreFrame.lease {s t : State} (h : StoreFrame s t) (l : LaneId) : t.lease l = s.lease l := by
  obtain ⟨a, b, c, d, rfl⟩ := h; rfl
theorem StoreFrame.marks {s t : State} (h : StoreFrame s t) : t.marks = s.marks := by obtain ⟨a, b, c, d, rfl⟩ := h; rfl
theorem StoreFrame.events {s t : State} (h : StoreFrame s t) : t.events = s.events := by obtain ⟨a, b, c, d, rfl⟩ := h; rfl
theorem StoreFrame.links {s t : State} (h : StoreFrame s t) : t.links = s.links := by obtain ⟨a, b, c, d, rfl⟩ := h; rfl
theorem StoreFrame.withdrawals {s t : State} (h : StoreFrame s t) : t.withdrawals = s.withdrawals := by
  obtain ⟨a, b, c, d, rfl⟩ := h; rfl
theorem StoreFrame.pending {s t : State} (h : StoreFrame s t) : t.pending = s.pending := by
  obtain ⟨a, b, c, d, rfl⟩ := h; rfl

/-- The store after a release is taken: refs falls by 1, or the CONDEMNED entry that reaches 0 is freed (R25, R26). -/
def Store.afterRelease (st : Store) (i : Slot) : Store :=
  if (st.entry i).state = .condemned ∧ (st.entry i).refs ≤ 1 then st.freeEntry i
  else st.setRefs i ((st.entry i).refs - 1)

theorem Store.setRefs_freeEntry (st : Store) (i : Slot) (n : Nat) : (st.setRefs i n).freeEntry i = st.freeEntry i := by
  have e : (st.setRefs i n).entry i = { (st.entry i) with refs := n } := by rw [Store.setRefs_entry, if_pos rfl]
  unfold Store.freeEntry Store.setEntry
  rw [e]
  simp [Store.setRefs, Store.setEntry, Segment.freed]

/-- Everything a release taken by the Segment Manager does to the state. -/
theorem takeRelease_eq (s : State) (l : LaneId) (r : SegmentRef) (below : Nat) (order : Option Nat) :
    s.takeRelease l r below order = match handleSlot r.handle with
      | none => s
      | some i => { s with
          store := s.store.afterRelease i,
          posts := s.posts ++
            if (s.store.entry i).state = .condemned ∧ (s.store.entry i).refs ≤ 1 ∧ (s.store.entry i).notifyOnFree = true then
              [freedPost s l (s.store.entry i) r below order]
            else [] } := by
  unfold State.takeRelease
  cases handleSlot r.handle with
  | none => rfl
  | some i =>
    dsimp only
    unfold Store.afterRelease
    by_cases h : (s.store.entry i).state = .condemned ∧ (s.store.entry i).refs ≤ 1
    · rw [if_pos h, if_pos h]
      by_cases hn : (s.store.entry i).notifyOnFree = true
      · rw [if_pos hn, if_pos ⟨h.1, h.2, hn⟩]
        show ({ s with store := ((s.store.setRefs i _).freeEntry i), posts := _ } : State) = _
        rw [Store.setRefs_freeEntry]; rfl
      · rw [if_neg hn, if_neg (fun g => hn g.2.2)]
        show ({ s with store := ((s.store.setRefs i _).freeEntry i) } : State) = _
        rw [Store.setRefs_freeEntry]; simp
    · rw [if_neg h, if_neg h, if_neg (fun g => h ⟨g.1, g.2.1⟩)]
      show ({ s with store := _ } : State) = _
      simp

theorem takeRelease_frame (s : State) (l : LaneId) (r : SegmentRef) (below : Nat) (order : Option Nat) : StoreFrame s (s.takeRelease l r below order) := by
  rw [takeRelease_eq]
  split
  · exact StoreFrame.refl s
  · exact ⟨_, s.answers, _, s.claims, rfl⟩

theorem takeAppend_frame (s : State) (l : LaneId) (r : SegmentRef) (id : Nat) (w : Word) :
    StoreFrame s (s.takeAppend l r id w) := by
  unfold State.takeAppend
  split
  · exact ⟨s.store, _, s.posts, s.claims, rfl⟩
  · dsimp only
    split
    · exact ⟨_, _, s.posts, s.claims, rfl⟩
    · exact ⟨s.store, _, s.posts, s.claims, rfl⟩

theorem takeClaim_frame (s : State) (l : LaneId) (c : LaneClaim) : StoreFrame s (s.takeClaim l c) := by
  cases c
  · exact takeAppend_frame s l _ _ _
  · exact takeRelease_frame s l _ _ _

theorem takeClaims_frame (l : LaneId) (cs : List LaneClaim) : ∀ s : State,
    StoreFrame s (cs.foldl (fun t c => t.takeClaim l c) s) := by
  induction cs with
  | nil => exact StoreFrame.refl
  | cons c cs ih => exact fun s => (takeClaim_frame s l c).trans (ih _)

theorem settleClaims_frame (s : State) (l : LaneId) : StoreFrame s (s.settleClaims l) :=
  StoreFrame.trans ⟨s.store, s.answers, s.posts, _, rfl⟩ (takeClaims_frame l _ _)

/-- Taking a claim leaves the claims that wait as they are. -/
theorem takeClaim_claims (s : State) (l : LaneId) (c : LaneClaim) : (s.takeClaim l c).claims = s.claims := by
  cases c with
  | append r id w =>
    show (s.takeAppend l r id w).claims = s.claims
    unfold State.takeAppend
    split
    · rfl
    · dsimp only
      split <;> rfl
  | release r below order =>
    show (s.takeRelease l r below order).claims = s.claims
    rw [takeRelease_eq]
    split <;> rfl

theorem takeClaims_claims (l : LaneId) (cs : List LaneClaim) : ∀ s : State,
    (cs.foldl (fun t c => t.takeClaim l c) s).claims = s.claims := by
  induction cs with
  | nil => intro s; rfl
  | cons c cs ih => intro s; rw [List.foldl_cons, ih, takeClaim_claims]

/-- Every claim of the lane has been taken, and the other lanes' wait as they did (R30). -/
theorem settleClaims_claims (s : State) (l : LaneId) : (s.settleClaims l).claims = s.claims.upd l [] := by
  unfold State.settleClaims
  rw [takeClaims_claims]
  rfl

/-! ## What claims taken do to the store -/

/-- st' is st after claims of lanes have been taken: words appended to OPEN segments that have room, and references released
(R25 to R27). -/
inductive Store.Settles : Store → Store → Prop
  | refl (st : Store) : Settles st st
  | append {st st' : Store} (i : Slot) (w : Word) (ho : (st'.entry i).state = .opened)
      (hl : (st'.entry i).length < capacityOf (st'.entry i)) (h : Settles st st') :
      Settles st ((st'.putWord (st'.entry i) (st'.entry i).length w).setEntry i
        { (st'.entry i) with length := (st'.entry i).length + 1 })
  | release {st st' : Store} (i : Slot) (h : Settles st st') : Settles st (st'.afterRelease i)

theorem Store.Settles.trans {a b c : Store} (h : a.Settles b) (g : b.Settles c) : a.Settles c := by
  induction g with
  | refl => exact h
  | append i w ho hl _ ih => exact .append i w ho hl ih
  | release i _ ih => exact .release i ih

/-! ## The store's invariant -/

theorem Store.wf_afterRelease {st : Store} (hs : st.wf) (i : Slot) : (st.afterRelease i).wf := by
  unfold Store.afterRelease
  split
  · exact Store.wf_freeEntry hs i
  · rename_i h
    by_cases hf : (st.entry i).state = .free
    · have h0 : (st.entry i).refs = 0 := ((hs.2.1 i).1 hf).2.2.2.1
      have e : st.setRefs i ((st.entry i).refs - 1) = st := by
        unfold Store.setRefs Store.setEntry
        have : ({ (st.entry i) with refs := (st.entry i).refs - 1 } : Segment) = st.entry i := by
          rw [show (st.entry i).refs - 1 = (st.entry i).refs by omega]
        rw [this]; simp [Store.entry]
      rw [e]; exact hs
    · refine Store.wf_setRefs hs i _ hf ?_
      intro hc
      have : ¬ (st.entry i).refs ≤ 1 := fun g => h ⟨hc, g⟩
      omega

theorem takeRelease_store (s : State) (l : LaneId) (r : SegmentRef) (below : Nat) (order : Option Nat) :
    (s.takeRelease l r below order).store = match handleSlot r.handle with
      | none => s.store
      | some i => s.store.afterRelease i := by
  rw [takeRelease_eq]
  split <;> rfl

theorem takeRelease_wf {s : State} (hs : s.store.wf) (l : LaneId) (r : SegmentRef) (below : Nat) (order : Option Nat) : (s.takeRelease l r below order).store.wf := by
  rw [takeRelease_store]
  split
  · exact hs
  · exact Store.wf_afterRelease hs _

/-- The store after an append is taken (R27). -/
theorem takeAppend_store (s : State) (l : LaneId) (r : SegmentRef) (id : Nat) (w : Word) :
    (s.takeAppend l r id w).store = match handleSlot r.handle with
      | none => s.store
      | some i =>
        if (s.store.entry i).state = .opened ∧ (s.store.entry i).length < capacityOf (s.store.entry i) then
          (s.store.putWord (s.store.entry i) (s.store.entry i).length w).setEntry i
            { (s.store.entry i) with length := (s.store.entry i).length + 1 }
        else s.store := by
  unfold State.takeAppend
  cases handleSlot r.handle with
  | none => rfl
  | some i =>
    dsimp only
    unfold appendResult
    by_cases ho : (s.store.entry i).state = .opened
    · by_cases hl : (s.store.entry i).length < capacityOf (s.store.entry i)
      · simp [ho, hl]
      · simp [ho, hl]
    · simp [ho]

theorem takeAppend_wf {s : State} (hs : s.store.wf) (l : LaneId) (r : SegmentRef) (id : Nat) (w : Word) :
    (s.takeAppend l r id w).store.wf := by
  rw [takeAppend_store]
  split
  · exact hs
  · split
    · rename_i i _ h
      have := Store.wf_putWords hs i (s.store.entry i).length ((s.store.entry i).length + 1) [w] h.1 (le_refl _)
        (.inl rfl) (by simp only [List.length_singleton]; omega) (by omega)
      exact this
    · exact hs

theorem takeClaim_wf {s : State} (hs : s.store.wf) (l : LaneId) (c : LaneClaim) : (s.takeClaim l c).store.wf := by
  cases c
  · exact takeAppend_wf hs l _ _ _
  · exact takeRelease_wf hs l _ _ _

theorem takeClaims_wf (l : LaneId) (cs : List LaneClaim) : ∀ {s : State}, s.store.wf →
    (cs.foldl (fun t c => t.takeClaim l c) s).store.wf := by
  induction cs with
  | nil => intro s h; exact h
  | cons c cs ih => intro s h; exact ih (takeClaim_wf h l c)

theorem takeClaim_settles (s : State) (l : LaneId) (c : LaneClaim) : s.store.Settles (s.takeClaim l c).store := by
  cases c with
  | append r id w =>
    show s.store.Settles (s.takeAppend l r id w).store
    rw [takeAppend_store]
    split
    · exact .refl _
    · split
      · rename_i i _ h
        exact .append i w h.1 h.2 (.refl _)
      · exact .refl _
  | release r below order =>
    show s.store.Settles (s.takeRelease l r below order).store
    rw [takeRelease_store]
    split
    · exact .refl _
    · exact .release _ (.refl _)

theorem takeClaims_settles (l : LaneId) (cs : List LaneClaim) : ∀ s : State,
    s.store.Settles (cs.foldl (fun t c => t.takeClaim l c) s).store := by
  induction cs with
  | nil => exact fun s => .refl _
  | cons c cs ih => exact fun s => (takeClaim_settles s l c).trans (ih _)

theorem settleClaims_settles (s : State) (l : LaneId) : s.store.Settles (s.settleClaims l).store :=
  takeClaims_settles l _ (s.setClaims l [])

/-- Claims taken keep the store's invariant. -/
theorem Store.Settles.wf {st st' : Store} (h : st.Settles st') (hs : st.wf) : st'.wf := by
  induction h with
  | refl => exact hs
  | append i w ho hl _ ih =>
    exact Store.wf_putWords ih i _ _ [w] ho (le_refl _) (.inl rfl) (by simp only [List.length_singleton]; omega) (by omega)
  | release i _ ih => exact Store.wf_afterRelease ih i

theorem settleClaims_wf {s : State} (hs : s.store.wf) (l : LaneId) : (s.settleClaims l).store.wf :=
  takeClaims_wf l _ hs

end Sys2Proof.Machine
end

