-- ==== Sys2Proof/Laws/Quota.lean ====
section
/-! SUPPORT. The block usage of the hosts: what each operation over the segment table does to it (R9). -/

namespace Sys2Proof.Machine

/-- What one entry adds to a host's usage (R9). -/
def Segment.share (g : Segment) (k : HostId) : Nat := if g.live && g.owner == k then g.chain.length else 0

theorem usage_eq (st : Store) (k : HostId) : st.usage k = (slots.map (fun i => (st.entry i).share k)).sum := rfl

/-- Where one entry changes, the usage changes as that entry's share does. -/
theorem usage_of_one {st st' : Store} (i : Slot) (h : ∀ j, j ≠ i → st'.entry j = st.entry j) (k : HostId) :
    ∃ rest, st.usage k = (st.entry i).share k + rest ∧ st'.usage k = (st'.entry i).share k + rest :=
  slots_sum_one (fun j => (st.entry j).share k) (fun j => (st'.entry j).share k) i (fun j hj => by rw [h j hj])

/-- A change of one entry that raises no share keeps the quota. -/
theorem quotaKept_of_one {st st' : Store} (i : Slot) (hq : st.quotaKept) (h : ∀ j, j ≠ i → st'.entry j = st.entry j)
    (hs : ∀ k, (st'.entry i).share k ≤ (st.entry i).share k) : st'.quotaKept := by
  intro k
  obtain ⟨rest, h1, h2⟩ := usage_of_one i h k
  have := hq k
  have := hs k
  omega

/-- A change of one entry that adds at most n blocks to host k's share, where k's usage leaves room for them. -/
theorem quotaKept_of_grant {st st' : Store} (i : Slot) (k : HostId) (n : Nat) (hq : st.quotaKept)
    (hr : st.usage k + n ≤ Config.quota) (h : ∀ j, j ≠ i → st'.entry j = st.entry j)
    (hk : (st'.entry i).share k ≤ (st.entry i).share k + n)
    (hs : ∀ j, j ≠ k → (st'.entry i).share j ≤ (st.entry i).share j) : st'.quotaKept := by
  intro j
  obtain ⟨rest, h1, h2⟩ := usage_of_one i h j
  have := hq j
  by_cases e : j = k
  · subst e; omega
  · have := hs j e; omega

theorem share_le (g : Segment) (k : HostId) : g.share k ≤ g.chain.length := by
  unfold Segment.share
  by_cases h : (g.live && g.owner == k) = true
  · rw [if_pos h]
  · rw [if_neg h]; exact Nat.zero_le _

theorem share_grant (g g' : Segment) (k : HostId) (n : Nat) (hl : g'.live = g.live) (ho : g'.owner = g.owner)
    (hc : g'.chain.length ≤ g.chain.length + n) : g'.share k ≤ g.share k + n := by
  unfold Segment.share
  rw [hl, ho]
  by_cases h : (g.live && g.owner == k) = true
  · rw [if_pos h, if_pos h]; exact hc
  · rw [if_neg h, if_neg h]; exact Nat.zero_le _

theorem share_freed (g : Segment) (k : HostId) : g.freed.share k = 0 := rfl

theorem quota_freeEntry {st : Store} (hq : st.quotaKept) (i : Slot) : (st.freeEntry i).quotaKept := by
  refine quotaKept_of_one i hq (fun j hj => by rw [Store.freeEntry_entry, if_neg (Ne.symm hj)]) (fun k => ?_)
  rw [Store.freeEntry_entry, if_pos rfl, share_freed]; exact Nat.zero_le _

theorem quota_condemnEntry {st : Store} (hq : st.quotaKept) (i : Slot) (b : Bool) : (st.condemnEntry i b).quotaKept := by
  refine quotaKept_of_one i hq (fun j hj => by rw [Store.condemnEntry_entry, if_neg (Ne.symm hj)]) (fun k => ?_)
  rw [Store.condemnEntry_entry, if_pos rfl]
  simp [Segment.share, Segment.live]

theorem quota_removeEntry {st : Store} (hq : st.quotaKept) (i : Slot) (b : Bool) : (st.removeEntry i b).quotaKept := by
  unfold Store.removeEntry
  split
  · exact quota_freeEntry hq i
  · exact quota_condemnEntry hq i b

theorem quota_setRefs {st : Store} (hq : st.quotaKept) (i : Slot) (n : Nat) : (st.setRefs i n).quotaKept := by
  refine quotaKept_of_one i hq (fun j hj => by rw [Store.setRefs_entry, if_neg (Ne.symm hj)]) (fun k => ?_)
  rw [Store.setRefs_entry, if_pos rfl]; exact le_refl _

theorem quota_purge {st : Store} (hq : st.quotaKept) (k : HostId) (b : Bool) : (st.purge k b).quotaKept := by
  unfold Store.purge
  generalize st.liveOf k = is
  induction is generalizing st with
  | nil => exact hq
  | cons i is ih => exact ih (quota_removeEntry hq i b)

theorem quota_withdrawEntry {st : Store} (hq : st.quotaKept) (k : HostId) (i : Slot) :
    (st.withdrawEntry k i).quotaKept := by
  unfold Store.withdrawEntry
  dsimp only
  split
  · exact hq
  · split
    · exact quota_removeEntry hq i false
    · split
      · refine quotaKept_of_one i hq (fun j hj => by rw [Store.setEntry_entry, if_neg (Ne.symm hj)]) (fun k => ?_)
        rw [Store.setEntry_entry, if_pos rfl]; exact le_refl _
      · exact hq

theorem quota_withdraw {st : Store} (hq : st.quotaKept) (k : HostId) : (st.withdraw k).quotaKept := by
  unfold Store.withdraw
  generalize slots = is
  induction is generalizing st with
  | nil => exact hq
  | cons i is ih => exact ih (quota_withdrawEntry hq k i)

/-- A length set on an entry, and words stored, change no usage. -/
theorem quota_putWords {st : Store} (hq : st.quotaKept) (i : Slot) (offset n : Nat) (ws : List Word) :
    ((st.putWords (st.entry i) offset ws).setEntry i { (st.entry i) with length := n }).quotaKept := by
  refine quotaKept_of_one i hq (fun j hj => by rw [Store.setEntry_entry, if_neg (Ne.symm hj)]; simp) (fun k => ?_)
  rw [Store.setEntry_entry, if_pos rfl]; exact le_refl _

theorem quota_publishEntry {st : Store} (hq : st.quotaKept) (i : Slot) (ho : (st.entry i).state = .opened) :
    (st.publishEntry i).quotaKept := by
  refine quotaKept_of_one i hq (fun j hj => by rw [Store.publishEntry_entry, if_neg (Ne.symm hj)]) (fun k => ?_)
  rw [Store.publishEntry_entry, if_pos rfl]
  refine share_grant (st.entry i) _ k 0 (by simp [Segment.live, ho]) rfl ?_
  simp only [List.length_take]; omega

/-- An EXTEND that keeps the owner's usage within the quota (R15). -/
theorem quota_allocate {st : Store} (hq : st.quotaKept) (i : Slot) (n : Nat)
    (hr : st.usage (st.entry i).owner + n ≤ Config.quota) : (st.allocate i n).quotaKept := by
  refine quotaKept_of_grant i (st.entry i).owner n hq hr
    (fun j hj => by rw [Store.allocate_entry, if_neg (Ne.symm hj)]) ?_ ?_
  · rw [Store.allocate_entry, if_pos rfl]
    refine share_grant (st.entry i) _ _ n rfl rfl ?_
    simp only [List.length_append, List.length_take]; omega
  · intro j hj
    rw [Store.allocate_entry, if_pos rfl]
    simp [Segment.share, Ne.symm hj]

/-- A DEFINE that keeps the requester's usage within the quota (R14). -/
theorem quota_defineIn {st : Store} (hq : st.quotaKept) (i : Slot) (k : HostId) (name : List Byte) (v : Visibility) (n : Nat)
    (hr : st.usage k + n ≤ Config.quota) : (st.defineIn i k name v n).quotaKept := by
  refine quotaKept_of_grant i k n hq hr (fun j hj => by rw [Store.defineIn_entry, if_neg (Ne.symm hj)]) ?_ ?_
  · rw [Store.defineIn_entry, if_pos rfl]
    refine (share_le _ k).trans ?_
    simp only [List.length_take]; omega
  · intro j hj
    rw [Store.defineIn_entry, if_pos rfl]
    simp [Segment.share, Ne.symm hj]

theorem quota_afterRelease {st : Store} (hq : st.quotaKept) (i : Slot) : (st.afterRelease i).quotaKept := by
  unfold Store.afterRelease
  split
  · exact quota_freeEntry hq i
  · exact quota_setRefs hq i _

theorem takeRelease_quota {s : State} (hq : s.store.quotaKept) (l : LaneId) (r : SegmentRef) (below : Nat) (order : Option Nat) : (s.takeRelease l r below order).store.quotaKept := by
  rw [takeRelease_store]
  split
  · exact hq
  · exact quota_afterRelease hq _

theorem takeAppend_quota {s : State} (hq : s.store.quotaKept) (l : LaneId) (r : SegmentRef) (id : Nat) (w : Word) :
    (s.takeAppend l r id w).store.quotaKept := by
  rw [takeAppend_store]
  split
  · exact hq
  · split
    · exact quota_putWords hq _ _ _ [w]
    · exact hq

/-- Claims taken keep the quota. -/
theorem Store.Settles.quota {st st' : Store} (h : st.Settles st') (hq : st.quotaKept) : st'.quotaKept := by
  induction h with
  | refl => exact hq
  | append i w _ _ _ ih => exact quota_putWords ih i _ _ [w]
  | release i _ ih => exact quota_afterRelease ih i

theorem settleClaims_quota {s : State} (hq : s.store.quotaKept) (l : LaneId) : (s.settleClaims l).store.quotaKept :=
  (settleClaims_settles s l).quota hq

end Sys2Proof.Machine
end

