-- ==== Sys2Proof/Laws/LaneFrames.lean ====
section
/-! SUPPORT. What the operations of a lane sequencer can touch at all: the lanes, the claims they present, the marks, the posts and the
number of orders; where entries may start, also what claims taken touch (R30). One lemma an operation, composed by transitivity. -/

namespace Sys2Proof.Machine

/-- t differs from s in lanes, claims, marks, posts and the number of orders only. -/
def LaneFrame (s t : State) : Prop :=
  ∃ lanes claims marks posts n,
    t = { s with lanes := lanes, claims := claims, marks := marks, posts := posts, orderCount := n }

theorem LaneFrame.refl (s : State) : LaneFrame s s := ⟨s.lanes, s.claims, s.marks, s.posts, s.orderCount, rfl⟩

theorem LaneFrame.trans {s t u : State} (h : LaneFrame s t) (g : LaneFrame t u) : LaneFrame s u := by
  obtain ⟨a, b, c, d, e, rfl⟩ := h
  obtain ⟨a', b', c', d', e', rfl⟩ := g
  exact ⟨a', b', c', d', e', rfl⟩

theorem LaneFrame.store {s t : State} (h : LaneFrame s t) : t.store = s.store := by obtain ⟨a, b, c, d, e, rfl⟩ := h; rfl
theorem LaneFrame.leases {s t : State} (h : LaneFrame s t) : t.leases = s.leases := by obtain ⟨a, b, c, d, e, rfl⟩ := h; rfl
theorem LaneFrame.lease {s t : State} (h : LaneFrame s t) (l : LaneId) : t.lease l = s.lease l := by
  obtain ⟨a, b, c, d, e, rfl⟩ := h; rfl
theorem LaneFrame.events {s t : State} (h : LaneFrame s t) : t.events = s.events := by obtain ⟨a, b, c, d, e, rfl⟩ := h; rfl
theorem LaneFrame.links {s t : State} (h : LaneFrame s t) : t.links = s.links := by obtain ⟨a, b, c, d, e, rfl⟩ := h; rfl
theorem LaneFrame.pending {s t : State} (h : LaneFrame s t) : t.pending = s.pending := by obtain ⟨a, b, c, d, e, rfl⟩ := h; rfl
theorem LaneFrame.answers {s t : State} (h : LaneFrame s t) : t.answers = s.answers := by obtain ⟨a, b, c, d, e, rfl⟩ := h; rfl
theorem LaneFrame.withdrawals {s t : State} (h : LaneFrame s t) : t.withdrawals = s.withdrawals := by
  obtain ⟨a, b, c, d, e, rfl⟩ := h; rfl
theorem LaneFrame.time {s t : State} (h : LaneFrame s t) : t.time = s.time := by obtain ⟨a, b, c, d, e, rfl⟩ := h; rfl
theorem LaneFrame.pins {s t : State} (h : LaneFrame s t) : t.pins = s.pins := by obtain ⟨a, b, c, d, e, rfl⟩ := h; rfl

/-- t differs from s as a lane that may start an entry makes it differ: in lanes, claims, answers, marks, posts and the number of
orders, and in the store as claims taken make it. -/
def StartFrame (s t : State) : Prop :=
  (∃ store lanes claims answers marks posts n,
    t = { s with store := store, lanes := lanes, claims := claims, answers := answers, marks := marks, posts := posts,
                 orderCount := n }) ∧
  s.store.Settles t.store

theorem StartFrame.trans {s t u : State} (h : StartFrame s t) (g : StartFrame t u) : StartFrame s u := by
  obtain ⟨⟨a, b, c, d, e, f, n, rfl⟩, h⟩ := h
  obtain ⟨⟨a', b', c', d', e', f', n', rfl⟩, g⟩ := g
  exact ⟨⟨a', b', c', d', e', f', n', rfl⟩, h.trans g⟩

theorem LaneFrame.start {s t : State} (h : LaneFrame s t) : StartFrame s t := by
  obtain ⟨a, b, c, d, e, rfl⟩ := h
  exact ⟨⟨s.store, a, b, s.answers, c, d, e, rfl⟩, .refl _⟩

theorem StartFrame.refl (s : State) : StartFrame s s := (LaneFrame.refl s).start

theorem StartFrame.leases {s t : State} (h : StartFrame s t) : t.leases = s.leases := by
  obtain ⟨⟨a, b, c, d, e, f, n, rfl⟩, h⟩ := h; rfl
theorem StartFrame.lease {s t : State} (h : StartFrame s t) (l : LaneId) : t.lease l = s.lease l := by
  obtain ⟨⟨a, b, c, d, e, f, n, rfl⟩, h⟩ := h; rfl
theorem StartFrame.events {s t : State} (h : StartFrame s t) : t.events = s.events := by
  obtain ⟨⟨a, b, c, d, e, f, n, rfl⟩, h⟩ := h; rfl
theorem StartFrame.links {s t : State} (h : StartFrame s t) : t.links = s.links := by
  obtain ⟨⟨a, b, c, d, e, f, n, rfl⟩, h⟩ := h; rfl
theorem StartFrame.pending {s t : State} (h : StartFrame s t) : t.pending = s.pending := by
  obtain ⟨⟨a, b, c, d, e, f, n, rfl⟩, h⟩ := h; rfl
theorem StartFrame.withdrawals {s t : State} (h : StartFrame s t) : t.withdrawals = s.withdrawals := by
  obtain ⟨⟨a, b, c, d, e, f, n, rfl⟩, h⟩ := h; rfl
theorem StartFrame.time {s t : State} (h : StartFrame s t) : t.time = s.time := by
  obtain ⟨⟨a, b, c, d, e, f, n, rfl⟩, h⟩ := h; rfl
theorem StartFrame.pins {s t : State} (h : StartFrame s t) : t.pins = s.pins := by
  obtain ⟨⟨a, b, c, d, e, f, n, rfl⟩, h⟩ := h; rfl
theorem StartFrame.supervisor {s t : State} (h : StartFrame s t) : t.supervisor = s.supervisor := by
  obtain ⟨⟨a, b, c, d, e, f, n, rfl⟩, h⟩ := h; rfl

variable (s : State) (l : LaneId)

theorem setLane_frame (v : Lane) : LaneFrame s (s.setLane l v) := ⟨_, s.claims, s.marks, s.posts, s.orderCount, rfl⟩
theorem setMark_frame (m : MarkId) (v : Mark) : LaneFrame s (s.setMark m v) := ⟨s.lanes, s.claims, _, s.posts, s.orderCount, rfl⟩
theorem post_frame (p : Post) : LaneFrame s (s.post p) := ⟨s.lanes, s.claims, s.marks, _, s.orderCount, rfl⟩
theorem postRanked_frame (p : Nat → Post) : LaneFrame s (s.postRanked p) := ⟨s.lanes, s.claims, s.marks, _, _, rfl⟩
theorem postLease_frame (k : HostId) (e : Event) : LaneFrame s (s.postLease k e) := ⟨s.lanes, s.claims, s.marks, _, _, rfl⟩
theorem countOrder_frame : LaneFrame s s.countOrder := ⟨s.lanes, s.claims, s.marks, s.posts, _, rfl⟩
theorem present_frame (c : LaneClaim) : LaneFrame s (s.present l c) := ⟨s.lanes, _, s.marks, s.posts, s.orderCount, rfl⟩
theorem setClaims_frame (c : List LaneClaim) : LaneFrame s (s.setClaims l c) := ⟨s.lanes, _, s.marks, s.posts, s.orderCount, rfl⟩
theorem settleClaims_start : StartFrame s (s.settleClaims l) := by
  obtain ⟨a, b, c, d, h⟩ := settleClaims_frame s l
  exact ⟨⟨a, s.lanes, d, b, s.marks, c, s.orderCount, h⟩, settleClaims_settles s l⟩
theorem releaseLane_frame (x : Option (LaneId × Nat)) : LaneFrame s (State.releaseLane x s l) := setLane_frame s l _
theorem removeWaiter_frame : LaneFrame s (s.removeWaiter l) := ⟨s.lanes, s.claims, _, s.posts, s.orderCount, rfl⟩

theorem releaseLanes_frame (x : Option (LaneId × Nat)) (ls : List LaneId) : ∀ s : State,
    LaneFrame s (ls.foldl (State.releaseLane x) s) := by
  induction ls with
  | nil => exact LaneFrame.refl
  | cons l ls ih => exact fun s => (releaseLane_frame s l x).trans (ih _)

theorem settleMark_frame (m : MarkId) (x : Option (LaneId × Nat)) : LaneFrame s (s.settleMark m x).1 := by
  unfold State.settleMark
  split
  · exact LaneFrame.refl s
  · exact (setMark_frame s m _).trans (releaseLanes_frame _ _ _)

theorem showPark_frame : LaneFrame s (s.showPark l) := setLane_frame s l _
theorem holdIn_frame (f : HoldForm) : LaneFrame s (s.holdIn l f) := setLane_frame s l _
theorem startAckWait_frame : LaneFrame s (s.startAckWait l) := setLane_frame s l _
theorem startEdgeWatch_frame (n : Nat) : LaneFrame s (s.startEdgeWatch l n) := setLane_frame s l _
theorem goIdle_frame : LaneFrame s (s.goIdle l) := (setLane_frame s l _).trans (showPark_frame _ l)

theorem driveWord_frame (e : Entry) : LaneFrame s (s.driveWord l e) := by
  unfold State.driveWord
  dsimp only
  split
  · exact (setLane_frame s l _).trans (startAckWait_frame _ l)
  · exact setLane_frame s l _

theorem sampleBoundary_frame (e : Entry) : LaneFrame s (s.sampleBoundary l e) := by
  unfold State.sampleBoundary
  dsimp only
  split
  · exact (setLane_frame s l _).trans (present_frame _ l _)
  · exact setLane_frame s l _

theorem attemptBoundary_frame (e : Entry) : LaneFrame s (s.attemptBoundary l e) := by
  unfold State.attemptBoundary
  split
  · split
    · exact setLane_frame s l _
    · exact driveWord_frame s l e
  · exact sampleBoundary_frame s l e

theorem boundaryPoint_frame (e : Entry) : LaneFrame s (s.boundaryPoint l e) := by
  unfold State.boundaryPoint
  split
  · exact holdIn_frame s l _
  · exact attemptBoundary_frame s l e

theorem proceed_frame (e : Entry) (stamp : Stamp) (x : Option (LaneId × Nat)) : LaneFrame s (s.proceed l e stamp x) := by
  unfold State.proceed
  dsimp only
  have h1 := setLane_frame s l { (s.lane l) with
    state := .running, timing := some e.timing, pass := 1, words := 0, passWords := 0, acked := false }
  generalize s.setLane l _ = s1 at h1 ⊢
  have h2 : LaneFrame s (if e.notifyStart then s1.postRanked (startedPost l e stamp x) else s1) := by
    split
    · exact h1.trans (postRanked_frame _ _)
    · exact h1
  generalize (if e.notifyStart then s1.postRanked (startedPost l e stamp x) else s1) = s2 at h2 ⊢
  split
  · exact h2.trans (attemptBoundary_frame _ _ _)
  · split
    · exact (h2.trans (setLane_frame _ l _)).trans (startEdgeWatch_frame _ _ _)
    · exact (h2.trans (setLane_frame _ l _)).trans (sampleBoundary_frame _ _ _)

theorem offerWait_frame (e : Entry) : LaneFrame s (s.offerWait l e) := by
  unfold State.offerWait
  split
  · exact proceed_frame s l e _ _
  · split
    · split
      · exact proceed_frame s l e _ _
      · exact (setMark_frame s _ _).trans (proceed_frame _ l e _ _)
    · exact ((setMark_frame s _ _).trans (setLane_frame _ l _)).trans (showPark_frame _ l)

theorem setPostMark_frame (e : Entry) (o : EndOutcome) : LaneFrame s (s.setPostMark l e o) := by
  unfold State.setPostMark
  split
  · exact settleMark_frame s _ _
  · exact LaneFrame.refl s

theorem finishEntry_frame (e : Entry) (o : EndOutcome) (n : Nat) (d r : Bool) (x : Option Nat) :
    LaneFrame s (s.finishEntry l e o n d r x) := by
  unfold State.finishEntry
  dsimp only
  split
  · exact ((setPostMark_frame s l e o).trans (postRanked_frame _ _)).trans (present_frame _ l _)
  · exact (setPostMark_frame s l e o).trans (present_frame _ l _)

theorem endCurrent_frame (o : EndOutcome) (r : Bool) (x : Option Nat) : LaneFrame s (s.endCurrent l o r x) := by
  unfold State.endCurrent
  split
  · exact LaneFrame.refl s
  · exact (setLane_frame s l _).trans (finishEntry_frame _ l _ _ _ _ _ _)

theorem endQueued_frame (o : EndOutcome) (r : Bool) (x : Option Nat) (es : List Entry) : ∀ s : State,
    LaneFrame s (s.endQueued l o r x es) := by
  induction es with
  | nil => exact LaneFrame.refl
  | cons e es ih => exact fun s => (finishEntry_frame s l e o 0 false r x).trans (ih _)

theorem startQueue_frame (es : List Entry) : ∀ s : State, StartFrame s (startQueue l es s) := by
  induction es with
  | nil => exact fun s => (goIdle_frame s l).start
  | cons e es ih =>
    intro s
    unfold startQueue
    dsimp only
    have h1 := (setLane_frame s l { (s.lane l) with state := .running, pass := 0, words := 0 }).start
    generalize s.setLane l { (s.lane l) with state := .running, pass := 0, words := 0 } = s1 at h1 ⊢
    have h2 : StartFrame s (if e.kind = .capture then s1.settleClaims l else s1) := by
      split
      · exact h1.trans (settleClaims_start s1 l)
      · exact h1
    generalize (if e.kind = .capture then s1.settleClaims l else s1) = s2 at h2 ⊢
    split
    · exact (h2.trans ((setLane_frame s2 l _).trans (finishEntry_frame _ l _ _ _ _ _ _)).start).trans (ih _)
    · exact h2.trans (offerWait_frame s2 l e).start

theorem entryStart_frame : StartFrame s (s.entryStart l) := startQueue_frame l _ s

theorem afterEnd_frame : StartFrame s (s.afterEnd l) := by
  unfold State.afterEnd
  split
  · exact ((holdIn_frame s l _).trans (showPark_frame _ l)).start
  · exact entryStart_frame s l

theorem endAndGoOn_frame (o : EndOutcome) : StartFrame s (s.endAndGoOn l o) :=
  (endCurrent_frame s l o true none).start.trans (afterEnd_frame _ l)

theorem endFaulted_frame (c : FaultCode) : LaneFrame s (s.endFaulted l c) :=
  (endCurrent_frame s l _ true none).trans (setLane_frame _ l _)

theorem takePassEnd_frame (e : Entry) : StartFrame s (s.takePassEnd l e) := by
  unfold State.takePassEnd
  dsimp only
  split
  · exact endAndGoOn_frame s l _
  · exact ((setLane_frame s l _).trans (boundaryPoint_frame _ l e)).start

theorem settleRelease_frame : LaneFrame s (s.settleRelease l) := by
  unfold State.settleRelease
  split
  · exact proceed_frame s l _ _ _
  · exact LaneFrame.refl s

theorem drain_frame (r : Bool) : LaneFrame s (s.drain l r) := by
  unfold State.drain
  dsimp only
  generalize some (s.settleRelease l).orderCount = x
  have h1 := (settleRelease_frame s l).trans (countOrder_frame _)
  generalize (s.settleRelease l).countOrder = s1 at h1 ⊢
  have h2 : LaneFrame s (if (s1.lane l).state = .markwait then s1.removeWaiter l else s1) := by
    split
    · exact h1.trans (removeWaiter_frame _ l)
    · exact h1
  generalize (if (s1.lane l).state = .markwait then s1.removeWaiter l else s1) = s2 at h2 ⊢
  have h3 := h2.trans (setLane_frame s2 l { (s2.lane l) with holdRequest := false })
  generalize s2.setLane l { (s2.lane l) with holdRequest := false } = s3 at h3 ⊢
  have h4 : LaneFrame s (if (s3.lane l).state.hasCurrent then s3.endCurrent l .leaseEnded r x else s3) := by
    split
    · exact h3.trans (endCurrent_frame _ l _ _ _)
    · exact h3
  generalize (if (s3.lane l).state.hasCurrent then s3.endCurrent l .leaseEnded r x else s3) = s4 at h4 ⊢
  exact ((h4.trans (setLane_frame _ l _)).trans (endQueued_frame l _ _ _ _ _)).trans (setLane_frame _ l _)

/-! ## The requests and events of a lane -/

theorem flushLane_frame : LaneFrame s (s.flushLane l) := (setLane_frame s l _).trans (endQueued_frame l _ _ _ _ _)

theorem abortLane_frame : LaneFrame s (s.abortLane l) := by
  unfold State.abortLane
  dsimp only
  have h1 : LaneFrame s (if (s.lane l).state = .markwait then s.removeWaiter l else s) := by
    split
    · exact removeWaiter_frame s l
    · exact LaneFrame.refl s
  generalize (if (s.lane l).state = .markwait then s.removeWaiter l else s) = s1 at h1 ⊢
  have h2 := h1.trans (setLane_frame s1 l { (s1.lane l) with holdRequest := false, stallTimer := none })
  generalize s1.setLane l { (s1.lane l) with holdRequest := false, stallTimer := none } = s2 at h2 ⊢
  have h3 : LaneFrame s (if (s2.lane l).state.hasCurrent then s2.endCurrent l .aborted true none else s2) := by
    split
    · exact h2.trans (endCurrent_frame _ l _ _ _)
    · exact h2
  generalize (if (s2.lane l).state.hasCurrent then s2.endCurrent l .aborted true none else s2) = s3 at h3 ⊢
  exact (((h3.trans (setLane_frame _ l _)).trans (endQueued_frame l _ _ _ _ _)).trans (setLane_frame _ l _)).trans
    (showPark_frame _ l)

theorem holdByState_frame : LaneFrame s (holdByState s l).1 := by
  unfold holdByState
  dsimp only
  split
  · exact setLane_frame s l _
  · exact setLane_frame s l _
  · exact (removeWaiter_frame s l).trans (setLane_frame _ l _)
  · exact setLane_frame s l _
  · exact LaneFrame.refl s
  · exact LaneFrame.refl s

theorem resumeWithin_frame (f : HoldForm) (e : Entry) : StartFrame s (s.resumeWithin l f e) := by
  unfold State.resumeWithin
  split
  · exact endAndGoOn_frame s l _
  · split
    · exact (attemptBoundary_frame s l e).start
    · split
      · exact (startEdgeWatch_frame s l _).start
      · exact (startAckWait_frame s l).start

theorem resumeByState_frame : StartFrame s (resumeByState s l).1 := by
  unfold resumeByState
  dsimp only
  split
  · split
    · exact (setLane_frame s l _).start
    · exact StartFrame.refl s
  · exact resumeWithin_frame s l .atBoundary _
  · exact resumeWithin_frame s l .inWait _
  · exact (offerWait_frame s l _).start
  · exact entryStart_frame s l
  · exact (goIdle_frame s l).start.trans (entryStart_frame _ l)
  · exact StartFrame.refl s

theorem retimeLane_frame (p : List Byte) : LaneFrame s (retimeLane s l p).1 := by
  unfold retimeLane
  split
  · exact LaneFrame.refl s
  · split
    · exact LaneFrame.refl s
    · split
      · exact LaneFrame.refl s
      · split
        · exact LaneFrame.refl s
        · exact setLane_frame s l _

theorem stepBoundary_frame : LaneFrame s (s.stepBoundary l) := by
  unfold State.stepBoundary
  split
  · exact boundaryPoint_frame s l _
  · exact LaneFrame.refl s

theorem endPulse_frame : LaneFrame s (s.endPulse l) := setLane_frame s l _

theorem afterPulse_frame (e : Entry) : StartFrame s (s.afterPulse l e) := by
  unfold State.afterPulse
  split
  · split
    · exact (holdIn_frame s l _).start
    · exact (startAckWait_frame s l).start
  · split
    · exact endAndGoOn_frame s l _
    · split
      · exact (holdIn_frame s l _).start
      · exact (startEdgeWatch_frame s l _).start
  · exact StartFrame.refl s

theorem strobeEnd_frame : StartFrame s (s.strobeEnd l) := by
  unfold State.strobeEnd
  split
  · split
    · exact (endPulse_frame s l).start.trans (afterPulse_frame _ l _)
    · exact (endPulse_frame s l).start
  · exact StartFrame.refl s

theorem acknowledge_frame (e : Entry) : StartFrame s (s.acknowledge l e) := by
  unfold State.acknowledge
  dsimp only
  split
  · exact takePassEnd_frame s l e
  · split
    · exact ((setLane_frame s l _).trans (boundaryPoint_frame _ l e)).start
    · exact (setLane_frame s l _).start

theorem passEnd_frame : StartFrame s (s.passEnd l) := by
  unfold State.passEnd
  split
  · exact takePassEnd_frame s l _
  · exact StartFrame.refl s

theorem sampleEdge_frame (e : Entry) : LaneFrame s (s.sampleEdge l e) :=
  (setLane_frame s l _).trans (present_frame _ l _)

theorem endCapture_frame (o : EndOutcome) : StartFrame s (s.endCapture l o) := by
  unfold State.endCapture
  split
  · exact (((endCurrent_frame s l o true none).trans (holdIn_frame _ l _)).trans (showPark_frame _ l)).start
  · exact endAndGoOn_frame s l o

theorem answerStored_frame (e : Entry) (w : Word) : StartFrame s (s.answerStored l e w) := by
  unfold State.answerStored
  dsimp only
  split
  · exact (setLane_frame s l _).start.trans (endAndGoOn_frame _ l _)
  · exact (setLane_frame s l _).start

end Sys2Proof.Machine
end

