-- ==== Sys2Proof/Laws/References.lean ====
section
/-! SUPPORT. The references that stand: what each operation of a lane sequencer does to the play queues and to the releases that wait,
and what the segment table's operations need of them (R23, R62, R74). -/

namespace Sys2Proof.Machine

/-- The references that lane l has standing: those of its play entries, and those whose release waits. -/
def State.laneRefs (s : State) (l : LaneId) : List SegmentRef :=
  (s.lane l).queue.map (fun e => e.segment) ++ (s.claimsOf l).filterMap LaneClaim.released

theorem references_eq (s : State) : s.references = laneIds.flatMap s.laneRefs := rfl

/-- t has the play queues of s, and the same releases wait. -/
def KeepsRefs (s t : State) : Prop :=
  ∀ j, (t.lane j).queue = (s.lane j).queue ∧
    (t.claimsOf j).filterMap LaneClaim.released = (s.claimsOf j).filterMap LaneClaim.released

theorem KeepsRefs.refl (s : State) : KeepsRefs s s := fun _ => ⟨rfl, rfl⟩
theorem KeepsRefs.trans {s t u : State} (h : KeepsRefs s t) (g : KeepsRefs t u) : KeepsRefs s u :=
  fun j => ⟨(g j).1.trans (h j).1, (g j).2.trans (h j).2⟩

variable (s : State) (l : LaneId)

theorem setLane_keeps (v : Lane) (h : v.queue = (s.lane l).queue) : KeepsRefs s (s.setLane l v) := by
  intro j
  refine ⟨?_, rfl⟩
  rw [State.setLane_lane]
  split
  · subst_vars; exact h
  · rfl

theorem setMark_keeps (m : MarkId) (v : Mark) : KeepsRefs s (s.setMark m v) := fun _ => ⟨rfl, rfl⟩
theorem removeWaiter_keeps : KeepsRefs s (s.removeWaiter l) := fun _ => ⟨rfl, rfl⟩
theorem post_keeps (p : Post) : KeepsRefs s (s.post p) := fun _ => ⟨rfl, rfl⟩
theorem postRanked_keeps (p : Nat → Post) : KeepsRefs s (s.postRanked p) := fun _ => ⟨rfl, rfl⟩
theorem postLease_keeps (k : HostId) (e : Event) : KeepsRefs s (s.postLease k e) := fun _ => ⟨rfl, rfl⟩
theorem countOrder_keeps : KeepsRefs s s.countOrder := fun _ => ⟨rfl, rfl⟩

theorem present_append_keeps (r : SegmentRef) (id : Nat) (w : Word) : KeepsRefs s (s.present l (.append r id w)) := by
  intro j
  refine ⟨rfl, ?_⟩
  rw [State.present_claimsOf]
  split
  · subst_vars; simp [LaneClaim.released]
  · rfl

theorem releaseLane_keeps (x : Option (LaneId × Nat)) : KeepsRefs s (State.releaseLane x s l) := setLane_keeps s l _ (by rfl)

theorem releaseLanes_keeps (x : Option (LaneId × Nat)) (ls : List LaneId) : ∀ s : State,
    KeepsRefs s (ls.foldl (State.releaseLane x) s) := by
  induction ls with
  | nil => exact KeepsRefs.refl
  | cons l ls ih => exact fun s => (releaseLane_keeps s l x).trans (ih _)

theorem settleMark_keeps (m : MarkId) (x : Option (LaneId × Nat)) : KeepsRefs s (s.settleMark m x).1 := by
  unfold State.settleMark
  split
  · exact KeepsRefs.refl s
  · exact (setMark_keeps s m _).trans (releaseLanes_keeps _ _ _)

theorem showPark_keeps : KeepsRefs s (s.showPark l) := setLane_keeps s l _ (by rfl)
theorem holdIn_keeps (f : HoldForm) : KeepsRefs s (s.holdIn l f) := setLane_keeps s l _ (by rfl)
theorem startAckWait_keeps : KeepsRefs s (s.startAckWait l) := setLane_keeps s l _ (by rfl)
theorem startEdgeWatch_keeps (n : Nat) : KeepsRefs s (s.startEdgeWatch l n) := setLane_keeps s l _ (by rfl)
theorem goIdle_keeps : KeepsRefs s (s.goIdle l) := (setLane_keeps s l _ (by rfl)).trans (showPark_keeps _ l)

theorem driveWord_keeps (e : Entry) : KeepsRefs s (s.driveWord l e) := by
  unfold State.driveWord
  dsimp only
  split
  · exact (setLane_keeps s l _ (by rfl)).trans (startAckWait_keeps _ l)
  · exact setLane_keeps s l _ (by rfl)

theorem sampleBoundary_keeps (e : Entry) : KeepsRefs s (s.sampleBoundary l e) := by
  unfold State.sampleBoundary
  dsimp only
  split
  · exact (setLane_keeps s l _ (by rfl)).trans (present_append_keeps _ l _ _ _)
  · exact setLane_keeps s l _ (by rfl)

theorem attemptBoundary_keeps (e : Entry) : KeepsRefs s (s.attemptBoundary l e) := by
  unfold State.attemptBoundary
  split
  · split
    · exact setLane_keeps s l _ (by rfl)
    · exact driveWord_keeps s l e
  · exact sampleBoundary_keeps s l e

theorem boundaryPoint_keeps (e : Entry) : KeepsRefs s (s.boundaryPoint l e) := by
  unfold State.boundaryPoint
  split
  · exact holdIn_keeps s l _
  · exact attemptBoundary_keeps s l e

theorem proceed_keeps (e : Entry) (stamp : Stamp) (x : Option (LaneId × Nat)) : KeepsRefs s (s.proceed l e stamp x) := by
  unfold State.proceed
  dsimp only
  have h1 := setLane_keeps s l { (s.lane l) with
    state := .running, timing := some e.timing, pass := 1, words := 0, passWords := 0, acked := false } rfl
  generalize s.setLane l _ = s1 at h1 ⊢
  have h2 : KeepsRefs s (if e.notifyStart then s1.postRanked (startedPost l e stamp x) else s1) := by
    split
    · exact h1.trans (postRanked_keeps _ _)
    · exact h1
  generalize (if e.notifyStart then s1.postRanked (startedPost l e stamp x) else s1) = s2 at h2 ⊢
  split
  · exact h2.trans (attemptBoundary_keeps _ _ _)
  · split
    · exact (h2.trans (setLane_keeps _ l _ (by rfl))).trans (startEdgeWatch_keeps _ _ _)
    · exact (h2.trans (setLane_keeps _ l _ (by rfl))).trans (sampleBoundary_keeps _ _ _)

theorem offerWait_keeps (e : Entry) : KeepsRefs s (s.offerWait l e) := by
  unfold State.offerWait
  split
  · exact proceed_keeps s l e _ _
  · split
    · split
      · exact proceed_keeps s l e _ _
      · exact (setMark_keeps s _ _).trans (proceed_keeps _ l e _ _)
    · exact ((setMark_keeps s _ _).trans (setLane_keeps _ l _ (by rfl))).trans (showPark_keeps _ l)

theorem setPostMark_keeps (e : Entry) (o : EndOutcome) : KeepsRefs s (s.setPostMark l e o) := by
  unfold State.setPostMark
  split
  · exact settleMark_keeps s _ _
  · exact KeepsRefs.refl s

theorem settleRelease_keeps : KeepsRefs s (s.settleRelease l) := by
  unfold State.settleRelease
  split
  · exact proceed_keeps s l _ _ _
  · exact KeepsRefs.refl s

/-! ## Counted references -/

/-- The references that stand in t are those of s, and on lane l also those of a list. -/
def AddsRefs (l : LaneId) (rs : List SegmentRef) (s t : State) : Prop :=
  ∀ r j, (t.laneRefs j).count r = (s.laneRefs j).count r + if j = l then rs.count r else 0

/-- The same references stand. -/
def SameRefs (s t : State) : Prop := ∀ r j, (t.laneRefs j).count r = (s.laneRefs j).count r

theorem KeepsRefs.same {s t : State} (h : KeepsRefs s t) : SameRefs s t := by
  intro r j
  unfold State.laneRefs
  rw [(h j).1, (h j).2]

theorem SameRefs.refl (s : State) : SameRefs s s := fun _ _ => rfl
theorem SameRefs.trans {s t u : State} (h : SameRefs s t) (g : SameRefs t u) : SameRefs s u :=
  fun r j => (g r j).trans (h r j)

theorem AddsRefs.trans {l : LaneId} {a b : List SegmentRef} {s t u : State} (h : AddsRefs l a s t)
    (g : AddsRefs l b t u) : AddsRefs l (a ++ b) s u := by
  intro r j
  rw [g r j, h r j]
  split
  · rw [List.count_append]; omega
  · rfl

theorem SameRefs.adds {l : LaneId} {a : List SegmentRef} {s t u : State} (h : SameRefs s t) (g : AddsRefs l a t u) :
    AddsRefs l a s u := fun r j => by rw [g r j, h r j]

theorem AddsRefs.same {l : LaneId} {a : List SegmentRef} {s t u : State} (h : AddsRefs l a s t) (g : SameRefs t u) :
    AddsRefs l a s u := fun r j => by rw [g r j, h r j]

/-- An entry end adds the release of its segment (R74). -/
theorem finishEntry_adds (e : Entry) (o : EndOutcome) (n : Nat) (d r : Bool) (x : Option Nat) :
    AddsRefs l [e.segment] s (s.finishEntry l e o n d r x) ∧
      ∀ j, ((s.finishEntry l e o n d r x).lane j).queue = (s.lane j).queue := by
  unfold State.finishEntry
  dsimp only
  have h1 := setPostMark_keeps s l e o
  have h2 : KeepsRefs s (if r then (s.setPostMark l e o).postRanked (donePost l e s.time.timestamp o n d x)
      else s.setPostMark l e o) := by
    split
    · exact h1.trans (postRanked_keeps _ _)
    · exact h1
  generalize (if r then (s.setPostMark l e o).postRanked (donePost l e s.time.timestamp o n d x)
      else s.setPostMark l e o) = t at h2 ⊢
  refine ⟨h2.same.adds ?_, fun j => by simpa using (h2 j).1⟩
  intro y j
  unfold State.laneRefs
  rw [State.present_lane, State.present_claimsOf]
  by_cases hj : l = j
  · subst hj
    simp [LaneClaim.released, List.count_append]
    omega
  · simp [hj, Ne.symm hj]

/-- A lane whose queue changes, and nothing else of its references. -/
theorem setLane_refs (v : Lane) (r : SegmentRef) (j : LaneId) :
    ((s.setLane l v).laneRefs j).count r + (if j = l then ((s.lane l).queue.map (fun e => e.segment)).count r else 0) =
      (s.laneRefs j).count r + (if j = l then (v.queue.map (fun e => e.segment)).count r else 0) := by
  unfold State.laneRefs
  rw [State.setLane_claimsOf, State.setLane_lane]
  by_cases hj : l = j
  · subst hj
    simp only [if_pos, List.count_append]
    omega
  · simp only [if_neg hj, if_neg (Ne.symm hj)]

theorem endQueued_adds (o : EndOutcome) (b : Bool) (x : Option Nat) (es : List Entry) : ∀ s : State,
    AddsRefs l (es.map (fun e => e.segment)) s (s.endQueued l o b x es) ∧
      ∀ j, ((s.endQueued l o b x es).lane j).queue = (s.lane j).queue := by
  induction es with
  | nil => intro s; exact ⟨fun r j => by simp [State.endQueued], fun _ => rfl⟩
  | cons e es ih =>
    intro s
    have h1 := finishEntry_adds s l e o 0 false b x
    have h2 := ih (s.finishEntry l e o 0 false b x)
    exact ⟨h1.1.trans h2.1, fun j => (h2.2 j).trans (h1.2 j)⟩

/-- The end of the current entry moves its reference from the queue to its release (R74). -/
theorem endCurrent_refs (o : EndOutcome) (b : Bool) (x : Option Nat) :
    SameRefs s (s.endCurrent l o b x) ∧
      ∀ j, ((s.endCurrent l o b x).lane j).queue = if j = l then (s.lane l).queue.tail else (s.lane j).queue := by
  unfold State.endCurrent
  cases hq : (s.lane l).queue with
  | nil =>
    refine ⟨SameRefs.refl s, fun j => ?_⟩
    show (s.lane j).queue = if j = l then [] else (s.lane j).queue
    by_cases hj : j = l
    · rw [if_pos hj, hj, hq]
    · rw [if_neg hj]
  | cons e rest =>
    dsimp only
    generalize hv : ({ ((s.lane l).clearCurrent (s.lease l).stbPol) with
      queue := rest, drive := (s.lane l).driveLeft e (s.lease l).park } : Lane) = v
    have hvq : v.queue = rest := by rw [← hv]
    obtain ⟨h1, h2⟩ := finishEntry_adds (s.setLane l v) l e o (s.lane l).words (s.lane l).staged.isSome b x
    refine ⟨?_, fun j => ?_⟩
    rotate_left
    · rw [h2, State.setLane_lane]
      by_cases hj : l = j
      · rw [if_pos hj, if_pos hj.symm, hvq]; rfl
      · rw [if_neg hj, if_neg (Ne.symm hj)]
    intro r j
    have h3 := setLane_refs s l v r j
    have h4 := h1 r j
    rw [hq, hvq] at h3
    rw [h4]
    by_cases hj : j = l
    · simp only [hj, if_pos, List.map_cons, List.count_cons, List.count_nil] at h3 ⊢
      omega
    · simp only [if_neg hj] at h3 ⊢
      omega

theorem endFaulted_refs (c : FaultCode) : SameRefs s (s.endFaulted l c) :=
  (endCurrent_refs s l _ true none).1.trans (setLane_keeps _ l _ (by rfl)).same

/-- Every entry of a queue that is cut to its head part, ended one after another. -/
theorem cutQueue_refs (v : Lane) (o : EndOutcome) (b : Bool) (x : Option Nat) (kept ended : List Entry) (hv : v.queue = kept)
    (h : (s.lane l).queue = kept ++ ended) :
    SameRefs s ((s.setLane l v).endQueued l o b x ended) ∧
      ∀ j, (((s.setLane l v).endQueued l o b x ended).lane j).queue = if j = l then kept else (s.lane j).queue := by
  obtain ⟨h1, h2⟩ := endQueued_adds l o b x ended (s.setLane l v)
  refine ⟨?_, fun j => ?_⟩
  rotate_left
  · rw [h2, State.setLane_lane]
    by_cases hj : l = j
    · rw [if_pos hj, if_pos hj.symm, hv]
    · rw [if_neg hj, if_neg (Ne.symm hj)]
  intro r j
  have h3 := setLane_refs s l v r j
  have h4 := h1 r j
  rw [hv, h] at h3
  rw [h4]
  by_cases hj : j = l
  · simp only [hj, if_pos, List.map_append, List.count_append] at h3 ⊢
    omega
  · simp only [if_neg hj] at h3 ⊢
    omega

theorem drain_refs (b : Bool) : SameRefs s (s.drain l b) ∧
    ∀ j, ((s.drain l b).lane j).queue = if j = l then [] else (s.lane j).queue := by
  unfold State.drain
  dsimp only
  generalize some (s.settleRelease l).orderCount = x
  have h1 := (settleRelease_keeps s l).trans (countOrder_keeps _)
  generalize (s.settleRelease l).countOrder = s1 at h1 ⊢
  have h2 : KeepsRefs s (if (s1.lane l).state = .markwait then s1.removeWaiter l else s1) := by
    split
    · exact h1.trans (removeWaiter_keeps _ l)
    · exact h1
  generalize (if (s1.lane l).state = .markwait then s1.removeWaiter l else s1) = s2 at h2 ⊢
  have h3 := h2.trans (setLane_keeps s2 l { (s2.lane l) with holdRequest := false } rfl)
  generalize s2.setLane l { (s2.lane l) with holdRequest := false } = s3 at h3 ⊢
  have h4 : SameRefs s (if (s3.lane l).state.hasCurrent then s3.endCurrent l .leaseEnded b x else s3) ∧
      ∀ j, j ≠ l → ((if (s3.lane l).state.hasCurrent then s3.endCurrent l .leaseEnded b x else s3).lane
        j).queue = (s.lane j).queue := by
    split
    · obtain ⟨g1, g2⟩ := endCurrent_refs s3 l .leaseEnded b x
      exact ⟨h3.same.trans g1, fun j hj => by rw [g2, if_neg hj]; exact (h3 j).1⟩
    · exact ⟨h3.same, fun j _ => (h3 j).1⟩
  generalize (if (s3.lane l).state.hasCurrent then s3.endCurrent l .leaseEnded b x else s3) = s4 at h4 ⊢
  obtain ⟨h4, h4'⟩ := h4
  obtain ⟨h5, h6⟩ :=
    cutQueue_refs s4 l { (s4.lane l) with queue := [] } .leaseEnded b x [] (s4.lane l).queue rfl rfl
  refine ⟨(h4.trans h5).trans (setLane_keeps _ l _ ?_).same, fun j => ?_⟩
  · rw [h6, if_pos rfl]; rfl
  · rw [State.setLane_lane]
    by_cases hj : l = j
    · rw [if_pos hj, if_pos hj.symm]; rfl
    · rw [if_neg hj, h6, if_neg (Ne.symm hj), if_neg (Ne.symm hj), h4' j (Ne.symm hj)]

/-- A FLUSH keeps the head part of a queue and ends the rest (R78). -/
theorem Lane.flush_split (ln : Lane) : ln.queue = ln.keptAtFlush ++ ln.flushable := by
  unfold Lane.keptAtFlush Lane.flushable
  split
  · exact (List.take_append_drop 1 _).symm
  · rfl

theorem flushLane_refs : SameRefs s (s.flushLane l) :=
  (cutQueue_refs s l _ .flushed true none _ _ rfl (s.lane l).flush_split).1

theorem abortLane_refs : SameRefs s (s.abortLane l) := by
  unfold State.abortLane
  dsimp only
  have h1 : KeepsRefs s (if (s.lane l).state = .markwait then s.removeWaiter l else s) := by
    split
    · exact removeWaiter_keeps s l
    · exact KeepsRefs.refl s
  generalize (if (s.lane l).state = .markwait then s.removeWaiter l else s) = s1 at h1 ⊢
  have h2 := h1.trans (setLane_keeps s1 l { (s1.lane l) with holdRequest := false, stallTimer := none } rfl)
  generalize s1.setLane l { (s1.lane l) with holdRequest := false, stallTimer := none } = s2 at h2 ⊢
  have h3 : SameRefs s (if (s2.lane l).state.hasCurrent then s2.endCurrent l .aborted true none else s2) := by
    split
    · exact h2.same.trans (endCurrent_refs _ l _ _ _).1
    · exact h2.same
  generalize (if (s2.lane l).state.hasCurrent then s2.endCurrent l .aborted true none else s2) = s3 at h3 ⊢
  obtain ⟨h5, h6⟩ := cutQueue_refs s3 l { (s3.lane l) with queue := [] } .flushed true none [] (s3.lane l).queue rfl rfl
  refine ((h3.trans h5).trans (setLane_keeps _ l _ ?_).same).trans (showPark_keeps _ l).same
  rw [h6, if_pos rfl]

theorem holdByState_refs : SameRefs s (holdByState s l).1 := by
  unfold holdByState
  dsimp only
  split
  · exact (setLane_keeps s l _ (by rfl)).same
  · exact (setLane_keeps s l _ (by rfl)).same
  · exact ((removeWaiter_keeps s l).trans (setLane_keeps _ l _ (by rfl))).same
  · exact (setLane_keeps s l _ (by rfl)).same
  · exact SameRefs.refl s
  · exact SameRefs.refl s

theorem retimeLane_refs (p : List Byte) : SameRefs s (retimeLane s l p).1 := by
  unfold retimeLane
  split
  · exact SameRefs.refl s
  · split
    · exact SameRefs.refl s
    · split
      · exact SameRefs.refl s
      · split
        · exact SameRefs.refl s
        · exact (setLane_keeps s l _ (by rfl)).same

theorem stepBoundary_refs : SameRefs s (s.stepBoundary l) := by
  unfold State.stepBoundary
  split
  · exact (boundaryPoint_keeps s l _).same
  · exact SameRefs.refl s

theorem endPulse_keeps : KeepsRefs s (s.endPulse l) := setLane_keeps s l _ (by rfl)

theorem sampleEdge_keeps (e : Entry) : KeepsRefs s (s.sampleEdge l e) :=
  (setLane_keeps s l _ (by rfl)).trans (present_append_keeps _ l _ _ _)

/-! ## Queues that lose entries only -/

/-- No play queue of t holds an entry that the queue of s does not. -/
def CutsQueues (s t : State) : Prop := ∀ j, ∀ e ∈ (t.lane j).queue, e ∈ (s.lane j).queue

theorem KeepsRefs.cuts {s t : State} (h : KeepsRefs s t) : CutsQueues s t := fun j e he => by rw [← (h j).1]; exact he

theorem CutsQueues.trans {s t u : State} (h : CutsQueues s t) (g : CutsQueues t u) : CutsQueues s u :=
  fun j e he => h j e (g j e he)

theorem endCurrent_cuts (o : EndOutcome) (b : Bool) (x : Option Nat) : CutsQueues s (s.endCurrent l o b x) := by
  intro j e he
  rw [(endCurrent_refs s l o b x).2] at he
  split at he
  · subst_vars; exact List.mem_of_mem_tail he
  · exact he

theorem cutQueue_cuts (v : Lane) (o : EndOutcome) (b : Bool) (x : Option Nat) (kept ended : List Entry) (hv : v.queue = kept)
    (h : (s.lane l).queue = kept ++ ended) : CutsQueues s ((s.setLane l v).endQueued l o b x ended) := by
  intro j e he
  rw [(cutQueue_refs s l v o b x kept ended hv h).2] at he
  split at he
  · subst_vars; rw [h]; exact List.mem_append_left _ he
  · exact he

theorem endFaulted_cuts (c : FaultCode) : CutsQueues s (s.endFaulted l c) :=
  (endCurrent_cuts s l _ true none).trans (setLane_keeps _ l _ (by rfl)).cuts

theorem setLane_cuts (v : Lane) (h : ∀ e ∈ v.queue, e ∈ (s.lane l).queue) : CutsQueues s (s.setLane l v) := by
  intro j e he
  rw [State.setLane_lane] at he
  split at he
  · subst_vars; exact h e he
  · exact he

theorem flushLane_cuts : CutsQueues s (s.flushLane l) :=
  cutQueue_cuts s l _ .flushed true none _ _ rfl (s.lane l).flush_split

theorem abortLane_cuts : CutsQueues s (s.abortLane l) := by
  unfold State.abortLane
  dsimp only
  have h1 : CutsQueues s (if (s.lane l).state = .markwait then s.removeWaiter l else s) := by
    split
    · exact (removeWaiter_keeps s l).cuts
    · exact (KeepsRefs.refl s).cuts
  generalize (if (s.lane l).state = .markwait then s.removeWaiter l else s) = s1 at h1 ⊢
  have h2 := h1.trans (setLane_keeps s1 l { (s1.lane l) with holdRequest := false, stallTimer := none } rfl).cuts
  generalize s1.setLane l { (s1.lane l) with holdRequest := false, stallTimer := none } = s2 at h2 ⊢
  have h3 : CutsQueues s (if (s2.lane l).state.hasCurrent then s2.endCurrent l .aborted true none else s2) := by
    split
    · exact h2.trans (endCurrent_cuts _ l _ _ _)
    · exact h2
  generalize (if (s2.lane l).state.hasCurrent then s2.endCurrent l .aborted true none else s2) = s3 at h3 ⊢
  have h5 := cutQueue_cuts s3 l { (s3.lane l) with queue := [] } .flushed true none [] (s3.lane l).queue rfl rfl
  exact ((h3.trans h5).trans (setLane_cuts _ l _ (by simp))).trans (showPark_keeps _ l).cuts

theorem drain_cuts (b : Bool) : CutsQueues s (s.drain l b) := by
  intro j e he
  rw [(drain_refs s l b).2] at he
  split at he
  · cases he
  · exact he

theorem raiseRtn_keeps : KeepsRefs s (s.raiseRtn l) := fun _ => ⟨rfl, rfl⟩

end Sys2Proof.Machine
end

