-- ==== Sys2Proof/Laws/Counting.lean ====
section
/-! SUPPORT. The count of references against the segment table: what keeps `State.referencesCounted` (R23). -/

namespace Sys2Proof.Machine

/-- The references of a list that name a slot. -/
def namesSlot (i : Slot) (r : SegmentRef) : Bool := handleSlot r.handle == some i

/-- A list of references agrees with a segment table: each names the present use of its handle, and the refs count them. -/
def Agrees (rs : List SegmentRef) (st : Store) : Prop :=
  (∀ r ∈ rs, st.namesLive r) ∧ ∀ i, (st.entry i).refs = rs.countP (namesSlot i)

theorem referencesCounted_iff (s : State) : s.referencesCounted ↔ Agrees s.references s.store := Iff.rfl

theorem Agrees.perm {rs rs' : List SegmentRef} {st : Store} (h : Agrees rs st) (p : rs.Perm rs') : Agrees rs' st :=
  ⟨fun r hr => h.1 r (p.mem_iff.2 hr), fun i => (h.2 i).trans (p.countP_eq _)⟩

theorem references_perm {s t : State} (h : SameRefs s t) : s.references.Perm t.references := by
  rw [List.perm_iff_count]
  intro r
  simp [references_eq, laneIds, List.count_append, h r]

/-- The same references against the same store. -/
theorem counted_same {s t : State} (h : SameRefs s t) (hs : t.store = s.store) (hc : s.referencesCounted) :
    t.referencesCounted := by
  rw [referencesCounted_iff, hs]
  exact Agrees.perm hc (references_perm h)

/-- One entry changes but not its refs, nor its generation, and it is FREE only if it was. -/
theorem Agrees.of_one {rs : List SegmentRef} {st st' : Store} (i : Slot) (h : Agrees rs st)
    (hj : ∀ j, j ≠ i → st'.entry j = st.entry j) (hr : (st'.entry i).refs = (st.entry i).refs)
    (hg : (st'.entry i).generation = (st.entry i).generation)
    (hf : (st.entry i).state ≠ .free → (st'.entry i).state ≠ .free) : Agrees rs st' := by
  constructor
  · intro r hr'
    obtain ⟨a, ha, h1, h2⟩ := h.1 r hr'
    refine ⟨a, ha, ?_⟩
    by_cases e : a = i
    · subst e; exact ⟨hf h1, hg.trans h2⟩
    · rw [hj a e]; exact ⟨h1, h2⟩
  · intro a
    by_cases e : a = i
    · subst e; rw [hr]; exact h.2 a
    · rw [hj a e]; exact h.2 a

/-- An entry that nothing names changes, and has no refs. -/
theorem Agrees.of_unnamed {rs : List SegmentRef} {st st' : Store} (i : Slot) (h : Agrees rs st)
    (hj : ∀ j, j ≠ i → st'.entry j = st.entry j) (h0 : rs.countP (namesSlot i) = 0) (hr : (st'.entry i).refs = 0) :
    Agrees rs st' := by
  have hno : ∀ r ∈ rs, handleSlot r.handle ≠ some i := by
    intro r hr' e
    have := List.countP_eq_zero.1 h0 r hr'
    simp [namesSlot, e] at this
  constructor
  · intro r hr'
    obtain ⟨a, ha, h1, h2⟩ := h.1 r hr'
    have e : a ≠ i := fun e => hno r hr' (e ▸ ha)
    exact ⟨a, ha, by rw [hj a e]; exact h1, by rw [hj a e]; exact h2⟩
  · intro a
    by_cases e : a = i
    · subst e; rw [hr, h0]
    · rw [hj a e]; exact h.2 a

theorem Agrees.free {rs : List SegmentRef} {st : Store} (i : Slot) (h : Agrees rs st) (h0 : (st.entry i).refs = 0) :
    Agrees rs (st.freeEntry i) :=
  Agrees.of_unnamed i h (fun j hj => by rw [Store.freeEntry_entry, if_neg (Ne.symm hj)]) ((h.2 i).symm.trans h0)
    (by rw [Store.freeEntry_entry, if_pos rfl]; rfl)

theorem Agrees.condemn {rs : List SegmentRef} {st : Store} (i : Slot) (b : Bool) (h : Agrees rs st) :
    Agrees rs (st.condemnEntry i b) :=
  Agrees.of_one i h (fun j hj => by rw [Store.condemnEntry_entry, if_neg (Ne.symm hj)])
    (by rw [Store.condemnEntry_entry, if_pos rfl]) (by rw [Store.condemnEntry_entry, if_pos rfl])
    (fun _ => by rw [Store.condemnEntry_entry, if_pos rfl]; simp)

theorem Agrees.remove {rs : List SegmentRef} {st : Store} (i : Slot) (b : Bool) (h : Agrees rs st) :
    Agrees rs (st.removeEntry i b) := by
  unfold Store.removeEntry
  split
  · rename_i h0; exact h.free i h0
  · exact h.condemn i b

theorem Agrees.purge {rs : List SegmentRef} {st : Store} (k : HostId) (b : Bool) (h : Agrees rs st) :
    Agrees rs (st.purge k b) := by
  unfold Store.purge
  generalize st.liveOf k = is
  induction is generalizing st with
  | nil => exact h
  | cons i is ih => exact ih (h.remove i b)

theorem Agrees.withdrawEntry {rs : List SegmentRef} {st : Store} (k : HostId) (i : Slot) (h : Agrees rs st) :
    Agrees rs (st.withdrawEntry k i) := by
  unfold Store.withdrawEntry
  dsimp only
  split
  · exact h
  · split
    · exact h.remove i false
    · split
      · exact Agrees.of_one i h (fun j hj => by rw [Store.setEntry_entry, if_neg (Ne.symm hj)])
          (by rw [Store.setEntry_entry, if_pos rfl]) (by rw [Store.setEntry_entry, if_pos rfl])
          (fun hf => by rw [Store.setEntry_entry, if_pos rfl]; exact hf)
      · exact h

theorem Agrees.withdraw {rs : List SegmentRef} {st : Store} (k : HostId) (h : Agrees rs st) :
    Agrees rs (st.withdraw k) := by
  unfold Store.withdraw
  generalize slots = is
  induction is generalizing st with
  | nil => exact h
  | cons i is ih => exact ih (h.withdrawEntry k i)

/-- A DEFINE in a FREE entry: nothing names it (R14). -/
theorem Agrees.define {rs : List SegmentRef} {st : Store} (i : Slot) (k : HostId) (name : List Byte) (v : Visibility)
    (n : Nat) (h : Agrees rs st) (hf : (st.entry i).state = .free) : Agrees rs (st.defineIn i k name v n) := by
  refine Agrees.of_unnamed i h (fun j hj => by rw [Store.defineIn_entry, if_neg (Ne.symm hj)]) ?_
    (by rw [Store.defineIn_entry, if_pos rfl])
  rw [List.countP_eq_zero]
  intro r hr e
  obtain ⟨a, ha, h1, -⟩ := h.1 r hr
  have : a = i := by simpa [namesSlot, ha] using e
  exact h1 (this ▸ hf)

theorem Agrees.allocate {rs : List SegmentRef} {st : Store} (i : Slot) (n : Nat) (h : Agrees rs st) :
    Agrees rs (st.allocate i n) :=
  Agrees.of_one i h (fun j hj => by rw [Store.allocate_entry, if_neg (Ne.symm hj)])
    (by rw [Store.allocate_entry, if_pos rfl]) (by rw [Store.allocate_entry, if_pos rfl])
    (fun hf => by rw [Store.allocate_entry, if_pos rfl]; exact hf)

theorem Agrees.publish {rs : List SegmentRef} {st : Store} (i : Slot) (h : Agrees rs st) :
    Agrees rs (st.publishEntry i) :=
  Agrees.of_one i h (fun j hj => by rw [Store.publishEntry_entry, if_neg (Ne.symm hj)])
    (by rw [Store.publishEntry_entry, if_pos rfl]) (by rw [Store.publishEntry_entry, if_pos rfl])
    (fun _ => by rw [Store.publishEntry_entry, if_pos rfl]; simp)

theorem Agrees.putWords {rs : List SegmentRef} {st : Store} (i : Slot) (o n : Nat) (ws : List Word) (h : Agrees rs st) :
    Agrees rs ((st.putWords (st.entry i) o ws).setEntry i { (st.entry i) with length := n }) :=
  Agrees.of_one i h (fun j hj => by rw [Store.setEntry_entry, if_neg (Ne.symm hj)]; simp)
    (by rw [Store.setEntry_entry, if_pos rfl]) (by rw [Store.setEntry_entry, if_pos rfl])
    (fun hf => by rw [Store.setEntry_entry, if_pos rfl]; exact hf)

/-- One reference more on a slot that it names rightly (R23). -/
theorem Agrees.take {rs : List SegmentRef} {st : Store} (r : SegmentRef) (i : Slot) (h : Agrees rs st)
    (hi : handleSlot r.handle = some i) (hf : (st.entry i).state ≠ .free)
    (hg : (st.entry i).generation = r.generation) : Agrees (r :: rs) (st.setRefs i ((st.entry i).refs + 1)) := by
  have hlive : ∀ x, st.namesLive x → (st.setRefs i ((st.entry i).refs + 1)).namesLive x := by
    rintro x ⟨a, ha, h1, h2⟩
    refine ⟨a, ha, ?_⟩
    rw [Store.setRefs_entry]
    split
    · subst_vars; exact ⟨h1, h2⟩
    · exact ⟨h1, h2⟩
  constructor
  · intro x hx
    rcases List.mem_cons.1 hx with rfl | hx
    · exact hlive _ ⟨i, hi, hf, hg⟩
    · exact hlive _ (h.1 x hx)
  · intro a
    rw [Store.setRefs_entry, List.countP_cons]
    by_cases e : i = a
    · subst e
      have hn : namesSlot i r = true := by simp [namesSlot, hi]
      simp only [if_pos, hn]
      have := h.2 i
      omega
    · rw [if_neg e]
      have : namesSlot a r = false := by simp [namesSlot, hi, e]
      rw [this]
      simpa using h.2 a

/-- One reference released (R25, R26). -/
theorem Agrees.release {rs : List SegmentRef} {st : Store} (r : SegmentRef) (i : Slot) (h : Agrees (r :: rs) st)
    (hi : handleSlot r.handle = some i) : Agrees rs (st.afterRelease i) := by
  have hn : namesSlot i r = true := by simp [namesSlot, hi]
  have hc := h.2 i
  rw [List.countP_cons, hn] at hc
  simp only [if_pos] at hc
  have hrest : ∀ a, a ≠ i → (st.entry a).refs = rs.countP (namesSlot a) := by
    intro a ha
    have := h.2 a
    rw [List.countP_cons] at this
    have e : namesSlot a r = false := by simp [namesSlot, hi, Ne.symm ha]
    rw [e] at this
    simpa using this
  unfold Store.afterRelease
  split
  · rename_i hcond
    have h0 : rs.countP (namesSlot i) = 0 := by omega
    have hno : ∀ x ∈ rs, handleSlot x.handle ≠ some i := by
      intro x hx e
      have := List.countP_eq_zero.1 h0 x hx
      simp [namesSlot, e] at this
    constructor
    · intro x hx
      obtain ⟨a, ha, h1, h2⟩ := h.1 x (List.mem_cons_of_mem _ hx)
      have e : a ≠ i := fun e => hno x hx (e ▸ ha)
      refine ⟨a, ha, ?_⟩
      rw [Store.freeEntry_entry, if_neg (Ne.symm e)]
      exact ⟨h1, h2⟩
    · intro a
      rw [Store.freeEntry_entry]
      by_cases e : i = a
      · subst e; rw [if_pos rfl, h0]; rfl
      · rw [if_neg e]; exact hrest a (Ne.symm e)
  · constructor
    · intro x hx
      obtain ⟨a, ha, h1, h2⟩ := h.1 x (List.mem_cons_of_mem _ hx)
      refine ⟨a, ha, ?_⟩
      rw [Store.setRefs_entry]
      split
      · subst_vars; exact ⟨h1, h2⟩
      · exact ⟨h1, h2⟩
    · intro a
      rw [Store.setRefs_entry]
      by_cases e : i = a
      · subst e; rw [if_pos rfl]; simp only; omega
      · rw [if_neg e]; exact hrest a (Ne.symm e)

/-! ## Claims taken -/

/-- The references once the oldest claims of a lane are taken from its list. -/
theorem references_setClaims (s : State) (l : LaneId) (c : LaneClaim) (rest : List LaneClaim)
    (h : s.claimsOf l = c :: rest) :
    s.references.Perm (c.released.toList ++ (s.setClaims l rest).references) := by
  rw [List.perm_iff_count]
  intro r
  have hl : ∀ j, (s.laneRefs j).count r =
      ((s.setClaims l rest).laneRefs j).count r + if j = l then c.released.toList.count r else 0 := by
    intro j
    unfold State.laneRefs
    rw [State.setClaims_lane, State.setClaims_claimsOf]
    by_cases e : l = j
    · subst e
      rw [if_pos rfl, if_pos rfl, h]
      cases hc : c.released with
      | none => simp [hc]
      | some x => simp [hc, List.count_append, List.count_cons]; omega
    · rw [if_neg e, if_neg (Ne.symm e)]; rfl
  simp only [references_eq, laneIds, List.flatMap_cons, List.flatMap_nil, List.count_append, List.count_nil, hl]
  have : ∀ l : Fin 4, l = 0 ∨ l = 1 ∨ l = 2 ∨ l = 3 := by decide
  rcases this l with rfl | rfl | rfl | rfl <;> simp <;> omega

theorem references_of_frame {s t : State} (h : StoreFrame s t) (hc : t.claims = s.claims) : t.references = s.references := by
  unfold State.references
  have e1 : ∀ l, t.lane l = s.lane l := h.lane
  have e2 : ∀ l, t.claimsOf l = s.claimsOf l := fun l => by unfold State.claimsOf; rw [hc]
  simp [e1, e2]

/-- A claim taken from the front of its lane's list keeps the count (R25, R27). -/
theorem counted_takeClaim {s : State} (l : LaneId) (c : LaneClaim)
    (h : Agrees (c.released.toList ++ s.references) s.store) : (s.takeClaim l c).referencesCounted := by
  rw [referencesCounted_iff, references_of_frame (takeClaim_frame s l c) (takeClaim_claims s l c)]
  cases c with
  | append r id w =>
    show Agrees s.references (s.takeAppend l r id w).store
    rw [takeAppend_store]
    split
    · exact h
    · split
      · exact Agrees.putWords _ _ _ [w] h
      · exact h
  | release r below order =>
    show Agrees s.references (s.takeRelease l r below order).store
    rw [takeRelease_store]
    obtain ⟨i, hi, -, -⟩ := h.1 r (by simp [LaneClaim.released])
    rw [hi]
    exact Agrees.release r i h hi

theorem counted_popClaim {s : State} (l : LaneId) (c : LaneClaim) (rest : List LaneClaim) (hc : s.claimsOf l = c :: rest)
    (h : s.referencesCounted) : ((s.setClaims l rest).takeClaim l c).referencesCounted :=
  counted_takeClaim l c (Agrees.perm h (references_setClaims s l c rest hc))

theorem setClaims_takeClaim_comm (s : State) (l : LaneId) (c : LaneClaim) (v : List LaneClaim) :
    (s.setClaims l v).takeClaim l c = (s.takeClaim l c).setClaims l v := by
  cases c with
  | append r id w =>
    show (s.setClaims l v).takeAppend l r id w = (s.takeAppend l r id w).setClaims l v
    unfold State.takeAppend
    split
    · rfl
    · dsimp only [State.setClaims_store]
      split <;> rfl
  | release r below order =>
    show (s.setClaims l v).takeRelease l r below order = (s.takeRelease l r below order).setClaims l v
    rw [takeRelease_eq, takeRelease_eq]
    split <;> rfl

theorem counted_settleClaims {s : State} (l : LaneId) (h : s.referencesCounted) : (s.settleClaims l).referencesCounted := by
  unfold State.settleClaims
  generalize hc : s.claimsOf l = cs
  induction cs generalizing s with
  | nil =>
    have : s.setClaims l [] = s := by unfold State.setClaims; rw [← hc]; unfold State.claimsOf; simp
    simpa [this] using h
  | cons c cs ih =>
    have h1 := counted_popClaim l c cs hc h
    have h2 : ((s.setClaims l cs).takeClaim l c).claimsOf l = cs := by
      unfold State.claimsOf
      rw [takeClaim_claims]
      exact State.setClaims_claimsOf_self s l cs
    have h3 := ih h1 h2
    have e : ((s.setClaims l cs).takeClaim l c).setClaims l [] = (s.setClaims l []).takeClaim l c := by
      rw [setClaims_takeClaim_comm, setClaims_takeClaim_comm]
      unfold State.setClaims
      simp
    rw [e] at h3
    exact h3

/-! ## Operations after which a lane goes on -/

/-- A move of a lane: no queue gains an entry, and the count of references is kept. -/
def LaneMove (s t : State) : Prop := CutsQueues s t ∧ (s.referencesCounted → t.referencesCounted)

theorem LaneMove.trans {s t u : State} (h : LaneMove s t) (g : LaneMove t u) : LaneMove s u :=
  ⟨h.1.trans g.1, fun c => g.2 (h.2 c)⟩

theorem SameRefs.move {s t : State} (h : SameRefs s t) (hc : CutsQueues s t) (hs : t.store = s.store) : LaneMove s t :=
  ⟨hc, counted_same h hs⟩

theorem KeepsRefs.move {s t : State} (h : KeepsRefs s t) (hs : t.store = s.store) : LaneMove s t := h.same.move h.cuts hs

variable (s : State) (l : LaneId)

theorem setLane_move (v : Lane) (h : v.queue = (s.lane l).queue) : LaneMove s (s.setLane l v) := (setLane_keeps s l v h).move rfl

theorem settleClaims_move : LaneMove s (s.settleClaims l) :=
  ⟨fun j e he => by rw [← (settleClaims_frame s l).lane]; exact he, counted_settleClaims l⟩

theorem settleRelease_move : LaneMove s (s.settleRelease l) :=
  (settleRelease_keeps s l).move (settleRelease_frame s l).store

theorem boundaryPoint_move (e : Entry) : LaneMove s (s.boundaryPoint l e) :=
  (boundaryPoint_keeps s l e).move (boundaryPoint_frame s l e).store

theorem endCurrent_move (o : EndOutcome) (r : Bool) (x : Option Nat) : LaneMove s (s.endCurrent l o r x) :=
  (endCurrent_refs s l o r x).1.move (endCurrent_cuts s l o r x) (endCurrent_frame s l o r x).store

theorem drain_move (r : Bool) : LaneMove s (s.drain l r) := (drain_refs s l r).1.move (drain_cuts s l r) (drain_frame s l r).store

theorem startQueue_move (es : List Entry) : ∀ s : State, (s.lane l).queue = es → LaneMove s (startQueue l es s) := by
  induction es with
  | nil => exact fun s _ => (goIdle_keeps s l).move rfl
  | cons e es ih =>
    intro s hq
    unfold startQueue
    dsimp only
    have h1 := setLane_move s l { (s.lane l) with state := .running, pass := 0, words := 0 } rfl
    have hq1 : ((s.setLane l { (s.lane l) with state := .running, pass := 0, words := 0 }).lane l).queue = e :: es := by
      rw [State.setLane_lane_self]; exact hq
    generalize s.setLane l { (s.lane l) with state := .running, pass := 0, words := 0 } = s1 at h1 hq1 ⊢
    have h2 : LaneMove s (if e.kind = .capture then s1.settleClaims l else s1) ∧
        ((if e.kind = .capture then s1.settleClaims l else s1).lane l).queue = e :: es := by
      split
      · exact ⟨h1.trans (settleClaims_move s1 l), by rw [(settleClaims_frame s1 l).lane]; exact hq1⟩
      · exact ⟨h1, hq1⟩
    generalize (if e.kind = .capture then s1.settleClaims l else s1) = s2 at h2 ⊢
    obtain ⟨h2, hq2⟩ := h2
    split
    · generalize hv : ({ ((s2.lane l).clearCurrent (s2.lease l).stbPol) with queue := es } : Lane) = v
      have hvq : v.queue = es := by rw [← hv]
      obtain ⟨g1, g2⟩ := finishEntry_adds (s2.setLane l v) l e .segmentGone 0 false true none
      have hsame : SameRefs s2 ((s2.setLane l v).finishEntry l e .segmentGone 0 false true none) := by
        intro r j
        have h3 := setLane_refs s2 l v r j
        have h4 := g1 r j
        rw [hvq, hq2] at h3
        rw [h4]
        by_cases hj : j = l
        · simp only [hj, if_pos, List.map_cons, List.count_cons, List.count_nil] at h3 ⊢
          omega
        · simp only [if_neg hj] at h3 ⊢
          omega
      have hcuts : CutsQueues s2 ((s2.setLane l v).finishEntry l e .segmentGone 0 false true none) := by
        intro j x hx
        rw [g2] at hx
        exact setLane_cuts s2 l v (fun y hy => by rw [hq2]; rw [hvq] at hy; exact List.mem_cons_of_mem _ hy) j x hx
      have hst : ((s2.setLane l v).finishEntry l e .segmentGone 0 false true none).store = s2.store :=
        (finishEntry_frame _ l e _ _ _ _ _).store
      exact (h2.trans (hsame.move hcuts hst)).trans (ih _ (by rw [g2, State.setLane_lane_self]; exact hvq))
    · exact h2.trans ((offerWait_keeps s2 l e).move (offerWait_frame s2 l e).store)

theorem entryStart_move : LaneMove s (s.entryStart l) := startQueue_move l _ s rfl

theorem afterEnd_move : LaneMove s (s.afterEnd l) := by
  unfold State.afterEnd
  split
  · exact ((holdIn_keeps s l _).trans (showPark_keeps _ l)).move rfl
  · exact entryStart_move s l

theorem endAndGoOn_move (o : EndOutcome) : LaneMove s (s.endAndGoOn l o) :=
  (endCurrent_move s l o true none).trans (afterEnd_move _ l)

theorem endFaulted_move (c : FaultCode) : LaneMove s (s.endFaulted l c) :=
  (endFaulted_refs s l c).move (endFaulted_cuts s l c) (endFaulted_frame s l c).store

theorem takePassEnd_move (e : Entry) : LaneMove s (s.takePassEnd l e) := by
  unfold State.takePassEnd
  dsimp only
  split
  · exact endAndGoOn_move s l _
  · exact (setLane_move s l _ (by rfl)).trans (boundaryPoint_move _ l e)

theorem resumeWithin_move (f : HoldForm) (e : Entry) : LaneMove s (s.resumeWithin l f e) := by
  unfold State.resumeWithin
  split
  · exact endAndGoOn_move s l _
  · split
    · exact (attemptBoundary_keeps s l e).move (attemptBoundary_frame s l e).store
    · split
      · exact (startEdgeWatch_keeps s l _).move rfl
      · exact (startAckWait_keeps s l).move rfl

theorem resumeByState_move : LaneMove s (resumeByState s l).1 := by
  unfold resumeByState
  dsimp only
  split
  · split
    · exact setLane_move s l _ (by rfl)
    · exact (KeepsRefs.refl s).move rfl
  · exact resumeWithin_move s l .atBoundary _
  · exact resumeWithin_move s l .inWait _
  · exact (offerWait_keeps s l _).move (offerWait_frame s l _).store
  · exact entryStart_move s l
  · exact ((goIdle_keeps s l).move rfl).trans (entryStart_move _ l)
  · exact (KeepsRefs.refl s).move rfl

theorem afterPulse_move (e : Entry) : LaneMove s (s.afterPulse l e) := by
  unfold State.afterPulse
  split
  · split
    · exact (holdIn_keeps s l _).move rfl
    · exact (startAckWait_keeps s l).move rfl
  · split
    · exact endAndGoOn_move s l _
    · split
      · exact (holdIn_keeps s l _).move rfl
      · exact (startEdgeWatch_keeps s l _).move rfl
  · exact (KeepsRefs.refl s).move rfl

theorem strobeEnd_move : LaneMove s (s.strobeEnd l) := by
  unfold State.strobeEnd
  split
  · split
    · exact ((endPulse_keeps s l).move rfl).trans (afterPulse_move _ l _)
    · exact (endPulse_keeps s l).move rfl
  · exact (KeepsRefs.refl s).move rfl

theorem acknowledge_move (e : Entry) : LaneMove s (s.acknowledge l e) := by
  unfold State.acknowledge
  dsimp only
  split
  · exact takePassEnd_move s l e
  · split
    · exact (setLane_move s l _ (by rfl)).trans (boundaryPoint_move _ l e)
    · exact setLane_move s l _ (by rfl)

theorem passEnd_move : LaneMove s (s.passEnd l) := by
  unfold State.passEnd
  split
  · exact takePassEnd_move s l _
  · exact (KeepsRefs.refl s).move rfl

theorem endCapture_move (o : EndOutcome) : LaneMove s (s.endCapture l o) := by
  unfold State.endCapture
  split
  · exact ((endCurrent_move s l o true none).trans ((holdIn_keeps _ l _).move rfl)).trans ((showPark_keeps _ l).move rfl)
  · exact endAndGoOn_move s l o

theorem answerStored_move (e : Entry) (w : Word) : LaneMove s (s.answerStored l e w) := by
  unfold State.answerStored
  dsimp only
  split
  · exact (setLane_move s l _ (by rfl)).trans (endAndGoOn_move _ l _)
  · exact setLane_move s l _ (by rfl)

end Sys2Proof.Machine
end

