-- ==== Sys2Proof/Laws/Lanes.lean ====
section
/-! SUPPORT. Lanes, leases and marks: what each operation of a lane sequencer needs so that `State.lanesOk` holds after it. While an
operation is under way its own lane is in transit: everything else holds, and the lane is on no waiter list. -/

namespace Sys2Proof.Machine

/-! ## Waiter lists -/

/-- How often a lane stands on one waiter list. -/
def Mark.times (m : Mark) (l : LaneId) : Nat := (m.waiters.map (fun w => w.1)).count l

theorem timesWaiting_eq (s : State) (l : LaneId) :
    s.timesWaiting l = (s.mark 0).times l + (s.mark 1).times l + (s.mark 2).times l + (s.mark 3).times l +
      (s.mark 4).times l + (s.mark 5).times l + (s.mark 6).times l + (s.mark 7).times l := by
  have : List.finRange 8 = [0, 1, 2, 3, 4, 5, 6, 7] := by decide
  unfold State.timesWaiting
  rw [this]
  simp [List.count_append, Mark.times]
  omega

/-- Replacing a mark changes the count by what its own list changes. -/
theorem timesWaiting_setMark (s : State) (m : MarkId) (v : Mark) (l : LaneId) :
    (s.setMark m v).timesWaiting l + (s.mark m).times l = s.timesWaiting l + v.times l := by
  have h : ∀ m : MarkId, m = 0 ∨ m = 1 ∨ m = 2 ∨ m = 3 ∨ m = 4 ∨ m = 5 ∨ m = 6 ∨ m = 7 := by decide
  rw [timesWaiting_eq, timesWaiting_eq]
  simp only [State.setMark_mark]
  rcases h m with rfl | rfl | rfl | rfl | rfl | rfl | rfl | rfl <;> simp <;> omega

theorem timesWaiting_of_marks {s t : State} (h : t.marks = s.marks) (l : LaneId) : t.timesWaiting l = s.timesWaiting l := by
  unfold State.timesWaiting State.mark
  rw [h]

theorem mem_waiters_times {m : Mark} {l : LaneId} (h : m.times l = 0) : ∀ w ∈ m.waiters, w.1 ≠ l := by
  intro w hw e
  have := List.count_eq_zero.1 h
  exact this (List.mem_map.2 ⟨w, hw, e⟩)

theorem times_le (s : State) (m : MarkId) (l : LaneId) : (s.mark m).times l ≤ s.timesWaiting l := by
  have h : ∀ m : MarkId, m = 0 ∨ m = 1 ∨ m = 2 ∨ m = 3 ∨ m = 4 ∨ m = 5 ∨ m = 6 ∨ m = 7 := by decide
  rw [timesWaiting_eq]
  rcases h m with rfl | rfl | rfl | rfl | rfl | rfl | rfl | rfl <;> omega

theorem times_filter_self (m : Mark) (l : LaneId) :
    ({ m with waiters := m.waiters.filter (fun w => w.1 != l) } : Mark).times l = 0 := by
  unfold Mark.times
  rw [List.count_eq_zero]
  intro h
  obtain ⟨w, hw, e⟩ := List.mem_map.1 h
  simpa [e] using (List.mem_filter.1 hw).2

theorem times_filter_ne (m : Mark) {l j : LaneId} (h : j ≠ l) :
    ({ m with waiters := m.waiters.filter (fun w => w.1 != l) } : Mark).times j = m.times j := by
  unfold Mark.times
  obtain ⟨b, ws⟩ := m
  dsimp only
  induction ws with
  | nil => rfl
  | cons w ws ih =>
    by_cases e : w.1 = l
    · have h1 : w.1 ≠ j := fun e' => h (e'.symm.trans e)
      simp [e, ih, Ne.symm h]
    · simp [e, ih, List.count_cons]

/-! ## A setting (R136) -/

/-- The walk splits a waiter list: the lanes released stood before the lanes left, and a mark left SET has no list. -/
theorem markWalk_split (ws : List (LaneId × WaitMode)) :
    ws.map (fun w => w.1) = (markWalk ws).1 ++ (markWalk ws).2.1.map (fun w => w.1) ∧
      ((markWalk ws).2.2 = true → (markWalk ws).2.1 = []) := by
  induction ws with
  | nil => simp [markWalk]
  | cons w ws ih =>
    obtain ⟨l, mode⟩ := w
    cases mode with
    | pass => simpa [markWalk] using ih
    | take => simp [markWalk]

/-- The lanes of a list released: each goes to the state released, the others stay. -/
theorem releaseLanes_lane (x : Option (LaneId × Nat)) (ls : List LaneId) (j : LaneId) : ∀ s : State,
    (ls.foldl (State.releaseLane x) s).lane j =
      if j ∈ ls then { (s.lane j) with state := .released s.time.timestamp x } else s.lane j := by
  induction ls with
  | nil => simp
  | cons l ls ih =>
    intro s
    rw [List.foldl_cons, ih]
    have ht : (State.releaseLane x s l).time = s.time := rfl
    rw [ht]
    unfold State.releaseLane
    by_cases e : l = j
    · subst e; simp
    · simp [e, Ne.symm e]

theorem releaseLanes_marks (x : Option (LaneId × Nat)) (ls : List LaneId) : ∀ s : State,
    (ls.foldl (State.releaseLane x) s).marks = s.marks := by
  induction ls with
  | nil => exact fun _ => rfl
  | cons l ls ih => exact fun s => ih _

/-- A SET mark has an empty list (R133). -/
def State.marksEmpty (s : State) : Prop := ∀ m, (s.mark m).isSet = true → (s.mark m).waiters = []

/-- The invariant of one lane, with its lease and its place on the waiter lists. -/
def State.laneOk (s : State) (j : LaneId) : Prop :=
  (s.lane j).wf ∧ (s.lease j).wf (s.lane j).state ∧ s.timesWaiting j = if (s.lane j).state = .markwait then 1 else 0

theorem lanesOk_iff (s : State) : s.lanesOk ↔ s.marksEmpty ∧ ∀ j, s.laneOk j := by
  unfold State.lanesOk State.marksOk State.laneOk State.marksEmpty
  exact ⟨fun h => ⟨h.2.2.1, fun j => ⟨h.1 j, h.2.1 j, h.2.2.2 j⟩⟩,
    fun h => ⟨fun j => (h.2 j).1, fun j => (h.2 j).2.1, h.1, fun j => (h.2 j).2.2⟩⟩

theorem laneOk_congr {s t : State} {j : LaneId} (h : s.laneOk j) (h1 : t.lane j = s.lane j) (h2 : t.lease j = s.lease j)
    (h3 : t.marks = s.marks) : t.laneOk j := by
  unfold State.laneOk
  rw [h1, h2, timesWaiting_of_marks h3]
  exact h

theorem marksEmpty_congr {s t : State} (h : s.marksEmpty) (h3 : t.marks = s.marks) : t.marksEmpty := by
  intro m
  have : t.mark m = s.mark m := by unfold State.mark; rw [h3]
  rw [this]
  exact h m

theorem Lane.wf_released {ln : Lane} (h : ln.wf) (hm : ln.state = .markwait) (x : Stamp) (y : Option (LaneId × Nat)) :
    ({ ln with state := .released x y } : Lane).wf := by
  obtain ⟨h1, h2, h3, h4, h5, h6, h7⟩ := h
  refine ⟨h1, fun _ => h2 (by rw [hm]; rfl), fun e => ?_, fun e => ?_, fun e => ?_, fun _ => h6 (by rw [hm]; rfl), fun e => ?_⟩
  · cases e
  · cases e
  · cases e
  · have := h7 e; rw [hm] at this; cases this

theorem Lease.wf_of_on {r : Lease} {x : LaneState} (h : r.wf x) (hx : x ≠ .off) {y : LaneState} (hy : y ≠ .off) : r.wf y := by
  obtain ⟨h1, h2⟩ := h
  exact ⟨⟨fun e => absurd (h1.1 e) hx, fun e => absurd e hy⟩, h2⟩

/-- A setting keeps every invariant of lanes and marks, and leaves alone every lane that is on no list (R136, R137). -/
theorem settleMark_ok (s : State) (m : MarkId) (x : Option (LaneId × Nat)) (hm : s.marksEmpty) :
    (s.settleMark m x).1.marksEmpty ∧ (∀ j, s.laneOk j → (s.settleMark m x).1.laneOk j) ∧
    (∀ j, s.timesWaiting j = 0 → (s.settleMark m x).1.timesWaiting j = 0 ∧ (s.settleMark m x).1.lane j = s.lane j) := by
  unfold State.settleMark
  split
  · exact ⟨hm, fun j h => h, fun j h => ⟨h, rfl⟩⟩
  · dsimp only
    obtain ⟨hw1, hw2⟩ := markWalk_split (s.mark m).waiters
    generalize markWalk (s.mark m).waiters = w at hw1 hw2 ⊢
    obtain ⟨released, left, set⟩ := w
    dsimp only at hw1 hw2 ⊢
    have hmk := releaseLanes_marks x released (s.setMark m { isSet := set, waiters := left })
    have hcount : ∀ j, (s.setMark m { isSet := set, waiters := left }).timesWaiting j + released.count j = s.timesWaiting j := by
      intro j
      have h1 := timesWaiting_setMark s m { isSet := set, waiters := left } j
      have h2 : (s.mark m).times j = released.count j + (left.map (fun w => w.1)).count j := by
        unfold Mark.times; rw [hw1, List.count_append]
      have h3 : ({ isSet := set, waiters := left } : Mark).times j = (left.map (fun w => w.1)).count j := rfl
      omega
    have hlane : ∀ j, ((released.foldl (State.releaseLane x) (s.setMark m { isSet := set, waiters := left })).lane j) =
        if j ∈ released then { (s.lane j) with state := .released s.time.timestamp x } else s.lane j :=
      fun j => releaseLanes_lane x released j _
    refine ⟨marksEmpty_congr ?_ hmk, fun j hj => ?_, fun j hj => ?_⟩
    · intro a ha
      rw [State.setMark_mark] at ha ⊢
      split
      · rename_i e; rw [if_pos e] at ha; exact hw2 ha
      · rename_i e; rw [if_neg e] at ha; exact hm a ha
    · obtain ⟨h1, h2, h3⟩ := hj
      have hc := hcount j
      unfold State.laneOk
      rw [hlane, timesWaiting_of_marks hmk]
      have hl : (released.foldl (State.releaseLane x) (s.setMark m { isSet := set, waiters := left })).lease j = s.lease j :=
        (releaseLanes_frame x released _).lease j
      rw [hl]
      by_cases e : j ∈ released
      · have : 0 < released.count j := List.count_pos_iff.2 e
        have hs : (s.lane j).state = .markwait := by
          by_contra hne; rw [if_neg hne] at h3; omega
        rw [if_pos e]
        refine ⟨Lane.wf_released h1 hs _ _, Lease.wf_of_on h2 (by rw [hs]; simp) (by simp), ?_⟩
        rw [if_pos hs] at h3
        simp only [if_neg (show (LaneState.released s.time.timestamp x) ≠ .markwait by simp)]
        omega
      · have : released.count j = 0 := List.count_eq_zero.2 e
        rw [if_neg e]
        exact ⟨h1, h2, by omega⟩
    · have hc := hcount j
      have : released.count j = 0 := by omega
      rw [timesWaiting_of_marks hmk, hlane, if_neg (List.count_eq_zero.1 this)]
      exact ⟨by omega, rfl⟩

/-! ## A lane in transit -/

/-- Everything but lane l itself is in order, and lane l is on no waiter list. -/
def Transit (l : LaneId) (s : State) : Prop :=
  s.marksEmpty ∧ (∀ j, j ≠ l → s.laneOk j) ∧ (s.lease l).wf .idle ∧ s.timesWaiting l = 0

variable {s : State} {l : LaneId}

theorem setLane_setLane (s : State) (l : LaneId) (v w : Lane) : (s.setLane l v).setLane l w = s.setLane l w := by
  unfold State.setLane
  simp

theorem Transit.congr {t : State} (h : Transit l s) (h1 : ∀ j, j ≠ l → t.lane j = s.lane j) (h2 : t.leases = s.leases)
    (h3 : t.marks = s.marks) : Transit l t := by
  have hl : ∀ j, t.lease j = s.lease j := fun j => by unfold State.lease; rw [h2]
  refine ⟨marksEmpty_congr h.1 h3, fun j hj => laneOk_congr (h.2.1 j hj) (h1 j hj) (hl j) h3, ?_, ?_⟩
  · rw [hl]; exact h.2.2.1
  · rw [timesWaiting_of_marks h3]; exact h.2.2.2

theorem Transit.setLane (h : Transit l s) (v : Lane) : Transit l (s.setLane l v) :=
  h.congr (fun _ hj => State.setLane_lane_ne s l v (Ne.symm hj)) rfl rfl

theorem Transit.post (h : Transit l s) (p : Post) : Transit l (s.post p) := h.congr (fun _ _ => rfl) rfl rfl

theorem Transit.postRanked (h : Transit l s) (p : Nat → Post) : Transit l (s.postRanked p) := h.congr (fun _ _ => rfl) rfl rfl

theorem Transit.present (h : Transit l s) (c : LaneClaim) : Transit l (s.present l c) := h.congr (fun _ _ => rfl) rfl rfl

theorem Transit.settleClaims (h : Transit l s) : Transit l (s.settleClaims l) :=
  have f := settleClaims_frame s l
  h.congr (fun j _ => f.lane j) f.leases f.marks

/-- A lane that needs no place on a list comes out of transit with any fields in order. -/
theorem Transit.land (h : Transit l s) (hw : (s.lane l).wf) (ho : (s.lane l).state ≠ .off)
    (hm : (s.lane l).state ≠ .markwait) : s.lanesOk := by
  rw [lanesOk_iff]
  refine ⟨h.1, fun j => ?_⟩
  by_cases e : j = l
  · subst e
    exact ⟨hw, Lease.wf_of_on h.2.2.1 (by simp) ho, by rw [if_neg hm]; exact h.2.2.2⟩
  · exact h.2.1 j e

theorem Transit.setLane_ok (h : Transit l s) (v : Lane) (hw : v.wf) (ho : v.state ≠ .off) (hm : v.state ≠ .markwait) :
    (s.setLane l v).lanesOk :=
  (h.setLane v).land (by simpa using hw) (by simpa using ho) (by simpa using hm)

/-- A lane that is neither OFF nor in MARKWAIT can go into transit as it is. -/
theorem transit_of_ok (h : s.lanesOk) (ho : (s.lane l).state ≠ .off) (hm : (s.lane l).state ≠ .markwait) : Transit l s := by
  rw [lanesOk_iff] at h
  obtain ⟨h1, h2, h3⟩ := h.2 l
  exact ⟨h.1, fun j _ => h.2 j, Lease.wf_of_on h2 ho (by simp), by rw [if_neg hm] at h3; exact h3⟩

theorem removeWaiter_mark (s : State) (l : LaneId) (m : MarkId) :
    (s.removeWaiter l).mark m = { (s.mark m) with waiters := (s.mark m).waiters.filter (fun w => w.1 != l) } := by
  unfold State.mark State.removeWaiter
  exact Bank.sel_map _ _ _

theorem removeWaiter_times (s : State) (l j : LaneId) :
    (s.removeWaiter l).timesWaiting j = if j = l then 0 else s.timesWaiting j := by
  rw [timesWaiting_eq, timesWaiting_eq]
  simp only [removeWaiter_mark]
  by_cases e : j = l
  · subst e; simp only [times_filter_self, if_pos]
  · simp only [times_filter_ne _ e, if_neg e]

/-- A lane taken off its waiter list goes into transit, unless it is OFF (R142). -/
theorem transit_removeWaiter (h : s.lanesOk) (ho : (s.lane l).state ≠ .off) : Transit l (s.removeWaiter l) := by
  rw [lanesOk_iff] at h
  obtain ⟨-, h2, -⟩ := h.2 l
  refine ⟨fun m hm => ?_, fun j hj => ?_, Lease.wf_of_on h2 ho (by simp), by rw [removeWaiter_times, if_pos rfl]⟩
  · rw [removeWaiter_mark] at hm ⊢
    rw [h.1 m hm]; rfl
  · obtain ⟨g1, g2, g3⟩ := h.2 j
    exact ⟨g1, g2, by rw [removeWaiter_times, if_neg hj]; exact g3⟩

/-- A setting made by a lane in transit (R139). -/
theorem Transit.settleMark (h : Transit l s) (m : MarkId) (x : Option (LaneId × Nat)) :
    Transit l (s.settleMark m x).1 ∧ (s.settleMark m x).1.lane l = s.lane l := by
  obtain ⟨h1, h2, h3⟩ := settleMark_ok s m x h.1
  refine ⟨⟨h1, fun j hj => h2 j (h.2.1 j hj), ?_, (h3 l h.2.2.2).1⟩, (h3 l h.2.2.2).2⟩
  rw [(settleMark_frame s m x).lease]
  exact h.2.2.1

theorem Transit.finishEntry (h : Transit l s) (e : Entry) (o : EndOutcome) (n : Nat) (d r : Bool) (x : Option Nat) :
    Transit l (s.finishEntry l e o n d r x) ∧ (s.finishEntry l e o n d r x).lane l = s.lane l := by
  unfold State.finishEntry
  dsimp only
  have h1 : Transit l (s.setPostMark l e o) ∧ (s.setPostMark l e o).lane l = s.lane l := by
    unfold State.setPostMark
    split
    · exact h.settleMark _ _
    · exact ⟨h, rfl⟩
  generalize s.setPostMark l e o = t at h1 ⊢
  split
  · exact ⟨(h1.1.postRanked _).present _, h1.2⟩
  · exact ⟨h1.1.present _, h1.2⟩

theorem Transit.endQueued (o : EndOutcome) (r : Bool) (x : Option Nat) (es : List Entry) : ∀ {s : State}, Transit l s →
    Transit l (s.endQueued l o r x es) ∧ (s.endQueued l o r x es).lane l = s.lane l := by
  induction es with
  | nil => exact fun h => ⟨h, rfl⟩
  | cons e es ih =>
    intro s h
    obtain ⟨h1, h2⟩ := h.finishEntry e o 0 false r x
    obtain ⟨h3, h4⟩ := ih h1
    exact ⟨h3, h4.trans h2⟩

/-- The end of the current entry (R74): the lane keeps its hold request and the rest of its queue. -/
theorem Transit.endCurrent (h : Transit l s) (o : EndOutcome) (r : Bool) (x : Option Nat) (hq : (s.lane l).queue ≠ []) :
    Transit l (s.endCurrent l o r x) ∧
      ∃ d, (s.endCurrent l o r x).lane l =
        { ((s.lane l).clearCurrent (s.lease l).stbPol) with queue := (s.lane l).queue.tail, drive := d } := by
  unfold State.endCurrent
  cases hc : (s.lane l).queue with
  | nil => exact absurd hc hq
  | cons e rest =>
    dsimp only
    obtain ⟨h1, h2⟩ := (h.setLane { ((s.lane l).clearCurrent (s.lease l).stbPol) with
      queue := rest, drive := (s.lane l).driveLeft e (s.lease l).park }).finishEntry e o (s.lane l).words
      (s.lane l).staged.isSome r x
    exact ⟨h1, _, h2.trans (State.setLane_lane_self _ _ _)⟩

/-! ## Within a current entry -/

/-- A lane in transit with a current entry and no hold request: any boundary may follow. -/
def Lane.inEntry (ln : Lane) : Prop := ln.queue ≠ [] ∧ ln.queue.length ≤ Config.queueDepth ∧ ln.holdRequest = false

theorem hasCurrent_of_proceeded : ∀ {x : LaneState}, x.proceeded = true → x.hasCurrent = true
  | .running, _ => rfl
  | .stalled, _ => rfl
  | .holding .atBoundary, _ => rfl
  | .holding .inWait, _ => rfl

theorem Lane.wf_proceeded {ln : Lane} (hp : ln.state.proceeded = true) (hi : ln.inEntry) : ln.wf := by
  obtain ⟨hq, hl, hh⟩ := hi
  refine ⟨hl, fun _ => hq, fun e => ?_, fun e => ?_, fun e => ?_, fun e => ?_, fun e => ?_⟩
  · rw [e] at hp; cases hp
  · rw [e] at hp; cases hp
  · rw [hasCurrent_of_proceeded hp] at e; cases e
  · rw [e] at hp; cases hp
  · rw [hh] at e; cases e

theorem proceeded_ne {x : LaneState} (hp : x.proceeded = true) : x ≠ .off ∧ x ≠ .markwait := by
  constructor <;> rintro rfl <;> simp [LaneState.proceeded] at hp

/-- A lane in transit that ends RUNNING, STALLED or HOLDING within its entry. -/
theorem Transit.setLane_in (h : Transit l s) (v : Lane) (hi : v.inEntry) (hp : v.state.proceeded = true) :
    (s.setLane l v).lanesOk :=
  h.setLane_ok v (Lane.wf_proceeded hp hi) (proceeded_ne hp).1 (proceeded_ne hp).2

theorem present_lanesOk {c : LaneClaim} (h : s.lanesOk) : (s.present l c).lanesOk := h

theorem Transit.startAckWait_ok (h : Transit l s) (hi : (s.lane l).inEntry) : (s.startAckWait l).lanesOk :=
  h.setLane_in _ (by exact hi) (by rfl)

theorem Transit.startEdgeWatch_ok (h : Transit l s) (hi : (s.lane l).inEntry) (n : Nat) : (s.startEdgeWatch l n).lanesOk :=
  h.setLane_in _ (by exact hi) (by rfl)

theorem Transit.driveWord_ok (h : Transit l s) (hi : (s.lane l).inEntry) (e : Entry) : (s.driveWord l e).lanesOk := by
  unfold State.driveWord
  dsimp only
  split
  · exact (h.setLane _).startAckWait_ok (by rw [State.setLane_lane_self]; exact hi)
  · exact h.setLane_in _ (by exact hi) (by rfl)

theorem Transit.sampleBoundary_ok (h : Transit l s) (hi : (s.lane l).inEntry) (e : Entry) :
    (s.sampleBoundary l e).lanesOk := by
  unfold State.sampleBoundary
  dsimp only
  split
  · exact present_lanesOk (h.setLane_in _ (by exact hi) (by rfl))
  · exact h.setLane_in _ (by exact hi) (by rfl)

theorem Transit.attemptBoundary_ok (h : Transit l s) (hi : (s.lane l).inEntry) (e : Entry) :
    (s.attemptBoundary l e).lanesOk := by
  unfold State.attemptBoundary
  split
  · split
    · exact h.setLane_in _ (by exact hi) (by rfl)
    · exact h.driveWord_ok hi e
  · exact h.sampleBoundary_ok hi e

/-- A lane in transit with a current entry, whose hold request takes effect at a boundary. -/
theorem Transit.boundaryPoint_ok (h : Transit l s) (hq : (s.lane l).queue ≠ [])
    (hl : (s.lane l).queue.length ≤ Config.queueDepth) (e : Entry) : (s.boundaryPoint l e).lanesOk := by
  unfold State.boundaryPoint
  split
  · exact h.setLane_in _ ⟨hq, hl, rfl⟩ rfl
  · rename_i hh
    exact h.attemptBoundary_ok ⟨hq, hl, by simpa using hh⟩ e

theorem Transit.proceed_ok (h : Transit l s) (hi : (s.lane l).inEntry) (e : Entry) (x : Stamp) (y : Option (LaneId × Nat)) :
    (s.proceed l e x y).lanesOk := by
  unfold State.proceed
  dsimp only
  generalize hv : ({ (s.lane l) with
    state := .running, timing := some e.timing, pass := 1, words := 0, passWords := 0, acked := false } : Lane) = v
  have h1 : Transit l (s.setLane l v) := h.setLane v
  have hiv : ((s.setLane l v).lane l).inEntry := by rw [State.setLane_lane_self, ← hv]; exact hi
  generalize s.setLane l v = s1 at h1 hiv ⊢
  have h2 : Transit l (if e.notifyStart then s1.postRanked (startedPost l e x y) else s1) ∧
      ((if e.notifyStart then s1.postRanked (startedPost l e x y) else s1).lane l).inEntry := by
    split
    · exact ⟨h1.postRanked _, hiv⟩
    · exact ⟨h1, hiv⟩
  generalize (if e.notifyStart then s1.postRanked (startedPost l e x y) else s1) = s2 at h2 ⊢
  obtain ⟨h2, hi2⟩ := h2
  split
  · exact h2.attemptBoundary_ok hi2 e
  · split
    · exact (h2.setLane _).startEdgeWatch_ok (by rw [State.setLane_lane_self]; exact hi2) _
    · exact (h2.setLane _).sampleBoundary_ok (by rw [State.setLane_lane_self]; exact hi2) _

/-! ## Entry start and entry end -/

/-- A lane whose current entry waits in MARKWAIT (R134). -/
theorem Transit.markwait_ok (h : Transit l s) (m : MarkId) (mode : WaitMode) (hc : (s.mark m).isSet = false) (v : Lane)
    (hv : v.wf) (hs : v.state = .markwait) :
    ((s.setMark m { (s.mark m) with waiters := (s.mark m).waiters ++ [(l, mode)] }).setLane l v).lanesOk := by
  rw [lanesOk_iff]
  generalize hw : ({ (s.mark m) with waiters := (s.mark m).waiters ++ [(l, mode)] } : Mark) = w
  have hset : w.isSet = false := by rw [← hw]; exact hc
  have htimes : ∀ j, (s.setMark m w).timesWaiting j = s.timesWaiting j + if j = l then 1 else 0 := by
    intro j
    have h1 := timesWaiting_setMark s m w j
    have h2 : w.times j = (s.mark m).times j + if j = l then 1 else 0 := by
      rw [← hw]
      unfold Mark.times
      rw [List.map_append, List.count_append]
      by_cases e : j = l
      · subst e; simp
      · simp [e, Ne.symm e]
    omega
  refine ⟨fun a ha => ?_, fun j => ?_⟩
  · rw [State.setLane_mark, State.setMark_mark] at ha ⊢
    split
    · rename_i e; rw [if_pos e, hset] at ha; cases ha
    · rename_i e; rw [if_neg e] at ha; exact h.1 a ha
  · by_cases e : j = l
    · subst e
      refine ⟨by rw [State.setLane_lane_self]; exact hv, ?_, ?_⟩
      · rw [State.setLane_lane_self, hs]; exact Lease.wf_of_on h.2.2.1 (by simp) (by simp)
      · rw [State.setLane_lane_self, if_pos hs]
        have : ((s.setMark m w).setLane j v).timesWaiting j = (s.setMark m w).timesWaiting j := timesWaiting_of_marks rfl j
        rw [this, htimes, if_pos rfl, h.2.2.2]
    · obtain ⟨g1, g2, g3⟩ := h.2.1 j e
      have h5 : ((s.setMark m w).setLane l v).lane j = s.lane j := by
        rw [State.setLane_lane_ne _ _ _ (Ne.symm e)]; rfl
      refine ⟨by rw [h5]; exact g1, by rw [h5]; exact g2, ?_⟩
      have : ((s.setMark m w).setLane l v).timesWaiting j = (s.setMark m w).timesWaiting j := timesWaiting_of_marks rfl j
      rw [this, htimes, h5, if_neg e, g3]
      rfl

/-- A mark cleared by a lane in transit (R134, mode TAKE). -/
theorem Transit.clearMark (h : Transit l s) (m : MarkId) : Transit l (s.setMark m { (s.mark m) with isSet := false }) := by
  have ht : ∀ j, (s.setMark m { (s.mark m) with isSet := false }).timesWaiting j = s.timesWaiting j := by
    intro j
    have h1 := timesWaiting_setMark s m { (s.mark m) with isSet := false } j
    have h2 : ({ (s.mark m) with isSet := false } : Mark).times j = (s.mark m).times j := rfl
    omega
  refine ⟨fun a ha => ?_, fun j hj => ?_, h.2.2.1, by rw [ht]; exact h.2.2.2⟩
  · rw [State.setMark_mark] at ha ⊢
    split
    · rename_i e; rw [if_pos e] at ha; cases ha
    · rename_i e; rw [if_neg e] at ha; exact h.1 a ha
  · obtain ⟨g1, g2, g3⟩ := h.2.1 j hj
    exact ⟨g1, g2, by rw [ht]; exact g3⟩

theorem Transit.offerWait_ok (h : Transit l s) (hi : (s.lane l).inEntry) (hc : (s.lane l).capture = Capture.none) (e : Entry) :
    (s.offerWait l e).lanesOk := by
  unfold State.offerWait
  split
  · exact h.proceed_ok hi e _ _
  · split
    · split
      · exact h.proceed_ok hi e _ _
      · exact (h.clearMark _).proceed_ok hi e _ _
    · rename_i m mode _ hset
      have hset : (s.mark m).isSet = false := by simpa using hset
      dsimp only
      unfold State.showPark
      rw [State.setLane_lane_self, setLane_setLane, State.setMark_lane]
      have hh : (s.lane l).holdRequest = false := hi.2.2
      refine h.markwait_ok m mode hset _ ⟨hi.2.1, fun _ => hi.1, ?_, ?_, ?_, fun _ => hc, ?_⟩ (by rfl)
      · intro x; cases x
      · intro x; cases x
      · intro x; cases x
      · intro x; exact absurd (hh.symm.trans x) (by simp)

/-- A lane in transit with no current entry and no hold request: nothing of a former entry is left (R74). -/
def Lane.between (ln : Lane) : Prop :=
  ln.queue.length ≤ Config.queueDepth ∧ ln.holdRequest = false ∧ ln.capture = Capture.none ∧
  ln.pass = 0 ∧ ln.words = 0 ∧ ln.timing = none ∧ ln.staged = none

theorem Lane.wf_between {ln : Lane} (h : ln.between) (hc : ln.state.hasCurrent = false) (ho : ln.state ≠ .off)
    (hi : ln.state = .idle → ln.queue = []) : ln.wf :=
  ⟨h.1, fun e => (by rw [hc] at e; cases e), hi, fun e => absurd e ho, fun _ => h.2.2.2, fun _ => h.2.2.1,
    fun e => (by rw [h.2.1] at e; cases e)⟩

theorem Lane.between_clear (ln : Lane) (pol : Polarity) (q : List Entry) (hq : q.length ≤ Config.queueDepth)
    (hh : ln.holdRequest = false) : ({ (ln.clearCurrent pol) with queue := q } : Lane).between :=
  ⟨hq, hh, rfl, rfl, rfl, rfl, rfl⟩

theorem Transit.goIdle_ok (h : Transit l s) (hb : (s.lane l).between) (hq : (s.lane l).queue = []) : (s.goIdle l).lanesOk := by
  unfold State.goIdle State.showPark
  exact (h.setLane _).setLane_ok _ (Lane.wf_between (by rw [State.setLane_lane_self]; exact hb) (by rw [State.setLane_lane_self]; rfl)
    (by rw [State.setLane_lane_self]; simp) (fun _ => by rw [State.setLane_lane_self]; exact hq))
    (by rw [State.setLane_lane_self]; simp) (by rw [State.setLane_lane_self]; simp)

theorem startQueue_ok (es : List Entry) : ∀ {s : State}, Transit l s → (s.lane l).between → (s.lane l).queue = es →
    (startQueue l es s).lanesOk := by
  induction es with
  | nil => exact fun h hb hq => h.goIdle_ok hb hq
  | cons e es ih =>
    intro s h hb hq
    unfold startQueue
    dsimp only
    have h1 := h.setLane { (s.lane l) with state := .running, pass := 0, words := 0 }
    have e1 := State.setLane_lane_self s l { (s.lane l) with state := .running, pass := 0, words := 0 }
    generalize s.setLane l { (s.lane l) with state := .running, pass := 0, words := 0 } = s1 at h1 e1 ⊢
    have h2 : Transit l (if e.kind = .capture then s1.settleClaims l else s1) ∧
        (if e.kind = .capture then s1.settleClaims l else s1).lane l = s1.lane l := by
      split
      · exact ⟨h1.settleClaims, (settleClaims_frame s1 l).lane l⟩
      · exact ⟨h1, rfl⟩
    generalize (if e.kind = .capture then s1.settleClaims l else s1) = s2 at h2 ⊢
    obtain ⟨h2, e2⟩ := h2
    rw [e1] at e2
    split
    · rw [e2]
      obtain ⟨h3, e3⟩ := (h2.setLane { (({ (s.lane l) with state := .running, pass := 0, words := 0 } : Lane).clearCurrent
        (s2.lease l).stbPol) with queue := es }).finishEntry e .segmentGone 0 false true none
      rw [State.setLane_lane_self] at e3
      refine ih h3 ?_ (by rw [e3])
      rw [e3]
      have : es.length ≤ Config.queueDepth := by have := hb.1; rw [hq, List.length_cons] at this; omega
      exact Lane.between_clear _ _ es this hb.2.1
    · exact h2.offerWait_ok (by rw [e2]; exact ⟨by rw [hq]; simp, hb.1, hb.2.1⟩) (by rw [e2]; exact hb.2.2.1) e

theorem Transit.entryStart_ok (h : Transit l s) (hb : (s.lane l).between) : (s.entryStart l).lanesOk :=
  startQueue_ok _ h hb rfl

/-- What a lane does after its current entry has ended (R76). -/
theorem Transit.afterEnd_ok (h : Transit l s) (hb : ({ (s.lane l) with holdRequest := false } : Lane).between) :
    (s.afterEnd l).lanesOk := by
  unfold State.afterEnd
  split
  · unfold State.holdIn State.showPark
    exact (h.setLane _).setLane_ok _ (Lane.wf_between (by rw [State.setLane_lane_self]; exact hb)
      (by rw [State.setLane_lane_self]; rfl) (by rw [State.setLane_lane_self]; simp)
      (fun x => by rw [State.setLane_lane_self] at x; cases x))
      (by rw [State.setLane_lane_self]; simp) (by rw [State.setLane_lane_self]; simp)
  · rename_i hh
    have e : (s.lane l).holdRequest = false := by simpa using hh
    exact h.entryStart_ok ⟨hb.1, e, hb.2.2⟩

theorem tail_length_le {q : List Entry} (h : q.length ≤ Config.queueDepth) : q.tail.length ≤ Config.queueDepth := by
  rw [List.length_tail]; omega

/-- The current entry ends and the lane goes on (R74, R76). -/
theorem Transit.endAndGoOn_ok (h : Transit l s) (hq : (s.lane l).queue ≠ [])
    (hl : (s.lane l).queue.length ≤ Config.queueDepth) (o : EndOutcome) : (s.endAndGoOn l o).lanesOk := by
  obtain ⟨h1, d, h2⟩ := h.endCurrent o true none hq
  refine h1.afterEnd_ok ?_
  rw [h2]
  exact ⟨tail_length_le hl, rfl, rfl, rfl, rfl, rfl, rfl⟩

theorem Transit.endFaulted_ok (h : Transit l s) (hq : (s.lane l).queue ≠ [])
    (hl : (s.lane l).queue.length ≤ Config.queueDepth) (c : FaultCode) : (s.endFaulted l c).lanesOk := by
  obtain ⟨h1, d, h2⟩ := h.endCurrent (faultOutcome c) true none hq
  unfold State.endFaulted
  dsimp only
  rw [h2]
  exact h1.setLane_ok _ (Lane.wf_between ⟨tail_length_le hl, rfl, rfl, rfl, rfl, rfl, rfl⟩ rfl (by simp) (fun x => by cases x))
    (by simp) (by simp)

theorem Transit.takePassEnd_ok (h : Transit l s) (hq : (s.lane l).queue ≠ [])
    (hl : (s.lane l).queue.length ≤ Config.queueDepth) (e : Entry) : (s.takePassEnd l e).lanesOk := by
  unfold State.takePassEnd
  dsimp only
  split
  · exact h.endAndGoOn_ok hq hl _
  · exact (h.setLane _).boundaryPoint_ok (by rw [State.setLane_lane_self]; exact hq)
      (by rw [State.setLane_lane_self]; exact hl) e

/-! ## Requests and events of a lane -/

/-- Two states with the same lanes, leases and marks. -/
theorem lanesOk_congr {s t : State} (h : s.lanesOk) (h1 : t.lanes = s.lanes) (h2 : t.leases = s.leases)
    (h3 : t.marks = s.marks) : t.lanesOk := by
  rw [lanesOk_iff] at h ⊢
  have e1 : ∀ j, t.lane j = s.lane j := fun j => by unfold State.lane; rw [h1]
  have e2 : ∀ j, t.lease j = s.lease j := fun j => by unfold State.lease; rw [h2]
  exact ⟨marksEmpty_congr h.1 h3, fun j => laneOk_congr (h.2 j) (e1 j) (e2 j) h3⟩

theorem Transit.congr_lanes {t : State} (h : Transit l s) (h1 : t.lanes = s.lanes) (h2 : t.leases = s.leases)
    (h3 : t.marks = s.marks) : Transit l t :=
  h.congr (fun j _ => by unfold State.lane; rw [h1]) h2 h3

/-- What a lane with a current entry has (R61, R63). -/
theorem State.lanesOk.current (h : s.lanesOk) (hc : (s.lane l).state.hasCurrent = true) :
    (s.lane l).queue ≠ [] ∧ (s.lane l).queue.length ≤ Config.queueDepth :=
  ⟨(h.1 l).2.1 hc, (h.1 l).1⟩

theorem State.lanesOk.noHold (h : s.lanesOk) (hr : (s.lane l).state ≠ .running) : (s.lane l).holdRequest = false := by
  cases e : (s.lane l).holdRequest with
  | false => rfl
  | true => exact absurd ((h.1 l).2.2.2.2.2.2 e) hr

/-- A lane within an entry that is not RUNNING has no hold request. -/
theorem State.lanesOk.inEntry (h : s.lanesOk) (hc : (s.lane l).state.hasCurrent = true) (hr : (s.lane l).state ≠ .running) :
    (s.lane l).inEntry :=
  ⟨(h.current hc).1, (h.current hc).2, h.noHold hr⟩

/-- A lane without a current entry is as entry start needs it. -/
theorem State.lanesOk.between (h : s.lanesOk) (hc : (s.lane l).state.hasCurrent = false) : (s.lane l).between := by
  obtain ⟨h1, -, -, -, h5, h6, -⟩ := h.1 l
  have hp : (s.lane l).state.proceeded = false := by
    cases e : (s.lane l).state.proceeded with
    | false => rfl
    | true => rw [hasCurrent_of_proceeded e] at hc; cases hc
  exact ⟨h1, h.noHold (by intro e; rw [e] at hc; cases hc), h6 hp, h5 hc⟩

theorem transit_in (h : s.lanesOk) (hp : (s.lane l).state.proceeded = true) : Transit l s :=
  transit_of_ok h (proceeded_ne hp).1 (proceeded_ne hp).2

theorem settleRelease_ok (h : s.lanesOk) : (s.settleRelease l).lanesOk := by
  unfold State.settleRelease
  split
  · rename_i stamp after e rest hs hq
    have hc : (s.lane l).state.hasCurrent = true := by rw [hs]; rfl
    exact (transit_of_ok h (by rw [hs]; simp) (by rw [hs]; simp)).proceed_ok (h.inEntry hc (by rw [hs]; simp)) _ _ _
  · exact h

/-- A lane whose fields change but not its state. -/
theorem setLane_same_ok (h : s.lanesOk) (v : Lane) (hw : v.wf) (hs : v.state = (s.lane l).state) : (s.setLane l v).lanesOk := by
  rw [lanesOk_iff] at h ⊢
  refine ⟨h.1, fun j => ?_⟩
  obtain ⟨g1, g2, g3⟩ := h.2 j
  unfold State.laneOk
  rw [timesWaiting_of_marks (show (s.setLane l v).marks = s.marks from rfl), State.setLane_lane]
  by_cases e : l = j
  · subst e
    rw [if_pos rfl, hs]
    exact ⟨hw, g2, g3⟩
  · rw [if_neg e]
    exact ⟨g1, g2, g3⟩

/-- An entry end that is not COMPLETE sets no mark and touches no lane. -/
theorem finishEntry_quiet (s : State) (l : LaneId) (e : Entry) {o : EndOutcome} (ho : o ≠ .complete) (n : Nat) (d r : Bool)
    (x : Option Nat) :
    (s.finishEntry l e o n d r x).lanes = s.lanes ∧ (s.finishEntry l e o n d r x).marks = s.marks := by
  have h : s.setPostMark l e o = s := by unfold State.setPostMark; split <;> first | rfl | exact absurd rfl ho
  unfold State.finishEntry
  rw [h]
  cases r <;> exact ⟨rfl, rfl⟩

theorem endQueued_quiet (l : LaneId) {o : EndOutcome} (ho : o ≠ .complete) (r : Bool) (x : Option Nat) (es : List Entry) :
    ∀ s : State, (s.endQueued l o r x es).lanes = s.lanes ∧ (s.endQueued l o r x es).marks = s.marks := by
  induction es with
  | nil => exact fun _ => ⟨rfl, rfl⟩
  | cons e es ih =>
    intro s
    obtain ⟨h1, h2⟩ := finishEntry_quiet s l e ho 0 false r x
    obtain ⟨h3, h4⟩ := ih (s.finishEntry l e o 0 false r x)
    exact ⟨h3.trans h1, h4.trans h2⟩

/-- A lane with a shorter queue that keeps its current entry, and none more in IDLE. -/
theorem Lane.wf_cut {ln : Lane} (h : ln.wf) (q : List Entry) (hl : q.length ≤ ln.queue.length)
    (hc : ln.state.hasCurrent = true → q ≠ []) : ({ ln with queue := q } : Lane).wf := by
  obtain ⟨h1, h2, h3, h4, h5⟩ := h
  have hq : ln.queue = [] → q = [] := fun e => List.length_eq_zero_iff.1 (by rw [e, List.length_nil] at hl; omega)
  refine ⟨le_trans hl h1, hc, fun e => hq (h3 e), fun e => ?_, h5⟩
  have hr := h4 e
  rw [hq (by rw [hr]; rfl)]
  exact (show ({ ln with queue := [] } : Lane) = Lane.reset by rw [hr]; rfl)

/-- A FLUSH (R78). -/
theorem flushLane_ok (h : s.lanesOk) : (s.flushLane l).lanesOk := by
  unfold State.flushLane
  obtain ⟨h1, h2⟩ := endQueued_quiet l (o := .flushed) (by simp) true none (s.lane l).flushable
    (s.setLane l { (s.lane l) with queue := (s.lane l).keptAtFlush })
  refine lanesOk_congr (setLane_same_ok h { (s.lane l) with queue := (s.lane l).keptAtFlush } (Lane.wf_cut (h.1 l) _ ?_ ?_)
    rfl) h1 ?_ h2
  · unfold Lane.keptAtFlush
    split
    · rw [List.length_take]; omega
    · simp
  · intro hc
    unfold Lane.keptAtFlush
    rw [if_pos hc]
    have := (h.current hc).1
    simpa using this
  · exact (endQueued_frame l _ _ _ _ _).leases

/-- An ABORT (R112). -/
theorem abortLane_ok (h : s.lanesOk) (ho : (s.lane l).state ≠ .off) : (s.abortLane l).lanesOk := by
  unfold State.abortLane
  dsimp only
  have h1 : Transit l (if (s.lane l).state = .markwait then s.removeWaiter l else s) ∧
      (if (s.lane l).state = .markwait then s.removeWaiter l else s).lane l = s.lane l := by
    split
    · exact ⟨transit_removeWaiter h ho, rfl⟩
    · rename_i hm; exact ⟨transit_of_ok h ho hm, rfl⟩
  generalize (if (s.lane l).state = .markwait then s.removeWaiter l else s) = s1 at h1 ⊢
  obtain ⟨h1, e1⟩ := h1
  have h2 := h1.setLane { (s1.lane l) with holdRequest := false, stallTimer := none }
  have e2 : ((s1.setLane l { (s1.lane l) with holdRequest := false, stallTimer := none }).lane l) =
      { (s.lane l) with holdRequest := false, stallTimer := none } := by rw [State.setLane_lane_self, e1]
  generalize s1.setLane l { (s1.lane l) with holdRequest := false, stallTimer := none } = s2 at h2 e2 ⊢
  have h3 : Transit l (if (s2.lane l).state.hasCurrent then s2.endCurrent l .aborted true none else s2) ∧
      ((if (s2.lane l).state.hasCurrent then s2.endCurrent l .aborted true none else s2).lane l).holdRequest = false := by
    split
    · rename_i hc
      rw [e2] at hc
      obtain ⟨g1, d, g2⟩ := h2.endCurrent .aborted true none (by rw [e2]; exact (h.current hc).1)
      exact ⟨g1, by rw [g2, e2]; rfl⟩
    · exact ⟨h2, by rw [e2]⟩
  generalize (if (s2.lane l).state.hasCurrent then s2.endCurrent l .aborted true none else s2) = s3 at h3 ⊢
  obtain ⟨h3, e3⟩ := h3
  obtain ⟨h4, e4⟩ := (h3.setLane { (s3.lane l) with queue := [] }).endQueued .flushed true none (s3.lane l).queue
  rw [State.setLane_lane_self] at e4
  generalize (s3.setLane l { (s3.lane l) with queue := [] }).endQueued l .flushed true none (s3.lane l).queue = s4 at h4 e4 ⊢
  unfold State.showPark
  rw [State.setLane_lane_self, setLane_setLane, e4]
  refine h4.setLane_ok _ (Lane.wf_between ⟨by simp, e3, rfl, rfl, rfl, rfl, rfl⟩ rfl ?_ (fun _ => rfl)) ?_ ?_
  · intro x; cases x
  · intro x; cases x
  · intro x; cases x

/-- The form a STALLED lane holds in is within its entry (R107). -/
theorem stalledForm_proceeded (e : Option Entry) : (LaneState.holding (stalledForm e)).proceeded = true := by
  unfold stalledForm
  split
  · split <;> rfl
  · rfl

/-- A HOLD (R105). -/
theorem holdByState_ok (h : s.lanesOk) : (holdByState s l).1.lanesOk := by
  unfold holdByState
  dsimp only
  split
  · rename_i hs
    refine setLane_same_ok h _ ?_ rfl
    obtain ⟨h1, h2, h3, h4, h5, h6, -⟩ := h.1 l
    exact ⟨h1, h2, h3, fun e => absurd (hs.symm.trans e) (by simp), h5, h6, fun _ => hs⟩
  · rename_i hs
    have hi := h.inEntry (l := l) (by rw [hs]; rfl) (by rw [hs]; simp)
    exact (transit_in h (by rw [hs]; rfl)).setLane_in _ (by exact hi) (stalledForm_proceeded _)
  · rename_i hs
    have hi := h.inEntry (l := l) (by rw [hs]; rfl) (by rw [hs]; simp)
    obtain ⟨h1, h2, h3, h4, h5, h6, h7⟩ := h.1 l
    refine (transit_removeWaiter h (by rw [hs]; simp)).setLane_ok _ ⟨h1, fun _ => hi.1, ?_, ?_, ?_, ?_, ?_⟩ ?_ ?_
    · intro x; cases x
    · intro x; cases x
    · intro x; cases x
    · intro _; exact h6 (by rw [hs]; rfl)
    · intro x; exact absurd (hi.2.2.symm.trans x) (by simp)
    · intro x; cases x
    · intro x; cases x
  · rename_i hs
    refine (transit_of_ok h (by rw [hs]; simp) (by rw [hs]; simp)).setLane_ok _
      (Lane.wf_between (by exact h.between (l := l) (by rw [hs]; rfl)) rfl ?_ ?_) ?_ ?_
    · intro x; cases x
    · intro x; cases x
    · intro x; cases x
    · intro x; cases x
  · exact h
  · exact h

theorem resumeWithin_ok (h : s.lanesOk) (f : HoldForm) (hs : (s.lane l).state = .holding f)
    (hp : (LaneState.holding f).proceeded = true) (e : Entry) : (s.resumeWithin l f e).lanesOk := by
  have hp' : (s.lane l).state.proceeded = true := by rw [hs]; exact hp
  have hc := hasCurrent_of_proceeded hp'
  have ht := transit_in h hp'
  have hi := h.inEntry hc (by rw [hs]; simp)
  unfold State.resumeWithin
  split
  · exact ht.endAndGoOn_ok hi.1 hi.2.1 _
  · split
    · exact ht.attemptBoundary_ok hi e
    · split
      · exact ht.startEdgeWatch_ok hi _
      · exact ht.startAckWait_ok hi

/-- A RESUME (R109). -/
theorem resumeByState_ok (h : s.lanesOk) : (resumeByState s l).1.lanesOk := by
  unfold resumeByState
  dsimp only
  split
  · rename_i hs
    split
    · refine setLane_same_ok h _ ?_ rfl
      obtain ⟨h1, h2, h3, h4, h5, h6, -⟩ := h.1 l
      exact ⟨h1, h2, h3, fun e => absurd (hs.symm.trans e) (by simp), h5, h6, fun _ => hs⟩
    · exact h
  · rename_i hs _; exact resumeWithin_ok h .atBoundary hs rfl _
  · rename_i hs _; exact resumeWithin_ok h .inWait hs rfl _
  · rename_i hs _
    have hi := h.inEntry (l := l) (by rw [hs]; rfl) (by rw [hs]; simp)
    exact (transit_of_ok h (by rw [hs]; simp) (by rw [hs]; simp)).offerWait_ok hi
      ((h.1 l).2.2.2.2.2.1 (by rw [hs]; rfl)) _
  · rename_i f hs n1 n2 n3
    have hc : (s.lane l).state.hasCurrent = false := by
      cases e : (s.lane l).state.hasCurrent with
      | false => rfl
      | true =>
        obtain ⟨a, b, hq⟩ := List.exists_cons_of_ne_nil (h.current e).1
        rw [hs] at e
        cases f with
        | atBoundary => exact absurd rfl (n1 a b hq)
        | inWait => exact absurd rfl (n2 a b hq)
        | outOfMarkwait => exact absurd rfl (n3 a b hq)
        | betweenEntries => cases e
        | outOfIdle => cases e
    exact (transit_of_ok h (by rw [hs]; simp) (by rw [hs]; simp)).entryStart_ok (h.between hc)
  · rename_i hs
    have hb := h.between (l := l) (by rw [hs]; rfl)
    have ht := transit_of_ok h (l := l) (by rw [hs]; simp) (by rw [hs]; simp)
    unfold State.goIdle State.showPark
    rw [setLane_setLane]
    exact (ht.setLane _).entryStart_ok (by rw [State.setLane_lane_self, State.setLane_lane_self]; exact hb)
  · exact h

/-- A RETIME (R102). -/
theorem retimeLane_ok (h : s.lanesOk) (p : List Byte) : (retimeLane s l p).1.lanesOk := by
  unfold retimeLane
  split
  · exact h
  · split
    · exact h
    · rename_i e hcur
      split
      · exact h
      · split
        · exact h
        · refine setLane_same_ok h _ ?_ rfl
          have hc : (s.lane l).state.hasCurrent = true := by
            unfold Lane.current at hcur
            split at hcur
            · assumption
            · cases hcur
          obtain ⟨h1, h2, h3, h4, h5, h6, h7⟩ := h.1 l
          refine ⟨h1, h2, h3, ?_, ?_, h6, h7⟩
          · intro x; rw [show (s.lane l).state = .off from x] at hc; cases hc
          · intro x; exact absurd (hc.symm.trans x) (by simp)

/-! ## Timed events -/

theorem stepBoundary_ok (h : s.lanesOk) : (s.stepBoundary l).lanesOk := by
  unfold State.stepBoundary
  split
  · rename_i e he
    have hs : (s.lane l).state = .running := by
      unfold Lane.boundaryDue at he
      split at he
      · rename_i hx; exact hx.1
      · cases he
    have hq := h.current (l := l) (by rw [hs]; rfl)
    exact (transit_in h (by rw [hs]; rfl)).boundaryPoint_ok hq.1 hq.2 e
  · exact h

theorem endPulse_ok (h : s.lanesOk) (hp : (s.lane l).pulseEnd ≠ none) : (s.endPulse l).lanesOk := by
  refine setLane_same_ok h _ ?_ rfl
  obtain ⟨h1, h2, h3, h4, h5, h6, h7⟩ := h.1 l
  exact ⟨h1, h2, h3, fun x => absurd (by rw [h4 x]; rfl) hp, h5, h6, h7⟩

theorem strobeEnd_ok (h : s.lanesOk) : (s.strobeEnd l).lanesOk := by
  unfold State.strobeEnd
  split
  · rename_i hd
    have hp : (s.lane l).pulseEnd ≠ none := by
      intro e
      unfold Lane.pulseDue reached at hd
      rw [e] at hd
      cases hd
    have hk := endPulse_ok h hp
    split
    · rename_i e hs hcur
      have ht : Transit l (s.endPulse l) := (transit_in h (by rw [hs]; rfl)).setLane _
      have hq := h.current (l := l) (by rw [hs]; rfl)
      have hl : (s.endPulse l).lane l = { (s.lane l) with stb := stbInactive (s.lease l).stbPol, pulseEnd := none } :=
        State.setLane_lane_self _ _ _
      generalize s.endPulse l = t at hk ht hl ⊢
      have hq' : (t.lane l).queue ≠ [] := by rw [hl]; exact hq.1
      have hl' : (t.lane l).queue.length ≤ Config.queueDepth := by rw [hl]; exact hq.2
      unfold State.afterPulse
      split
      · split
        · exact ht.setLane_in _ ⟨hq', hl', rfl⟩ (by rfl)
        · rename_i hh; exact ht.startAckWait_ok ⟨hq', hl', by simpa using hh⟩
      · split
        · exact ht.endAndGoOn_ok hq' hl' _
        · split
          · exact ht.setLane_in _ ⟨hq', hl', rfl⟩ (by rfl)
          · rename_i hh; exact ht.startEdgeWatch_ok ⟨hq', hl', by simpa using hh⟩ _
      · exact hk
    · exact hk
  · exact h

theorem stalledUnder_spec {ln : Lane} {x : Pacing} {e : Entry} (h : ln.stalledUnder x = some e) : ln.state = .stalled := by
  unfold Lane.stalledUnder at h
  split at h
  · assumption
  · cases h

theorem raiseRtn_ok (h : s.lanesOk) : (s.raiseRtn l).lanesOk := lanesOk_congr h rfl rfl rfl

theorem Transit.raiseRtn (h : Transit l s) : Transit l (s.raiseRtn l) := h.congr_lanes rfl rfl rfl

theorem rtnReadyActive_ok (h : s.lanesOk) : (s.rtnReadyActive l).lanesOk := by
  unfold State.rtnReadyActive
  split
  · rename_i e he
    split
    · have hs := stalledUnder_spec he
      have hi := h.inEntry (l := l) (by rw [hs]; rfl) (by rw [hs]; simp)
      exact (transit_in h (by rw [hs]; rfl)).raiseRtn.driveWord_ok (by exact hi) e
    · exact raiseRtn_ok h
  · exact raiseRtn_ok h

theorem stallLimit_stalled {ln : Lane} {x : Pacing} {n : Nat} (h : ln.stallLimitReached x n = true) : ln.state = .stalled := by
  unfold Lane.stallLimitReached at h
  split at h
  · rename_i he; exact stalledUnder_spec he
  · cases h

/-- A stall limit reached under READY or ACK pacing (R92, R95). -/
theorem stallTimeout_ok (h : s.lanesOk) (x : Pacing) (c : FaultCode) :
    (if (s.lane l).stallLimitReached x s.now then s.endFaulted l c else s).lanesOk := by
  split
  · rename_i he
    have hs := stallLimit_stalled he
    have hq := h.current (l := l) (by rw [hs]; rfl)
    exact (transit_in h (by rw [hs]; rfl)).endFaulted_ok hq.1 hq.2 c
  · exact h

theorem Transit.acknowledge_ok (h : Transit l s) (hi : (s.lane l).inEntry) (e : Entry) : (s.acknowledge l e).lanesOk := by
  unfold State.acknowledge
  dsimp only
  split
  · exact h.takePassEnd_ok hi.1 hi.2.1 e
  · split
    · exact (h.setLane _).boundaryPoint_ok (by rw [State.setLane_lane_self]; exact hi.1)
        (by rw [State.setLane_lane_self]; exact hi.2.1) e
    · exact h.setLane_in _ (by exact hi) (by rfl)

theorem ackEdge_ok (h : s.lanesOk) : (s.ackEdge l).lanesOk := by
  unfold State.ackEdge
  split
  · rename_i e he
    split
    · have hs := stalledUnder_spec he
      have hi := h.inEntry (l := l) (by rw [hs]; rfl) (by rw [hs]; simp)
      exact (transit_in h (by rw [hs]; rfl)).raiseRtn.acknowledge_ok (by exact hi) e
    · exact raiseRtn_ok h
  · exact raiseRtn_ok h

theorem passEnd_ok (h : s.lanesOk) : (s.passEnd l).lanesOk := by
  unfold State.passEnd
  split
  · rename_i e he
    have hs : (s.lane l).state = .running := by
      unfold Lane.passEndDue at he
      split at he
      · rename_i hx; exact hx.1
      · cases he
    have hq := h.current (l := l) (by rw [hs]; rfl)
    exact (transit_in h (by rw [hs]; rfl)).takePassEnd_ok hq.1 hq.2 e
  · exact h

theorem rtnEdgeSample_ok (h : s.lanesOk) : (s.rtnEdgeSample l).lanesOk := by
  unfold State.rtnEdgeSample
  split
  · rename_i e he
    split
    · have hs := stalledUnder_spec he
      have hi := h.inEntry (l := l) (by rw [hs]; rfl) (by rw [hs]; simp)
      unfold State.sampleEdge
      dsimp only
      refine present_lanesOk ((transit_in h (by rw [hs]; rfl)).raiseRtn.setLane_in _ (by exact hi) ?_)
      dsimp only
      split <;> rfl
    · exact raiseRtn_ok h
  · exact raiseRtn_ok h

theorem captureTimeout_ok (h : s.lanesOk) :
    (if (s.lane l).captureLimitReached s.now then s.endAndGoOn l .captureTimeout else s).lanesOk := by
  split
  · rename_i he
    have hs : (s.lane l).state = .stalled := by
      unfold Lane.captureLimitReached at he
      split at he
      · rename_i hx; exact stalledUnder_spec hx
      · cases he
    have hq := h.current (l := l) (by rw [hs]; rfl)
    exact (transit_in h (by rw [hs]; rfl)).endAndGoOn_ok hq.1 hq.2 _
  · exact h

theorem captureEndPoint_ok (h : s.lanesOk) :
    (if (s.lane l).captureEndDue s.now then s.endAndGoOn l .complete else s).lanesOk := by
  split
  · rename_i he
    have hs : (s.lane l).state = .running := by
      unfold Lane.captureEndDue at he
      simp only [Bool.and_eq_true, beq_iff_eq] at he
      exact he.1.1
    have hq := h.current (l := l) (by rw [hs]; rfl)
    exact (transit_in h (by rw [hs]; rfl)).endAndGoOn_ok hq.1 hq.2 _
  · exact h

/-! ## Append answers (R122) -/

theorem awaits_current {ln : Lane} {a : AppendAnswer} {e : Entry} {w : Word} (h : ln.awaits a = some (e, w)) :
    ln.state.hasCurrent = true ∧ ln.capture ≠ Capture.none := by
  unfold Lane.awaits at h
  split at h
  · rename_i e' w' hc hp
    refine ⟨?_, fun x => by rw [x] at hp; cases hp⟩
    unfold Lane.current at hc
    split at hc
    · assumption
    · cases hc
  · cases h

theorem endCapture_ok (h : s.lanesOk) (hp : (s.lane l).state.proceeded = true) (o : EndOutcome) :
    (s.endCapture l o).lanesOk := by
  have hq := h.current (l := l) (hasCurrent_of_proceeded hp)
  have ht := transit_in h hp
  unfold State.endCapture
  split
  · obtain ⟨h1, d, h2⟩ := ht.endCurrent o true none hq.1
    unfold State.showPark State.holdIn
    rw [State.setLane_lane_self, setLane_setLane, h2]
    refine h1.setLane_ok _ (Lane.wf_between ⟨tail_length_le hq.2, rfl, rfl, rfl, rfl, rfl, rfl⟩ rfl ?_ ?_) ?_ ?_
    · intro x; cases x
    · intro x; cases x
    · intro x; cases x
    · intro x; cases x
  · exact ht.endAndGoOn_ok hq.1 hq.2 o

theorem answerStored_ok (h : s.lanesOk) (hp : (s.lane l).state.proceeded = true) (e : Entry) (w : Word) :
    (s.answerStored l e w).lanesOk := by
  have hq := h.current (l := l) (hasCurrent_of_proceeded hp)
  have ht := transit_in h hp
  unfold State.answerStored
  dsimp only
  split
  · exact (ht.setLane _).endAndGoOn_ok (by rw [State.setLane_lane_self]; exact hq.1)
      (by rw [State.setLane_lane_self]; exact hq.2) _
  · refine setLane_same_ok h _ ?_ rfl
    obtain ⟨h1, h2, h3, h4, h5, h6, h7⟩ := h.1 l
    refine ⟨h1, h2, h3, ?_, ?_, ?_, h7⟩
    · intro x; exact absurd x (proceeded_ne hp).1
    · intro x; exact absurd ((hasCurrent_of_proceeded hp).symm.trans x) (by simp)
    · intro x; exact absurd (hp.symm.trans x) (by simp)

theorem appendAnswer_ok (h : s.lanesOk) : (s.appendAnswer l).lanesOk := by
  unfold State.appendAnswer
  split
  · exact h
  · rename_i a rest _
    dsimp only
    have h1 : (s.setAnswers l rest).lanesOk := lanesOk_congr h rfl rfl rfl
    split
    · exact h1
    · rename_i e w he
      obtain ⟨hc, hn⟩ := awaits_current he
      have hp : (s.lane l).state.proceeded = true := by
        cases x : (s.lane l).state.proceeded with
        | true => rfl
        | false => exact absurd ((h.1 l).2.2.2.2.2.1 x) hn
      split
      · exact answerStored_ok h1 hp e w
      · exact endCapture_ok h1 hp _
      · exact endCapture_ok h1 hp _

/-! ## A queued entry (R65, R66) -/

/-- An ENQUEUE that is accepted: one entry more at the tail, and entry start on an IDLE lane. -/
theorem acceptEntry_ok (h : s.lanesOk) (ho : (s.lane l).state ≠ .off) (hr : (s.lane l).queue.length < Config.queueDepth)
    (i : Slot) (e : Entry) : (s.acceptEntry l i e).lanesOk := by
  unfold State.acceptEntry
  dsimp only
  have h0 : ({ (s.setStore (s.store.setRefs i ((s.store.entry i).refs + 1))) with
      nextEntryId := (s.setStore (s.store.setRefs i ((s.store.entry i).refs + 1))).nextEntryId + 1 } : State).lanesOk :=
    lanesOk_congr h rfl rfl rfl
  have hl : ({ (s.setStore (s.store.setRefs i ((s.store.entry i).refs + 1))) with
      nextEntryId := (s.setStore (s.store.setRefs i ((s.store.entry i).refs + 1))).nextEntryId + 1 } : State).lane l =
        s.lane l := rfl
  generalize ({ (s.setStore (s.store.setRefs i ((s.store.entry i).refs + 1))) with
      nextEntryId := (s.setStore (s.store.setRefs i ((s.store.entry i).refs + 1))).nextEntryId + 1 } : State) = t at h0 hl ⊢
  have hlen : ((s.lane l).queue ++ [e]).length ≤ Config.queueDepth := by rw [List.length_append]; exact hr
  rw [hl]
  obtain ⟨h1, h2, h3, h4, h5, h6, h7⟩ := h.1 l
  split
  · rename_i hs
    have hb := h.between (l := l) (by rw [hs]; rfl)
    refine ((transit_of_ok h0 (by rw [hl]; exact ho) (by rw [hl, hs]; simp)).setLane _).entryStart_ok ?_
    rw [State.setLane_lane_self]
    exact ⟨hlen, hb.2⟩
  · rename_i hs
    refine setLane_same_ok h0 _ ?_ (by rw [hl])
    exact ⟨hlen, fun _ => by simp, fun x => absurd x hs, fun x => absurd x ho, h5, h6, h7⟩

end Sys2Proof.Machine
end

