-- ==== Sys2Proof/Laws/Ends.lean ====
section
/-! SUPPORT. The current entry of a lane, and everything that the end of its entries does when none of them ends COMPLETE (R74 to R77,
R80, R112). -/

namespace Sys2Proof.Machine

/-- The current entry of a lane that has one. -/
theorem Lane.current_eq {ln : Lane} {e : Entry} {rest : List Entry} (h : ln.state.hasCurrent = true) (hq : ln.queue = e :: rest) :
    ln.current = some e := by
  unfold Lane.current; rw [h, hq]; rfl

/-- A lane that is not STALLED, or whose entry has another pacing, is not stalled under this one. -/
theorem Lane.stalledUnder_none {ln : Lane} {x : Pacing} {e : Entry} {rest : List Entry}
    (h : ln.state ≠ .stalled ∨ (ln.queue = e :: rest ∧ e.pacing ≠ x)) : ln.stalledUnder x = none := by
  unfold Lane.stalledUnder Lane.current
  rcases h with h | ⟨h, g⟩
  · rw [if_neg h]
  · split
    · rw [h]; split
      · rw [List.head?_cons, Option.filter_some, if_neg (by simpa using g)]
      · rfl
    · rfl

/-- The entry of a lane STALLED under its pacing. -/
theorem Lane.stalledUnder_some {ln : Lane} {x : Pacing} {e : Entry} {rest : List Entry} (h : ln.state = .stalled)
    (hq : ln.queue = e :: rest) (g : e.pacing = x) : ln.stalledUnder x = some e := by
  have hc : ln.current = some e := Lane.current_eq (by rw [h]; rfl) hq
  unfold Lane.stalledUnder
  rw [if_pos h, hc, Option.filter_some, if_pos (by simpa using g)]

/-- When a boundary that is left is due. -/
theorem Lane.boundaryDue_eq (s : State) (l : LaneId) (e : Entry) (rest : List Entry) (p : Nat)
    (h1 : (s.lane l).state = .running) (h2 : (s.lane l).queue = e :: rest) (h4 : (s.lane l).point = some p)
    (hb : (s.lane l).boundaryLeft e = true) : (s.lane l).boundaryDue s.now = if s.now < p then none else some e := by
  have hc : (s.lane l).current = some e := by unfold Lane.current; rw [h1, h2]; rfl
  have hr : reached (s.lane l).point s.now = decide (p ≤ s.now) := by rw [h4]; rfl
  unfold Lane.boundaryDue
  rw [hc, hr]
  by_cases hp : s.now < p
  · rw [if_neg (fun x => absurd (of_decide_eq_true x.2) (by omega)), if_pos hp]
  · rw [if_pos ⟨h1, decide_eq_true (by omega)⟩, if_neg hp, Option.filter_some, if_pos hb]

/-- No post mark is set by an end that is not COMPLETE (R139). -/
theorem setPostMark_eq (s : State) (l : LaneId) (e : Entry) {o : EndOutcome} (ho : o ≠ .complete) : s.setPostMark l e o = s := by
  unfold State.setPostMark
  split <;> first | rfl | exact absurd rfl ho

theorem queuedPosts_cons (l : LaneId) (stamp : Stamp) (o : EndOutcome) (x : Option Nat) (n : Nat) (e : Entry) (es : List Entry) :
    queuedPosts l stamp o x n (e :: es) = donePost l e stamp o 0 false x n :: queuedPosts l stamp o x (n + 1) es := by
  unfold queuedPosts
  rw [List.mapIdx_cons]
  simp only [Nat.add_zero, Nat.add_comm, Nat.add_left_comm]

theorem endReleases_cons (x : Option Nat) (r : Bool) (n : Nat) (e : Entry) (es : List Entry) :
    endReleases x r n (e :: es) =
      .release e.segment (n + if r then 1 else 0) x :: endReleases x r (n + if r then 1 else 0) es := by
  unfold endReleases
  rw [List.mapIdx_cons]
  cases r <;> simp [Nat.add_comm, Nat.add_left_comm]

/-- Everything that an entry end with another outcome than COMPLETE does after the lane has left the entry (R74). -/
theorem finishEntry_eq (s : State) (l : LaneId) (e : Entry) {o : EndOutcome} (ho : o ≠ .complete) (words : Nat) (d r : Bool)
    (x : Option Nat) :
    s.finishEntry l e o words d r x = { s with
      claims := s.claims.upd l (s.claimsOf l ++ [.release e.segment (s.orderCount + if r then 1 else 0) x]),
      posts := s.posts ++ (if r then [donePost l e s.time.timestamp o words d x s.orderCount] else []),
      orderCount := s.orderCount + if r then 1 else 0 } := by
  unfold State.finishEntry
  rw [setPostMark_eq s l e ho]
  cases r
  · simp only [Bool.false_eq_true, if_false, List.append_nil]; rfl
  · rfl

/-- The end of entries that are not current, none of them COMPLETE: a release and, where reported, an ENTRY_DONE for each (R77). -/
theorem endQueued_eq (l : LaneId) (o : EndOutcome) (ho : o ≠ .complete) (r : Bool) (x : Option Nat) :
    ∀ (es : List Entry) (s : State), s.endQueued l o r x es = { s with
      claims := s.claims.upd l (s.claimsOf l ++ endReleases x r s.orderCount es),
      posts := s.posts ++ (if r then queuedPosts l s.time.timestamp o x s.orderCount es else []),
      orderCount := s.orderCount + if r then es.length else 0 } := by
  intro es
  induction es with
  | nil => intro s; simp [State.endQueued, State.claimsOf, endReleases, queuedPosts]
  | cons e es ih =>
    intro s
    unfold State.endQueued
    rw [finishEntry_eq s l e ho, ih]
    have e1 : ∀ (c : LaneClaim) (p : List Post) (n : Nat), (({ s with
        claims := s.claims.upd l (s.claimsOf l ++ [c]), posts := p, orderCount := n } : State).claimsOf l) =
          s.claimsOf l ++ [c] := fun _ _ _ => Bank.sel_upd_self _ _ _
    rw [e1]
    dsimp only
    rw [Bank.upd_upd_self, List.append_assoc, List.append_assoc, endReleases_cons, queuedPosts_cons]
    cases r
    · rfl
    · simp [Nat.add_assoc, Nat.add_comm 1]

/-- A lane as its current entry leaves it (R61, R74): nothing of the entry is left but the lines that it leaves; a hold request
stays. -/
def Lane.leftBy (ln : Lane) (e : Entry) (rest : List Entry) (r : Lease) : Lane :=
  { Lane.reset with
    state := .idle, queue := rest, holdRequest := ln.holdRequest, drive := ln.driveLeft e r.park, stb := stbInactive r.stbPol }

/-- The end of the current entry with another outcome than COMPLETE (R74). -/
theorem endCurrent_eq (s : State) (l : LaneId) (e : Entry) (rest : List Entry) (o : EndOutcome) (ho : o ≠ .complete) (r : Bool)
    (x : Option Nat) (hq : (s.lane l).queue = e :: rest) :
   s.endCurrent l o r x = { s with
     lanes := s.lanes.upd l ((s.lane l).leftBy e rest (s.lease l)),
     claims := s.claims.upd l (s.claimsOf l ++ [.release e.segment (s.orderCount + if r then 1 else 0) x]),
     posts := s.posts ++ (if r then
       [donePost l e s.time.timestamp o (s.lane l).words (s.lane l).staged.isSome x s.orderCount] else []),
     orderCount := s.orderCount + if r then 1 else 0 } := by
  unfold State.endCurrent
  rw [hq]
  dsimp only
  rw [finishEntry_eq _ l e ho]
  rfl

/-- A removal changes nothing where the lane is on no list. -/
theorem removeWaiter_absent (s : State) (l : LaneId) (h : s.timesWaiting l = 0) :
    s.marks.map (fun m => { m with waiters := m.waiters.filter (fun w => w.1 != l) }) = s.marks := by
  refine Bank.ext_sel fun m => ?_
  have e : Bank.sel (Vector.map (fun m : Mark => ({ m with waiters := m.waiters.filter (fun w => w.1 != l) } : Mark)) s.marks) m =
      { (s.marks.sel m) with waiters := (s.marks.sel m).waiters.filter (fun w => w.1 != l) } := Bank.sel_map _ _ _
  rw [e]
  have ht : (s.mark m).times l = 0 := by have := times_le s m l; omega
  have := mem_waiters_times ht
  have : (s.marks.sel m).waiters.filter (fun w => w.1 != l) = (s.marks.sel m).waiters := by
    rw [List.filter_eq_self]; intro a ha; simpa using this a ha
  rw [this]

/-- What the drain and the ABORT do to the whole queue of a lane (R77, R80, R112). -/
theorem endAll_eq (s : State) (l : LaneId) (o1 o2 : EndOutcome) (h1 : o1 ≠ .complete) (h2 : o2 ≠ .complete) (r : Bool)
   (x : Option Nat) (hq : (s.lane l).state.hasCurrent = true → (s.lane l).queue ≠ []) :
   let s4 := if (s.lane l).state.hasCurrent then s.endCurrent l o1 r x else s
   let s5 := (s4.setLane l { (s4.lane l) with queue := [] }).endQueued l o2 r x (s4.lane l).queue
   ∀ v, s5.setLane l v = { s with
      lanes := s.lanes.upd l v,
      claims := s.claims.upd l (s.claimsOf l ++ endReleases x r s.orderCount (s.lane l).queue),
      posts := s.posts ++ (if r then (s.lane l).endPosts l s.time.timestamp o1 o2 x s.orderCount else []),
      orderCount := s.orderCount + if r then (s.lane l).queue.length else 0 } := by
  intro s4 s5 v
  have h5 : s5 = (s4.setLane l { (s4.lane l) with queue := [] }).endQueued l o2 r x (s4.lane l).queue := rfl
  have h4 : s4 = if (s.lane l).state.hasCurrent then s.endCurrent l o1 r x else s := rfl
  rw [endQueued_eq l o2 h2 r x] at h5
  cases hc : (s.lane l).state.hasCurrent
  · rw [hc, if_neg (by simp)] at h4
    rw [h5, h4]
    unfold State.setLane
    dsimp only
    rw [Bank.upd_upd_self]
    have : (s.lane l).endPosts l s.time.timestamp o1 o2 x s.orderCount =
        queuedPosts l s.time.timestamp o2 x s.orderCount (s.lane l).queue := by
      unfold Lane.endPosts; rw [hc]
    rw [this]
    rfl
  · obtain ⟨e, rest, hq'⟩ := List.exists_cons_of_ne_nil (hq hc)
    rw [hc, if_pos rfl, endCurrent_eq s l e rest o1 h1 r x hq'] at h4
    have hl4 : s4.lane l = (s.lane l).leftBy e rest (s.lease l) := by
      rw [h4]; exact Bank.sel_upd_self _ _ _
    have hc4 : s4.claimsOf l = s.claimsOf l ++ [.release e.segment (s.orderCount + if r then 1 else 0) x] := by
      rw [h4]; exact Bank.sel_upd_self _ _ _
    rw [h5, hl4]
    have hcs : (s4.setLane l { ((s.lane l).leftBy e rest (s.lease l)) with queue := [] }).claimsOf l =
        s.claimsOf l ++ [.release e.segment (s.orderCount + if r then 1 else 0) x] := hc4
    rw [hcs]
    unfold State.setLane
    dsimp only
    rw [Bank.upd_upd_self]
    have hp : (s.lane l).endPosts l s.time.timestamp o1 o2 x s.orderCount =
        donePost l e s.time.timestamp o1 (s.lane l).words (s.lane l).staged.isSome x s.orderCount ::
          queuedPosts l s.time.timestamp o2 x (s.orderCount + 1) rest := by
      unfold Lane.endPosts; rw [hc, hq']
    rw [hp, hq', h4]
    dsimp only
    rw [Bank.upd_upd_self, Bank.upd_upd_self, List.append_assoc, List.append_assoc, endReleases_cons]
    cases r
    · rfl
    · simp [Nat.add_assoc, Nat.add_comm 1, Lane.leftBy]

end Sys2Proof.Machine
end

