-- ==== Sys2Proof/Laws/Leases.lean ====
section
/-! SUPPORT. The Lease Controller: what grants and lease ends can touch, and that they keep `State.lanesOk`. -/

namespace Sys2Proof.Machine

/-! ## What a grant or a lease end can touch -/

/-- t differs from s in lanes, claims, marks, posts, the number of orders and leases only. -/
def LeaseFrame (s t : State) : Prop :=
  ∃ lanes claims marks posts n leases,
    t = { s with lanes := lanes, claims := claims, marks := marks, posts := posts, orderCount := n, leases := leases }

theorem LeaseFrame.refl (s : State) : LeaseFrame s s := ⟨s.lanes, s.claims, s.marks, s.posts, s.orderCount, s.leases, rfl⟩

theorem LeaseFrame.trans {s t u : State} (h : LeaseFrame s t) (g : LeaseFrame t u) : LeaseFrame s u := by
  obtain ⟨a, b, c, d, e, f, rfl⟩ := h
  obtain ⟨a', b', c', d', e', f', rfl⟩ := g
  exact ⟨a', b', c', d', e', f', rfl⟩

theorem LaneFrame.toLease {s t : State} (h : LaneFrame s t) : LeaseFrame s t := by
  obtain ⟨a, b, c, d, e, rfl⟩ := h
  exact ⟨a, b, c, d, e, s.leases, rfl⟩

theorem LeaseFrame.store {s t : State} (h : LeaseFrame s t) : t.store = s.store := by obtain ⟨a, b, c, d, e, f, rfl⟩ := h; rfl
theorem LeaseFrame.events {s t : State} (h : LeaseFrame s t) : t.events = s.events := by obtain ⟨a, b, c, d, e, f, rfl⟩ := h; rfl
theorem LeaseFrame.links {s t : State} (h : LeaseFrame s t) : t.links = s.links := by obtain ⟨a, b, c, d, e, f, rfl⟩ := h; rfl
theorem LeaseFrame.answers {s t : State} (h : LeaseFrame s t) : t.answers = s.answers := by obtain ⟨a, b, c, d, e, f, rfl⟩ := h; rfl
theorem LeaseFrame.withdrawals {s t : State} (h : LeaseFrame s t) : t.withdrawals = s.withdrawals := by
  obtain ⟨a, b, c, d, e, f, rfl⟩ := h; rfl
theorem LeaseFrame.time {s t : State} (h : LeaseFrame s t) : t.time = s.time := by obtain ⟨a, b, c, d, e, f, rfl⟩ := h; rfl
theorem LeaseFrame.pending {s t : State} (h : LeaseFrame s t) : t.pending = s.pending := by obtain ⟨a, b, c, d, e, f, rfl⟩ := h; rfl

variable (s : State) (l : LaneId)

theorem setLease_frame (v : Lease) : LeaseFrame s (s.setLease l v) := ⟨s.lanes, s.claims, s.marks, s.posts, s.orderCount, _, rfl⟩

theorem grant_frame (k : HostId) (d : Nat) : LeaseFrame s (s.grant l k d) :=
  (setLease_frame s l _).trans (setLane_frame _ l _).toLease

theorem grantPosted_frame (k : HostId) (d : Nat) : LeaseFrame s (s.grantPosted l k d) :=
  (grant_frame s l k d).trans (postLease_frame _ k _).toLease

theorem closeLease_frame (c : LeaseEndCause) : LeaseFrame s (s.closeLease l c) :=
  (drain_frame s l _).toLease.trans (setLease_frame _ l _)

theorem grantHead_frame : LeaseFrame s (s.grantHead l) := by
  unfold State.grantHead
  split
  · exact LeaseFrame.refl s
  · exact (setLease_frame s l _).trans (grantPosted_frame _ l _ _)

theorem endLease_frame (c : LeaseEndCause) : LeaseFrame s (s.endLease l c) :=
  (closeLease_frame s l c).trans (grantHead_frame _ l)

theorem grantTo_frame (k : HostId) : LeaseFrame s (s.grantTo l k) :=
  (setLease_frame s l _).trans (grantPosted_frame _ l _ _)

theorem dropClaims_frame (k : HostId) : LeaseFrame s (s.dropClaims k) := by
  unfold State.dropClaims
  generalize laneIds = ls
  induction ls generalizing s with
  | nil => exact LeaseFrame.refl s
  | cons l ls ih => exact (setLease_frame s l _).trans (ih _)

theorem endLeasesOf_frame (k : HostId) : LeaseFrame s (s.endLeasesOf k) := by
  unfold State.endLeasesOf
  generalize laneIds = ls
  induction ls generalizing s with
  | nil => exact LeaseFrame.refl s
  | cons l ls ih =>
    rw [List.foldl_cons]
    refine LeaseFrame.trans ?_ (ih _)
    split
    · exact endLease_frame s l _
    · exact LeaseFrame.refl s

theorem expire_frame : LeaseFrame s (s.expire l) := by
  unfold State.expire
  split
  · split
    · exact (postLease_frame s _ _).toLease.trans (endLease_frame _ l _)
    · exact LeaseFrame.refl s
  · exact LeaseFrame.refl s

theorem configureLane_frame (p : Word) (a b : Polarity) : LeaseFrame s (s.configureLane l p a b) :=
  (setLease_frame s l _).trans (setLane_frame _ l _).toLease

variable {s : State} {l : LaneId}

/-! ## The drain and the close of a lease (R80, R49) -/

/-- What a waiter list satisfies (R38). -/
def WaitersOk (ws : List WaitingClaim) : Prop :=
  (ws.map (fun w => w.host)).Nodup ∧ ∀ w ∈ ws, 10 ≤ w.duration ∧ w.duration ≤ 60000

/-- Everything but lane l is in order, and lane l is OFF with no holder, its waiter list as it stands. -/
def Vacant (l : LaneId) (s : State) : Prop :=
  s.marksEmpty ∧ (∀ j, j ≠ l → s.laneOk j) ∧ s.timesWaiting l = 0 ∧ s.lane l = Lane.reset ∧
  WaitersOk (s.lease l).waiters ∧ s.lease l = { Lease.reset with waiters := (s.lease l).waiters }

/-- A lane that is drained comes out OFF, off every list (R80). -/
theorem drain_ok (h : s.lanesOk) (ho : (s.lane l).state ≠ .off) (r : Bool) :
    Transit l (s.drain l r) ∧ (s.drain l r).lane l = Lane.reset := by
  unfold State.drain
  dsimp only
  have h1 : (s.settleRelease l).countOrder.lanesOk := lanesOk_congr (settleRelease_ok h) rfl rfl rfl
  have hle : (s.settleRelease l).countOrder.lease l = s.lease l := (settleRelease_frame s l).lease l
  have ho1 : ((s.settleRelease l).countOrder.lane l).state ≠ .off := by
    intro e
    have := (h1.2.1 l).1.2 e
    rw [hle] at this
    exact ho ((h.2.1 l).1.1 this)
  generalize some (s.settleRelease l).orderCount = x
  generalize (s.settleRelease l).countOrder = s1 at h1 ho1 ⊢
  have h2 : Transit l (if (s1.lane l).state = .markwait then s1.removeWaiter l else s1) ∧
      (if (s1.lane l).state = .markwait then s1.removeWaiter l else s1).lane l = s1.lane l := by
    split
    · exact ⟨transit_removeWaiter h1 ho1, rfl⟩
    · rename_i hm; exact ⟨transit_of_ok h1 ho1 hm, rfl⟩
  generalize (if (s1.lane l).state = .markwait then s1.removeWaiter l else s1) = s2 at h2 ⊢
  obtain ⟨h2, e2⟩ := h2
  have h3 := h2.setLane { (s2.lane l) with holdRequest := false }
  have e3 : (s2.setLane l { (s2.lane l) with holdRequest := false }).lane l = { (s1.lane l) with holdRequest := false } := by
    rw [State.setLane_lane_self, e2]
  generalize s2.setLane l { (s2.lane l) with holdRequest := false } = s3 at h3 e3 ⊢
  have h4 : Transit l (if (s3.lane l).state.hasCurrent then s3.endCurrent l .leaseEnded r x else s3) := by
    split
    · rename_i hc
      rw [e3] at hc
      exact (h3.endCurrent .leaseEnded r _ (by rw [e3]; exact (h1.current hc).1)).1
    · exact h3
  generalize (if (s3.lane l).state.hasCurrent then s3.endCurrent l .leaseEnded r x else s3) = s4 at h4 ⊢
  obtain ⟨h5, -⟩ := (h4.setLane { (s4.lane l) with queue := [] }).endQueued .leaseEnded r x (s4.lane l).queue
  exact ⟨h5.setLane _, State.setLane_lane_self _ _ _⟩

theorem State.lanesOk.on_of_holder (h : s.lanesOk) (hh : (s.lease l).holder ≠ none) : (s.lane l).state ≠ .off :=
  fun e => hh ((h.2.1 l).1.2 e)

theorem State.lanesOk.waiters (h : s.lanesOk) : WaitersOk (s.lease l).waiters := by
  obtain ⟨-, -, -, -, -, h5, h6⟩ := h.2.1 l
  exact ⟨h5, fun w hw => (h6 w hw).2⟩

theorem closeLease_vacant (h : s.lanesOk) (hh : (s.lease l).holder ≠ none) (c : LeaseEndCause) :
    Vacant l (s.closeLease l c) ∧ ((s.closeLease l c).lease l).waiters = (s.lease l).waiters ∧
      ∀ j, j ≠ l → (s.closeLease l c).lease j = s.lease j := by
  obtain ⟨h1, h2⟩ := drain_ok h (h.on_of_holder hh) (c != .withdrawn)
  have hf := drain_frame s l (c != .withdrawn)
  unfold State.closeLease
  dsimp only
  generalize s.drain l (c != .withdrawn) = t at h1 h2 hf ⊢
  have hw : (t.lease l).waiters = (s.lease l).waiters := by rw [hf.lease]
  generalize hv : ({ Lease.reset with waiters := (t.lease l).waiters } : Lease) = v
  have hvw : v.waiters = (s.lease l).waiters := by rw [← hv]; exact hw
  refine ⟨⟨marksEmpty_congr h1.1 rfl, fun j hj => laneOk_congr (h1.2.1 j hj) rfl
    (State.setLease_lease_ne t l v (Ne.symm hj)) rfl, ?_, h2, ?_, ?_⟩, ?_, ?_⟩
  · exact (timesWaiting_of_marks (s := t) (t := t.setLease l v) rfl l).trans h1.2.2.2
  · rw [State.setLease_lease_self, hvw]; exact h.waiters
  · rw [State.setLease_lease_self, ← hv]
  · rw [State.setLease_lease_self]; exact hvw
  · intro j hj
    rw [State.setLease_lease_ne _ _ _ (Ne.symm hj), hf.lease]

/-- Three hosts, one of them holding: at most two wait. -/
theorem waiters_length {ws : List WaitingClaim} {k : HostId} (hn : (ws.map (fun w => w.host)).Nodup)
    (hk : ∀ w ∈ ws, w.host ≠ k) : ws.length ≤ 2 := by
  have h : (k :: ws.map (fun w => w.host)).Nodup := by
    rw [List.nodup_cons]
    refine ⟨fun hm => ?_, hn⟩
    obtain ⟨w, hw, e⟩ := List.mem_map.1 hm
    exact hk w hw e
  have := h.length_le_card
  simp at this
  omega

/-- A grant to a host that does not wait for the lane (R42). -/
theorem Vacant.grant_ok (h : Vacant l s) (ws : List WaitingClaim) (hw : WaitersOk ws) (k : HostId)
    (hk : ∀ w ∈ ws, w.host ≠ k) (d : Nat) (hd : 10 ≤ d ∧ d ≤ 60000) :
    ((s.setLease l { (s.lease l) with waiters := ws }).grant l k d).lanesOk := by
  obtain ⟨h1, h2, h3, h4, h5, h6⟩ := h
  rw [lanesOk_iff]
  unfold State.grant
  rw [State.setLease_lease_self]
  refine ⟨marksEmpty_congr h1 rfl, fun j => ?_⟩
  by_cases e : j = l
  · subst e
    refine ⟨?_, ?_, ?_⟩
    · rw [State.setLane_lane_self]
      refine ⟨by simp [Lane.granted, Lane.reset], ?_, fun _ => rfl, ?_, fun _ => ⟨rfl, rfl, rfl, rfl⟩, fun _ => rfl, ?_⟩
      · intro x; cases x
      · intro x; cases x
      · intro x; cases x
    · rw [State.setLane_lane_self, State.setLane_lease, State.setLease_lease_self]
      refine ⟨⟨fun x => (by cases x), fun x => (by cases x)⟩, fun x => (by cases x), fun _ => ⟨hd.1, hd.2, by show 1 ≤ d; omega, le_refl _⟩, fun x => (by cases x),
        waiters_length hw.1 hk, hw.1, fun w hw' => ⟨fun x => ?_, (hw.2 w hw').1, (hw.2 w hw').2⟩⟩
      exact hk w hw' (Option.some.inj x).symm
    · rw [State.setLane_lane_self]
      exact (timesWaiting_of_marks rfl j).trans h3
  · refine laneOk_congr (h2 j e) ?_ ?_ rfl
    · rw [State.setLane_lane_ne _ _ _ (Ne.symm e)]; rfl
    · rw [State.setLane_lease, State.setLease_lease_ne _ _ _ (Ne.symm e), State.setLease_lease_ne _ _ _ (Ne.symm e)]

theorem postLease_lanesOk (h : s.lanesOk) (k : HostId) (e : Event) : (s.postLease k e).lanesOk := h

/-- The waiter at the head is granted the lane, or it stays OFF (R50). -/
theorem Vacant.grantHead_ok (h : Vacant l s) : (s.grantHead l).lanesOk := by
  unfold State.grantHead
  split
  · rename_i hw
    obtain ⟨h1, h2, h3, h4, h5, h6⟩ := h
    rw [lanesOk_iff]
    refine ⟨h1, fun j => ?_⟩
    by_cases e : j = l
    · subst e
      refine ⟨?_, ?_, ?_⟩
      · rw [h4]
        exact ⟨by simp [Lane.reset], fun x => (by cases x), fun _ => rfl, fun _ => rfl, fun _ => ⟨rfl, rfl, rfl, rfl⟩,
          fun _ => rfl, fun x => (by cases x)⟩
      · rw [h6, h4, hw]
        exact ⟨⟨fun _ => rfl, fun _ => rfl⟩, fun _ => rfl, fun x => absurd rfl x, by simp [Lease.reset], by simp, by simp, by simp⟩
      · rw [h4]; exact h3
    · exact h2 j e
  · rename_i w rest hw
    have h5 := h.2.2.2.2.1
    rw [hw] at h5
    obtain ⟨g1, g2⟩ := h5
    rw [List.map_cons, List.nodup_cons] at g1
    refine postLease_lanesOk (h.grant_ok rest ⟨g1.2, fun x hx => g2 x (List.mem_cons_of_mem _ hx)⟩ w.host ?_ w.duration
      (g2 w (List.mem_cons_self ..))) _ _
    intro x hx e
    exact g1.1 (List.mem_map.2 ⟨x, hx, e⟩)

theorem endLease_ok (h : s.lanesOk) (hh : (s.lease l).holder ≠ none) (c : LeaseEndCause) : (s.endLease l c).lanesOk :=
  (closeLease_vacant h hh c).1.grantHead_ok

theorem withoutHost_ok {ws : List WaitingClaim} (h : WaitersOk ws) (k : HostId) :
    WaitersOk (withoutHost ws k) ∧ ∀ w ∈ withoutHost ws k, w.host ≠ k := by
  unfold withoutHost
  refine ⟨⟨(List.Sublist.map _ List.filter_sublist).nodup h.1, fun w hw => h.2 w (List.mem_of_mem_filter hw)⟩, fun w hw => ?_⟩
  have := (List.mem_filter.1 hw).2
  simpa using this

theorem grantToTerm_ok {ws : List WaitingClaim} (h : WaitersOk ws) (k : HostId) :
    10 ≤ grantToTerm ws k ∧ grantToTerm ws k ≤ 60000 := by
  unfold grantToTerm
  split
  · rename_i w hw; exact h.2 w (List.mem_of_find?_eq_some hw)
  · decide

theorem Vacant.grantTo_ok (h : Vacant l s) (k : HostId) : (s.grantTo l k).lanesOk := by
  obtain ⟨h1, h2⟩ := withoutHost_ok h.2.2.2.2.1 k
  exact postLease_lanesOk (h.grant_ok _ h1 k h2 _ (grantToTerm_ok h.2.2.2.2.1 k)) _ _

theorem Vacant.congr {t : State} (h : Vacant l s) (h1 : t.lanes = s.lanes) (h2 : t.leases = s.leases)
    (h3 : t.marks = s.marks) : Vacant l t := by
  have e1 : ∀ j, t.lane j = s.lane j := fun j => by unfold State.lane; rw [h1]
  have e2 : ∀ j, t.lease j = s.lease j := fun j => by unfold State.lease; rw [h2]
  obtain ⟨g1, g2, g3, g4, g5, g6⟩ := h
  exact ⟨marksEmpty_congr g1 h3, fun j hj => laneOk_congr (g2 j hj) (e1 j) (e2 j) h3,
    by rw [timesWaiting_of_marks h3]; exact g3, by rw [e1]; exact g4, by rw [e2]; exact g5, by rw [e2]; exact g6⟩

/-- A REVOKE of a lane that has a holder (R56). -/
theorem revoke_ok (h : s.lanesOk) (hh : (s.lease l).holder ≠ none) (k : HostId) (target : Option HostId) :
    (s.revoke l k target).lanesOk := by
  unfold State.revoke
  dsimp only
  have h1 := (closeLease_vacant (postLease_lanesOk h k (.leaseLost l .revoked)) hh .revoked).1
  have hf := settleClaims_frame ((s.postLease k (.leaseLost l .revoked)).closeLease l .revoked) l
  have h2 := h1.congr hf.lanes hf.leases hf.marks
  split
  · exact h2.grantHead_ok
  · exact h2.grantTo_ok _

/-- A lane record whose holder and duration stay. -/
theorem setLease_ok (h : s.lanesOk) (v : Lease) (hv : v.wf (s.lane l).state) : (s.setLease l v).lanesOk := by
  rw [lanesOk_iff] at h ⊢
  refine ⟨h.1, fun j => ?_⟩
  obtain ⟨g1, g2, g3⟩ := h.2 j
  refine ⟨g1, ?_, g3⟩
  rw [State.setLease_lane, State.setLease_lease]
  split
  · subst_vars; exact hv
  · exact g2

/-- Waiting claims can be removed (R47, R57). -/
theorem withoutHost_lanesOk (h : s.lanesOk) (k : HostId) :
    (s.setLease l { (s.lease l) with waiters := withoutHost (s.lease l).waiters k }).lanesOk := by
  obtain ⟨h1, h2, h3, h3', h4, h5, h6⟩ := h.2.1 l
  refine setLease_ok h _ ⟨h1, fun x => ?_, h3, h3', ?_, (List.Sublist.map _ List.filter_sublist).nodup h5, fun w hw => ?_⟩
  · have hr := h2 x
    rw [hr]
    rfl
  · exact le_trans (List.length_filter_le _ _) h4
  · exact h6 w (List.mem_of_mem_filter hw)

theorem dropClaims_ok (k : HostId) (h : s.lanesOk) : (s.dropClaims k).lanesOk := by
  unfold State.dropClaims
  generalize laneIds = ls
  induction ls generalizing s with
  | nil => exact h
  | cons l ls ih => exact ih (withoutHost_lanesOk h k)

theorem endLeasesOf_ok (k : HostId) (h : s.lanesOk) : (s.endLeasesOf k).lanesOk := by
  unfold State.endLeasesOf
  generalize laneIds = ls
  induction ls generalizing s with
  | nil => exact h
  | cons l ls ih =>
    rw [List.foldl_cons]
    refine ih ?_
    split
    · rename_i hk; exact endLease_ok h (by rw [hk]; simp) _
    · exact h

theorem expire_ok (h : s.lanesOk) : (s.expire l).lanesOk := by
  unfold State.expire
  split
  · rename_i k hk
    split
    · exact endLease_ok (postLease_lanesOk h k _) (by rw [show (s.postLease k _).lease l = s.lease l from rfl, hk]; simp) _
    · exact h
  · exact h

theorem Lease.wf_tick {r : Lease} {x : LaneState} (h : r.wf x) : r.tick.wf x := by
  unfold Lease.tick
  split
  · exact h
  · rename_i hs
    obtain ⟨h1, h2, h3, h4, h5⟩ := h
    have hn : r.holder ≠ none := fun e => hs (by rw [e]; rfl)
    obtain ⟨a, b, c, d⟩ := h3 hn
    split
    · refine ⟨h1, fun x => absurd x hn, h3, fun _ => ?_, h5⟩
      show r.remaining = 1
      omega
    · refine ⟨h1, fun x => absurd x hn, fun _ => ⟨a, b, ?_, ?_⟩, fun x => ?_, h5⟩
      · show 1 ≤ r.remaining - 1
        omega
      · show r.remaining - 1 ≤ r.duration
        omega
      · have := h4 x
        omega

theorem leaseTick_ok (h : s.lanesOk) : s.leaseTick.lanesOk := by
  unfold State.leaseTick
  generalize s.time.subMilli - Config.milliTicks = n
  split
  · have h1 : ({ s with leases := s.leases.map Lease.tick } : State).lanesOk := by
      refine ⟨h.1, fun j => ?_, h.2.2⟩
      have e : ({ s with leases := s.leases.map Lease.tick } : State).lease j = (s.lease j).tick :=
        Bank.sel_map s.leases Lease.tick j
      rw [e]
      exact Lease.wf_tick (h.2.1 j)
    exact lanesOk_congr h1 rfl rfl rfl
  · exact h

/-- CONFIGURE on a lane that takes it (R51, R52). -/
theorem configureLane_ok (h : s.lanesOk) (hh : (s.lease l).holder ≠ none) (p : Word) (a b : Polarity) :
    (s.configureLane l p a b).lanesOk := by
  unfold State.configureLane
  dsimp only
  obtain ⟨g1, g2, g3, g4⟩ := h.2.1 l
  have h1 : (s.setLease l { (s.lease l) with park := p, stbPol := a, rtnPol := b }).lanesOk :=
    setLease_ok h _ ⟨g1, fun x => absurd x hh, g3, g4⟩
  refine setLane_same_ok h1 _ ?_ rfl
  obtain ⟨h2, h3, h4, h5, h6, h7, h8⟩ := h.1 l
  exact ⟨h2, h3, h4, fun x => absurd x (h.on_of_holder hh), h6, h7, h8⟩

end Sys2Proof.Machine
end

