-- ==== Sys2Proof/Laws/StoreMoves.lean ====
section
/-! SUPPORT. What a command can do at all to what the Segment Manager owns (chapter 1). -/

namespace Sys2Proof.Machine

/-- An answer leaves the Segment Manager alone. -/
theorem answer_store (s : State) (k req live r) : (s.answer k req live r).store = s.store := by cases live <;> rfl

/-- What a decided request does to the Segment Manager is what its owner does. -/
theorem decide_store (s : State) (k : HostId) (kind) (owner : List Byte → State × Reply) (P : Store → Prop) (h0 : P s.store)
   (h : ∀ req live, s.waiting k = some (req, live) → P (owner req.params).1.store) : P (s.decide k kind owner).store := by
  unfold State.decide
  cases hw : s.waiting k with
  | none => exact h0
  | some p =>
    obtain ⟨req, live⟩ := p
    dsimp only
    split
    · rw [answer_store]; exact h req live hw
    · exact h0

/-- Making a withdrawal leaves the Segment Manager alone. -/
theorem decideWithdrawal_store (s : State) (k : HostId) (kind : RequestKind)
    (owner : List Byte → Except Status (HostId × WithdrawalCause)) : (s.decideWithdrawal k kind owner).store = s.store := by
  unfold State.decideWithdrawal
  split
  · rfl
  · split
    · split
      · exact answer_store ..
      · rfl
    · rfl

/-- A reference that passes the handle check names an OPEN or PUBLISHED entry of its generation (R10). -/
theorem handleCheck_ok {st : Store} {r : SegmentRef} {i : Slot} (h : st.handleCheck r = .ok i) :
    handleSlot r.handle = some i ∧ (st.entry i).generation = r.generation ∧
      ((st.entry i).state = .opened ∨ (st.entry i).state = .published) := by
  unfold Store.handleCheck at h
  split at h
  · cases h
  · rename_i j hj
    dsimp only at h
    split at h
    · cases h
    · split at h
      · split at h <;> cases h
      · split at h
        · cases h
        · split at h
          · cases h
          · cases h
            rename_i a b c d
            refine ⟨hj, by simpa using c, ?_⟩
            cases hs : (st.entry i).state <;> simp_all

/-- A frame leaves the Segment Manager alone. -/
theorem processFrame_store (s : State) (k : HostId) (f : List Byte) : (s.processFrame k f).store = s.store := by
  unfold State.processFrame
  dsimp only
  cases frameCheck f with
  | some x => rfl
  | none =>
    dsimp only
    cases replayMatch (s.link k).replay (frameRequest f) with
    | some r => rfl
    | none => dsimp only; split <;> rfl

/-- The end of a frame leaves the Segment Manager alone. -/
theorem takeFrame_store (s : State) (p : Port) (f : List Byte) : (s.takeFrame p f).store = s.store := by
  unfold State.takeFrame
  dsimp only
  split
  · rfl
  · split
    · rfl
    · rfl
    · exact processFrame_store _ _ _

/-- The bytes of a write leave the Segment Manager alone. -/
theorem writeBytes_store (s : State) (p : Port) (f : List Byte) (b : Bool) : (s.writeBytes p f b).store = s.store := by
  unfold State.writeBytes
  dsimp only
  split
  · rfl
  · rfl
  · split
    · rw [takeFrame_store]; rfl
    · rfl

/-- What an append does to the Segment Manager (R27). -/
theorem takeAppend_store_eq (s : State) (l r id w) : (s.takeAppend l r id w).store =
    match handleSlot r.handle with
    | none => s.store
    | some i => if appendResult (s.store.entry i) = .stored then
        (s.store.putWord (s.store.entry i) (s.store.entry i).length w).setEntry i
          { (s.store.entry i) with length := (s.store.entry i).length + 1 }
      else s.store := by
  unfold State.takeAppend
  cases handleSlot r.handle with
  | none => rfl
  | some i =>
    dsimp only
    by_cases hx : appendResult (s.store.entry i) = .stored
    · rw [if_pos hx, if_pos hx]; rfl
    · rw [if_neg hx, if_neg hx]; rfl

/-- The commands in which a lane may start an entry or is drained, so that its earlier claims may be taken (R30, log 11). -/
def mayStart : Instr → Prop
  | .enqueue _ | .revoke _ | .resume _ | .strobeEnd _ | .passEnd _ | .ackEdge _ | .captureTimeout _ | .captureEndPoint _
  | .appendAnswer _ => True
  | _ => False

/-- Everything that a command but device reset can do to what the Segment Manager owns: a relation that holds of each move of it holds
of every command. -/
theorem storeMoves (P : Store → Store → Prop) (s : State) (refl : P s.store s.store)
   (hdef : ∀ i k name v n, (s.store.entry i).state = .free → s.store.nameTaken name = false → 1 ≤ n →
     s.store.usage k + n ≤ Config.quota → n ≤ s.store.pool.length → P s.store (s.store.defineIn i k name v n))
   (hext : ∀ i n, (s.store.entry i).state = .opened → (s.store.entry i).chain.length + n ≤ Config.quota →
     s.store.usage (s.store.entry i).owner + n ≤ Config.quota → n ≤ s.store.pool.length → P s.store (s.store.allocate i n))
   (hpub : ∀ i, (s.store.entry i).state = .opened → (s.store.entry i).length ≠ 0 → (s.store.entry i).refs = 0 →
     P s.store (s.store.publishEntry i))
   (hrem : ∀ i, (s.store.entry i).live = true → P s.store (s.store.removeEntry i true))
   (hpurge : ∀ h b, P s.store (s.store.purge h b))
   (hwd : ∀ h, P s.store (s.store.withdraw h))
   (c : Instr) (t : State) (h : exec c s = .next t) (hdr : c ≠ .deviceReset)
   (hwr : ∀ i o ws, (∃ k, c = .write k) → (s.store.entry i).state = .opened → (s.store.entry i).refs = 0 → o ≤ (s.store.entry i).length →
     o + ws.length ≤ capacityOf (s.store.entry i) → P s.store ((s.store.putWords (s.store.entry i) o ws).setEntry i
       { (s.store.entry i) with length := max (s.store.entry i).length (o + ws.length) }))
   (hset : ∀ st, mayStart c → s.store.Settles st → P s.store st)
   (htake : ∀ st i st', (∃ k, c = .enqueue k) → s.store.Settles st → (st.entry i).live = true →
     (st.setRefs i ((st.entry i).refs + 1)).Settles st' → P s.store st')
   (happ : ∀ l r id w rest, c = .append l → s.claimsOf l = .append r id w :: rest → P s.store (s.takeAppend l r id w).store)
   (hrel : ∀ l r id x rest, c = .referenceRelease l → s.claimsOf l = .release r id x :: rest →
     P s.store (s.takeRelease l r id x).store)
   : P s.store t.store := by
  cases c <;> (cases h)
  case deviceReset => exact absurd rfl hdr
  case define k =>
    refine decide_store s k .define _ _ refl (fun req live hw => ?_)
    unfold defineRequest
    dsimp only
    split
    · split
      · exact refl
      · split
        · exact refl
        · split
          · exact refl
          · split
            · exact refl
            · split
              · exact refl
              · rename_i hcap hname _ _ hl hq hp
                refine hdef _ _ _ _ _ (Store.lowestFree_spec hl) (by simpa using hname) ?_ (by omega) (by omega)
                unfold blocksFor
                exact blocksFor_pos (by omega)
    · exact refl
  case extend k =>
    refine decide_store s k _ _ _ refl (fun req live hw => ?_)
    unfold extendRequest
    dsimp only
    split
    · exact refl
    · split
      · exact refl
      · rename_i i hi
        split
        · exact refl
        · split
          · exact refl
          · split
            · exact refl
            · split
              · exact refl
              · split
                · exact refl
                · rename_i ho h2 h3 h4 h5
                  have ho : (s.store.entry i).owner = k := by simpa using ho
                  refine hext i _ ?_ (by omega) (by rw [ho]; omega) (by omega)
                  rcases (handleCheck_ok hi).2.2 with h | h
                  · exact h
                  · exact absurd h h2
  case write k =>
    refine decide_store s k _ _ _ refl (fun req live hw => ?_)
    unfold writeRequest
    dsimp only
    split
    · exact refl
    · rename_i i hi
      split
      · exact refl
      · split
        · exact refl
        · split
          · exact refl
          · split
            · exact refl
            · rename_i h2 h3 h4
              refine hwr i _ _ ⟨k, rfl⟩ ?_ (by simpa using h3) (by omega) (by omega)
              rcases (handleCheck_ok hi).2.2 with h | h
              · exact h
              · exact absurd h h2
  case read k =>
    refine decide_store s k _ _ (P s.store) refl (fun req live hw => ?_)
    unfold readRequest
    dsimp only
    repeat' split
    all_goals exact refl
  case publish k =>
    refine decide_store s k _ _ _ refl (fun req live hw => ?_)
    unfold publishRequest
    dsimp only
    split
    · exact refl
    · rename_i i hi
      split
      · exact refl
      · split
        · exact refl
        · split
          · exact refl
          · split
            · exact refl
            · rename_i h2 h3 h4
              refine hpub i ?_ h3 (by simpa using h4)
              rcases (handleCheck_ok hi).2.2 with h | h
              · exact h
              · exact absurd h h2
  case delete k =>
    refine decide_store s k _ _ _ refl (fun req live hw => ?_)
    unfold deleteRequest
    dsimp only
    split
    · exact refl
    · rename_i i hi
      split
      · exact refl
      · refine hrem i ?_
        unfold Segment.live
        rcases (handleCheck_ok hi).2.2 with h | h <;> rw [h] <;> rfl
  case catalog k =>
    refine decide_store s k _ _ (P s.store) refl (fun req live hw => ?_)
    unfold catalogRequest
    dsimp only
    split <;> exact refl
  case query k =>
    refine decide_store s k _ _ (P s.store) refl (fun req live hw => ?_)
    unfold queryRequest
    dsimp only
    repeat' split
    all_goals exact refl
  case claim k =>
    refine decide_store s k _ _ (P s.store) refl (fun req live hw => ?_)
    unfold claimRequest
    dsimp only
    repeat' split
    all_goals exact refl
  case renew k =>
    refine decide_store s k _ _ (P s.store) refl (fun req live hw => ?_)
    unfold renewRequest
    dsimp only
    repeat' split
    all_goals exact refl
  case release k =>
    refine decide_store s k _ _ (P s.store) refl (fun req live hw => ?_)
    unfold releaseRequest
    split
    · exact refl
    · split
      · rw [(endLease_frame _ _ _).store]; exact refl
      · split <;> exact refl
  case leaseTick => unfold State.leaseTick; split <;> exact refl
  case leaseExpiry l => rw [(expire_frame _ _).store]; exact refl
  case configure k =>
    refine decide_store s k _ _ (P s.store) refl (fun req live hw => ?_)
    unfold configureRequest
    split
    · split
      · exact refl
      · split
        · exact refl
        · dsimp only; rw [(configureLane_frame _ _ _ _ _).store]; exact refl
    · exact refl
  case laneStatus k =>
    refine decide_store s k _ _ (P s.store) refl (fun req live hw => ?_)
    unfold laneStatusRequest
    split <;> exact refl
  case enqueue k =>
    refine decide_store s k _ _ (P s.store) refl (fun req live hw => ?_)
    unfold enqueueRequest
    cases hl : laneOfHolder s k req.params with
    | error x => exact refl
    | ok l =>
      dsimp only
      cases hf : decodeEntry req.params with
      | none => exact refl
      | some f =>
        dsimp only
        cases ht : encodeTiming f.period f.strobe with
        | none => exact refl
        | some timing =>
          dsimp only
          have h1 : s.store.Settles ((s.settleRelease l).settleClaims l).store := by
            rw [← (settleRelease_frame s l).store]; exact settleClaims_settles _ l
          generalize (s.settleRelease l).settleClaims l = u at h1 ⊢
          split
          · exact hset _ trivial h1
          · rename_i i hi
            refine htake u.store i _ ⟨k, rfl⟩ h1 ?_ ?_
            · unfold Store.takeCheck at hi
              split at hi
              · cases hi
              · rename_i i' hi'
                dsimp only at hi
                have : i' = i := by
                  repeat' split at hi
                  all_goals first | (cases hi; rfl) | cases hi
                subst this
                unfold Segment.live
                rcases (handleCheck_ok hi').2.2 with h | h <;> rw [h] <;> rfl
            · unfold State.acceptEntry
              dsimp only
              split
              · refine Store.Settles.trans ?_ (entryStart_frame _ l).2
                exact .refl _
              · exact .refl _
  case flush k =>
    refine decide_store s k _ _ (P s.store) refl (fun req live hw => ?_)
    unfold flushRequest
    split
    · exact refl
    · dsimp only; rw [(flushLane_frame _ _).store, (settleRelease_frame _ _).store]; exact refl
  case abort k =>
    refine decide_store s k _ _ (P s.store) refl (fun req live hw => ?_)
    unfold abortRequest
    split
    · exact refl
    · dsimp only; rw [(abortLane_frame _ _).store, (settleRelease_frame _ _).store]; exact refl
  case hold k =>
    refine decide_store s k _ _ (P s.store) refl (fun req live hw => ?_)
    unfold holdRequest
    split
    · exact refl
    · rw [(holdByState_frame _ _).store, (settleRelease_frame _ _).store]; exact refl
  case resume k =>
    refine decide_store s k _ _ (P s.store) refl (fun req live hw => ?_)
    unfold resumeRequest
    split
    · exact refl
    · refine hset _ trivial ?_
      rw [← (settleRelease_frame s _).store]
      exact (resumeByState_frame _ _).2
  case retime k =>
    refine decide_store s k _ _ (P s.store) refl (fun req live hw => ?_)
    unfold retimeRequest
    split
    · exact refl
    · rw [(retimeLane_frame _ _ _).store, (settleRelease_frame _ _).store]; exact refl
  case stepBoundary l => rw [(stepBoundary_frame _ _).store]; exact refl
  case strobeEnd l => exact hset _ trivial (strobeEnd_frame _ _).2
  case rtnReadyActive l =>
    unfold State.rtnReadyActive; split
    · split
      · rw [(driveWord_frame _ _ _).store]; exact refl
      · exact refl
    · exact refl
  case ackEdge l =>
    unfold State.ackEdge; split
    · split
      · exact hset _ trivial (acknowledge_frame (s.raiseRtn l) l _).2
      · exact refl
    · exact refl
  case readyTimeout l => split <;> [rw [(endFaulted_frame _ _ _).store]; skip] <;> exact refl
  case ackTimeout l => split <;> [rw [(endFaulted_frame _ _ _).store]; skip] <;> exact refl
  case passEnd l => exact hset _ trivial (passEnd_frame _ _).2
  case rtnEdgeSample l =>
    unfold State.rtnEdgeSample; split
    · split
      · rw [(sampleEdge_frame _ _ _).store]; exact refl
      · exact refl
    · exact refl
  case captureTimeout l =>
    split
    · exact hset _ trivial (endAndGoOn_frame _ _ _).2
    · exact refl
  case append l =>
    unfold State.appendEvent
    split
    · rename_i r id w rest h
      have := happ l r id w rest rfl h
      have e : ((s.setClaims l rest).takeAppend l r id w).store = (s.takeAppend l r id w).store := by
        rw [takeAppend_store_eq, takeAppend_store_eq]; rfl
      rw [e]; exact this
    · exact refl
  case appendAnswer l =>
    unfold State.appendAnswer
    split
    · exact refl
    · dsimp only
      split
      · exact refl
      · split
        · exact hset _ trivial (answerStored_frame (s.setAnswers l _) _ _ _).2
        · exact hset _ trivial (endCapture_frame (s.setAnswers l _) _ _).2
        · exact hset _ trivial (endCapture_frame (s.setAnswers l _) _ _).2
  case captureEndPoint l =>
    split
    · exact hset _ trivial (endAndGoOn_frame _ _ _).2
    · exact refl
  case referenceRelease l =>
    unfold State.releaseEvent
    split
    · rename_i r id x rest h
      have := hrel l r id x rest rfl h
      have e : ((s.setClaims l rest).takeRelease l r id x).store = (s.takeRelease l r id x).store := by
        rw [takeRelease_eq, takeRelease_eq]; split <;> rfl
      rw [e]; exact this
    · exact refl
  case markSet k =>
    refine decide_store s k _ _ (P s.store) refl (fun req live hw => ?_)
    unfold markSetRequest
    split
    · exact refl
    · dsimp only; rw [(settleMark_frame _ _ _).store]; exact refl
  case markReleaseProceed l => rw [(settleRelease_frame _ _).store]; exact refl
  case markClear k =>
    refine decide_store s k _ _ (P s.store) refl (fun req live hw => ?_)
    unfold markClearRequest
    split <;> exact refl
  case markStatus k => exact decide_store s k _ _ (P s.store) refl (fun req live hw => refl)
  case eventPost k i => unfold State.filePost; split <;> exact refl
  case fetch k =>
    refine decide_store s k _ _ (P s.store) refl (fun req live hw => ?_)
    unfold fetchRequest
    dsimp only
    split <;> exact refl
  case eventMask k =>
    refine decide_store s k _ _ (P s.store) refl (fun req live hw => ?_)
    unfold eventMaskRequest
    split <;> exact refl
  case deviceStatus k => exact decide_store s k _ _ (P s.store) refl (fun req live hw => refl)
  case detach k => rw [decideWithdrawal_store]; exact refl
  case evict k => rw [decideWithdrawal_store]; exact refl
  case revoke k =>
    refine decide_store s k _ _ (P s.store) refl (fun req live hw => ?_)
    unfold revokeRequest
    split
    · exact refl
    · split
      · split
        · exact refl
        · rename_i l target _ _ _ former _
          dsimp only
          unfold State.revoke
          dsimp only
          have := hset ((((s.postLease former (.leaseLost l .revoked)).closeLease l .revoked).settleClaims l).store) trivial (by
            rw [← ((postLease_frame s _ _).toLease.trans (closeLease_frame _ l _)).store]; exact settleClaims_settles _ l)
          split
          · rw [(grantHead_frame _ _).store]; exact this
          · rw [(grantTo_frame _ _ _).store]; exact this
      · exact refl
  case purge k =>
    refine decide_store s k _ _ (P s.store) refl (fun req live hw => ?_)
    unfold purgeRequest
    dsimp only
    split
    · exact refl
    · split
      · exact refl
      · rw [State.setStore_store]; exact hpurge _ _
  case withdrawalLeasePart n =>
    unfold State.leasePart
    split
    · exact refl
    · split
      · exact refl
      · dsimp only
        rw [State.setWithdrawal_store, (endLeasesOf_frame _ _).store, (dropClaims_frame _ _).store]; exact refl
  case withdrawalSegmentPart n =>
    unfold State.segmentPart
    split
    · exact refl
    · split
      · exact refl
      · rw [State.setStore_store]; exact hwd _
  case withdrawalEventPart n =>
    unfold State.eventPart
    split
    · exact refl
    · split
      · unfold State.answerWithdrawal; split <;> exact refl
      · exact refl
  case timestampTick => unfold State.timestampTick; split <;> exact refl
  case requestFrameEnd p f => rw [writeBytes_store]; exact refl
  case nullWrite p => unfold State.nullWrite; split <;> [rw [writeBytes_store]; skip] <;> exact refl
  case ignoredTransaction p f n => unfold State.ignoredTransaction; dsimp only; split <;> exact refl
  case responseRead p n => unfold State.responseRead; dsimp only; split <;> exact refl
  case linkReset k => unfold State.nlrstFall; split <;> [skip; split] <;> exact refl
  case linkResetRelease k => exact refl
  case deviceResetRelease a b c => unfold State.deviceRelease; split <;> exact refl

end Sys2Proof.Machine
end

