-- ==== Sys2Proof/Laws/Entries.lean ====
section
/-! SUPPORT. What R62 asks of the segments that play entries name: which changes of the segment table and of the queues keep
`State.entriesOk`. -/

namespace Sys2Proof.Machine

/-- A change of a segment table entry that what R62 asks outlives: nothing referenced it, or it goes FREE, or it keeps its owner and
its state or goes CONDEMNED, with no word lost. -/
def Segment.Outlives (g g' : Segment) : Prop :=
  g.refs = 0 ∨ g'.state = .free ∨ g'.owner = g.owner ∧ g.length ≤ g'.length ∧ (g'.state = g.state ∨ g'.state = .condemned)

/-- Every entry of the table changes so. -/
def Store.Outlives (st st' : Store) : Prop := ∀ i, (st.entry i).Outlives (st'.entry i)

theorem Segment.Outlives.refl (g : Segment) : g.Outlives g := .inr (.inr ⟨rfl, le_refl _, .inl rfl⟩)

/-- One entry changes so, and no other changes. -/
theorem Store.Outlives.of_one {st st' : Store} (i : Slot) (hj : ∀ j, j ≠ i → st'.entry j = st.entry j)
    (hi : (st.entry i).Outlives (st'.entry i)) : st.Outlives st' := by
  intro j
  by_cases e : j = i
  · subst e; exact hi
  · rw [hj j e]; exact Segment.Outlives.refl _

/-- What a change that frees, condemns or lengthens an entry, or leaves it, does to it. -/
def Segment.Persists (g g' : Segment) : Prop :=
  (g.state = .free → g'.state = .free) ∧
  (g'.state = .free ∨ g'.owner = g.owner ∧ g.length ≤ g'.length ∧ (g'.state = g.state ∨ g'.state = .condemned))

theorem Segment.Persists.refl (g : Segment) : g.Persists g := ⟨id, .inr ⟨rfl, le_refl _, .inl rfl⟩⟩

theorem Segment.Persists.trans {a b c : Segment} (h : a.Persists b) (g : b.Persists c) : a.Persists c := by
  obtain ⟨h1, h2⟩ := h
  obtain ⟨g1, g2⟩ := g
  refine ⟨fun x => g1 (h1 x), ?_⟩
  rcases g2 with g2 | ⟨g2, g3, g4⟩
  · exact .inl g2
  · rcases h2 with h2 | ⟨h2, h3, h4⟩
    · exact .inl (g1 h2)
    · refine .inr ⟨g2.trans h2, le_trans h3 g3, ?_⟩
      rcases g4 with g4 | g4
      · rw [g4]; exact h4
      · exact .inr g4

theorem Segment.Persists.outlives {g g' : Segment} (h : g.Persists g') : g.Outlives g' := .inr h.2

/-- Every entry of the table persists. -/
def Store.Persists (st st' : Store) : Prop := ∀ i, (st.entry i).Persists (st'.entry i)

theorem Store.Persists.refl (st : Store) : st.Persists st := fun _ => Segment.Persists.refl _

theorem Store.Persists.trans {a b c : Store} (h : a.Persists b) (g : b.Persists c) : a.Persists c := fun i => (h i).trans (g i)

theorem Store.Persists.outlives {st st' : Store} (h : st.Persists st') : st.Outlives st' := fun i => (h i).outlives

theorem Store.Persists.of_one {st st' : Store} (i : Slot) (hj : ∀ j, j ≠ i → st'.entry j = st.entry j)
    (hi : (st.entry i).Persists (st'.entry i)) : st.Persists st' := by
  intro j
  by_cases e : j = i
  · subst e; exact hi
  · rw [hj j e]; exact Segment.Persists.refl _

theorem persists_freeEntry (st : Store) (i : Slot) : st.Persists (st.freeEntry i) :=
  .of_one i (fun j hj => by rw [Store.freeEntry_entry, if_neg (Ne.symm hj)])
    (by rw [Store.freeEntry_entry, if_pos rfl]; exact ⟨fun _ => rfl, .inl rfl⟩)

theorem persists_setRefs (st : Store) (i : Slot) (n : Nat) : st.Persists (st.setRefs i n) :=
  .of_one i (fun j hj => by rw [Store.setRefs_entry, if_neg (Ne.symm hj)])
    (by rw [Store.setRefs_entry, if_pos rfl]; exact Segment.Persists.refl _)

theorem persists_removeEntry (st : Store) (i : Slot) (b : Bool) (hl : (st.entry i).live = true) :
    st.Persists (st.removeEntry i b) := by
  unfold Store.removeEntry
  split
  · exact persists_freeEntry st i
  · refine .of_one i (fun j hj => by rw [Store.condemnEntry_entry, if_neg (Ne.symm hj)]) ?_
    rw [Store.condemnEntry_entry, if_pos rfl]
    refine ⟨fun x => ?_, .inr ⟨rfl, le_refl _, .inr rfl⟩⟩
    simp [Segment.live, x] at hl

theorem persists_withdraw (st : Store) (k : HostId) : st.Persists (st.withdraw k) := by
  unfold Store.withdraw
  generalize slots = is
  induction is generalizing st with
  | nil => exact .refl st
  | cons i is ih =>
    refine Store.Persists.trans ?_ (ih _)
    unfold Store.withdrawEntry
    dsimp only
    split
    · exact .refl st
    · split
      · rename_i hl
        exact persists_removeEntry st i false hl
      · split
        · exact .of_one i (fun j hj => by rw [Store.setEntry_entry, if_neg (Ne.symm hj)])
            (by rw [Store.setEntry_entry, if_pos rfl]; exact Segment.Persists.refl _)
        · exact .refl st

theorem persists_purge (st : Store) (k : HostId) (b : Bool) : st.Persists (st.purge k b) := by
  unfold Store.purge
  have hn : (st.liveOf k).Nodup := (List.nodup_finRange 64).filter _
  have hl : ∀ i ∈ st.liveOf k, (st.entry i).live = true := fun i hi => by
    have := (List.mem_filter.1 hi).2
    simp only [Bool.and_eq_true] at this
    exact this.1
  generalize st.liveOf k = is at hn hl
  induction is generalizing st with
  | nil => exact .refl st
  | cons i is ih =>
    rw [List.nodup_cons] at hn
    refine (persists_removeEntry st i b (hl i (List.mem_cons_self ..))).trans (ih _ hn.2 fun j hj => ?_)
    have e : j ≠ i := fun e => hn.1 (e ▸ hj)
    have : (st.removeEntry i b).entry j = st.entry j := by
      unfold Store.removeEntry
      split
      · rw [Store.freeEntry_entry, if_neg (Ne.symm e)]
      · rw [Store.condemnEntry_entry, if_neg (Ne.symm e)]
    rw [this]
    exact hl j (List.mem_cons_of_mem _ hj)

theorem persists_putWords (st : Store) (i : Slot) (o n : Nat) (ws : List Word) (hn : (st.entry i).length ≤ n) :
    st.Persists ((st.putWords (st.entry i) o ws).setEntry i { (st.entry i) with length := n }) :=
  .of_one i (fun j hj => by rw [Store.setEntry_entry, if_neg (Ne.symm hj)]; simp)
    (by rw [Store.setEntry_entry, if_pos rfl]; exact ⟨id, .inr ⟨rfl, hn, .inl rfl⟩⟩)

theorem persists_allocate (st : Store) (i : Slot) (n : Nat) : st.Persists (st.allocate i n) :=
  .of_one i (fun j hj => by rw [Store.allocate_entry, if_neg (Ne.symm hj)])
    (by rw [Store.allocate_entry, if_pos rfl]; exact Segment.Persists.refl _)

/-- Claims taken: every entry persists. -/
theorem Store.Settles.persists {st st' : Store} (h : st.Settles st') : st.Persists st' := by
  induction h with
  | refl => exact .refl _
  | append i w _ _ _ ih => exact ih.trans (persists_putWords _ i _ _ [w] (Nat.le_succ _))
  | release i _ ih =>
    refine ih.trans ?_
    unfold Store.afterRelease
    split
    · exact persists_freeEntry _ i
    · exact persists_setRefs _ i _

/-- A PUBLISH outlives what is asked of a segment that nothing references (R18). -/
theorem outlives_publishEntry (st : Store) (i : Slot) (h : (st.entry i).refs = 0) : st.Outlives (st.publishEntry i) :=
  .of_one i (fun j hj => by rw [Store.publishEntry_entry, if_neg (Ne.symm hj)]) (.inl h)

/-- A DEFINE takes a FREE entry, which nothing references (R14). -/
theorem outlives_defineIn (st : Store) (i : Slot) (k : HostId) (name : List Byte) (v : Visibility) (n : Nat)
    (h : (st.entry i).refs = 0) : st.Outlives (st.defineIn i k name v n) :=
  .of_one i (fun j hj => by rw [Store.defineIn_entry, if_neg (Ne.symm hj)]) (.inl h)

/-- A reference that a table counts names an entry whose refs are not 0. -/
theorem Agrees.refs_pos {rs : List SegmentRef} {st : Store} (h : Agrees rs st) {r : SegmentRef} (hr : r ∈ rs) {i : Slot}
    (hi : handleSlot r.handle = some i) : (st.entry i).refs ≠ 0 := by
  rw [h.2 i]
  have : 0 < rs.countP (namesSlot i) := List.countP_pos_iff.2 ⟨r, hr, by simp [namesSlot, hi]⟩
  omega

theorem mem_references {s : State} {l : LaneId} {e : Entry} (he : e ∈ (s.lane l).queue) : e.segment ∈ s.references := by
  rw [references_eq, List.mem_flatMap]
  refine ⟨l, ?_, List.mem_append_left _ (List.mem_map_of_mem he)⟩
  have : ∀ l : LaneId, l ∈ laneIds := by decide
  exact this l

/-- What keeps R62: queues that lose entries only, leases that keep the holder of what is queued, and a table whose entries outlive,
the references counted before and after. -/
theorem entriesOk_of {s t : State} (h : s.entriesOk) (hs : s.referencesCounted) (ht : t.referencesCounted)
    (hq : CutsQueues s t) (hl : ∀ l, (t.lane l).queue ≠ [] → (t.lease l).holder = (s.lease l).holder)
    (hst : s.store.Outlives t.store) : t.entriesOk := by
  intro l e he
  obtain ⟨h1, h2⟩ := h l e (hq l e he)
  refine ⟨(hl l (List.ne_nil_of_mem he)).trans h1, fun i hi => ?_⟩
  obtain ⟨h3, h4⟩ := h2 i hi
  have hr := Agrees.refs_pos hs (mem_references (hq l e he)) hi
  have hf : (t.store.entry i).state ≠ .free := by
    obtain ⟨j, hj, hn, -⟩ := ht.1 _ (mem_references he)
    rw [hi] at hj
    cases hj
    exact hn
  rcases hst i with g | g | ⟨g1, g2, g3⟩
  · exact absurd g hr
  · exact absurd g hf
  · dsimp only at h3 h4 ⊢
    refine ⟨fun hk => ⟨?_, le_trans (h3 hk).2 g2⟩, fun hk => ?_⟩
    · rcases g3 with g3 | g3
      · rw [g3]; exact (h3 hk).1
      · exact .inr g3
    · rcases g3 with g3 | g3
      · rw [g3, g1]; exact h4 hk
      · exact .inl g3

end Sys2Proof.Machine
end

