-- ==== Sys2Proof/Laws/Events.lean ====
section
/-! SUPPORT. The event queues: each operation over one host's queue keeps its invariant (R149 to R158). -/

namespace Sys2Proof.Machine

/-- The attention line is low exactly for a queue that is not empty (R157). -/
theorem attentionFor_low (q : List Record) : attentionFor q = .low ↔ q ≠ [] := by
  unfold attentionFor
  cases q <;> simp

theorem EventQueue.wf_reset : EventQueue.reset.wf := by
  refine ⟨by simp [EventQueue.reset], by simp [EventQueue.reset], by simp [EventQueue.reset], by simp [EventQueue.reset], ?_⟩
  intro i h; simp [EventQueue.reset] at h

/-- A record stored where there is room keeps the invariant (R149, R151, R157). -/
theorem EventQueue.wf_store {q : EventQueue} (h : q.wf) (hr : q.queue.length < Config.eventDepth) (hl : q.lost = 0)
    (stamp : Stamp) (e : Event) : (q.store stamp e).wf := by
  obtain ⟨h1, h2, h3, h4, h5⟩ := h
  refine ⟨?_, h2, ?_, ?_, ?_⟩
  · simp only [EventQueue.store, List.length_append, List.length_singleton]; omega
  · simp only [EventQueue.store]; omega
  · simp [EventQueue.store]
  · intro i hi
    simp only [EventQueue.store, List.length_append, List.length_singleton] at hi ⊢
    by_cases e : i < q.queue.length
    · rw [List.getElem_append_left e, h5 i e]
      have : q.queue.length + 1 - i = (q.queue.length - i) + 1 := by omega
      rw [this, BitVec.ofNat_add]
      generalize BitVec.ofNat 16 (q.queue.length - i) = x
      generalize q.seq = y
      bv_omega
    · have e' : i = q.queue.length := by omega
      subst e'
      simp

/-- A lost count above 0 leaves no room (R152). -/
theorem EventQueue.wf.lost_zero {q : EventQueue} (h : q.wf) (hr : q.queue.length < Config.eventDepth) : q.lost = 0 := by
  by_contra hne
  have := h.2.2.1 (by omega)
  omega

/-- Filing keeps the invariant (R149). -/
theorem EventQueue.wf_file {q : EventQueue} (h : q.wf) (stamp : Stamp) (e : Event) : (q.file stamp e).wf := by
  unfold EventQueue.file
  split
  · exact h
  · split
    · rename_i hr; exact EventQueue.wf_store h hr (h.lost_zero hr) stamp e
    · rename_i hr
      have hfull : q.queue.length = Config.eventDepth := by have := h.1; omega
      refine ⟨h.1, ?_, fun _ => hfull, h.2.2.2.1, h.2.2.2.2⟩
      have := h.2.1
      dsimp only
      split <;> omega

/-- A queue cut at its head keeps its numbers. -/
theorem EventQueue.seq_drop {q : EventQueue} (h : q.wf) (n i : Nat) (hi : i < (q.queue.drop n).length) :
    (q.queue.drop n)[i].seq = q.seq - BitVec.ofNat 16 ((q.queue.drop n).length - i) := by
  simp only [List.length_drop] at hi
  have h5 := h.2.2.2.2 (n + i) (by omega)
  rw [List.getElem_drop, h5]
  congr 2
  simp only [List.length_drop]; omega

/-- What FETCH leaves keeps the invariant (R153). -/
theorem EventQueue.wf_fetched {q : EventQueue} (h : q.wf) (n : Nat) (hn : 1 ≤ n) (stamp : Stamp) :
    (q.fetched n stamp).wf := by
  have hseq := EventQueue.seq_drop h n
  have hlen : (q.queue.drop n).length ≤ Config.eventDepth := by have := h.1; simp only [List.length_drop]; omega
  by_cases hl : q.lost = 0
  · have e : q.fetched n stamp = { q with queue := q.queue.drop n, attn := attentionFor (q.queue.drop n) } := by
      simp [EventQueue.fetched, hl]
    rw [e]
    exact ⟨hlen, by simp [hl], by simp [hl], attentionFor_low _, hseq⟩
  · have hfull := h.2.2.1 (by omega)
    have e : q.fetched n stamp =
        { ({ q with queue := q.queue.drop n, lost := 0, attn := attentionFor (q.queue.drop n) }.store stamp
            (.eventsLost q.lost)) with lost := 0 } := by
      simp [EventQueue.fetched, hl, EventQueue.store, attentionFor]
    rw [e]
    have hw : EventQueue.wf { q with queue := q.queue.drop n, lost := 0, attn := attentionFor (q.queue.drop n) } :=
      ⟨hlen, by simp, by simp, attentionFor_low _, hseq⟩
    exact EventQueue.wf_store hw (by simp only [List.length_drop, Config.eventDepth] at hfull ⊢; omega) rfl stamp _

/-- What a withdrawal leaves keeps the invariant (R158). -/
theorem EventQueue.wf_withdraw (q : EventQueue) (c : WithdrawalCause) (stamp : Stamp) : (q.withdraw c stamp).wf := by
  have hw : EventQueue.wf { q with queue := [], lost := 0, mask := EventMask.all, attn := .high } :=
    ⟨by simp, by simp, by simp, by simp, fun i h => by simp at h⟩
  unfold EventQueue.withdraw
  dsimp only
  split
  · have := EventQueue.wf_store hw (by simp [Config.eventDepth]) rfl stamp .withdrawn
    simpa [EventQueue.store, attentionFor] using this
  · simpa [attentionFor] using hw

end Sys2Proof.Machine
end

