-- ==== Sys2Proof/Tests/Slice0.lean ====
section
/-! SUPPORT. Tests: ill-formed commands, the spec's worked examples, and for every statement of the obligations that has hypotheses a
concrete state that meets them, with each clause at the ends of its range. Expected values are the spec's or worked by hand. -/

namespace Sys2Proof.Tests

open Sys2Proof.Machine

set_option Elab.async false

/-! ## Well-formed commands -/

theorem test_wellFormed_frame : (Instr.requestFrameEnd ⟨.spi .a, true⟩ []).wellFormed = false := by decide

theorem test_wellFormed_ignored_kind : (Instr.ignoredTransaction ⟨.a, true⟩ 0xA5 3).wellFormed = false ∧
    (Instr.ignoredTransaction ⟨.b, true⟩ 0x5A 3).wellFormed = false := by decide

theorem test_wellFormed_ignored_count : (Instr.ignoredTransaction ⟨.a, true⟩ 0x00 0).wellFormed = false := by decide

theorem test_wellFormed_read_count : (Instr.responseRead ⟨.i2c 0x4C, true⟩ 0).wellFormed = false := by decide

theorem test_wellFormed_good : (Instr.requestFrameEnd ⟨.spi .a, true⟩ [1]).wellFormed = true ∧
    (Instr.ignoredTransaction ⟨.a, true⟩ 0x00 1).wellFormed = true ∧ (Instr.responseRead ⟨.spi .b, true⟩ 1).wellFormed = true := by
  decide

/-! ## A busy state: three segments, three leased lanes, a mark with a waiter, an event record -/

/-- Segment 1/1 "A" of host 0, PUBLISHED, two words in block 0, referenced by two entries. -/
def segmentA : Segment :=
  { state := .published, generation := 1, name := some [0x41], owner := 0, visibility := .shared, length := 2, chain := [0],
    refs := 2, notifyOnFree := false }

/-- Segment 2/7 "B" of host 0, OPEN, one word in block 1, referenced by one entry. -/
def segmentB : Segment :=
  { state := .opened, generation := 7, name := some [0x42], owner := 0, visibility := .hidden, length := 1, chain := [1],
    refs := 1, notifyOnFree := false }

/-- Segment 3/255 "C" of host 1, CONDEMNED, one word in block 2, referenced by one entry. -/
def segmentC : Segment :=
  { state := .condemned, generation := 255, name := some [0x43], owner := 1, visibility := .hidden, length := 1, chain := [2],
    refs := 1, notifyOnFree := true }

/-- Segment 4/2 "D" of host 0, OPEN, one word in block 3, referenced by none. -/
def segmentD : Segment :=
  { state := .opened, generation := 2, name := some [0x44], owner := 0, visibility := .shared, length := 1, chain := [3],
    refs := 0, notifyOnFree := false }

/-- An output entry on segment 1/1 under FREE pacing: two words, one pass, 1 microsecond, strobe 200 ns. -/
def entryA : Entry :=
  { id := 0, pacing := .free, segment := ⟨1, 1⟩, offset := 0, count := 2, repeats := 1,
    timing := { unit := .ns100, period := 10, strobe := 2 }, stallLimit := 3, waitMark := none, postMark := some 0, tag := 0x0A,
    notifyStart := true, host := 0 }

/-- A capture entry on segment 2/7 under RTN_EDGE. -/
def entryB : Entry :=
  { entryA with id := 1, pacing := .rtnEdge, segment := ⟨2, 7⟩, count := 4, postMark := none, tag := 0x0B }

/-- An output entry on segment 3/255 that waits on mark 0. -/
def entryC : Entry :=
  { entryA with id := 2, segment := ⟨3, 255⟩, count := 1, waitMark := some (0, .take), postMark := none, tag := 0x0C, host := 1 }

/-- Lane 0 RUNNING: entry A current with its first word driven and its pulse over, the next point at tick 20; A again behind it. -/
def laneA : Lane :=
  { Lane.reset with
    state := .running, queue := [entryA, { entryA with id := 3 }], pass := 1, words := 1, passWords := 1,
    timing := some entryA.timing, point := some 20, drive := { driven := 0x03, level := 0x01 }, stb := .low }

/-- Lane 1 STALLED: the capture B watches for its first edge, RTN judged inactive at tick 19, its timer from tick 0. -/
def laneB : Lane :=
  { Lane.reset with
    state := .stalled, queue := [entryB], pass := 1, timing := some entryB.timing, inactiveAt := some 19, stb := .low,
    capture := { Capture.none with timer := some 0 } }

/-- Lane 2 in MARKWAIT with entry C. -/
def laneC : Lane := { Lane.reset with state := .markwait, queue := [entryC], stb := .low }

/-- A lane record of a host with the default configuration. -/
def leaseOf (k : HostId) : Lease := { Lease.reset with holder := some k, duration := 1000, remaining := 500 }

/-- The Segment Manager of the busy state. -/
def busyStore : Store :=
  { memory := [(0, 0x0301), (1, 0xFF02), (32, 0x0005), (64, 0x0007), (96, 0x0009)], pool := (List.range 1024).drop 4,
    table := ((((Store.reset.table.upd 0 segmentA).upd 1 segmentB).upd 2 segmentC).upd 3 segmentD), epoch := 0 }

/-- The busy state, at tick 20. Host 1 waits for lane 0. -/
def busy : State :=
  { State.reset with
    supervisor := some 0, time := { TimeBase.reset with clock := 20 }, store := busyStore,
    leases := ((State.reset.leases.upd 0 { (leaseOf 0) with waiters := [{ host := 1, duration := 300 }] }).upd 1 (leaseOf 0)).upd 2
      (leaseOf 1),
    lanes := ((State.reset.lanes.upd 0 laneA).upd 1 laneB).upd 2 laneC,
    marks := State.reset.marks.upd 0 { isSet := false, waiters := [(2, .take)] },
    events := State.reset.events.upd 0
      { EventQueue.reset with queue := [{ seq := 0, stamp := 0, event := .leaseGranted 0 1000 }], seq := 1, attn := .low },
    nextEntryId := 4 }

/-- A post of LEASE_GRANTED to host 0. -/
def granted : Post := { host := 0, stamp := 7, event := .leaseGranted 1 10, rank := 0, after := none, order := none }

/-- Lane l of the busy state replaced. -/
def onLane (l : LaneId) (ln : Lane) : State := busy.setLane l ln

/-- A request with tag 1. -/
def request (kind : RequestKind) (params : List Byte) : Request :=
  { tag := 1, code := requestCode kind, crc := 0, params := params }

/-- A state with a request of host 0 waiting for its owner. -/
def asking (s : State) (kind : RequestKind) (params : List Byte) : State :=
  s.setLink 0 { Link.reset with port := .executing, deciding := some (request kind params) }

/-- The next state of a command, or the state itself where it has none. -/
def after (c : Instr) (s : State) : State :=
  match exec c s with
  | .next t => t
  | .fault _ => s
  | .refused _ => s

/-- What host 0 is answered when a request of it is decided. -/
def reply (s : State) (kind : RequestKind) (params : List Byte) : Option Reply :=
  ((after (requestCommand 0 kind) (asking s kind params)).link 0).replay.map (fun r => r.reply)

/-- The status of that answer. -/
def status (s : State) (kind : RequestKind) (params : List Byte) : Option Status := (reply s kind params).map (fun r => r.status)

/-- The state after a request of host 0 is decided. -/
def done (s : State) (kind : RequestKind) (params : List Byte) : State :=
  after (requestCommand 0 kind) (asking s kind params)

theorem busy_partitioned : busyStore.partitioned := by
  show busyStore.blocks.Perm (List.range 1024)
  decide +kernel

theorem busy_segments : ∀ i, (busyStore.entry i).wf := by
  unfold Segment.wf
  decide +kernel

theorem busy_names : busyStore.namesDiffer := by
  unfold Store.namesDiffer
  decide +kernel

theorem busy_memory : busyStore.memoryOk := by
  unfold Store.memoryOk
  decide +kernel

theorem busy_words : busyStore.wordsStored := by
  have h : ∀ i, ∀ j < (busyStore.entry i).length,
      ((wordAddress (busyStore.entry i).chain j).bind (memoryRead busyStore.memory)).isSome = true := by decide +kernel
  intro i j hj
  have := h i j hj
  cases ha : wordAddress (busyStore.entry i).chain j with
  | none => rw [ha] at this; exact absurd this (by decide)
  | some a => rw [ha] at this; exact ⟨a, rfl, this⟩

theorem busy_store : busy.store.wf ∧ busy.store.quotaKept :=
  ⟨⟨busy_partitioned, busy_segments, busy_names, busy_memory, busy_words⟩, by unfold Store.quotaKept; decide +kernel⟩

theorem busy_references : busy.referencesCounted := by
  refine ⟨?_, by decide +kernel⟩
  have h : ∀ r ∈ busy.references, ((handleSlot r.handle).filter (fun i =>
      decide ((busy.store.entry i).state ≠ .free ∧ (busy.store.entry i).generation = r.generation))).isSome = true := by
    decide +kernel
  intro r hr
  have := h r hr
  cases hs : handleSlot r.handle with
  | none => rw [hs] at this; simp at this
  | some i =>
    rw [hs] at this
    by_cases hp : (busy.store.entry i).state ≠ .free ∧ (busy.store.entry i).generation = r.generation
    · exact ⟨i, hs, hp.1, hp.2⟩
    · simp [Option.filter, hp] at this

theorem busy_entriesOk : busy.entriesOk := by
  unfold State.entriesOk
  decide +kernel

/-- Whether a mark has released the lane and it has not proceeded. -/
def isReleased (ln : Lane) : Bool := match ln.state with | .released .. => true | _ => false

theorem not_released {ln : Lane} (h : isReleased ln = false) (x : Stamp) (a : Option (LaneId × Nat)) : ln.state ≠ .released x a := by
  intro hx
  unfold isReleased at h
  rw [hx] at h
  cases h

theorem busy_not_released (l : LaneId) (x : Stamp) (a : Option (LaneId × Nat)) : (busy.lane l).state ≠ .released x a :=
  not_released ((by decide +kernel : ∀ l, isReleased (busy.lane l) = false) l) x a

theorem busy_stampsOk : busy.stampsOk :=
  ⟨fun p hp => absurd hp (by simp [show busy.posts = [] from rfl]), fun l x a h => absurd h (busy_not_released l x a)⟩

theorem busy_lanesOk : busy.lanesOk := by
  unfold State.lanesOk Lane.wf Lease.wf State.marksOk
  decide +kernel

theorem busy_eventsOk : busy.eventsOk := by
  unfold State.eventsOk EventQueue.wf
  decide +kernel

theorem busy_linksOk : busy.linksOk := by
  refine ⟨fun k => ?_, by decide +kernel⟩
  have h : ∀ k : HostId, busy.link k = Link.reset := by decide +kernel
  rw [h k]
  exact ⟨⟨by decide, by decide, by decide, fun f hf => (nomatch hf)⟩, fun hp => (nomatch hp), fun tr ht => (nomatch ht)⟩

theorem test_busy_wellFormed : busy.wf :=
  ⟨busy_store.1, busy_store.2, busy_references, busy_entriesOk, busy_eventsOk, busy_stampsOk, busy_linksOk, busy_lanesOk⟩

theorem asking_waits (kind : RequestKind) (params : List Byte) :
    (asking busy kind params).waits 0 kind (request kind params) true := ⟨rfl, rfl⟩

/-! ## Steps and the whole part -/

theorem test_step_front : step { busy with pending := [.timestampTick, .leaseTick] } =
    exec .timestampTick { busy with pending := [.leaseTick] } := rfl

/-- An idle part lets time pass; a busy one with a claim waiting takes it first. -/
theorem test_time_passes : State.reset.pending = [] ∧ State.reset.internal = none ∧
    (busy.setClaims 0 [.release ⟨1, 1⟩ 0 none]).internal = some (.referenceRelease 0) ∧ busy.internal = some (.stepBoundary 0) := by
  decide +kernel

theorem test_reset_wellFormed_parts : State.reset.store.pool.length = 1024 ∧ State.reset.store.usage 0 = 0 ∧
    State.reset.nresetHigh = true := by decide +kernel

/-- PUBLISH, which stores no word, on the OPEN segment 4/2, where no append waits and where one does; RESUME, where none waits. -/
theorem test_memory_kept : (∃ t, exec (.publish 0) (asking busy .publish [4, 2]) = .next t ∧ t.store.memory = busy.store.memory ∧
      (t.store.entry 3).state = .published) ∧
    (∀ l r id w, LaneClaim.append r id w ∉ (asking busy .publish [4, 2]).claimsOf l) ∧
    (∀ l x a, ((asking busy .publish [4, 2]).lane l).state ≠ .released x a) ∧
    (let s := (asking busy .publish [4, 2]).setClaims 1 [.append ⟨2, 7⟩ 1 0x0011]
     (after (.publish 0) s).store.memory = s.store.memory ∧ (after (.append 1) s).store.memory ≠ s.store.memory) := by
  refine ⟨⟨after (.publish 0) (asking busy .publish [4, 2]), rfl, by decide +kernel⟩, fun l r id w h => ?_, busy_not_released,
    by decide +kernel⟩
  rw [show (asking busy .publish [4, 2]).claimsOf l = [] from (by decide +kernel : ∀ l, busy.claimsOf l = []) l] at h
  cases h

/-- DEFINE on slot 5 advances its generation, at 0, 1, 254 and 255 (R7). -/
theorem test_generation : [0, 1, 254, 255].map (fun g =>
      ((done { busy with store := busyStore.setEntry 4 { Segment.reset with generation := g } } .define
        [0x5A, 0, 0, 0, 0, 0, 0, 0, 32, 0, 1]).store.entry 4).generation) = [1, 2, 255, 1] := by decide +kernel

/-- A PUBLISHED segment under DELETE with references goes CONDEMNED and keeps its words. -/
theorem test_published_stays : busy.store.wf ∧
    (∃ t, exec (.delete 0) (asking busy .delete [1, 1]) = .next t ∧ (t.store.entry 0).state = .condemned ∧
      (t.store.entry 0).length = 2 ∧ t.store.word (t.store.entry 0) 1 = 0xFF02) ∧
    (busyStore.entry 0).state = .published ∧ (busyStore.entry 2).state = .condemned :=
  ⟨busy_store.1, ⟨done busy .delete [1, 1], rfl, by decide +kernel⟩, by decide +kernel⟩

/-- A refused ENQUEUE: every premise of the statement about refusals holds of it. -/
theorem test_refused : (asking busy .enqueue (0 :: List.replicate 24 0)).waits 0 .enqueue (request .enqueue (0 :: List.replicate 24 0)) true ∧
    ((asking busy .enqueue (0 :: List.replicate 24 0)).link 0).port = .executing ∧
    (∀ l, (asking busy .enqueue (0 :: List.replicate 24 0)).claimsOf l = [] ∧
      ∀ x a, ((asking busy .enqueue (0 :: List.replicate 24 0)).lane l).state ≠ .released x a) ∧
    status busy .enqueue (0 :: List.replicate 24 0) = some .badParam ∧
    ((done busy .enqueue (0 :: List.replicate 24 0)).link 0).port = .ready ∧ Status.badParam.refuses = true ∧
    Status.waitCancelled.refuses = false ∧ Status.frameError.refuses = true :=
  ⟨asking_waits _ _, by decide +kernel,
    fun l => ⟨(by decide +kernel : ∀ l, busy.claimsOf l = []) l, busy_not_released l⟩, by decide +kernel⟩

/-- A request of another kind, an OFF lane, and takings with nothing presented. -/
theorem test_nothing : (∀ req live, State.reset.waiting 0 = some (req, live) → req.code ≠ requestCode .fetch) ∧
    busy.lane 3 = Lane.reset ∧ busy.claimsOf 3 = [] ∧ busy.answersOf 3 = [] ∧ busy.posts = [] ∧ busy.withdrawals = [] := by
  refine ⟨fun req live h => ?_, by decide +kernel⟩
  have : State.reset.waiting 0 = none := rfl
  rw [this] at h
  cases h

/-! ## Time and resets -/

/-- Port A with the first two bytes of a DEVICE_STATUS frame written and the write in progress. -/
def writing (s : State) : State := after (.requestFrameEnd ⟨.spi .a, false⟩ [0x01, 0x60]) s

/-- The timestamp rises at ten ticks and wraps at 2^32 (R82). -/
theorem test_timestamp : [9, 10, 11].map (fun n =>
      (after .timestampTick { busy with time := { busy.time with subMicro := n, timestamp := 0xFFFFFFFF } }).time.timestamp) =
    [0xFFFFFFFF, 0, 0] ∧
    (let t := { busy with time := { busy.time with subMicro := 10 } }
     [t, { t with posts := [granted] }, t.setClaims 0 [.release ⟨1, 1⟩ 0 none], t.setAnswers 1 [⟨1, .full⟩],
       t.setLane 2 { laneC with state := .released 0 none }].map (fun s => (s.settled, (after .timestampTick s).time.timestamp)) =
     [(true, 1), (false, 0), (false, 0), (false, 0), (false, 0)]) := by decide +kernel

/-- The lease tick at 10000 ticks, and no holder; at 2 ms left and at 1 ms, where the end waits to be taken (R36, R43, R45). -/
theorem test_leaseTick : [9999, 10000].map (fun n =>
      let t := after .leaseTick { busy with time := { busy.time with subMilli := n } }
      ((t.lease 0).remaining, (t.lease 3).remaining, t.time.subMilli)) = [(500, 0, 9999), (499, 0, 0)] ∧
    [2, 1].map (fun n =>
      let r := (after .leaseTick { busy.setLease 0 { (leaseOf 0) with remaining := n } with
        time := { busy.time with subMilli := 10000 } }).lease 0
      (r.remaining, r.expiring, r.holder)) = [(1, false, some 0), (1, true, some 0)] := by decide +kernel

/-- A tick in and out of device reset; the judgement of a STALLED lane with RTN inactive and active, and of a RUNNING one (R82, R83). -/
theorem test_tick : busy.nresetHigh = true ∧
    [busy.tick, (after .deviceReset busy).tick].map (fun t => (t.time.clock, t.time.subMicro)) = [(21, 1), (21, 0)] ∧
    (busy.tick.lane 1).inactiveAt = some 20 ∧ (busy.tick.lane 0).inactiveAt = none ∧
    ((busy.setPins 1 { rtn := true, data := 0 }).tick.lane 1).inactiveAt = some 19 := by decide +kernel

/-- Device reset, and the straps of R181 at the release: none, H0, H1, H2. -/
theorem test_deviceReset : (after .deviceReset busy).nresetHigh = false ∧ ((after .deviceReset busy).lane 0).state = .off ∧
    [(false, false), (false, true), (true, false), (true, true)].map (fun x =>
      (after (.deviceResetRelease true x.1 x.2) (after .deviceReset busy)).supervisor) = [none, some 0, some 1, some 2] ∧
    ((after .deviceReset (writing busy)).link 0).transaction = some ⟨.ignored, [0x01, 0x60], none, 0⟩ := by decide +kernel

/-- Link resets with nRESET high, of an idle link and of one with a request at its owner, and with nRESET low. -/
theorem test_linkReset : (busy.link 1).nlrstHigh = true ∧ (busy.nresetHigh = true) ∧
    ((after (.linkReset 1) busy).withdrawals.map (fun w => (w.host, w.cause))) = [(1, .linkReset)] ∧
    ((after (.linkReset 0) (asking busy .fetch [1])).link 0).orphan = some (request .fetch [1]) ∧
    (after (.linkReset 1) (after .deviceReset busy)).withdrawals = [] ∧
    ((after (.linkResetRelease 1) (after (.linkReset 1) busy)).link 1).nlrstHigh = true ∧
    ((after (.linkReset 0) (writing busy)).link 0).transaction = some ⟨.ignored, [0x01, 0x60], none, 0⟩ ∧
    [busy, after (.linkReset 0) busy, done busy .detach [], done busy .evict [0],
      busy.setLink 0 { Link.reset with orphan := some (request .fetch [1]) }].map (fun s => s.handsOn 0) =
      [true, false, false, true, false] := by decide +kernel

/-! ## Host links -/

/-- Port A after a frame: its state, and the status byte of the response it holds. -/
def framed (s : State) (frame : List Byte) : PortState × Option Byte :=
  let lk := (after (.requestFrameEnd ⟨.spi .a, true⟩ frame) s).link 0
  (lk.port, lk.held.map (fun f => byteAt f 2))

/-- A frame with the CRC of its bytes. -/
def crcFrame (bytes : List Byte) : List Byte := bytes ++ [crc8 bytes]

/-- The worked CRC of section 8.3: 0x01, 0x02, 0x00 gives 0x41. -/
theorem test_crc_example : crc8 [0x01, 0x02, 0x00] = 0x41 ∧ crc8 [0x01, 0x02, 0x00, 0x41] = 0 := by decide +kernel

/-- That frame is refused UNKNOWN_REQUEST (section 10.2); the ends of the frame checks: 3 and 4 bytes, length bytes 64 and 65, a wrong
CRC, a RENEW of length 2, and a request that goes to its owner. -/
theorem test_frame_checks : busy.listens (.spi .a) = true ∧ (busy.link 0).port ≠ .executing ∧ (busy.link 0).transaction = none ∧
    framed busy [0x01, 0x02, 0x00, 0x41] = (.ready, some 0x12) ∧ framed busy [0x01, 0x02, 0x00] = (.ready, some 0x10) ∧
    framed busy (crcFrame ([0x01, 0x12, 64] ++ List.replicate 64 0)) = (.ready, some 0x13) ∧
    framed busy (crcFrame ([0x01, 0x12, 65] ++ List.replicate 65 0)) = (.ready, some 0x10) ∧
    framed busy [0x01, 0x02, 0x00, 0x42] = (.ready, some 0x11) ∧ framed busy (crcFrame [0x01, 0x21, 2, 0, 0]) = (.ready, some 0x13) ∧
    framed busy (crcFrame [0x01, 0x60, 0]) = (.executing, none) := by decide +kernel

/-- A frame in two commands is taken whole; one begun before a reset of the link or of the part, and ended after it, is not (R178,
R179). -/
theorem test_frame_in_parts :
    ((writing busy).link 0).transaction = some ⟨.write, [0x01, 0x60], none, 0⟩ ∧ ((writing busy).link 0).port = .idle ∧
    (let rest := (crcFrame [0x01, 0x60, 0]).drop 2
     let finish := fun (s : State) =>
       let lk := (after (.requestFrameEnd ⟨.spi .a, true⟩ rest) s).link 0
       (lk.port, lk.transaction, lk.bus.bytes)
     [writing busy, after (.linkResetRelease 0) (after (.linkReset 0) (writing busy)),
       after (.deviceResetRelease false false false) (after .deviceReset (writing busy))].map finish =
     [(.executing, none, [0xFF, 0xFF, 0xFF, 0xFF, 0xFF]), (.idle, none, [0xFF, 0xFF, 0xFF, 0xFF, 0xFF]),
       (.idle, none, [0xFF, 0xFF, 0xFF, 0xFF, 0xFF])]) := by decide +kernel

/-- A lane request for lane 3 goes to its owner, one for lane 4 is refused by the link; a frame that matches the replay record is
answered from it, flags REPLAYED and OVERRUN (R173, R177). -/
theorem test_frame_accepted : framed busy (crcFrame [0x01, 0x33, 1, 3]) = (.executing, none) ∧
    framed busy (crcFrame [0x01, 0x33, 1, 4]) = (.ready, some 0x20) ∧
    (let frame := crcFrame [0x05, 0x51, 3, 1, 1, 1]
     let old := { (busy.link 0) with
       overrun := true, replay := some { tag := 0x05, code := 0x51, crc := frame.getLastD 0, reply := okReply [1, 0, 1] } }
     ((after (.requestFrameEnd ⟨.spi .a, true⟩ frame) (busy.setLink 0 old)).link 0).held =
       some (crcFrame [0x05, 0x51, 0x00, 0x03, 3, 1, 0, 1])) := by decide +kernel

/-- A frame in EXECUTING sets the overrun flag on SPI; an I2C write is judged at its address, so that one addressed in EXECUTING is not
taken in READY, nor is one addressed in IDLE that ends in EXECUTING; a port in reset, and a read in progress, take none (R166, R174). -/
theorem test_frame_busy :
    ((after (.requestFrameEnd ⟨.spi .a, true⟩ [1]) (asking busy .fetch [1])).link 0).overrun = true ∧
    (let s := busy.setLink 2 { Link.reset with port := .executing, deciding := some (request .fetch [1]) }
     let part := fun (e : Bool) (t : State) => after (.requestFrameEnd ⟨.i2c 0x4C, e⟩ [1]) t
     let put := fun (x : PortState) (t : State) => t.setLink 2 { (t.link 2) with port := x }
     s.listens (.i2c 0x4C) = true ∧ ((part true s).link 2).overrun = false ∧ ((part true s).link 2).bus.acks = [false, false] ∧
     ((part true (put .ready (part false s))).link 2).port = .ready ∧
     ((part false busy).link 2).bus.acks = [true, true] ∧ ((part true (put .executing (part false busy))).link 2).overrun = false) ∧
    busy.listens (.i2c 0x4D) = false ∧
    (let s := busy.setLink 0 { Link.reset with nlrstHigh := false }
     s.listens (.spi .a) = false ∧ ((after (.requestFrameEnd ⟨.spi .a, true⟩ [1]) s).link 0).port = .idle) ∧
    (let s := after (.responseRead ⟨.spi .a, false⟩ 2) busy
     (s.link 0).transaction.map (fun tr => tr.kind) = some .read ∧ after (.requestFrameEnd ⟨.spi .a, true⟩ [1]) s = s) := by
  decide +kernel

/-- Null writes, an SPI transaction of neither kind, and reads of a port in IDLE, EXECUTING and READY, one of them in two parts between
which the port leaves READY. -/
theorem test_transactions :
    ((after (.nullWrite ⟨.i2c 0x4C, true⟩) busy).link 2).bus = { bytes := [], acks := [true] } ∧
    after (.nullWrite ⟨.spi .a, true⟩) (writing busy) = writing busy ∧
    ((after (.ignoredTransaction ⟨.b, true⟩ 0x00 2) busy).link 1).bus = { bytes := [0xFF, 0xFF], acks := [] } ∧
    [0xA5, 0x5A, 0x00].map spiKind = [.write, .read, .ignored] ∧
    ((after (.responseRead ⟨.spi .a, true⟩ 3) busy).link 0).bus.bytes = [0xFF, 0x00, 0xFF] ∧
    ((after (.responseRead ⟨.i2c 0x4C, true⟩ 1) busy).link 2).bus.bytes = [0x00] ∧
    ((after (.responseRead ⟨.spi .a, true⟩ 2) (asking busy .fetch [1])).link 0).bus.bytes = [0xFF, 0x01] ∧
    (let s := done busy .eventMask [1, 1, 1]
     let part := after (.responseRead ⟨.spi .a, false⟩ 3) s
     let moved := part.setLink 0 { (part.link 0) with port := .idle, held := none }
     ((after (.responseRead ⟨.spi .a, true⟩ 10) s).link 0).bus.bytes = [0xFF, 0x02, 0x01, 0x51, 0x00, 0x00, 3, 1, 1, 1] ∧
     (part.link 0).drivesMiso = true ∧
     ((after (.responseRead ⟨.spi .a, true⟩ 7) moved).link 0).bus.bytes = [0xFF, 0x02, 0x01, 0x51, 0x00, 0x00, 3, 1, 1, 1] ∧
     ((after (.responseRead ⟨.spi .a, true⟩ 7) moved).link 0).drivesMiso = false) := by decide +kernel

/-- A changed byte at either end of a frame. -/
theorem test_crc_changed : (0x01 : Byte) ≠ 0x03 ∧ 0 < [0x01, 0x02, (0x00 : Byte)].length + 1 ∧
    crc8 [0x03, 0x02, 0x00] ≠ 0x41 ∧ crc8 [0x01, 0x02, 0x00] ≠ 0x40 := by decide +kernel

/-! ## Segments -/

/-- The handle check at the ends of the handles and generations (R10). -/
theorem test_handleCheck :
    [busyStore.handleCheck ⟨0, 1⟩, busyStore.handleCheck ⟨65, 1⟩, busyStore.handleCheck ⟨1, 0⟩, busyStore.handleCheck ⟨64, 1⟩,
      busyStore.handleCheck ⟨1, 2⟩, busyStore.handleCheck ⟨3, 255⟩, busyStore.handleCheck ⟨1, 1⟩,
      (busyStore.setEntry 63 { Segment.reset with generation := 1 }).handleCheck ⟨64, 1⟩].map
        (fun x => match x with | .ok i => (none, i.val) | .error e => (some e, 0)) =
    [(some .badHandle, 0), (some .badHandle, 0), (some .badHandle, 0), (some .badHandle, 0), (some .staleHandle, 0),
      (some .gone, 0), (none, 0), (some .staleHandle, 0)] := by decide +kernel

/-- Requests of the Segment Manager wait at the link, as their statements suppose. -/
theorem test_segment_requests_wait :
    (asking busy .define [0x5A, 0, 0, 0, 0, 0, 0, 0, 32, 0, 1]).waits 0 .define (request .define [0x5A, 0, 0, 0, 0, 0, 0, 0, 32, 0, 1]) true ∧
    (asking busy .extend [4, 2, 33, 0]).waits 0 .extend (request .extend [4, 2, 33, 0]) true ∧
    (asking busy .publish [4, 2]).waits 0 .publish (request .publish [4, 2]) true ∧
    (asking busy .delete [4, 2]).waits 0 .delete (request .delete [4, 2]) true ∧
    (asking busy .read [1, 1, 1, 0, 1]).waits 0 .read (request .read [1, 1, 1, 0, 1]) true ∧
    (asking busy .catalog [2]).waits 0 .catalog (request .catalog [2]) true ∧
    (asking busy .query [1, 1]).waits 0 .query (request .query [1, 1]) true :=
  ⟨asking_waits _ _, asking_waits _ _, asking_waits _ _, asking_waits _ _, asking_waits _ _, asking_waits _ _, asking_waits _ _⟩

/-- A request that a link reset left with its owner is decided and its answer discarded. -/
theorem test_orphan :
    let s := after (.linkReset 0) (asking busy .publish [4, 2])
    s.waits 0 .publish (request .publish [4, 2]) false ∧ ((after (.publish 0) s).store.entry 3).state = .published ∧
      ((after (.publish 0) s).link 0).held = none ∧ ((after (.publish 0) s).link 0).orphan = none :=
  ⟨⟨rfl, rfl⟩, by decide +kernel⟩

/-- DEFINE: capacities 0, 1, 16384 and 16385, a name in use, a second "PRB" in the clear. -/
theorem test_define : [0, 1, 16384, 16385].map (fun n => status busy .define ([0x50, 0x52, 0x42, 0, 0, 0, 0, 0] ++ le16 n ++ [1])) =
      [some .badParam, some .ok, some .quota, some .badParam] ∧
    status busy .define [0x41, 0, 0, 0, 0, 0, 0, 0, 1, 0, 1] = some .nameInUse ∧
    reply busy .define [0x43, 0, 0, 0, 0, 0, 0, 0, 33, 0, 0] = some (okReply [5, 1, 64, 0]) := by decide +kernel

/-- DEFINE "PRB" of 100 words as the first after reset: 1/1, capacity 128, chain 0 to 3 (section 11.1). -/
theorem test_define_example :
    reply State.reset .define [0x50, 0x52, 0x42, 0, 0, 0, 0, 0, 100, 0, 1] = some (okReply [1, 1, 128, 0]) ∧
    ((done State.reset .define [0x50, 0x52, 0x42, 0, 0, 0, 0, 0, 100, 0, 1]).store.entry 0).chain = [0, 1, 2, 3] := by decide +kernel

/-- EXTEND of 4/2: 0, 1, 16384 and 16385 words, the last block the quota allows, and another owner's segment. -/
theorem test_extend : [0, 1, 16384, 16385].map (fun n => status busy .extend ([4, 2] ++ le16 n)) =
      [some .badParam, some .ok, some .badRange, some .badParam] ∧
    status busy .extend ([4, 2] ++ le16 (509 * 32)) = some .ok ∧ status busy .extend ([4, 2] ++ le16 (510 * 32)) = some .quota ∧
    reply busy .extend [4, 2, 33, 0] = some (okReply [96, 0, 3, 0]) ∧ status busy .extend [1, 1, 1, 0] = some .wrongState := by
  decide +kernel

/-- WRITE to 4/2 (length 1, capacity 32): offsets 1 and 2, the last word and one past it; a PUBLISHED and a referenced segment. -/
theorem test_write : (asking busy .write [4, 2, 1, 0, 0xCD, 0xAB]).store.wf ∧
     (asking busy .write [4, 2, 1, 0, 0xCD, 0xAB]).waits 0 .write (request .write [4, 2, 1, 0, 0xCD, 0xAB]) true ∧
    reply busy .write [4, 2, 1, 0, 0xCD, 0xAB] = some (okReply [2, 0]) ∧ status busy .write [4, 2, 2, 0, 0, 0] = some .badRange ∧
    status busy .write [1, 1, 0, 0, 0, 0] = some .wrongState ∧ status busy .write [2, 7, 0, 0, 0, 0] = some .inUse ∧
    (let t := done busy .write [4, 2, 1, 0, 0xCD, 0xAB]
     t.store.word (t.store.entry 3) 1 = 0xABCD ∧ t.store.word (t.store.entry 3) 0 = 0x0009) ∧
    (let full := { busy with store := busyStore.setEntry 3 { segmentD with length := 31 } }
     status full .write [4, 2, 31, 0, 1, 0] = some .ok ∧ status full .write [4, 2, 31, 0, 1, 0, 2, 0] = some .badRange) :=
  ⟨busy_store.1, asking_waits _ _, by decide +kernel⟩

/-- PUBLISH: of 4/2, of an empty one, and of one with two blocks whose length needs one. -/
theorem test_publish : status busy .publish [2, 7] = some .inUse ∧ reply busy .publish [4, 2] = some (okReply [1, 0, 1, 0]) ∧
    status { busy with store := busyStore.setEntry 3 { segmentD with length := 0 } } .publish [4, 2] = some .empty ∧
    (let t := done { busy with store := busyStore.setEntry 3 { segmentD with length := 32, chain := [3, 9] } } .publish [4, 2]
     (t.store.entry 3).chain = [3] ∧ t.store.pool.getLastD 0 = 9) ∧
    (let t := done { busy with store := busyStore.setEntry 3 { segmentD with length := 33, chain := [3, 9] } } .publish [4, 2]
     (t.store.entry 3).chain = [3, 9]) := by decide +kernel

/-- DELETE: unreferenced it is FREED with its block at the tail of the pool, referenced it is CONDEMNED. -/
theorem test_delete : status busy .delete [4, 2] = some .freed ∧ (done busy .delete [4, 2]).store.pool.getLastD 0 = 3 ∧
    ((done busy .delete [4, 2]).store.entry 3).generation = 2 ∧ status busy .delete [1, 1] = some .condemned ∧
    ((done busy .delete [1, 1]).store.entry 0).notifyOnFree = true ∧ status busy .delete [3, 255] = some .gone := by decide +kernel

/-- READ of 1/1 (length 2): counts 0, 28 and 29, and up to its last word. -/
theorem test_read : [0, 28, 29].map (fun n => status busy .read [1, 1, 0, 0, n]) =
      [some .badParam, some .badRange, some .badParam] ∧
    reply busy .read [1, 1, 1, 0, 1] = some (okReply [0x02, 0xFF]) ∧ status busy .read [1, 1, 1, 0, 2] = some .badRange := by
  decide +kernel

/-- CATALOG from 0, 1, 64 and 65; the CONDEMNED segment is not listed. -/
theorem test_catalog : [0, 64, 65].map (fun n => status busy .catalog [n]) = [some .badParam, some .ok, some .badParam] ∧
    reply busy .catalog [2] = some (okReply ([0, 2] ++ [2, 7, 0x42, 0, 0, 0, 0, 0, 0, 0, 0, 0, 1, 1, 0] ++
      [4, 2, 0x44, 0, 0, 0, 0, 0, 0, 0, 0, 1, 1, 1, 0])) ∧ reply busy .catalog [64] = some (okReply [0, 0]) := by decide +kernel

/-- QUERY: its record of table 10-6, and its reading of a CONDEMNED segment, here one of another host and PRIVATE. -/
theorem test_query : reply busy .query [1, 1] =
      some (okReply [1, 1, 2, 0x41, 0, 0, 0, 0, 0, 0, 0, 0, 1, 2, 0, 32, 0, 1, 0, 0, 0, 2, 0]) ∧
    status busy .query [3, 255] = some .notVisible ∧
    status { busy with store := busyStore.setEntry 2 { segmentC with visibility := .shared } } .query [3, 255] = some .ok := by
  decide +kernel

/-- Appends to 2/7 at its last free word and past it, and to a CONDEMNED segment (R27). -/
theorem test_append : busy.store.memoryOk ∧
    (let s := fun (g : Segment) => { busy with store := busyStore.setEntry 1 g }.setClaims 1 [.append ⟨2, 7⟩ 1 0x0011]
     [{ segmentB with length := 31 }, { segmentB with length := 32 }, { segmentB with state := .condemned }].map (fun g =>
       ((s g).claimsOf 1 == [.append ⟨2, 7⟩ 1 0x0011], ((after (.append 1) (s g)).answersOf 1).map (fun a => a.result),
         ((after (.append 1) (s g)).store.entry 1).length)) =
     [(true, [.stored], 32), (true, [.full], 32), (true, [.gone], 1)]) := ⟨busy_memory, by decide +kernel⟩

/-- Releases: one of two, and the last one on the CONDEMNED segment, with and without notice (R25, R26). -/
theorem test_referenceRelease :
    (let s := busy.setClaims 0 [.release ⟨1, 1⟩ 0 none]
     let t := after (.referenceRelease 0) s
     s.claimsOf 0 = [.release ⟨1, 1⟩ 0 none] ∧ (busy.store.entry 0).state ≠ .free ∧ 1 ≤ (busy.store.entry 0).refs ∧
       (t.store.entry 0).refs = 1 ∧ t.posts = []) ∧
    (let t := after (.referenceRelease 2) (busy.setClaims 2 [.release ⟨3, 255⟩ 6 (some 9)])
     (t.store.entry 2).state = .free ∧ t.store.pool.getLastD 0 = 2 ∧
       t.posts = [{ host := 1, stamp := 0, event := .segmentFreed ⟨3, 255⟩, rank := 0, after := some (2, 6), order := some 9 }]) ∧
    (let s := { busy with store := busyStore.setEntry 2 { segmentC with notifyOnFree := false } }
     (after (.referenceRelease 2) (s.setClaims 2 [.release ⟨3, 255⟩ 2 none])).posts = []) := by decide +kernel

/-! ## Leases -/

/-- CLAIM of the free lane 3: durations 9, 10, 60000 and 60001; the other rows of R39 on lanes 0 and 2. -/
theorem test_claim : (asking busy .claim [3, 10, 0, 0]).waits 0 .claim (request .claim [3, 10, 0, 0]) true ∧
    [9, 10, 60000, 60001].map (fun d => status busy .claim ([3] ++ le16 d ++ [0])) =
      [some .badParam, some .ok, some .ok, some .badParam] ∧
    status busy .claim [4, 10, 0, 0] = some .badParam ∧ status busy .claim [3, 10, 0, 2] = some .badParam ∧
    status busy .claim [0, 10, 0, 1] = some .alreadyHeld ∧ status busy .claim [2, 10, 0, 0] = some .laneHeld ∧
    reply busy .claim [2, 10, 0, 1] = some { status := .queued, results := [2, 1] } ∧
    status (busy.setLease 2 { (leaseOf 1) with waiters := [{ host := 0, duration := 10 }] }) .claim [2, 10, 0, 1] =
      some .alreadyWaiting ∧
    ((done busy .claim [3, 10, 0, 0]).lane 3).state = .idle ∧ ((done busy .claim [3, 10, 0, 0]).lane 3).stb = .low :=
  ⟨asking_waits _ _, by decide +kernel⟩

/-- RENEW: 0, 9, 10, 60000 and 60001 on lane 0, and a lane another host holds (R44). -/
theorem test_renew : (asking busy .renew [0, 0, 0]).waits 0 .renew (request .renew [0, 0, 0]) true ∧
    [0, 9, 10, 60000, 60001].map (fun d => status busy .renew ([0] ++ le16 d)) =
      [some .ok, some .badParam, some .ok, some .ok, some .badParam] ∧
    status busy .renew [2, 0, 0] = some .notHolder ∧ ((done busy .renew [0, 0, 0]).lease 0).remaining = 1000 :=
  ⟨asking_waits _ _, by decide +kernel⟩

/-- RELEASE by a host that waits for the lane, and by one that does not (R47). -/
theorem test_release_nonHolder : (asking busy .release [2]).waits 0 .release (request .release [2]) true ∧
    (byteAt [2] 0).toNat = (2 : LaneId).val ∧ (busy.lease 2).holder ≠ some 0 ∧ status busy .release [2] = some .notHolder ∧
    (let s := busy.setLease 2 { (leaseOf 1) with waiters := [{ host := 0, duration := 10 }, { host := 2, duration := 20 }] }
     status s .release [2] = some .waitCancelled ∧ ((done s .release [2]).lease 2).waiters = [{ host := 2, duration := 20 }]) :=
  ⟨asking_waits _ _, by decide +kernel⟩

/-- RELEASE by the holder with a waiter and without one; LEASE_EXPIRY where the last tick has come and where it has not, at 1 ms; and a
RENEW before it (R45, R46, R50). -/
theorem test_leaseEnd : (asking busy .release [0]).waits 0 .release (request .release [0]) true ∧
    status busy .release [0] = some .ok ∧ ((done busy .release [0]).lease 0).holder = some 1 ∧
    ((done busy .release [1]).lane 1).state = .off ∧ status busy .release [4] = some .badParam ∧
    (let s := busy.setLease 0 { (leaseOf 0) with remaining := 1, expiring := true }
     let t := after (.leaseExpiry 0) s
     (s.lease 0).holder = some 0 ∧ (s.lease 0).expiring = true ∧ (t.lease 0).holder = none ∧
       (t.posts.map (fun p => (p.event, p.rank))).head? = some (.leaseLost 0 .expired, 0) ∧
       t.claimsOf 0 = [.release ⟨1, 1⟩ 3 (some 1), .release ⟨1, 1⟩ 4 (some 1)] ∧
       ((done s .renew [0, 0, 0]).lease 0).expiring = false ∧ ((done s .renew [0, 0, 0]).lease 0).remaining = 1000) ∧
    ((after (.leaseExpiry 0) (busy.setLease 0 { (leaseOf 0) with remaining := 1 })).lease 0).holder = some 0 :=
  ⟨asking_waits _ _, by decide +kernel⟩

/-- The premises of the statement about the drain, with an entry current and one queued, and with a released lane. -/
theorem test_drain : busy.lanesOk ∧ (∀ l x a, (busy.lane l).state ≠ .released x a) ∧ (busy.lane 0).queue.length = 2 ∧
    ((busy.drain 0 true).posts.map (fun p => p.event)) =
      [.entryDone 0 ⟨1, 1⟩ 0x0A .leaseEnded 1 false, .entryDone 0 ⟨1, 1⟩ 0x0A .leaseEnded 0 false] ∧
    (let s := onLane 2 { laneC with state := .released 5 none }
     (s.lane 2).state = .released 5 none ∧ (s.lane 2).queue = [entryC] ∧
       ((s.drain 2 true).posts.map (fun p => (p.stamp, p.order))) = [(5, none), (0, some 1)]) :=
  ⟨busy_lanesOk, busy_not_released, by decide +kernel⟩

/-- CONFIGURE by lane state: FAULTED, IDLE, RUNNING and STALLED, and the park word on the lines. -/
theorem test_configure : (asking busy .configure [0, 0, 0xFF, 0, 0]).waits 0 .configure (request .configure [0, 0, 0xFF, 0, 0]) true ∧
    [LaneState.faulted .ackTimeout, .idle, .holding .inWait, .running, .stalled].map (fun x =>
      status (onLane 0 { laneA with state := x }) .configure [0, 0, 0xFF, 0, 0]) =
      [some .ok, some .ok, some .ok, some .wrongState, some .wrongState] ∧
    status busy .configure [2, 0, 0, 0, 0] = some .notHolder ∧ status busy .configure [0, 0, 0, 2, 0] = some .badParam ∧
    (let t := done (onLane 0 { laneA with state := .idle }) .configure [0, 0x05, 0x0F, 1, 0]
     (t.lane 0).drive = { driven := 0x0F, level := 0x05 } ∧ (t.lane 0).stb = .high) ∧
    ((done (onLane 0 { laneA with state := .holding .inWait }) .configure [0, 0x05, 0x0F, 0, 0]).lane 0).drive = laneA.drive :=
  ⟨asking_waits _ _, by decide +kernel⟩

/-- REVOKE: to a waiting host, to one that does not wait, to the head waiter, of a free lane; and by a host that is no supervisor. -/
theorem test_revoke : (asking busy .revoke [0, 1]).waits 0 .revoke (request .revoke [0, 1]) true ∧
    reply busy .revoke [0, 1] = some (okReply [0, 1]) ∧ ((done busy .revoke [0, 1]).lease 0).duration = 300 ∧
    reply busy .revoke [0, 2] = some (okReply [0, 2]) ∧ ((done busy .revoke [0, 2]).lease 0).duration = 1000 ∧
    ((done busy .revoke [0, 2]).lease 0).waiters = [{ host := 1, duration := 300 }] ∧
    reply busy .revoke [0, 255] = some (okReply [0, 1]) ∧ reply busy .revoke [2, 255] = some (okReply [1, 255]) ∧
    status busy .revoke [3, 0] = some .wrongState ∧ status busy .revoke [4, 0] = some .badParam ∧
    status busy .revoke [0, 3] = some .badParam ∧ status { busy with supervisor := some 1 } .revoke [0, 1] = some .notPermitted :=
  ⟨asking_waits _ _, by decide +kernel⟩

/-! ## Requests of the lane sequencers -/

/-- ENQUEUE parameters of an output on segment 1/1. -/
def enqueue (lane : Byte) (offset count : Nat) (period strobe : Nat) : List Byte :=
  [lane, 0, 1, 1] ++ le16 offset ++ le16 count ++ [1] ++ le32 period ++ le32 strobe ++ [0, 0, 0, 0, 0, 0, 0, 1]

/-- A claimed, IDLE lane 3. -/
def idle3 : State := (busy.setLease 3 (leaseOf 0)).setLane 3 { Lane.reset with state := .idle, stb := .low }

/-- ENQUEUE on an IDLE lane starts the entry (section 11.1: 1000 ns and 200 ns give unit 0x00, mantissas 10 and 2); the ranges of the
segment; a lane of another host; timing; a full queue; and the six lane requests that name lane 4 and were held back (log 25). -/
theorem test_enqueue :
    (asking busy .enqueue (enqueue 0 0 2 1000 200)).waits 0 .enqueue (request .enqueue (enqueue 0 0 2 1000 200)) true ∧
    (asking busy .flush [4]).waits 0 .flush (request .flush [4]) true ∧
    (byteAt (enqueue 0 0 2 1000 200) 0).toNat = (0 : LaneId).val ∧
    reply idle3 .enqueue (enqueue 3 0 2 1000 200) = some (okReply [1, 0, 10, 2]) ∧
    ((done idle3 .enqueue (enqueue 3 0 2 1000 200)).lane 3).drive = { driven := 0x03, level := 0x01 } ∧
    ((done idle3 .enqueue (enqueue 3 0 2 1000 200)).store.entry 0).refs = 3 ∧
    reply busy .enqueue (enqueue 0 1 1 1000 200) = some (okReply [3, 0, 10, 2]) ∧
    status busy .enqueue (enqueue 0 1 2 1000 200) = some .badRange ∧ status busy .enqueue (enqueue 0 0 0 1000 200) = some .badParam ∧
    status busy .enqueue (enqueue 2 0 2 1000 200) = some .notHolder ∧ status busy .enqueue (enqueue 0 0 2 399 0) = some .badTiming ∧
    [7, 8].map (fun n => status (onLane 0 { laneA with queue := List.replicate n entryA }) .enqueue (enqueue 0 0 2 1000 200)) =
      [some .ok, some .queueFull] ∧
    3 < (byteAt [4] 0).toNat ∧
    [RequestKind.enqueue, .flush, .abort, .hold, .resume, .retime].map (fun kind => status busy kind [4]) =
      List.replicate 6 (some .badParam) :=
  ⟨asking_waits _ _, asking_waits _ _, by decide +kernel⟩

/-- The fields of a play entry at the ends of their ranges (table 10-5). -/
theorem test_entry_fields :
    [enqueue 0 16383 16384 400 0, enqueue 0 16384 1 400 0, enqueue 0 0 16385 400 0, enqueue 0 0 0 400 0].map
      (fun p => (decodeEntry p).isSome) = [true, false, false, false] ∧
    [(0, 0x80), (0, 0x8F), (0, 0x90), (0, 0x0F), (0x87, 0), (0x88, 0)].map (fun x =>
      (decodeEntry (((enqueue 0 0 1 400 0).set 20 x.2).set 21 x.1)).map (fun f => (f.waitMark, f.postMark))) =
      [some (some (0, .pass), none), some (some (7, .take), none), none, none, some (none, some 7), none] ∧
    [0x02, 0x03, 0x10, 0x12, 0x13].map (fun x => ((decodeEntry ((enqueue 0 0 1 400 0).set 17 x)).isSome,
      (decodeEntry (((enqueue 0 0 1 400 0).set 17 x).set 1 1)).isSome)) =
      [(true, false), (false, false), (false, true), (false, true), (false, false)] := by decide +kernel

/-- FLUSH keeps the current entry of a RUNNING lane and empties a FAULTED one (R78). -/
theorem test_flush : (asking busy .flush [0]).waits 0 .flush (request .flush [0]) true ∧
    reply busy .flush [0] = some (okReply [1]) ∧ ((done busy .flush [0]).lane 0).queue = [entryA] ∧
    reply (onLane 0 { laneA with state := .faulted .readyTimeout }) .flush [0] = some (okReply [2]) ∧
    ((done (onLane 0 { laneA with state := .released 0 none }) .flush [0]).posts.map (fun p => p.event)) =
      [.entryStarted 0 ⟨1, 1⟩ 0x0A, .entryDone 0 ⟨1, 1⟩ 0x0A .flushed 0 false] ∧
    status busy .flush [2] = some .notHolder := ⟨asking_waits _ _, by decide +kernel⟩

theorem asking_lanesOk : (asking busy .abort [0]).lanesOk := by
  unfold State.lanesOk Lane.wf Lease.wf State.marksOk
  decide +kernel

/-- ABORT of a lane with a current entry and of an IDLE one (R112). -/
theorem test_abort : (asking busy .abort [0]).lanesOk ∧ (asking busy .abort [0]).waits 0 .abort (request .abort [0]) true ∧
    reply busy .abort [0] = some (okReply [1, 1]) ∧ ((done busy .abort [0]).lane 0).state = .idle ∧
    (done busy .abort [0]).posts.map (fun p => p.event) =
      [.entryDone 0 ⟨1, 1⟩ 0x0A .aborted 1 false, .entryDone 0 ⟨1, 1⟩ 0x0A .flushed 0 false] ∧
    reply idle3 .abort [3] = some (okReply [0, 0]) ∧ status busy .abort [2] = some .notHolder :=
  ⟨asking_lanesOk, asking_waits _ _, by decide +kernel⟩

/-- HOLD by the state of the lane (R105). -/
theorem test_hold : (asking busy .hold [0]).waits 0 .hold (request .hold [0]) true ∧
    ((done busy .hold [0]).lane 0).holdRequest = true ∧
    [LaneState.stalled, .idle, .holding .inWait, .faulted .ackTimeout].map (fun x =>
      (status (onLane 0 { laneA with state := x }) .hold [0], ((done (onLane 0 { laneA with state := x }) .hold [0]).lane 0).state)) =
      [(some .ok, .holding .inWait), (some .ok, .holding .outOfIdle), (some .ok, .holding .inWait),
        (some .wrongState, .faulted .ackTimeout)] ∧
    (let s := busy.setLease 2 (leaseOf 0)
     ((done s .hold [2]).lane 2).state = .holding .outOfMarkwait ∧ ((done s .hold [2]).mark 0).waiters = []) ∧
    status busy .hold [2] = some .notHolder := ⟨asking_waits _ _, by decide +kernel⟩

/-- RESUME by the state of the lane (R109 to R111). -/
theorem test_resume : (asking busy .resume [0]).waits 0 .resume (request .resume [0]) true ∧
    status busy .resume [0] = some .wrongState ∧ status (onLane 0 { laneA with holdRequest := true }) .resume [0] = some .ok ∧
    [HoldForm.atBoundary, .inWait, .outOfMarkwait, .betweenEntries, .outOfIdle].map (fun x =>
      let t := done (onLane 0 { laneA with state := .holding x }) .resume [0]
      ((t.lane 0).state, (t.lane 0).words)) =
      [(.running, 2), (.stalled, 1), (.running, 1), (.running, 1), (.running, 1)] ∧
    ((done (onLane 0 { laneA with state := .faulted .ackTimeout }) .resume [0]).lane 0).state = .running ∧
    status (onLane 0 { laneA with state := .idle, queue := [] }) .resume [0] = some .wrongState := ⟨asking_waits _ _, by decide +kernel⟩

/-- RETIME: staged, BUSY, NOTHING_PLAYING, WRONG_STATE under RTN_EDGE, and BAD_TIMING (R102). -/
theorem test_retime : (asking busy .retime ([0] ++ le32 2345 ++ le32 150)).waits 0 .retime (request .retime ([0] ++ le32 2345 ++ le32 150)) true ∧
    reply busy .retime ([0] ++ le32 2345 ++ le32 150) = some { status := .staged, results := [0x00, 0x18, 0x02] } ∧
    status (onLane 0 { laneA with staged := some entryA.timing }) .retime ([0] ++ le32 400 ++ le32 0) = some .busy ∧
    status idle3 .retime ([3] ++ le32 400 ++ le32 0) = some .nothingPlaying ∧
    status busy .retime ([1] ++ le32 400 ++ le32 0) = some .wrongState ∧
    status busy .retime ([0] ++ le32 0xFFFFFFFF ++ le32 0) = some .badTiming := ⟨asking_waits _ _, by decide +kernel⟩

/-- The table of encodings of section 4.2, row by row. -/
theorem test_timing_table : [(2345, 150), (400, 0), (399, 0), (25500, 25450), (25501, 2000), (30000, 29500), (30000, 5000),
      (1000000, 12000), (25500000, 100000), (25500001, 0)].map (fun x => encodeTiming x.1 x.2) =
    [some ⟨.ns100, 24, 2⟩, some ⟨.ns100, 4, 0⟩, none, none, some ⟨.us1, 26, 2⟩, none, some ⟨.us1, 30, 5⟩, some ⟨.us10, 100, 2⟩,
      some ⟨.us100, 255, 1⟩, none] := by decide +kernel

/-! ## Boundaries, waits and ends of the lanes -/

/-- The second boundary of entry A: one tick early nothing, at its point word 1 is driven; with a hold request, and under READY with RTN
low, it does not happen (R86, R90, R106). -/
theorem test_stepBoundary : laneA.state = .running ∧ laneA.point = some 20 ∧ laneA.passWords < entryA.count ∧
    entryA.kind = .output ∧ (entryA.pacing = .ack → laneA.acked = true) ∧
    ((after (.stepBoundary 0) busy).lane 0).drive = { driven := 0xFF, level := 0x02 } ∧
    ((after (.stepBoundary 0) busy).lane 0).point = some 30 ∧ ((after (.stepBoundary 0) busy).lane 0).pulseEnd = some 22 ∧
    ((after (.stepBoundary 0) (onLane 0 { laneA with point := some 21 })).lane 0).words = 1 ∧
    ((after (.stepBoundary 0) (onLane 0 { laneA with holdRequest := true })).lane 0).state = .holding .atBoundary ∧
    ((after (.stepBoundary 0) (onLane 0 { laneA with queue := [{ entryA with pacing := .ready }] })).lane 0).state = .stalled := by
  decide +kernel

/-- A lane that captures: RUNNING at a point, two samples kept, the last of them 0x00, boundary count n. -/
def capturing (pacing : Pacing) (n : Nat) (last : Option Byte) : State :=
  onLane 1 { laneB with
    state := .running, queue := [{ entryB with pacing := pacing }], words := 2, point := some 20,
    capture := { Capture.none with lastKept := last, boundaryCount := n } }

/-- Samples under STEP and CHANGE: the first, one like the last kept, and at boundary counts 253 and 254 (R117, R118). -/
theorem test_captureBoundary : (capturing .step 0 none).now = 20 ∧
    [capturing .step 0 none, capturing .step 0 (some 0), capturing .change 0 none, capturing .change 253 (some 0),
      capturing .change 254 (some 0), capturing .change 0 (some 1)].map (fun s =>
        ((after (.stepBoundary 1) s).claimsOf 1, ((after (.stepBoundary 1) s).lane 1).capture.boundaryCount)) =
    [([.append ⟨2, 7⟩ 1 0x0000], 0), ([.append ⟨2, 7⟩ 1 0x0100], 0), ([.append ⟨2, 7⟩ 1 0x0000], 0), ([], 254),
      ([.append ⟨2, 7⟩ 1 0xFF00], 255), ([.append ⟨2, 7⟩ 1 0x0100], 1)] := by decide +kernel

/-- The end of a pulse: a tick early, on FREE pacing, and on ACK pacing where the wait starts (R87, R93). -/
theorem test_strobeEnd :
    ((after (.strobeEnd 0) (onLane 0 { laneA with pulseEnd := some 21, stb := .high })).lane 0).stb = .high ∧
    ((after (.strobeEnd 0) (onLane 0 { laneA with pulseEnd := some 20, stb := .high })).lane 0).stb = .low ∧
    (let t := after (.strobeEnd 0) (onLane 0 { laneA with pulseEnd := some 20, queue := [{ entryA with pacing := .ack }] })
     (t.lane 0).state = .stalled ∧ (t.lane 0).stallTimer = some 20 ∧ (t.lane 0).inactiveAt = some 20) := by decide +kernel

/-- RTN active under READY lets the boundary happen, but not at the tick that has judged RTN inactive (R83, R91); on other lanes only
the line moves. -/
theorem test_rtnReadyActive :
    (let ln := { laneA with state := .stalled, queue := [{ entryA with pacing := .ready }] }
     ((onLane 0 ln).lane 0).state = .stalled ∧
       [none, some 19, some 20].map (fun n =>
         let t := after (.rtnReadyActive 0) (onLane 0 { ln with inactiveAt := n })
         ((t.lane 0).words, (t.pinsOf 0).rtn)) = [(2, true), (2, true), (1, true)]) ∧
    ((after (.rtnReadyActive 1) busy).lane 1) = laneB ∧ ((after (.rtnReadyActive 0) busy).lane 0) = laneA := by decide +kernel

/-- The acknowledging edge: before the scheduled point, at it, and for the last word of the pass (R94, R97); no edge where RTN has not been
judged inactive, or at this tick only (R83). -/
theorem test_ackEdge :
    (let ln := { laneA with
       state := .stalled, queue := [{ entryA with pacing := .ack }], inactiveAt := some 19, stallTimer := some 5 }
     [{ ln with point := some 21 }, { ln with point := some 20 }, { ln with words := 2, passWords := 2 },
       { ln with inactiveAt := none }, { ln with inactiveAt := some 20 }].map (fun v =>
         let t := after (.ackEdge 0) (onLane 0 v)
         ((t.lane 0).state, (t.lane 0).words, t.posts.length)) =
     [(.running, 1, 0), (.running, 2, 0), (.idle, 0, 1), (.stalled, 1, 0), (.stalled, 1, 0)]) := by decide +kernel

/-- A stall limit of 3 is reached at 300 ticks and not at 299; a limit of 0 never (R92, R95, R96). -/
theorem test_stallLimit : [(3, 299, Pacing.ready), (3, 300, .ready), (0, 300, .ready), (3, 299, .ack), (3, 300, .ack)].map (fun x =>
      let s := onLane 0 { laneA with
        state := .stalled, queue := [{ entryA with pacing := x.2.2, stallLimit := x.1 }], stallTimer := some 0 }
      let c := if x.2.2 = .ready then Instr.readyTimeout 0 else .ackTimeout 0
      ((after c { s with time := { s.time with clock := x.2.1 } }).lane 0).state) =
    [.stalled, .faulted .readyTimeout, .stalled, .stalled, .faulted .ackTimeout] := by decide +kernel

/-- Pass ends: of the last pass, of an earlier pass, and of a loop entry without and with a successor; a tick early nothing. -/
theorem test_passEnd :
    (let ln := { laneA with words := 2, passWords := 2, queue := [entryA] }
     [ln, { ln with queue := [{ entryA with repeats := 2 }] }, { ln with queue := [{ entryA with repeats := 0 }] },
       { ln with queue := [{ entryA with repeats := 0 }, entryA] }, { ln with point := some 21 }].map (fun v =>
         let t := after (.passEnd 0) (onLane 0 v)
         ((t.lane 0).state, (t.lane 0).pass, (t.lane 0).words, t.posts.length)) =
     [(.idle, 0, 0, 1), (.running, 2, 3, 0), (.running, 2, 3, 0), (.running, 1, 1, 2), (.running, 1, 2, 0)]) := by decide +kernel

/-- The end of an entry: its post mark, with the TAKE waiter of the mark released; the capture limit at 299 and 300 ticks; the end point of
a STEP capture. -/
theorem test_entryEnd : (busy.lane 1).queue = [entryB] ∧ (∀ m, ∀ x ∈ (busy.mark m).waiters, x.1 ≠ 1) ∧
    (let t := after (.passEnd 0) (onLane 0 { laneA with words := 2, passWords := 2, queue := [entryA] })
     (t.lane 2).state = .released 0 (some (0, 0)) ∧ (t.mark 0).isSet = false ∧ t.claimsOf 0 = [.release ⟨1, 1⟩ 1 none]) ∧
    [299, 300].map (fun n =>
      ((after (.captureTimeout 1) { busy with time := { busy.time with clock := n } }).lane 1).state) = [.stalled, .idle] ∧
    ((after (.captureEndPoint 1) (onLane 1 { laneB with
      state := .running, words := 4, point := some 20, queue := [{ entryB with pacing := .step }] })).lane 1).state = .idle := by
  decide +kernel

/-- Where a capture is followed by an output entry whose first boundary stalls under READY, the lines show the park word (R90, R99). -/
theorem test_captureThenStall :
    (let s := (onLane 1 { laneB with queue := [entryB, { entryA with pacing := .ready }] }).setLease 1 { (leaseOf 0) with park := 0x0F05 }
     let t := after (.captureTimeout 1) { s with time := { s.time with clock := 300 } }
     (t.lane 1).state = .stalled ∧ (t.lane 1).words = 0 ∧ (s.lane 1).drive = Drive.none ∧
       (t.lane 1).drive = { driven := 0x0F, level := 0x05 }) := by decide +kernel

/-- An ENTRY_DONE that a FLUSH posts before the end of the current entry stands before the ENTRY_STARTED that the post mark of that end
leads to, and the ENTRY_DONE of the current entry, made after its setting, does not (R74, R150). -/
theorem test_flush_before_mark :
    (let s := onLane 0 { laneA with words := 2, passWords := 2 }
     let t := after (.markReleaseProceed 2) (after (.passEnd 0) (done s .flush [0]))
     t.posts.map (fun p => (p.event.block, p.rank, p.after)) =
       [(.lane 0, 0, none), (.lane 0, 1, none), (.lane 2, 2, some (0, 1))] ∧
     [0, 1].map (fun i => (t.posts[i]?).map (fun p => p.before { granted with event := .entryStarted 2 ⟨3, 255⟩ 0x0C, host := 1, after := some (0, 1) })) =
       [some true, some false]) := by decide +kernel

/-- A released lane proceeds with the timestamp of the release, ENTRY_STARTED first (R137). -/
theorem test_proceed :
    (let t := after (.markReleaseProceed 2) (onLane 2 { laneC with state := .released 5 (some (0, 1)) })
     (t.lane 2).state = .running ∧ (t.lane 2).words = 1 ∧
       t.posts = [{ host := 1, stamp := 5, event := .entryStarted 2 ⟨3, 255⟩ 0x0C, rank := 0, after := some (0, 1), order := none }]) ∧
    (after (.markReleaseProceed 2) busy).lane 2 = laneC := by decide +kernel

/-- Offers of a wait on a SET mark with PASS and TAKE and on a CLEAR one; entry start with an empty queue, with a capture whose segment is
CONDEMNED, and with one whose lane has an append waiting, which is taken first (R30, R67, R68, R134). -/
theorem test_entryStart :
    (let s := busy.setMark 1 { isSet := true, waiters := [] }
     [(s.offerWait 0 { entryA with waitMark := some (1, .pass) }), (s.offerWait 0 { entryA with waitMark := some (1, .take) }),
       (s.offerWait 0 { entryA with waitMark := some (0, .pass) })].map (fun t => ((t.lane 0).state, (t.mark 1).isSet, (t.mark 0).waiters)) =
     [(.running, true, [(2, .take)]), (.running, false, [(2, .take)]), (.markwait, true, [(2, .take), (0, .pass)])]) ∧
    (idle3.lane 3).queue = [] ∧ ((idle3.entryStart 3).lane 3).state = .idle ∧
    (let s := { busy with store := busyStore.setEntry 1 { segmentB with state := .condemned } }
     ((s.entryStart 1).lane 1).state = .idle ∧
       (s.entryStart 1).posts.map (fun p => p.event) = [.entryDone 1 ⟨2, 7⟩ 0x0B .segmentGone 0 false]) ∧
    (let t := (busy.setClaims 1 [.append ⟨2, 7⟩ 1 0x0011, .release ⟨2, 7⟩ 0 none]).entryStart 1
     t.claimsOf 1 = [] ∧ (t.store.entry 1).length = 2 ∧ (t.store.entry 1).refs = 0 ∧ (t.lane 1).state = .stalled) := by
  decide +kernel

/-- RTN edges: none where RTN has not been judged inactive or at this tick only (R83); the first sample, and later ones
after 25499 and 25500 ticks, where the elapsed count reaches 254 and 255 (R119); none with the count complete or an append pending (R121). -/
theorem test_rtnEdgeSample : laneB.inactiveAt = some 19 ∧ laneB.capture.pendingAppend = none ∧ laneB.words < entryB.count ∧
    [(none, 20), (some 0, 99), (some 0, 100), (some 0, 25499), (some 0, 25500), (some 0, 30000)].map (fun x =>
      let s := onLane 1 { laneB with capture := { laneB.capture with prevSample := x.1 } }
      (after (.rtnEdgeSample 1) { s with time := { s.time with clock := x.2 } }).claimsOf 1) =
    [[.append ⟨2, 7⟩ 1 0x0000], [.append ⟨2, 7⟩ 1 0x0000], [.append ⟨2, 7⟩ 1 0x0100], [.append ⟨2, 7⟩ 1 0xFE00],
      [.append ⟨2, 7⟩ 1 0xFF00], [.append ⟨2, 7⟩ 1 0xFF00]] ∧
    [none, some 20].map (fun n => (after (.rtnEdgeSample 1) (onLane 1 { laneB with inactiveAt := n })).claimsOf 1) = [[], []] ∧
    [{ laneB with words := 3 }, { laneB with words := 4 }, { laneB with capture := { laneB.capture with pendingAppend := some 5 } }].map
      (fun ln => ((after (.rtnEdgeSample 1) (onLane 1 ln)).claimsOf 1).length) = [1, 0, 0] := by decide +kernel

/-- Answers to an append: stored below and at the count, FULL and GONE, and an answer to another entry (R122 to R124). -/
theorem test_appendAnswer :
    (let answered := fun (ln : Lane) (id : Nat) (r : AppendResult) =>
       let s := (onLane 1 { ln with capture := { ln.capture with pendingAppend := some 0x0105 } }).setAnswers 1 [{ entry := id, result := r }]
       let t := after (.appendAnswer 1) s
       ((t.lane 1).state, (t.lane 1).words, (t.lane 1).capture.lastKept, t.posts.length)
     [answered laneB 1 .stored, answered { laneB with words := 3 } 1 .stored, answered laneB 1 .full, answered laneB 1 .gone,
       answered { laneB with state := .holding .inWait } 1 .full, answered laneB 9 .full] =
     [(.stalled, 1, some 0x05, 0), (.idle, 0, none, 1), (.idle, 0, none, 1), (.idle, 0, none, 1),
       (.holding .betweenEntries, 0, none, 1), (.stalled, 0, none, 0)]) := by decide +kernel

/-! ## Marks and status reports -/

/-- MARK_SET of a mark with PASS and TAKE waiters, of one with none, of a SET one, and marks 7 and 8 (R136, R138). -/
theorem test_markSet : (asking busy .markSet [0]).waits 0 .markSet (request .markSet [0]) true ∧
    reply (busy.setMark 1 { isSet := false, waiters := [(0, .pass), (1, .take), (2, .pass)] }) .markSet [1] = some (okReply [2, 0]) ∧
    ((done (busy.setMark 1 { isSet := false, waiters := [(0, .pass), (1, .take), (2, .pass)] }) .markSet [1]).mark 1).waiters =
      [(2, .pass)] ∧
    reply busy .markSet [7] = some (okReply [0, 1]) ∧ status busy .markSet [8] = some .badParam ∧
    reply (busy.setMark 7 { isSet := true, waiters := [] }) .markSet [7] = some (okReply [0, 1]) :=
  ⟨asking_waits _ _, by decide +kernel⟩

/-- MARK_CLEAR of marks 0, 7 and 8; the waiter list stays (R140). -/
theorem test_markClear : (asking busy .markClear [0]).waits 0 .markClear (request .markClear [0]) true ∧
    reply (busy.setMark 7 { isSet := true, waiters := [] }) .markClear [7] = some (okReply [1]) ∧
    reply busy .markClear [0] = some (okReply [0]) ∧ ((done busy .markClear [0]).mark 0).waiters = [(2, .take)] ∧
    status busy .markClear [8] = some .badParam := ⟨asking_waits _ _, by decide +kernel⟩

/-- LANE_STATUS of a RUNNING and of an OFF lane, MARK_STATUS and DEVICE_STATUS (tables 10-4 and 10-7). -/
theorem test_status_reports : (asking busy .laneStatus [0]).waits 0 .laneStatus (request .laneStatus [0]) true ∧
    (asking busy .markStatus []).waits 0 .markStatus (request .markStatus []) true ∧
    (asking busy .deviceStatus []).waits 0 .deviceStatus (request .deviceStatus []) true ∧
    reply busy .laneStatus [0] = some (okReply [3, 0, 0, 1, 0xFF, 2, 1, 0x0A, 0, 1, 0, 1, 0, 0xF4, 0x01]) ∧
    reply busy .laneStatus [3] = some (okReply [0, 0, 0xFF, 0xFF, 0xFF, 0, 0, 0, 0, 0, 0, 0, 0, 0, 0]) ∧
    status busy .laneStatus [4] = some .badParam ∧
    (reply busy .markStatus []).map (fun r => r.results.take 5) = some [0, 0x82, 0xFF, 0xFF, 0xFF] ∧
    reply busy .deviceStatus [] =
      some (okReply [0x04, 0x32, 0x01, 0, 0xFC, 0x03, 4, 0, 3, 0, 0, 0, 0, 0, 60, 2, 1, 1, 0, 0, 0, 0]) :=
  ⟨asking_waits _ _, asking_waits _ _, asking_waits _ _, by decide +kernel⟩

/-! ## Events -/

/-- Filing with 15 and 16 records and with lost counts 65534 and 65535, and a masked kind (R149). -/
theorem test_eventPost :
    (let s := fun (n lost : Nat) =>
       { busy.setEvents 0 { EventQueue.reset with queue := List.replicate n ⟨0, 0, .withdrawn⟩, lost := lost } with posts := [granted] }
     ((s 15 0).postsFor 0)[0]? = some granted ∧
     [(15, 0), (16, 0), (16, 65534), (16, 65535)].map (fun x =>
       let q := (after (.eventPost 0 0) (s x.1 x.2)).eventsOf 0
       (q.queue.length, q.lost, q.seq)) = [(16, 0, 1), (16, 1, 0), (16, 65535, 0), (16, 65535, 0)]) ∧
    (let s := { busy with posts := [{ granted with event := .segmentFreed ⟨1, 1⟩ }] }
     let masked := s.setEvents 0 { EventQueue.reset with mask := { EventMask.all with freed := false } }
     ((after (.eventPost 0 0) masked).eventsOf 0).queue = [] ∧ (after (.eventPost 0 0) masked).posts = [] ∧
       ((after (.eventPost 0 0) s).eventsOf 0).queue.length = 2) := by decide +kernel

/-- Which posts come before which (R150): of one block to one host; a post of the Lease Controller numbered below the drain order that led
to the later one, at 3, 4 and 5 below 4; and a post of a lane ranked below what led to it. The command takes the later one only where
the earlier one does not come before it. -/
theorem test_eventPost_order :
    let done0 : Post := { host := 0, stamp := 7, event := .entryDone 0 ⟨1, 1⟩ 0 .complete 1 false, rank := 1, after := none, order := none }
    let freed : Post := { host := 0, stamp := 7, event := .segmentFreed ⟨1, 1⟩, rank := 0, after := some (0, 2), order := some 4 }
    granted.before done0 = false ∧ granted.before granted = true ∧ granted.before { granted with host := 1 } = false ∧
      [3, 4, 5].map (fun n => Post.before { granted with rank := n } freed) = [true, false, false] ∧
      [1, 2].map (fun n => Post.before { done0 with rank := n } freed) = [true, false] ∧
      Post.before { done0 with event := .entryDone 1 ⟨1, 1⟩ 0 .complete 1 false } freed = false ∧
      [0, 1, 2].map (fun i => (after (.eventPost 0 i) { State.reset with posts := [done0, granted] }).posts) =
        [[granted], [done0], [done0, granted]] ∧
      (after (.eventPost 0 1) { State.reset with posts := [done0, freed] }).posts = [done0, freed] ∧
      (after (.eventPost 0 0) { State.reset with posts := [done0, freed] }).posts = [freed] := by decide +kernel

/-- The records of the FETCH example of section 10.4, byte for byte. -/
theorem test_fetch_example :
    recordBytes { seq := 0x0102, stamp := 0x0001E240, event := .entryDone 3 ⟨6, 2⟩ 0x0C00 .complete 4 false } =
      [0x02, 0x01, 0x02, 0x40, 0xE2, 0x01, 0x00, 0x03, 0x06, 0x02, 0x00, 0x0C, 0x01, 0x04, 0x00] ∧
    recordBytes { seq := 0x0103, stamp := 0x0001E240, event := .leaseGranted 0 1500 } =
      [0x03, 0x01, 0x03, 0x40, 0xE2, 0x01, 0x00, 0x00, 0x00, 0x00, 0x00, 0x00, 0x00, 0xDC, 0x05] := by decide +kernel

/-- FETCH: counts 0, 4 and 5, an empty queue, and EVENTS_LOST (R153). -/
theorem test_fetch : (asking busy .fetch [1]).waits 0 .fetch (request .fetch [1]) true ∧
    [0, 4, 5].map (fun n => status busy .fetch [n]) = [some .badParam, some .ok, some .badParam] ∧
    reply State.reset .fetch [1] = some (okReply [0, 0]) ∧ ((done busy .fetch [1]).eventsOf 0).attn = .high ∧
    (let q := (done (busy.setEvents 0 { EventQueue.reset with
        queue := List.replicate 16 ⟨0, 0, .withdrawn⟩, lost := 3, seq := 16, attn := .low }) .fetch [1]).eventsOf 0
     q.queue.length = 16 ∧ q.lost = 0 ∧ q.queue.getLast? = some ⟨16, 0, .eventsLost 3⟩) := ⟨asking_waits _ _, by decide +kernel⟩

/-- EVENT_MASK: settings 0, 1 and 2 (R155). -/
theorem test_eventMask : (asking busy .eventMask [0, 1, 1]).waits 0 .eventMask (request .eventMask [0, 1, 1]) true ∧
    reply busy .eventMask [0, 1, 1] = some (okReply [1, 1, 1]) ∧
    ((done busy .eventMask [0, 1, 1]).eventsOf 0).mask = { started := false, done := true, freed := true } ∧
    status busy .eventMask [0, 1, 2] = some .badParam := ⟨asking_waits _ _, by decide +kernel⟩

/-! ## Supervision and withdrawal -/

/-- PURGE of hosts 0, 2 and 3, and by a host that is no supervisor (R31). -/
theorem test_purge : (asking busy .purge [0]).waits 0 .purge (request .purge [0]) true ∧
    reply busy .purge [0] = some (okReply [1, 2]) ∧ reply busy .purge [2] = some (okReply [0, 0]) ∧
    status busy .purge [3] = some .badParam ∧ status { busy with supervisor := none } .purge [0] = some .notPermitted :=
  ⟨asking_waits _ _, by decide +kernel⟩

/-- EVICT and DETACH leave a withdrawal and the port EXECUTING (R187, R188). -/
theorem test_withdraw : (asking busy .evict [1]).waits 0 .evict (request .evict [1]) true ∧
    (asking busy .detach []).waits 0 .detach (request .detach []) true ∧
    ((done busy .evict [2]).withdrawals.map (fun w => (w.host, w.cause))) = [(2, .evicted)] ∧
    ((done busy .evict [2]).link 0).port = .executing ∧ status busy .evict [3] = some .badParam ∧
    ((done busy .detach []).withdrawals.map (fun w => (w.host, w.cause))) = [(0, .detached)] :=
  ⟨asking_waits _ _, asking_waits _ _, by decide +kernel⟩

/-- A withdrawal of host 0 with its first two parts taken or not; its part of the Lease Controller used the numbers 2 and 3. -/
def withdrawal (leases segments : Bool) : Withdrawal :=
  { host := 0, cause := .evicted, leaseTaken := leases, segmentTaken := segments, leasesEnded := 2, claimsRemoved := 0,
    firstOrder := 2, endOrder := 4, answer := some (0, request .evict [0]) }

/-- The busy state with such a withdrawal. -/
def withdrawing (leases segments : Bool) : State := { busy with withdrawals := [withdrawal leases segments] }

/-- The first two parts of a withdrawal: what they do, and a second taking that does nothing (R32, R57). -/
theorem test_withdrawalParts :
    (withdrawing false false).withdrawals[0]? = some (withdrawal false false) ∧
    (let t := after (.withdrawalLeasePart 0) (withdrawing false false)
     (t.lease 0).holder = some 1 ∧ (t.lane 1).state = .off ∧ (t.lane 2).state = .markwait ∧
       t.posts = [{ host := 1, stamp := 0, event := .leaseGranted 0 300, rank := 1, after := none, order := none }] ∧
       t.claimsOf 0 = [.release ⟨1, 1⟩ 1 (some 0), .release ⟨1, 1⟩ 1 (some 0)] ∧ t.claimsOf 1 = [.release ⟨2, 7⟩ 3 (some 2)] ∧
       t.withdrawals.map (fun w => (w.leaseTaken, w.leasesEnded, w.firstOrder, w.endOrder)) = [(true, 2, 0, 3)] ∧
       (after (.withdrawalSegmentPart 0) t).withdrawals.map (fun w => w.segmentTaken) = [true]) ∧
    (let t := after (.withdrawalSegmentPart 0) (withdrawing false false)
     (t.store.entry 0).state = .condemned ∧ (t.store.entry 0).notifyOnFree = false ∧ (t.store.entry 3).state = .free ∧
       (t.store.entry 2).notifyOnFree = true) ∧
    after (.withdrawalLeasePart 0) (withdrawing true true) = withdrawing true true ∧
    after (.withdrawalSegmentPart 0) (withdrawing true true) = withdrawing true true := by decide +kernel

/-- The Event Unit's part (R158, R189): not before the others; not while a post to the host waits, a LEASE_GRANTED numbered 2 or 3, a
SEGMENT_FREED of such a drain order, or a release of one; not held up by others. -/
theorem test_withdrawalEventPart :
    [withdrawing false true, withdrawing true false].map (fun s => (after (.withdrawalEventPart 0) s).withdrawals.length) = [1, 1] ∧
    (let other : Post := { granted with host := 1 }
     let freed : Post := { other with event := .segmentFreed ⟨1, 1⟩ }
     [[], [granted], [{ other with rank := 1 }], [{ other with rank := 2 }], [{ other with rank := 3 }], [{ other with rank := 4 }],
       [{ freed with order := some 1 }], [{ freed with order := some 2 }], [{ freed with order := some 4 }]].map (fun posts =>
         (after (.withdrawalEventPart 0) { withdrawing true true with posts := posts }).withdrawals.length) =
      [0, 1, 0, 1, 1, 0, 0, 1, 0]) ∧
    [none, some 1, some 2, some 3, some 4].map (fun order =>
      (after (.withdrawalEventPart 0) ((withdrawing true true).setClaims 1 [.release ⟨2, 7⟩ 1 order])).withdrawals.length) =
      [0, 0, 1, 1, 0] ∧
    (let t := after (.withdrawalEventPart 0) (withdrawing true true)
     (t.eventsOf 0).queue = [{ seq := 1, stamp := 0, event := .withdrawn }] ∧ (t.eventsOf 0).attn = .low ∧
       (t.link 0).replay.map (fun r => r.reply) = some (okReply [0, 2, 0])) := by decide +kernel

/-! ## Invariants -/

/-- The busy state meets every invariant and has a next step that changes it. -/
theorem test_invariants : busy.store.wf ∧ busy.store.quotaKept ∧ busy.referencesCounted ∧ busy.entriesOk ∧ busy.eventsOk ∧
    busy.linksOk ∧ busy.stampsOk ∧ busy.lanesOk ∧ ∃ t, step busy = .next t ∧ (t.lane 0).words = 2 :=
  ⟨busy_store.1, busy_store.2, busy_references, busy_entriesOk, busy_eventsOk, busy_linksOk, busy_stampsOk, busy_lanesOk,
    after (.stepBoundary 0) busy, by
    have h : busy.internal = some (.stepBoundary 0) := by decide +kernel
    show (match busy.internal with | some c => exec c busy | none => .next busy.tick) = .next (after (.stepBoundary 0) busy)
    rw [h]
    rfl, by decide +kernel⟩

end Sys2Proof.Tests
end

section
/-! RELEASE from a host that does not hold the lane (R47). -/

namespace Sys2Proof.Machine

/-- A RELEASE that waits is decided by the Lease Controller and answered. -/
theorem exec_release_of_waits {s : State} {k : HostId} {req : Request} {live : Bool} (hw : s.waits k .release req live) :
    exec (.release k) s =
      .next ((releaseRequest s k req.params).1.answer k req live (releaseRequest s k req.params).2) :=
  congrArg Host.Outcome.next (decide_of_waits hw (releaseRequest s k))

theorem waitsFor_iff (s : State) (k : HostId) (l : LaneId) :
    s.waitsFor k l = true ↔ ∃ w ∈ (s.lease l).waiters, w.host = k := by
  simp [State.waitsFor]

/-- A host that does not hold the lane leaves its waiter list, or is refused where it is not on it (R47). -/
theorem releaseRequest_of_not_holder {s : State} {k : HostId} {p : List Byte} {l : LaneId}
    (hl : decodeLane (byteAt p 0) = some l) (hk : (s.lease l).holder ≠ some k) :
    releaseRequest s k p =
      if s.waitsFor k l then
        (s.setLease l { (s.lease l) with waiters := withoutHost (s.lease l).waiters k }, ⟨.waitCancelled, []⟩)
      else (s, refusal .notHolder) := by
  simp only [releaseRequest, hl, if_neg hk]

/-- Settles O25, by whether the host is on the lane's waiter list. -/
theorem releaseByANonHolder : Obligations.ReleaseByANonHolder := by
  intro s k req live l hw hl hk
  have hd := releaseRequest_of_not_holder ((decodeLane_iff _ l).2 hl) hk
  refine ⟨_, exec_release_of_waits hw, ?_⟩
  rw [hd]
  by_cases hq : ∃ w ∈ (s.lease l).waiters, w.host = k
  · rw [if_pos hq, if_pos ((waitsFor_iff s k l).2 hq)]
    exact answered_from rfl k req live _ _ rfl
  · rw [if_neg hq, if_neg (mt (waitsFor_iff s k l).1 hq)]
    exact refused_of k req live .notHolder

end Sys2Proof.Machine
end

section
/-! MARK_CLEAR (R140). -/

namespace Sys2Proof.Machine

/-- A MARK_CLEAR that waits is decided by the Mark Unit and answered. -/
theorem exec_markClear_of_waits {s : State} {k : HostId} {req : Request} {live : Bool} (hw : s.waits k .markClear req live) :
    exec (.markClear k) s =
      .next ((markClearRequest s req.params).1.answer k req live (markClearRequest s req.params).2) :=
  congrArg Host.Outcome.next (decide_of_waits hw (markClearRequest s))

/-- A byte decodes to a mark exactly when it is the mark's code. -/
theorem decodeMark_iff (b : Byte) (m : MarkId) : decodeMark b = some m ↔ b.toNat = m.val := by
  unfold decodeMark
  split
  · simp [Fin.ext_iff]
  · simp; omega

/-- A byte decodes to no mark exactly when it lies above M7's code. -/
theorem decodeMark_eq_none_iff (b : Byte) : decodeMark b = none ↔ 7 < b.toNat := by
  unfold decodeMark
  split <;> simp <;> omega

theorem markClearRequest_of_none {s : State} {p : List Byte} (hm : decodeMark (byteAt p 0) = none) :
    markClearRequest s p = (s, refusal .badParam) := by
  simp only [markClearRequest, hm]

theorem markClearRequest_of_mark {s : State} {p : List Byte} {m : MarkId} (hm : decodeMark (byteAt p 0) = some m) :
    markClearRequest s p =
      (s.setMark m { isSet := false, waiters := (s.mark m).waiters }, okReply [if (s.mark m).isSet then 1 else 0]) := by
  simp only [markClearRequest, hm]
  rfl

/-- Settles O49, by whether the parameter names a mark. -/
theorem markClearTouchesNoWaiter : Obligations.MarkClearTouchesNoWaiter := by
  intro s k req live hw
  refine ⟨_, exec_markClear_of_waits hw, fun hb => ?_, fun m hb => ?_⟩
  · rw [markClearRequest_of_none ((decodeMark_eq_none_iff _).2 hb)]
    exact refused_of k req live .badParam
  · rw [markClearRequest_of_mark ((decodeMark_iff _ m).2 hb)]
    exact answered_from (State.setMark_links s m _) k req live _ _ rfl

end Sys2Proof.Machine
end

section
/-! EVENT_MASK (R155). -/

namespace Sys2Proof.Machine

/-- An EVENT_MASK that waits is decided by the Event Unit and answered. -/
theorem exec_eventMask_of_waits {s : State} {k : HostId} {req : Request} {live : Bool} (hw : s.waits k .eventMask req live) :
    exec (.eventMask k) s =
      .next ((eventMaskRequest s k req.params).1.answer k req live (eventMaskRequest s k req.params).2) :=
  congrArg Host.Outcome.next (decide_of_waits hw (eventMaskRequest s k))

/-- A byte is no flag exactly when it is neither 0 nor 1 (R193). -/
theorem decodeFlag_eq_none_iff (b : Byte) : decodeFlag b = none ↔ 1 < b.toNat := by
  unfold decodeFlag
  split_ifs with h0 h1
  · simp [h0]
  · simp [h1]
  · simp; bv_omega

/-- A byte that is a flag is read as whether it is 1 (R193). -/
theorem decodeFlag_of_le {b : Byte} (h : b.toNat ≤ 1) : decodeFlag b = some (b == 1) := by
  unfold decodeFlag
  split_ifs with h0 h1
  · simp [h0]
  · simp [h1]
  · bv_omega

/-- One setting that is neither enabled nor disabled refuses the whole request (R155). -/
theorem eventMaskRequest_of_none {s : State} {k : HostId} {p : List Byte}
    (h : decodeFlag (byteAt p 0) = none ∨ decodeFlag (byteAt p 1) = none ∨ decodeFlag (byteAt p 2) = none) :
    eventMaskRequest s k p = (s, refusal .badParam) := by
  unfold eventMaskRequest
  split
  next h0 h1 h2 => simp [h0, h1, h2] at h
  next => rfl

theorem eventMaskRequest_of_flags {s : State} {k : HostId} {p : List Byte} {started done freed : Bool}
    (h0 : decodeFlag (byteAt p 0) = some started) (h1 : decodeFlag (byteAt p 1) = some done)
    (h2 : decodeFlag (byteAt p 2) = some freed) :
    eventMaskRequest s k p =
      (s.setEvents k { (s.eventsOf k) with mask := { started := started, done := done, freed := freed } },
       okReply (maskBytes (s.eventsOf k).mask)) := by
  simp only [eventMaskRequest, h0, h1, h2]

/-- Settles O53, by whether each of the three settings is a flag. -/
theorem eventMaskReplacesTheMask : Obligations.EventMaskReplacesTheMask := by
  intro s k req live hw
  refine ⟨_, exec_eventMask_of_waits hw, ?_⟩
  dsimp only
  split
  case isTrue hb =>
    simp only [← decodeFlag_eq_none_iff] at hb
    rw [eventMaskRequest_of_none hb]
    exact refused_of k req live .badParam
  case isFalse hb =>
    simp only [not_or, Nat.not_lt] at hb
    obtain ⟨h0, h1, h2⟩ := hb
    rw [eventMaskRequest_of_flags (decodeFlag_of_le h0) (decodeFlag_of_le h1) (decodeFlag_of_le h2)]
    exact answered_from (State.setEvents_links s k _) k req live _ _ rfl

end Sys2Proof.Machine
end

section
/-! SUPPORT. What every proof about a step begins with: a step is one command or one tick, every command completes, and a request
command changes what its owner changes, and the links. -/

namespace Sys2Proof.Machine

theorem exec_completes (c : Instr) (s : State) : ∃ t, exec c s = .next t := by
  cases c <;> exact ⟨_, rfl⟩

/-- A step runs one command, the front one with the rest of the queue left or an inside event, or lets one tick pass. -/
theorem step_cases {s t : State} (h : step s = .next t) :
    (∃ c rest, exec c { s with pending := rest } = .next t) ∨ t = s.tick := by
  unfold step at h
  split at h
  · exact .inl ⟨_, _, h⟩
  · split at h
    · exact .inl ⟨_, s.pending, h⟩
    · exact .inr (Host.Outcome.next.inj h).symm

/-- What the links do not show holds after a request command where it held before and its owner keeps it. -/
theorem decide_keeps {P : State → Prop} (hl : ∀ u v : State, P u → v = { u with links := v.links } → P v) {s : State} (h : P s)
    (k : HostId) (kind : RequestKind) {owner : List Byte → State × Reply} (ho : ∀ p, P (owner p).1) :
    P (s.decide k kind owner) := by
  obtain he | ⟨req, live, -, -, he⟩ := decide_cases s k kind owner
  · rw [he]; exact h
  · rw [he]; exact hl _ _ (ho req.params) (answer_eq _ _ _ _ _)

/-- The lane of a request belongs to the host that made it (R37). -/
theorem laneOfHolder_holder {s : State} {k : HostId} {p : List Byte} {l : LaneId} (h : laneOfHolder s k p = .ok l) :
    (s.lease l).holder = some k := by
  unfold laneOfHolder at h
  split at h
  · cases h
  · split at h
    · cases h; assumption
    · cases h

/-! ## What the owner of a request can touch -/

/-- The blocks that decide requests leave alone what is not theirs: reset level, straps, time, event queues, links, withdrawals,
inputs and the commands that wait. Only FETCH and EVENT_MASK are left out, which the Event Unit decides. -/
def OwnerFrame (s t : State) : Prop :=
  t = { s with
    store := t.store, leases := t.leases, lanes := t.lanes, claims := t.claims, answers := t.answers, marks := t.marks,
    posts := t.posts, nextEntryId := t.nextEntryId, orderCount := t.orderCount }

theorem OwnerFrame.refl (s : State) : OwnerFrame s s := rfl

theorem OwnerFrame.trans {s t u : State} (h : OwnerFrame s t) (g : OwnerFrame t u) : OwnerFrame s u := by
  unfold OwnerFrame at h g ⊢
  rw [h] at g
  exact g

theorem LaneFrame.owner {s t : State} (h : LaneFrame s t) : OwnerFrame s t := by obtain ⟨_, _, _, _, _, rfl⟩ := h; rfl
theorem StoreFrame.owner {s t : State} (h : StoreFrame s t) : OwnerFrame s t := by obtain ⟨_, _, _, _, rfl⟩ := h; rfl
theorem StartFrame.owner {s t : State} (h : StartFrame s t) : OwnerFrame s t := by
  obtain ⟨⟨_, _, _, _, _, _, _, rfl⟩, -⟩ := h; rfl
theorem LeaseFrame.owner {s t : State} (h : LeaseFrame s t) : OwnerFrame s t := by
  obtain ⟨_, _, _, _, _, _, rfl⟩ := h; rfl
theorem setStore_owner (s : State) (v : Store) : OwnerFrame s (s.setStore v) := rfl

/-! ## What each owner does -/

section
variable (s : State) (k : HostId) (p : List Byte)

/-- A request of the Segment Manager changes its store and nothing else. -/
def StoreOnly (t : State) : Prop := ∃ v, t = s.setStore v

theorem StoreOnly.refl : StoreOnly s s := ⟨s.store, rfl⟩

theorem defineRequest_storeOnly : StoreOnly s (defineRequest s k p).1 := by
  unfold defineRequest
  dsimp only
  repeat' split
  all_goals exact ⟨_, rfl⟩

theorem extendRequest_storeOnly : StoreOnly s (extendRequest s k p).1 := by
  unfold extendRequest
  dsimp only
  repeat' split
  all_goals exact ⟨_, rfl⟩

theorem writeRequest_storeOnly : StoreOnly s (writeRequest s k p).1 := by
  unfold writeRequest
  dsimp only
  repeat' split
  all_goals exact ⟨_, rfl⟩

theorem readRequest_storeOnly : StoreOnly s (readRequest s k p).1 := by
  unfold readRequest
  dsimp only
  repeat' split
  all_goals exact ⟨_, rfl⟩

theorem publishRequest_storeOnly : StoreOnly s (publishRequest s k p).1 := by
  unfold publishRequest
  dsimp only
  repeat' split
  all_goals exact ⟨_, rfl⟩

theorem deleteRequest_storeOnly : StoreOnly s (deleteRequest s k p).1 := by
  unfold deleteRequest
  dsimp only
  repeat' split
  all_goals exact ⟨_, rfl⟩

theorem catalogRequest_storeOnly : StoreOnly s (catalogRequest s k p).1 := by
  unfold catalogRequest
  dsimp only
  repeat' split
  all_goals exact ⟨_, rfl⟩

theorem queryRequest_storeOnly : StoreOnly s (queryRequest s k p).1 := by
  unfold queryRequest
  dsimp only
  repeat' split
  all_goals exact ⟨_, rfl⟩

theorem purgeRequest_storeOnly : StoreOnly s (purgeRequest s k p).1 := by
  unfold purgeRequest
  dsimp only
  repeat' split
  all_goals exact ⟨_, rfl⟩

theorem StoreOnly.owner {t : State} (h : StoreOnly s t) : OwnerFrame s t := by
  obtain ⟨v, rfl⟩ := h; exact setStore_owner s v

theorem claimRequest_owner : OwnerFrame s (claimRequest s k p).1 := by
  unfold claimRequest
  dsimp only
  repeat' split
  all_goals rfl

theorem renewRequest_owner : OwnerFrame s (renewRequest s k p).1 := by
  unfold renewRequest
  dsimp only
  repeat' split
  all_goals rfl

theorem releaseRequest_owner : OwnerFrame s (releaseRequest s k p).1 := by
  unfold releaseRequest
  repeat' split
  · rfl
  · dsimp only; exact (endLease_frame s _ _).owner
  all_goals rfl

theorem configureRequest_owner : OwnerFrame s (configureRequest s k p).1 := by
  unfold configureRequest
  repeat' split
  · rfl
  · rfl
  · exact (configureLane_frame s _ _ _ _).owner
  · rfl

theorem revoke_owner (l : LaneId) (former : HostId) (target : Option HostId) : OwnerFrame s (s.revoke l former target) := by
  have h := (postLease_frame s former (.leaseLost l .revoked)).owner.trans
    ((closeLease_frame _ l .revoked).owner.trans (settleClaims_frame _ l).owner)
  unfold State.revoke
  dsimp only
  split
  · exact h.trans (grantHead_frame _ l).owner
  · exact h.trans (grantTo_frame _ l _).owner

theorem revokeRequest_owner : OwnerFrame s (revokeRequest s k p).1 := by
  unfold revokeRequest
  repeat' split
  · rfl
  · rfl
  · exact revoke_owner s _ _ _
  · rfl

theorem acceptEntry_owner (l : LaneId) (i : Slot) (e : Entry) : OwnerFrame s (s.acceptEntry l i e) := by
  unfold State.acceptEntry
  dsimp only
  split
  · exact OwnerFrame.trans (by rfl) (entryStart_frame _ l).owner
  · rfl

theorem enqueueRequest_owner : OwnerFrame s (enqueueRequest s k p).1 := by
  unfold enqueueRequest
  dsimp only
  have h := fun l => (settleRelease_frame s l).owner.trans (settleClaims_frame _ l).owner
  repeat' split
  · rfl
  · rfl
  · rfl
  · exact h _
  · exact (h _).trans (acceptEntry_owner _ _ _ _)

theorem flushRequest_owner : OwnerFrame s (flushRequest s k p).1 := by
  unfold flushRequest
  split
  · rfl
  · exact (settleRelease_frame s _).owner.trans (flushLane_frame _ _).owner

theorem abortRequest_owner : OwnerFrame s (abortRequest s k p).1 := by
  unfold abortRequest
  split
  · rfl
  · exact (settleRelease_frame s _).owner.trans (abortLane_frame _ _).owner

theorem holdRequest_owner : OwnerFrame s (holdRequest s k p).1 := by
  unfold holdRequest
  split
  · rfl
  · exact (settleRelease_frame s _).owner.trans (holdByState_frame _ _).owner

theorem resumeRequest_owner : OwnerFrame s (resumeRequest s k p).1 := by
  unfold resumeRequest
  split
  · rfl
  · exact (settleRelease_frame s _).owner.trans (resumeByState_frame _ _).owner

theorem retimeRequest_owner : OwnerFrame s (retimeRequest s k p).1 := by
  unfold retimeRequest
  split
  · rfl
  · exact (settleRelease_frame s _).owner.trans (retimeLane_frame _ _ _).owner

theorem markSetRequest_owner : OwnerFrame s (markSetRequest s p).1 := by
  unfold markSetRequest
  split
  · rfl
  · exact (settleMark_frame s _ none).owner

theorem markClearRequest_owner : OwnerFrame s (markClearRequest s p).1 := by
  unfold markClearRequest
  split <;> rfl

theorem laneStatusRequest_owner : OwnerFrame s (laneStatusRequest s p).1 := by
  unfold laneStatusRequest
  split <;> rfl

end

end Sys2Proof.Machine
end

section
/-! Every step keeps lanes, leases and marks consistent (section 2.1, section 3.1, R133). -/

namespace Sys2Proof.Machine

variable {s : State} {l : LaneId}

/-! ## The requests of the Lease Controller -/

theorem waitersOk_append {ws : List WaitingClaim} (h : WaitersOk ws) {k : HostId} (hk : ∀ w ∈ ws, w.host ≠ k) {d : Nat}
    (hd : validDuration d = true) : WaitersOk (ws ++ [⟨k, d⟩]) := by
  simp only [validDuration, Bool.and_eq_true, decide_eq_true_eq] at hd
  refine ⟨?_, fun w hw => ?_⟩
  · simp only [List.map_append, List.map_cons, List.map_nil, List.nodup_append, List.nodup_singleton, List.mem_map,
      List.mem_singleton, true_and]
    refine ⟨h.1, ?_⟩
    rintro _ ⟨w, hw, rfl⟩ _ rfl
    exact hk w hw
  · obtain hw | rfl := by simpa using hw
    exacts [h.2 w hw, hd]

/-- A lane without a holder stands empty, its record at its reset values (R36, R37). -/
theorem vacant_of_noHolder (h : s.lanesOk) (hh : (s.lease l).holder = none) : Vacant l s := by
  have hr := (h.2.1 l).2.1 hh
  have hoff : (s.lane l).state = .off := (h.2.1 l).1.1 hh
  obtain ⟨hm, hj⟩ := (lanesOk_iff s).1 h
  obtain ⟨hw, -, ht⟩ := hj l
  refine ⟨hm, fun j _ => hj j, by rw [ht, hoff]; rfl, hw.2.2.2.1 hoff, h.waiters, by rw [hr]⟩

theorem claimRequest_ok (h : s.lanesOk) (k : HostId) (p : List Byte) : (claimRequest s k p).1.lanesOk := by
  unfold claimRequest
  dsimp only
  split
  case h_2 => exact h
  case h_1 l wait _ _ =>
    split
    case isTrue => exact h
    case isFalse hd =>
      rw [Bool.not_eq_false] at hd
      split
      case h_1 hh =>
        have hg := (vacant_of_noHolder h hh).grant_ok [] ⟨by simp, by simp⟩ k (by simp) (u16At p 1)
          (by simpa [validDuration] using hd)
        have hw : (s.lease l).waiters = [] := by rw [(h.2.1 l).2.1 hh]; rfl
        rw [show s.setLease l { (s.lease l) with waiters := [] } = s by
          rw [← hw]; unfold State.setLease State.lease; rw [Bank.upd_sel_self]] at hg
        exact hg
      case h_2 holder hh =>
        split_ifs with hk hq
        · exact h
        · exact h
        · obtain ⟨h1, -, h3, h3', -, -, h6⟩ := h.2.1 l
          have hne : ∀ w ∈ (s.lease l).waiters, w.host ≠ k := fun w hw e => hq ((waitsFor_iff s k l).2 ⟨w, hw, e⟩)
          have hW := waitersOk_append h.waiters hne hd
          have hlen : ∀ w ∈ (s.lease l).waiters ++ [⟨k, u16At p 1⟩], w.host ≠ holder := by
            intro w hw
            obtain hw | rfl := by simpa using hw
            · exact fun e => (h6 w hw).1 (by rw [hh, e])
            · exact fun e => hk e.symm
          refine setLease_ok h _ ⟨h1, fun e => ?_, h3, h3', waiters_length hW.1 hlen, hW.1,
            fun w hw => ⟨fun e => hlen w hw ?_, hW.2 w hw⟩⟩
          · exact absurd (hh.symm.trans e) (by simp)
          · exact (Option.some.inj (hh.symm.trans e)).symm
        · exact h

theorem renewRequest_ok (h : s.lanesOk) (k : HostId) (p : List Byte) : (renewRequest s k p).1.lanesOk := by
  unfold renewRequest
  dsimp only
  split
  · exact h
  · rename_i l _
    split_ifs with ha hh h0 <;> try exact h
    all_goals
      rw [not_not] at hh
      obtain ⟨h1, -, h3, -, h4⟩ := h.2.1 l
      have hn : (s.lease l).holder ≠ none := by rw [hh]; simp
      obtain ⟨a, b, -, -⟩ := h3 hn
    · exact setLease_ok h _ ⟨h1, fun e => absurd e hn, fun _ => ⟨a, b, by dsimp only; omega, le_refl _⟩, nofun, h4⟩
    · have hv : 10 ≤ u16At p 1 ∧ u16At p 1 ≤ 60000 := by simpa [h0, validDuration] using ha
      exact setLease_ok h _ ⟨h1, fun e => absurd e hn, fun _ => ⟨hv.1, hv.2, by dsimp only; omega, le_refl _⟩, nofun, h4⟩

theorem releaseRequest_ok (h : s.lanesOk) (k : HostId) (p : List Byte) : (releaseRequest s k p).1.lanesOk := by
  unfold releaseRequest
  split
  · exact h
  · split
    · rename_i hh; dsimp only; exact endLease_ok h (by rw [hh]; simp) _
    · split
      · exact withoutHost_lanesOk h k
      · exact h

theorem configureRequest_ok (h : s.lanesOk) (k : HostId) (p : List Byte) : (configureRequest s k p).1.lanesOk := by
  unfold configureRequest
  split
  · split_ifs with hh hc
    · exact h
    · exact h
    · rw [not_not] at hh
      exact configureLane_ok h (by rw [hh]; simp) _ _ _
  · exact h

theorem revokeRequest_ok (h : s.lanesOk) (k : HostId) (p : List Byte) : (revokeRequest s k p).1.lanesOk := by
  unfold revokeRequest
  split
  · exact h
  · split
    · split
      · exact h
      · rename_i hh; exact revoke_ok h (by rw [hh]; simp) _ _
    · exact h

/-! ## The requests of a lane -/

theorem settleClaims_lanesOk (h : s.lanesOk) (l : LaneId) : (s.settleClaims l).lanesOk :=
  have hf := settleClaims_frame s l
  lanesOk_congr h hf.lanes hf.leases hf.marks

/-- A lane with a holder stays out of OFF as its release is settled. -/
theorem settleRelease_on (h : s.lanesOk) (hh : (s.lease l).holder ≠ none) : ((s.settleRelease l).lane l).state ≠ .off :=
  (settleRelease_ok h).on_of_holder (by rw [(settleRelease_frame s l).lease]; exact hh)

theorem takeCheck_room {st : Store} {k : HostId} {kind : EntryKind} {r : SegmentRef} {o n : Nat} {room : Bool} {i : Slot}
    (h : st.takeCheck k kind r o n room = .ok i) : room = true := by
  unfold Store.takeCheck at h
  split at h
  · cases h
  · dsimp only at h
    cases kind <;> dsimp only at h <;> split_ifs at h <;> assumption

theorem enqueueRequest_ok (h : s.lanesOk) (k : HostId) (p : List Byte) : (enqueueRequest s k p).1.lanesOk := by
  unfold enqueueRequest
  split
  · exact h
  · rename_i l hl
    have hh : (s.lease l).holder ≠ none := by rw [laneOfHolder_holder hl]; simp
    have ht := settleClaims_lanesOk (settleRelease_ok (l := l) h) l
    have hon : (((s.settleRelease l).settleClaims l).lane l).state ≠ .off := by
      rw [(settleClaims_frame _ l).lane]; exact settleRelease_on h hh
    split
    · exact h
    · split
      · exact h
      · dsimp only
        split
        · exact ht
        · rename_i hc
          exact acceptEntry_ok ht hon (of_decide_eq_true (takeCheck_room hc)) _ _

/-- FLUSH, ABORT, HOLD, RESUME and RETIME let a released lane proceed and then act on it (log 9). -/
theorem laneRequest_ok (h : s.lanesOk) {k : HostId} {p : List Byte} {f : LaneId → State × Reply}
    (hf : ∀ l, (s.settleRelease l).lanesOk → ((s.settleRelease l).lane l).state ≠ .off → (f l).1.lanesOk) :
    (match laneOfHolder s k p with
      | .error status => (s, refusal status)
      | .ok l => f l).1.lanesOk := by
  split
  · exact h
  · rename_i l hl
    exact hf l (settleRelease_ok h) (settleRelease_on h (by rw [laneOfHolder_holder hl]; simp))

theorem flushRequest_ok (h : s.lanesOk) (k : HostId) (p : List Byte) : (flushRequest s k p).1.lanesOk :=
  laneRequest_ok h fun _ ht _ => flushLane_ok ht

theorem abortRequest_ok (h : s.lanesOk) (k : HostId) (p : List Byte) : (abortRequest s k p).1.lanesOk :=
  laneRequest_ok h fun _ ht hon => abortLane_ok ht hon

theorem holdRequest_ok (h : s.lanesOk) (k : HostId) (p : List Byte) : (holdRequest s k p).1.lanesOk :=
  laneRequest_ok h fun _ ht _ => holdByState_ok ht

theorem resumeRequest_ok (h : s.lanesOk) (k : HostId) (p : List Byte) : (resumeRequest s k p).1.lanesOk :=
  laneRequest_ok h fun _ ht _ => resumeByState_ok ht

theorem retimeRequest_ok (h : s.lanesOk) (k : HostId) (p : List Byte) : (retimeRequest s k p).1.lanesOk :=
  laneRequest_ok h fun _ ht _ => retimeLane_ok ht p

/-! ## The requests of the Mark Unit -/

theorem settleMark_lanesOk (h : s.lanesOk) (m : MarkId) (x : Option (LaneId × Nat)) : (s.settleMark m x).1.lanesOk := by
  rw [lanesOk_iff] at h ⊢
  obtain ⟨h1, h2, -⟩ := settleMark_ok s m x h.1
  exact ⟨h1, fun j => h2 j (h.2 j)⟩

theorem clearMark_lanesOk (h : s.lanesOk) (m : MarkId) :
    (s.setMark m { (s.mark m) with isSet := false }).lanesOk := by
  refine ⟨h.1, h.2.1, fun j hj => ?_, fun j => ?_⟩
  · rw [State.setMark_mark] at hj ⊢
    split at hj
    · simp at hj
    · rename_i hne; rw [if_neg hne]; exact h.2.2.1 j hj
  · have ht := timesWaiting_setMark s m { (s.mark m) with isSet := false } j
    rw [show ({ (s.mark m) with isSet := false } : Mark).times j = (s.mark m).times j from rfl] at ht
    rw [show (s.setMark m { (s.mark m) with isSet := false }).timesWaiting j = s.timesWaiting j by omega]
    exact h.2.2.2 j

theorem markSetRequest_ok (h : s.lanesOk) (p : List Byte) : (markSetRequest s p).1.lanesOk := by
  unfold markSetRequest
  split
  · exact h
  · exact settleMark_lanesOk h _ _

theorem markClearRequest_ok (h : s.lanesOk) (p : List Byte) : (markClearRequest s p).1.lanesOk := by
  unfold markClearRequest
  split
  · exact h
  · exact clearMark_lanesOk h _

/-! ## Commands that change no lane, lease or mark -/

/-- Lanes, leases and marks stand as they were. -/
def SameLanes (s t : State) : Prop := t.lanes = s.lanes ∧ t.leases = s.leases ∧ t.marks = s.marks

theorem SameLanes.ok {t : State} (h : SameLanes s t) (hs : s.lanesOk) : t.lanesOk := lanesOk_congr hs h.1 h.2.1 h.2.2

theorem SameLanes.refl (s : State) : SameLanes s s := ⟨rfl, rfl, rfl⟩

theorem SameLanes.setStore (s : State) (v : Store) : SameLanes s (s.setStore v) := ⟨rfl, rfl, rfl⟩

theorem SameLanes.links {t : State} (h : t = { s with links := t.links }) : SameLanes s t := by
  rw [h]; exact ⟨rfl, rfl, rfl⟩

theorem decide_lanesOk (h : s.lanesOk) (k : HostId) (kind : RequestKind) {owner : List Byte → State × Reply}
    (ho : ∀ p, (owner p).1.lanesOk) : (s.decide k kind owner).lanesOk :=
  decide_keeps (P := State.lanesOk) (fun _ _ hu e => (SameLanes.links e).ok hu) h k kind ho

theorem StoreOnly.lanesOk {t : State} (h : StoreOnly s t) (hs : s.lanesOk) : t.lanesOk := by
  obtain ⟨v, rfl⟩ := h; exact (SameLanes.setStore s v).ok hs

theorem fetchRequest_same (s : State) (k : HostId) (p : List Byte) : SameLanes s (fetchRequest s k p).1 := by
  unfold fetchRequest
  dsimp only
  split <;> exact ⟨rfl, rfl, rfl⟩

theorem eventMaskRequest_same (s : State) (k : HostId) (p : List Byte) : SameLanes s (eventMaskRequest s k p).1 := by
  unfold eventMaskRequest
  split <;> exact ⟨rfl, rfl, rfl⟩

theorem laneStatusRequest_same (s : State) (p : List Byte) : SameLanes s (laneStatusRequest s p).1 := by
  unfold laneStatusRequest
  split <;> exact .refl s

theorem decideWithdrawal_same (s : State) (k : HostId) (kind : RequestKind)
    (owner : List Byte → Except Status (HostId × WithdrawalCause)) : SameLanes s (s.decideWithdrawal k kind owner) := by
  obtain he | ⟨req, live, -, -, ⟨st, -, he⟩ | ⟨host, cause, -, he⟩⟩ := decideWithdrawal_cases s k kind owner
  · rw [he]; exact .refl s
  · rw [he]; exact .links (answer_eq _ _ _ _ _)
  · rw [he]; exact ⟨rfl, rfl, rfl⟩

theorem StoreFrame.same {t : State} (h : StoreFrame s t) : SameLanes s t := ⟨h.lanes, h.leases, h.marks⟩

theorem appendEvent_same (s : State) (l : LaneId) : SameLanes s (s.appendEvent l) := by
  unfold State.appendEvent
  split
  · exact (takeAppend_frame _ _ _ _ _).same
  · exact .refl s

theorem releaseEvent_same (s : State) (l : LaneId) : SameLanes s (s.releaseEvent l) := by
  unfold State.releaseEvent
  split
  · exact (takeRelease_frame _ _ _ _ _).same
  · exact .refl s

theorem filePost_same (s : State) (k : HostId) (i : Nat) : SameLanes s (s.filePost k i) := by
  unfold State.filePost
  split
  · exact .refl s
  · exact ⟨rfl, rfl, rfl⟩

theorem segmentPart_same (s : State) (n : Nat) : SameLanes s (s.segmentPart n) := by
  unfold State.segmentPart
  split
  · exact .refl s
  · split
    · exact .refl s
    · exact SameLanes.setStore (s.setWithdrawal n _) _

theorem answerWithdrawal_eq (s : State) (w : Withdrawal) :
    s.answerWithdrawal w = { s with links := (s.answerWithdrawal w).links } := by
  unfold State.answerWithdrawal
  split
  · exact respond_eq _ _ _ _
  · rfl

theorem eventPart_same (s : State) (n : Nat) : SameLanes s (s.eventPart n) := by
  unfold State.eventPart
  split
  · exact .refl s
  · split
    · obtain ⟨h1, h2, h3⟩ := SameLanes.links (answerWithdrawal_eq _ _)
      exact ⟨h1, h2, h3⟩
    · exact .refl s

theorem timestampTick_same (s : State) : SameLanes s s.timestampTick := by
  unfold State.timestampTick
  split <;> exact ⟨rfl, rfl, rfl⟩

theorem deviceRelease_same (s : State) (a v w : Bool) : SameLanes s (s.deviceRelease a v w) := by
  unfold State.deviceRelease
  split <;> exact ⟨rfl, rfl, rfl⟩

theorem nlrstFall_same (s : State) (k : HostId) : SameLanes s (s.nlrstFall k) := by
  unfold State.nlrstFall
  split
  · exact .refl s
  · split <;> exact ⟨rfl, rfl, rfl⟩

theorem LinkFrame.same {k : HostId} {t : State} (h : LinkFrame k s t) : SameLanes s t := .links h.1

/-! ## Device reset, the Lease Controller's part, and the passing of a tick -/

theorem timesWaiting_reset (l : LaneId) : State.reset.timesWaiting l = 0 := by
  rw [timesWaiting_eq]
  simp [State.reset, State.mark, Mark.times, Mark.reset]

theorem Lane.wf_reset : Lane.reset.wf :=
  ⟨by decide, by decide, by decide, fun _ => rfl, fun _ => ⟨rfl, rfl, rfl, rfl⟩, fun _ => rfl, by decide⟩

theorem Lease.wf_reset : Lease.reset.wf .off := by
  refine ⟨by decide, fun _ => rfl, fun h => absurd rfl h, by decide, by decide, by decide, ?_⟩
  rintro w ⟨⟩

theorem reset_lanesOk : State.reset.lanesOk := by
  refine ⟨fun l => ?_, fun l => ?_, fun m => ?_, fun l => ?_⟩
  · simpa [State.lane, State.reset] using Lane.wf_reset
  · simpa [State.lane, State.lease, State.reset, Lane.reset] using Lease.wf_reset
  · simp [State.mark, State.reset, Mark.reset]
  · rw [timesWaiting_reset]; simp [State.lane, State.reset, Lane.reset]

theorem deviceReset_ok (s : State) : s.deviceReset.lanesOk := lanesOk_congr reset_lanesOk rfl rfl rfl

theorem leasePart_ok (h : s.lanesOk) (n : Nat) : (s.leasePart n).lanesOk := by
  unfold State.leasePart
  split
  · exact h
  · split
    · exact h
    · exact lanesOk_congr (endLeasesOf_ok _ (dropClaims_ok _ h)) (State.setWithdrawal_lanes _ _ _)
        (State.setWithdrawal_leases _ _ _) (State.setWithdrawal_marks _ _ _)

/-- A judgement of RTN touches no field that the invariant speaks of but in STALLED, where it speaks of none it touches. -/
theorem judgedLane_ok (h : s.lanesOk) (l : LaneId) : (s.judgedLane l).wf ∧ (s.judgedLane l).state = (s.lane l).state := by
  unfold State.judgedLane
  split
  · rename_i hs
    obtain ⟨h1, h2, h3, -, h5, h6, h7⟩ := h.1 l
    exact ⟨⟨h1, h2, h3, fun e => absurd (hs.1.symm.trans e) (by decide), h5, h6, h7⟩, rfl⟩
  · exact ⟨h.1 l, rfl⟩

theorem tick_ok (h : s.lanesOk) : s.tick.lanesOk := by
  have hl : ∀ l, s.tick.lane l = s.judgedLane l := fun l => Bank.sel_ofFn _ l
  have hr : ∀ l, s.tick.lease l = s.lease l := fun _ => rfl
  refine ⟨fun l => ?_, fun l => ?_, h.2.2.1, fun l => ?_⟩
  · rw [hl]; exact (judgedLane_ok h l).1
  · rw [hl, hr, (judgedLane_ok h l).2]; exact h.2.1 l
  · rw [hl, (judgedLane_ok h l).2, timesWaiting_of_marks (s := s) (t := s.tick) rfl]; exact h.2.2.2 l

/-! ## Every step -/

theorem exec_lanesOk {c : Instr} {s t : State} (h : s.lanesOk) (he : exec c s = .next t) : t.lanesOk := by
  cases c <;> obtain rfl := Host.Outcome.next.inj he
  case deviceReset => exact deviceReset_ok s
  case deviceResetRelease a v w => exact (deviceRelease_same s a v w).ok h
  case linkReset k => exact (nlrstFall_same s k).ok h
  case linkResetRelease k => exact (LinkFrame.same (setLink_frame s k _)).ok h
  case requestFrameEnd p f => exact (writeBytes_frame s p.port f p.ends).same.ok h
  case nullWrite p => exact (nullWrite_frame s p.port p.ends).same.ok h
  case ignoredTransaction p b n => exact (ignoredTransaction_frame s p.port b n p.ends).same.ok h
  case responseRead p n => exact (responseRead_frame s p.port n p.ends).same.ok h
  case define k => exact decide_lanesOk h k _ fun p => (defineRequest_storeOnly s k p).lanesOk h
  case extend k => exact decide_lanesOk h k _ fun p => (extendRequest_storeOnly s k p).lanesOk h
  case write k => exact decide_lanesOk h k _ fun p => (writeRequest_storeOnly s k p).lanesOk h
  case read k => exact decide_lanesOk h k _ fun p => (readRequest_storeOnly s k p).lanesOk h
  case publish k => exact decide_lanesOk h k _ fun p => (publishRequest_storeOnly s k p).lanesOk h
  case delete k => exact decide_lanesOk h k _ fun p => (deleteRequest_storeOnly s k p).lanesOk h
  case catalog k => exact decide_lanesOk h k _ fun p => (catalogRequest_storeOnly s k p).lanesOk h
  case query k => exact decide_lanesOk h k _ fun p => (queryRequest_storeOnly s k p).lanesOk h
  case claim k => exact decide_lanesOk h k _ fun p => claimRequest_ok h k p
  case renew k => exact decide_lanesOk h k _ fun p => renewRequest_ok h k p
  case release k => exact decide_lanesOk h k _ fun p => releaseRequest_ok h k p
  case leaseTick => exact leaseTick_ok h
  case leaseExpiry l => exact expire_ok h
  case configure k => exact decide_lanesOk h k _ fun p => configureRequest_ok h k p
  case laneStatus k => exact decide_lanesOk h k _ fun p => (laneStatusRequest_same s p).ok h
  case enqueue k => exact decide_lanesOk h k _ fun p => enqueueRequest_ok h k p
  case flush k => exact decide_lanesOk h k _ fun p => flushRequest_ok h k p
  case abort k => exact decide_lanesOk h k _ fun p => abortRequest_ok h k p
  case hold k => exact decide_lanesOk h k _ fun p => holdRequest_ok h k p
  case resume k => exact decide_lanesOk h k _ fun p => resumeRequest_ok h k p
  case retime k => exact decide_lanesOk h k _ fun p => retimeRequest_ok h k p
  case stepBoundary l => exact stepBoundary_ok h
  case strobeEnd l => exact strobeEnd_ok h
  case rtnReadyActive l => exact rtnReadyActive_ok h
  case ackEdge l => exact ackEdge_ok h
  case readyTimeout l => exact stallTimeout_ok h _ _
  case ackTimeout l => exact stallTimeout_ok h _ _
  case passEnd l => exact passEnd_ok h
  case rtnEdgeSample l => exact rtnEdgeSample_ok h
  case captureTimeout l => exact captureTimeout_ok h
  case append l => exact (appendEvent_same s l).ok h
  case appendAnswer l => exact appendAnswer_ok h
  case captureEndPoint l => exact captureEndPoint_ok h
  case referenceRelease l => exact (releaseEvent_same s l).ok h
  case markSet k => exact decide_lanesOk h k _ fun p => markSetRequest_ok h p
  case markReleaseProceed l => exact settleRelease_ok h
  case markClear k => exact decide_lanesOk h k _ fun p => markClearRequest_ok h p
  case markStatus k => exact decide_lanesOk h k _ fun _ => h
  case eventPost k n => exact (filePost_same s k n).ok h
  case fetch k => exact decide_lanesOk h k _ fun p => (fetchRequest_same s k p).ok h
  case eventMask k => exact decide_lanesOk h k _ fun p => (eventMaskRequest_same s k p).ok h
  case deviceStatus k => exact decide_lanesOk h k _ fun _ => h
  case detach k => exact (decideWithdrawal_same s k _ _).ok h
  case revoke k => exact decide_lanesOk h k _ fun p => revokeRequest_ok h k p
  case purge k => exact decide_lanesOk h k _ fun p => (purgeRequest_storeOnly s k p).lanesOk h
  case evict k => exact (decideWithdrawal_same s k _ _).ok h
  case withdrawalLeasePart n => exact leasePart_ok h n
  case withdrawalSegmentPart n => exact (segmentPart_same s n).ok h
  case withdrawalEventPart n => exact (eventPart_same s n).ok h
  case timestampTick => exact (timestampTick_same s).ok h

/-- Settles O59: a step is a command, each of which keeps the invariant, or a tick, which judges RTN. -/
theorem everyStepKeepsLanesLeasesAndMarks : Obligations.EveryStepKeepsLanesLeasesAndMarks := by
  intro s t h hs
  obtain ⟨c, rest, he⟩ | rfl := step_cases hs
  · exact exec_lanesOk (s := { s with pending := rest }) (lanesOk_congr h rfl rfl rfl) he
  · exact tick_ok h

end Sys2Proof.Machine
end

section
/-! Every command keeps the host links consistent (R167 to R171, R174, R178, R179). -/

namespace Sys2Proof.Machine

/-! ## The invariant, link by link -/

/-- A withdrawal outstanding will answer link k (R188, R189). -/
def State.answersLink (s : State) (k : HostId) : Prop := ∃ w ∈ s.withdrawals, ∃ req, w.answer = some (k, req)

/-- A transaction in progress that the port does not ignore has nRESET and its nLRST line high (R178, R179). -/
def State.busOk (s : State) (lk : Link) : Prop :=
  ∀ tr, lk.transaction = some tr → tr.kind ≠ .ignored → s.nresetHigh = true ∧ lk.nlrstHigh = true

/-- What the invariant of the Host Links says where link k is `lk`. -/
def State.linkOk (s : State) (k : HostId) (lk : Link) : Prop :=
  lk.wf ∧ (lk.port = .executing → lk.deciding.isSome = true ∨ s.answersLink k) ∧ s.busOk lk ∧ (k = 2 → lk.overrun = false)

theorem linksOk_iff (s : State) : s.linksOk ↔ ∀ k, s.linkOk k (s.link k) := by
  constructor
  · rintro ⟨h, h2⟩ k
    exact ⟨(h k).1, (h k).2.1, (h k).2.2, fun e => by rw [e]; exact h2⟩
  · intro h
    exact ⟨fun k => ⟨(h k).1, (h k).2.1, (h k).2.2.1⟩, (h 2).2.2.2 rfl⟩

variable {s t : State} {k : HostId}

/-- A link stays consistent as nRESET stays high and the withdrawal that will answer it stays outstanding. -/
theorem State.linkOk.mono {lk : Link} (h : s.linkOk k lk) (hn : s.nresetHigh = true → t.nresetHigh = true)
    (hw : s.answersLink k → t.answersLink k) : t.linkOk k lk :=
  ⟨h.1, fun e => (h.2.1 e).imp_right hw, fun tr e ht => ⟨hn (h.2.2.1 tr e ht).1, (h.2.2.1 tr e ht).2⟩, h.2.2.2⟩

theorem linksOk_of_same (h : s.linksOk) (h1 : t.links = s.links) (h2 : t.nresetHigh = s.nresetHigh)
    (h3 : ∀ k, s.answersLink k → t.answersLink k) : t.linksOk := by
  rw [linksOk_iff] at h ⊢
  intro k
  rw [show t.link k = s.link k by unfold State.link; rw [h1]]
  exact (h k).mono (by rw [h2]; exact id) (h3 k)

theorem OwnerFrame.linksOk (h : OwnerFrame s t) (hs : s.linksOk) : t.linksOk := by
  rw [h]; exact hs

/-! ## A link in transit -/

/-- Every link but k is consistent, and k's transaction is. -/
def LinkTransit (k : HostId) (s : State) : Prop := (∀ j, j ≠ k → s.linkOk j (s.link j)) ∧ s.busOk (s.link k)

theorem State.linksOk.transit (h : s.linksOk) (k : HostId) : LinkTransit k s :=
  ⟨fun j _ => (linksOk_iff s).1 h j, ((linksOk_iff s).1 h k).2.2.1⟩

theorem LinkTransit.setLink_ok (h : LinkTransit k s) {v : Link} (hv : s.linkOk k v) : (s.setLink k v).linksOk := by
  rw [linksOk_iff]
  intro j
  rw [State.setLink_link]
  split
  · subst_vars; exact hv
  · rename_i hne; exact h.1 j (Ne.symm hne)

theorem LinkTransit.setLink (h : LinkTransit k s) {v : Link} (hv : s.busOk v) : LinkTransit k (s.setLink k v) := by
  refine ⟨fun j hj => ?_, ?_⟩
  · rw [State.setLink_link_ne _ _ _ (Ne.symm hj)]; exact h.1 j hj
  · rw [State.setLink_link_self]; exact hv

theorem linkOk_ready {lk : Link} (hw : lk.wf) (hp : lk.port = .ready) (ho : lk.overrun = false) (hb : s.busOk lk) :
    s.linkOk k lk :=
  ⟨hw, fun e => by simp [hp] at e, hb, fun _ => ho⟩

theorem LinkTransit.holdResponse_ok (h : LinkTransit k s) (a b : Byte) (r : Reply) (c : Bool) :
    (s.holdResponse k a b r c).linksOk := by
  have hw := holdResponse_wf s k a b r c
  rw [holdResponse_link] at hw
  exact h.setLink_ok (linkOk_ready hw rfl rfl h.2)

theorem LinkTransit.respond_ok (h : LinkTransit k s) (req : Request) (r : Reply) : (s.respond k req r).linksOk := by
  rw [linksOk_iff]
  intro j
  by_cases hj : j = k
  · subst hj
    have hw := respond_wf s j req r
    rw [respond_link] at hw ⊢
    exact linkOk_ready hw rfl rfl h.2
  · rw [respond_link_ne s k req r (Ne.symm hj)]
    exact h.1 j hj

theorem answer_linksOk (h : s.linksOk) (k : HostId) (req : Request) (live : Bool) (r : Reply) :
    (s.answer k req live r).linksOk := by
  unfold State.answer
  cases live
  · exact (h.transit k).setLink_ok ((linksOk_iff s).1 h k)
  · exact (h.transit k).respond_ok req r

theorem decide_linksOk (h : s.linksOk) (k : HostId) (kind : RequestKind) {owner : List Byte → State × Reply}
    (ho : ∀ p, (owner p).1.linksOk) : (s.decide k kind owner).linksOk := by
  obtain he | ⟨req, live, -, -, he⟩ := decide_cases s k kind owner
  · rw [he]; exact h
  · rw [he]; exact answer_linksOk (ho _) k req live _

/-- The request leaves the link for the withdrawal that will answer it (R187, R188). -/
theorem decideWithdrawal_linksOk (h : s.linksOk) (k : HostId) (kind : RequestKind)
    (owner : List Byte → Except Status (HostId × WithdrawalCause)) : (s.decideWithdrawal k kind owner).linksOk := by
  obtain he | ⟨req, live, -, -, ⟨st, -, he⟩ | ⟨host, cause, -, he⟩⟩ := decideWithdrawal_cases s k kind owner
  · rw [he]; exact h
  · rw [he]; exact answer_linksOk h k req live _
  · rw [he, linksOk_iff]
    obtain ⟨⟨h1, h2, h3, h4⟩, hx, hb, ho⟩ := (linksOk_iff s).1 h k
    intro j
    change State.linkOk _ j (Bank.sel (s.links.upd k _) j)
    rw [Bank.sel_upd]
    by_cases hj : k = j
    · subst hj
      rw [if_pos rfl]
      cases live
      · exact ⟨⟨h1, h2, h3, h4⟩, fun e => (hx e).imp_right fun ⟨w, hw, hr⟩ => ⟨w, List.mem_append_left _ hw, hr⟩, hb, ho⟩
      · exact ⟨⟨h1, nofun, h3, h4⟩, fun _ => .inr ⟨_, List.mem_append_right _ (List.mem_singleton_self _), req, rfl⟩, hb, ho⟩
    · rw [if_neg hj]
      refine ((linksOk_iff s).1 h j).mono ?_ ?_
      · exact id
      · exact fun ⟨w, hw, hr⟩ => ⟨w, List.mem_append_left _ hw, hr⟩

/-! ## Transactions -/

theorem LinkTransit.processFrame_ok (h : LinkTransit k s) (hp : (s.link k).port = .executing) (hh : (s.link k).held = none)
    (ho : (s.link k).overrun = false) (f : List Byte) : (s.processFrame k f).linksOk := by
  unfold State.processFrame
  dsimp only
  cases frameCheck f with
  | some x => exact h.holdResponse_ok _ _ _ _
  | none =>
    dsimp only
    cases replayMatch (s.link k).replay (frameRequest f) with
    | some r => exact h.holdResponse_ok _ _ _ _
    | none =>
      dsimp only
      split
      · exact h.respond_ok _ _
      · refine h.setLink_ok ⟨⟨?_, fun _ => hp, fun _ => hp, fun g hg => ?_⟩, fun _ => .inl rfl, h.2, fun _ => ho⟩
        · simp [hp, hh]
        · exact absurd (hh.symm.trans hg) (by simp)

theorem acceptFrame_ok (h : s.linksOk) (hp : (s.link k).port ≠ .executing) (f : List Byte) : (s.acceptFrame k f).linksOk := by
  have hk := (linksOk_iff s).1 h k
  have ho : (s.link k).overrun = false := by
    rw [← Bool.not_eq_true]; exact fun e => hp (hk.1.2.2.1 e)
  unfold State.acceptFrame
  refine ((h.transit k).setLink (v := { (s.link k) with port := .executing, held := none, deciding := none })
    hk.2.2.1).processFrame_ok ?_ ?_ ?_ f <;> rw [State.setLink_link_self]
  exact ho

theorem spiHost_ne (p : SpiPort) : spiHost p ≠ 2 := by cases p <;> decide

theorem takeFrame_ok (h : s.linksOk) (p : Port) (f : List Byte) : (s.takeFrame p f).linksOk := by
  unfold State.takeFrame
  dsimp only
  split
  · exact h
  · split
    · exact h
    · rename_i q hp
      obtain ⟨⟨h1, h2, -, h4⟩, hx, hb, -⟩ := (linksOk_iff s).1 h (spiHost q)
      exact (h.transit (spiHost q)).setLink_ok ⟨⟨h1, h2, fun _ => hp, h4⟩, hx, hb, fun e => absurd e (spiHost_ne q)⟩
    · rename_i p _ _ hi hs
      refine acceptFrame_ok h (fun e => ?_) f
      cases hp : p with
      | spi q => exact hs q e hp
      | i2c a => exact hi a e hp

/-- A transaction that a port takes has nRESET and its nLRST line high. -/
theorem transactionFor_taken (h : s.linksOk) (p : Port) (kind : BusKind) (ht : (s.transactionFor p kind).kind ≠ .ignored) :
    s.nresetHigh = true ∧ (s.link (portHost p)).nlrstHigh = true := by
  unfold State.transactionFor at ht
  cases htr : (s.link (portHost p)).transaction with
  | some tr =>
    rw [htr] at ht
    exact ((linksOk_iff s).1 h _).2.2.1 tr htr ht
  | none =>
    rw [htr] at ht
    have hl : s.listens p = true := by
      rw [← Bool.not_eq_false]
      exact fun e => ht (by simp [Transaction.begun, State.beginKind, e])
    simp only [State.listens, Bool.and_eq_true] at hl
    exact hl.1

theorem busStep_ok (h : s.linksOk) (p : Port) {tr : Transaction}
    (ht : tr.kind ≠ .ignored → s.nresetHigh = true ∧ (s.link (portHost p)).nlrstHigh = true) (old : BusReply) (b : List Byte)
    (a : List Bool) (e : Bool) : (s.busStep p tr old b a e).linksOk := by
  obtain ⟨hw, hx, -, ho⟩ := (linksOk_iff s).1 h (portHost p)
  refine (h.transit _).setLink_ok ⟨hw, hx, fun x hx => ?_, ho⟩
  cases e
  · obtain rfl : tr = x := Option.some.inj hx
    exact ht
  · cases hx

theorem writeBytes_ok (h : s.linksOk) (p : Port) (b : List Byte) (e : Bool) : (s.writeBytes p b e).linksOk := by
  have ht := transactionFor_taken h p (writeKind p)
  unfold State.writeBytes
  dsimp only
  split
  · exact h
  · exact busStep_ok h p ht _ _ _ _
  · rename_i hk
    have hb := busStep_ok h p (tr := { s.transactionFor p (writeKind p) with
      frame := (s.transactionFor p (writeKind p)).frame ++ b }) ht
    split
    · exact takeFrame_ok (hb _ _ _ _) p _
    · exact hb _ _ _ _

theorem nullWrite_ok (h : s.linksOk) (p : Port) (e : Bool) : (s.nullWrite p e).linksOk := by
  unfold State.nullWrite
  split
  · exact writeBytes_ok h p [] e
  · exact h

theorem ignoredTransaction_ok (h : s.linksOk) (p : SpiPort) (b : Byte) (n : Nat) (e : Bool) :
    (s.ignoredTransaction p b n e).linksOk := by
  unfold State.ignoredTransaction
  dsimp only
  split
  · exact h
  · exact busStep_ok h (.spi p) (transactionFor_taken h _ _) _ _ _ _

theorem responseRead_ok (h : s.linksOk) (p : Port) (n : Nat) (e : Bool) : (s.responseRead p n e).linksOk := by
  have ht := transactionFor_taken h p (readKind p)
  unfold State.responseRead
  dsimp only
  split
  · exact h
  · exact busStep_ok h p ht _ _ _ _
  · exact busStep_ok h p (by exact ht) _ _ _ _

/-! ## Resets -/

/-- A link that a reset has emptied: no response, no request, no flag, and a transaction in progress ignored. -/
theorem linkOk_emptied {lk : Link} (hp : lk.port = .idle) (hh : lk.held = none) (hd : lk.deciding = none)
    (ho : lk.overrun = false) {o : Option Transaction} (ht : lk.transaction = o.map Transaction.abandoned) : s.linkOk k lk := by
  refine ⟨⟨by simp [hp, hh], by simp [hd], by simp [ho], by simp [hh]⟩, by simp [hp], fun tr hx hi => ?_, fun _ => ho⟩
  rw [ht] at hx
  obtain ⟨x, -, rfl⟩ := Option.map_eq_some_iff.1 hx
  exact absurd rfl hi

theorem deviceReset_linksOk (s : State) : s.deviceReset.linksOk := by
  rw [linksOk_iff]
  intro k
  rw [show s.deviceReset.link k = (s.link k).deviceReset from Bank.sel_map s.links _ k]
  exact linkOk_emptied rfl rfl rfl rfl (o := (s.link k).transaction) rfl

theorem deviceRelease_linksOk (h : s.linksOk) (a v w : Bool) : (s.deviceRelease a v w).linksOk := by
  unfold State.deviceRelease
  split
  · exact h
  · rw [linksOk_iff] at h ⊢
    exact fun k => (h k).mono (fun _ => rfl) id

theorem linkReset_linksOk (h : s.linksOk) (k : HostId) : (s.linkReset k).linksOk := by
  rw [linksOk_iff]
  intro j
  change State.linkOk _ j (Bank.sel (s.links.upd k _) j)
  rw [Bank.sel_upd]
  split
  · exact linkOk_emptied rfl rfl rfl rfl (o := (s.link k).transaction) rfl
  · rename_i hne
    refine ((linksOk_iff s).1 h j).mono id ?_
    rintro ⟨w, hw, req, hr⟩
    refine ⟨w.withoutAnswerOf k, List.mem_append_left _ (List.mem_map_of_mem hw), req, ?_⟩
    simp [Withdrawal.withoutAnswerOf, hr, Ne.symm hne]

theorem nlrstFall_linksOk (h : s.linksOk) (k : HostId) : (s.nlrstFall k).linksOk := by
  unfold State.nlrstFall
  split
  · exact h
  · split
    · exact linkReset_linksOk h k
    · rename_i hn
      obtain ⟨hw, hx, hb, ho⟩ := (linksOk_iff s).1 h k
      exact (h.transit k).setLink_ok ⟨hw, hx, fun tr e ht => absurd (hb tr e ht).1 hn, ho⟩

theorem linkResetRelease_linksOk (h : s.linksOk) (k : HostId) :
    (s.setLink k { (s.link k) with nlrstHigh := true }).linksOk := by
  obtain ⟨hw, hx, hb, ho⟩ := (linksOk_iff s).1 h k
  exact (h.transit k).setLink_ok ⟨hw, hx, fun tr e ht => ⟨(hb tr e ht).1, rfl⟩, ho⟩

/-! ## Withdrawals -/

theorem setWithdrawal_answersLink {n : Nat} {w v : Withdrawal} (hn : s.withdrawals[n]? = some w) (hv : v.answer = w.answer)
    (h : s.answersLink k) : (s.setWithdrawal n v).answersLink k := by
  obtain ⟨x, hx, req, hr⟩ := h
  obtain ⟨i, hi, rfl⟩ := List.mem_iff_getElem.1 hx
  obtain ⟨hlt, rfl⟩ := List.getElem?_eq_some_iff.1 hn
  by_cases he : n = i
  · subst he
    exact ⟨v, List.mem_iff_getElem.2 ⟨n, by simpa using hlt, by simp⟩, req, hv.trans hr⟩
  · exact ⟨s.withdrawals[i], List.mem_iff_getElem.2 ⟨i, by simpa using hi, by simp [he]⟩, req, hr⟩

theorem leasePart_linksOk (h : s.linksOk) (n : Nat) : (s.leasePart n).linksOk := by
  unfold State.leasePart
  split
  · exact h
  · rename_i w hn
    split
    · exact h
    · have hf := (dropClaims_frame s w.host).trans (endLeasesOf_frame _ w.host)
      have ht := hf.owner.linksOk h
      refine linksOk_of_same ht (State.setWithdrawal_links _ _ _) (State.setWithdrawal_nresetHigh _ _ _) fun k hk => ?_
      exact setWithdrawal_answersLink (w := w) (by rw [hf.withdrawals]; exact hn) rfl hk

theorem segmentPart_linksOk (h : s.linksOk) (n : Nat) : (s.segmentPart n).linksOk := by
  unfold State.segmentPart
  split
  · exact h
  · rename_i w hn
    split
    · exact h
    · exact (setStore_owner _ _).linksOk (linksOk_of_same h (State.setWithdrawal_links _ _ _)
        (State.setWithdrawal_nresetHigh _ _ _) fun k hk => setWithdrawal_answersLink hn rfl hk)

/-- A withdrawal that is complete leaves no link waiting: those that other withdrawals answer keep theirs (R189). -/
theorem eventPart_linksOk (h : s.linksOk) (n : Nat) : (s.eventPart n).linksOk := by
  unfold State.eventPart
  split
  · exact h
  · rename_i w hn
    split
    · have hj : ∀ j, (∀ req, w.answer ≠ some (j, req)) → s.answersLink j →
          ∃ x ∈ s.withdrawals.eraseIdx n, ∃ req, x.answer = some (j, req) := by
        rintro j hw ⟨x, hx, req, hr⟩
        obtain ⟨i, hi, rfl⟩ := List.mem_iff_getElem.1 hx
        refine ⟨_, List.mem_eraseIdx_iff_getElem.2 ⟨i, hi, fun e => ?_, rfl⟩, req, hr⟩
        subst e
        rw [List.getElem?_eq_getElem hi] at hn
        exact hw req (Option.some.inj hn ▸ hr)
      rw [linksOk_iff] at h
      unfold State.answerWithdrawal
      split
      · rename_i k req hw
        apply LinkTransit.respond_ok
        refine ⟨fun j hne => (h j).mono ?_ ?_, (h k).2.2.1⟩
        · exact id
        · exact hj j fun req' e => hne (Prod.mk.inj (Option.some.inj (hw.symm.trans e))).1.symm
      · rename_i hw
        refine (linksOk_iff _).2 fun j => (h j).mono ?_ ?_
        · exact id
        · exact hj j fun req e => absurd (hw.symm.trans e) (by simp)
    · exact (linksOk_iff s).2 ((linksOk_iff s).1 h)

end Sys2Proof.Machine
end

section
/-! Every post that waits, and every lane between a mark's release and its own event, carries the present timestamp (R148). -/

namespace Sys2Proof.Machine

variable {s t : State} {l : LaneId}

/-! ## The operations of the state -/

theorem stampsOk_congr (h : s.stampsOk) (h1 : t.posts = s.posts) (h2 : t.time.timestamp = s.time.timestamp)
    (h3 : t.lanes = s.lanes) : t.stampsOk := by
  unfold State.stampsOk State.lane
  rw [h1, h2, h3]
  exact h

theorem setLane_stamps (h : s.stampsOk) (l : LaneId) {v : Lane}
    (hv : ∀ x a, v.state = .released x a → x = s.time.timestamp) : (s.setLane l v).stampsOk := by
  refine ⟨h.1, fun j x a hj => ?_⟩
  rw [State.setLane_lane] at hj
  split at hj
  · exact hv x a hj
  · exact h.2 j x a hj

/-- Whether a mark has released the lane and its own event has not come (log 9). -/
def LaneState.isReleased : LaneState → Bool
  | .released .. => true
  | _ => false

/-- A lane that is not released after it (R148 asks nothing of it). -/
theorem setLane_stamps_out (h : s.stampsOk) (l : LaneId) (v : Lane)
    (hv : v.state.isReleased = false) : (s.setLane l v).stampsOk :=
  setLane_stamps h l fun x a e => by simp [e, LaneState.isReleased] at hv

/-- A lane whose state stays. -/
theorem setLane_stamps_keep (h : s.stampsOk) (l : LaneId) (v : Lane) (hv : v.state = (s.lane l).state) :
    (s.setLane l v).stampsOk :=
  setLane_stamps h l fun x a e => h.2 l x a (hv ▸ e)

theorem ite_stamps {b : Prop} [Decidable b] {u v : State} (hu : u.stampsOk) (hv : v.stampsOk) :
    (if b then u else v).stampsOk := by
  split
  exacts [hu, hv]

theorem post_stamps (h : s.stampsOk) {p : Post} (hp : p.stamp = s.time.timestamp) : (s.post p).stampsOk := by
  refine ⟨fun q hq => ?_, h.2⟩
  obtain hq | rfl := by simpa using hq
  exacts [h.1 q hq, hp]

theorem postRanked_stamps (h : s.stampsOk) {p : Nat → Post} (hp : (p s.orderCount).stamp = s.time.timestamp) :
    (s.postRanked p).stampsOk := stampsOk_congr (post_stamps h hp) rfl rfl rfl

theorem postLease_stamps (h : s.stampsOk) (k : HostId) (e : Event) : (s.postLease k e).stampsOk := postRanked_stamps h rfl

theorem present_stamps (h : s.stampsOk) (l : LaneId) (c : LaneClaim) : (s.present l c).stampsOk :=
  stampsOk_congr h rfl rfl rfl

theorem removeWaiter_stamps (h : s.stampsOk) (l : LaneId) : (s.removeWaiter l).stampsOk := stampsOk_congr h rfl rfl rfl

/-! ## Marks -/

theorem releaseLanes_stamps (x : Option (LaneId × Nat)) (ls : List LaneId) : ∀ {s : State}, s.stampsOk →
    (ls.foldl (State.releaseLane x) s).stampsOk := by
  induction ls with
  | nil => exact id
  | cons l ls ih =>
    intro s h
    refine ih (setLane_stamps h l ?_)
    rintro _ _ ⟨⟩
    rfl

theorem settleMark_stamps (h : s.stampsOk) (m : MarkId) (x : Option (LaneId × Nat)) : (s.settleMark m x).1.stampsOk := by
  unfold State.settleMark
  split
  · exact h
  · exact releaseLanes_stamps x _ (stampsOk_congr h rfl rfl rfl)

/-! ## Boundaries, waits and entries -/

theorem showPark_stamps (h : s.stampsOk) (l : LaneId) : (s.showPark l).stampsOk := setLane_stamps_keep h l _ (by rfl)
theorem holdIn_stamps (h : s.stampsOk) (l : LaneId) (f : HoldForm) : (s.holdIn l f).stampsOk := setLane_stamps_out h l _ rfl
theorem startAckWait_stamps (h : s.stampsOk) (l : LaneId) : (s.startAckWait l).stampsOk := setLane_stamps_out h l _ rfl
theorem startEdgeWatch_stamps (h : s.stampsOk) (l : LaneId) (n : Nat) : (s.startEdgeWatch l n).stampsOk :=
  setLane_stamps_out h l _ rfl
theorem goIdle_stamps (h : s.stampsOk) (l : LaneId) : (s.goIdle l).stampsOk := showPark_stamps (setLane_stamps_out h l _ rfl) l

theorem driveWord_stamps (h : s.stampsOk) (l : LaneId) (e : Entry) : (s.driveWord l e).stampsOk := by
  unfold State.driveWord
  dsimp only
  split
  · exact startAckWait_stamps (setLane_stamps_out h l _ rfl) l
  · exact setLane_stamps_out h l _ rfl

theorem sampleBoundary_stamps (h : s.stampsOk) (l : LaneId) (e : Entry) : (s.sampleBoundary l e).stampsOk := by
  unfold State.sampleBoundary
  dsimp only
  split
  · exact present_stamps (setLane_stamps_out h l _ rfl) l _
  · exact setLane_stamps_out h l _ rfl

theorem attemptBoundary_stamps (h : s.stampsOk) (l : LaneId) (e : Entry) : (s.attemptBoundary l e).stampsOk := by
  unfold State.attemptBoundary
  split
  · split
    · exact setLane_stamps_out h l _ rfl
    · exact driveWord_stamps h l e
  · exact sampleBoundary_stamps h l e

theorem boundaryPoint_stamps (h : s.stampsOk) (l : LaneId) (e : Entry) : (s.boundaryPoint l e).stampsOk := by
  unfold State.boundaryPoint
  split
  · exact holdIn_stamps h l _
  · exact attemptBoundary_stamps h l e

theorem proceed_stamps (h : s.stampsOk) (l : LaneId) (e : Entry) {x : Stamp} (hx : x = s.time.timestamp)
    (y : Option (LaneId × Nat)) : (s.proceed l e x y).stampsOk := by
  have h1 : ∀ v : Lane, v.state.isReleased = false →
      (if e.notifyStart then (s.setLane l v).postRanked (startedPost l e x y) else s.setLane l v).stampsOk := fun v hv =>
    ite_stamps (postRanked_stamps (setLane_stamps_out h l v hv) hx) (setLane_stamps_out h l v hv)
  unfold State.proceed
  dsimp only
  split
  · exact attemptBoundary_stamps (h1 _ rfl) l e
  · have h2 := h1 { (s.lane l) with
      state := .running, timing := some e.timing, pass := 1, words := 0, passWords := 0, acked := false } rfl
    exact ite_stamps (startEdgeWatch_stamps (setLane_stamps_keep h2 l _ (by rfl)) l _)
      (sampleBoundary_stamps (setLane_stamps_keep h2 l _ (by rfl)) l e)

theorem offerWait_stamps (h : s.stampsOk) (l : LaneId) (e : Entry) : (s.offerWait l e).stampsOk := by
  unfold State.offerWait
  split
  · exact proceed_stamps h l e rfl none
  · split
    · split
      · exact proceed_stamps h l e rfl none
      · exact proceed_stamps (s := s.setMark _ _) (stampsOk_congr h rfl rfl rfl) l e rfl none
    · exact showPark_stamps (setLane_stamps_out (s := s.setMark _ _) (stampsOk_congr h rfl rfl rfl) l _ rfl) l

/-! ## Entry end and entry start -/

theorem setPostMark_stamps (h : s.stampsOk) (l : LaneId) (e : Entry) (o : EndOutcome) : (s.setPostMark l e o).stampsOk := by
  unfold State.setPostMark
  split
  · exact settleMark_stamps h _ _
  · exact h

theorem finishEntry_stamps (h : s.stampsOk) (l : LaneId) (e : Entry) (o : EndOutcome) (n : Nat) (d r : Bool) (x : Option Nat) :
    (s.finishEntry l e o n d r x).stampsOk := by
  have h1 := setPostMark_stamps h l e o
  unfold State.finishEntry
  refine present_stamps ?_ l _
  split
  · exact postRanked_stamps h1 (congrArg TimeBase.timestamp (setPostMark_frame s l e o).time.symm)
  · exact h1

theorem endQueued_stamps (l : LaneId) (o : EndOutcome) (r : Bool) (x : Option Nat) (es : List Entry) :
    ∀ {s : State}, s.stampsOk → (s.endQueued l o r x es).stampsOk := by
  induction es with
  | nil => exact id
  | cons e es ih => exact fun h => ih (finishEntry_stamps h l e o 0 false r x)

theorem endCurrent_stamps (h : s.stampsOk) (l : LaneId) (o : EndOutcome) (r : Bool) (x : Option Nat) :
    (s.endCurrent l o r x).stampsOk := by
  unfold State.endCurrent
  split
  · exact h
  · exact finishEntry_stamps (setLane_stamps_out h l _ rfl) l _ _ _ _ _ _

theorem takeRelease_stamps (h : s.stampsOk) (l : LaneId) (r : SegmentRef) (n : Nat) (x : Option Nat) :
    (s.takeRelease l r n x).stampsOk := by
  unfold State.takeRelease
  split
  · exact h
  · dsimp only
    have h1 : ∀ v, (s.setStore v).stampsOk := fun v => stampsOk_congr h rfl rfl rfl
    split
    · split
      · exact stampsOk_congr (post_stamps (h1 _) (p := freedPost s l _ r n x) rfl) rfl rfl rfl
      · exact stampsOk_congr (h1 _) rfl rfl rfl
    · exact h1 _

theorem takeAppend_stamps (h : s.stampsOk) (l : LaneId) (r : SegmentRef) (id : Nat) (w : Word) :
    (s.takeAppend l r id w).stampsOk := by
  unfold State.takeAppend
  split
  · exact stampsOk_congr h rfl rfl rfl
  · dsimp only
    split <;> exact stampsOk_congr h rfl rfl rfl

theorem takeClaims_stamps (l : LaneId) (cs : List LaneClaim) : ∀ {s : State}, s.stampsOk →
    (cs.foldl (fun t c => t.takeClaim l c) s).stampsOk := by
  induction cs with
  | nil => exact id
  | cons c cs ih =>
    intro s h
    refine ih ?_
    cases c with
    | append r id w => exact takeAppend_stamps h l r id w
    | release r n x => exact takeRelease_stamps h l r n x

theorem settleClaims_stamps (h : s.stampsOk) (l : LaneId) : (s.settleClaims l).stampsOk :=
  takeClaims_stamps l _ (s := s.setClaims l []) (stampsOk_congr h rfl rfl rfl)

theorem startQueue_stamps (l : LaneId) (es : List Entry) : ∀ {s : State}, s.stampsOk → (startQueue l es s).stampsOk := by
  induction es with
  | nil => exact fun h => goIdle_stamps h l
  | cons e es ih =>
    intro s h
    have h1 := setLane_stamps_out h l { (s.lane l) with state := .running, pass := 0, words := 0 } rfl
    have h2 : (if e.kind = .capture then (s.setLane l { (s.lane l) with state := .running, pass := 0, words := 0 }).settleClaims l
        else s.setLane l { (s.lane l) with state := .running, pass := 0, words := 0 }).stampsOk :=
      ite_stamps (settleClaims_stamps h1 l) h1
    unfold startQueue
    exact ite_stamps (ih (finishEntry_stamps (setLane_stamps_out h2 l _ rfl) l e _ _ _ _ _)) (offerWait_stamps h2 l e)

theorem entryStart_stamps (h : s.stampsOk) (l : LaneId) : (s.entryStart l).stampsOk := startQueue_stamps l _ h

theorem afterEnd_stamps (h : s.stampsOk) (l : LaneId) : (s.afterEnd l).stampsOk := by
  unfold State.afterEnd
  split
  · exact showPark_stamps (holdIn_stamps h l _) l
  · exact entryStart_stamps h l

theorem endAndGoOn_stamps (h : s.stampsOk) (l : LaneId) (o : EndOutcome) : (s.endAndGoOn l o).stampsOk :=
  afterEnd_stamps (endCurrent_stamps h l o true none) l

theorem endFaulted_stamps (h : s.stampsOk) (l : LaneId) (c : FaultCode) : (s.endFaulted l c).stampsOk :=
  setLane_stamps_out (endCurrent_stamps h l _ true none) l _ rfl

theorem takePassEnd_stamps (h : s.stampsOk) (l : LaneId) (e : Entry) : (s.takePassEnd l e).stampsOk := by
  unfold State.takePassEnd
  dsimp only
  split
  · exact endAndGoOn_stamps h l _
  · exact boundaryPoint_stamps (setLane_stamps_keep h l _ (by rfl)) l e

theorem settleRelease_stamps (h : s.stampsOk) (l : LaneId) : (s.settleRelease l).stampsOk := by
  unfold State.settleRelease
  split
  · rename_i hs _; exact proceed_stamps h l _ (h.2 l _ _ hs) _
  · exact h

/-- The entries of a lane end, the current one first and then those queued (R80, R112). -/
theorem endAll_stamps (h : s.stampsOk) (l : LaneId) (o1 o2 : EndOutcome) (r : Bool) (x : Option Nat) :
    let t := if (s.lane l).state.hasCurrent then s.endCurrent l o1 r x else s
    ((t.setLane l { (t.lane l) with queue := [] }).endQueued l o2 r x (t.lane l).queue).stampsOk :=
  endQueued_stamps l o2 r x _ (setLane_stamps_keep (ite_stamps (endCurrent_stamps h l o1 r x) h) l _ (by rfl))

theorem drain_stamps (h : s.stampsOk) (l : LaneId) (r : Bool) : (s.drain l r).stampsOk := by
  have h1 : (s.settleRelease l).countOrder.stampsOk := stampsOk_congr (settleRelease_stamps h l) rfl rfl rfl
  have h2 : (if ((s.settleRelease l).countOrder.lane l).state = .markwait then (s.settleRelease l).countOrder.removeWaiter l
      else (s.settleRelease l).countOrder).stampsOk := ite_stamps (removeWaiter_stamps h1 l) h1
  exact setLane_stamps_out (endAll_stamps (setLane_stamps_keep h2 l _ (by rfl)) l _ _ r _) l _ rfl

/-! ## The requests of a lane -/

theorem flushLane_stamps (h : s.stampsOk) (l : LaneId) : (s.flushLane l).stampsOk :=
  endQueued_stamps l _ true none _ (setLane_stamps_keep h l _ (by rfl))

theorem abortLane_stamps (h : s.stampsOk) (l : LaneId) : (s.abortLane l).stampsOk := by
  have h2 : (if (s.lane l).state = .markwait then s.removeWaiter l else s).stampsOk :=
    ite_stamps (removeWaiter_stamps h l) h
  exact showPark_stamps (setLane_stamps_out (endAll_stamps (setLane_stamps_keep h2 l _ (by rfl)) l _ _ true none) l _ rfl) l

theorem holdByState_stamps (h : s.stampsOk) (l : LaneId) : (holdByState s l).1.stampsOk := by
  unfold holdByState
  dsimp only
  split
  · exact setLane_stamps_keep h l _ (by rfl)
  · exact setLane_stamps_out h l _ rfl
  · exact setLane_stamps_out (removeWaiter_stamps h l) l _ rfl
  · exact setLane_stamps_out h l _ rfl
  · exact h
  · exact h

theorem resumeWithin_stamps (h : s.stampsOk) (l : LaneId) (f : HoldForm) (e : Entry) : (s.resumeWithin l f e).stampsOk := by
  unfold State.resumeWithin
  split
  · exact endAndGoOn_stamps h l _
  · split
    · exact attemptBoundary_stamps h l e
    · split
      · exact startEdgeWatch_stamps h l _
      · exact startAckWait_stamps h l

theorem resumeByState_stamps (h : s.stampsOk) (l : LaneId) : (resumeByState s l).1.stampsOk := by
  unfold resumeByState
  dsimp only
  split
  · split
    · exact setLane_stamps_keep h l _ (by rfl)
    · exact h
  · exact resumeWithin_stamps h l _ _
  · exact resumeWithin_stamps h l _ _
  · exact offerWait_stamps h l _
  · exact entryStart_stamps h l
  · exact entryStart_stamps (goIdle_stamps h l) l
  · exact h

theorem retimeLane_stamps (h : s.stampsOk) (l : LaneId) (p : List Byte) : (retimeLane s l p).1.stampsOk := by
  unfold retimeLane
  repeat' split
  · exact h
  · exact h
  · exact h
  · exact h
  · exact setLane_stamps_keep h l _ (by rfl)

theorem acceptEntry_stamps (h : s.stampsOk) (l : LaneId) (i : Slot) (e : Entry) : (s.acceptEntry l i e).stampsOk := by
  have h1 := setLane_stamps_keep (s := { s.setStore (s.store.setRefs i ((s.store.entry i).refs + 1)) with
    nextEntryId := s.nextEntryId + 1 }) (stampsOk_congr h rfl rfl rfl) l { (s.lane l) with queue := (s.lane l).queue ++ [e] } (by rfl)
  exact ite_stamps (entryStart_stamps h1 l) h1

/-! ## Timed events -/

theorem stepBoundary_stamps (h : s.stampsOk) (l : LaneId) : (s.stepBoundary l).stampsOk := by
  unfold State.stepBoundary
  split
  · exact boundaryPoint_stamps h l _
  · exact h

theorem endPulse_stamps (h : s.stampsOk) (l : LaneId) : (s.endPulse l).stampsOk := setLane_stamps_keep h l _ (by rfl)

theorem afterPulse_stamps (h : s.stampsOk) (l : LaneId) (e : Entry) : (s.afterPulse l e).stampsOk := by
  unfold State.afterPulse
  split
  · split
    · exact holdIn_stamps h l _
    · exact startAckWait_stamps h l
  · split
    · exact endAndGoOn_stamps h l _
    · split
      · exact holdIn_stamps h l _
      · exact startEdgeWatch_stamps h l _
  · exact h

theorem strobeEnd_stamps (h : s.stampsOk) (l : LaneId) : (s.strobeEnd l).stampsOk := by
  unfold State.strobeEnd
  split
  · split
    · exact afterPulse_stamps (endPulse_stamps h l) l _
    · exact endPulse_stamps h l
  · exact h

theorem raiseRtn_stamps (h : s.stampsOk) (l : LaneId) : (s.raiseRtn l).stampsOk := stampsOk_congr h rfl rfl rfl

theorem rtnReadyActive_stamps (h : s.stampsOk) (l : LaneId) : (s.rtnReadyActive l).stampsOk := by
  unfold State.rtnReadyActive
  split
  · split
    · exact driveWord_stamps (raiseRtn_stamps h l) l _
    · exact raiseRtn_stamps h l
  · exact raiseRtn_stamps h l

theorem acknowledge_stamps (h : s.stampsOk) (l : LaneId) (e : Entry) : (s.acknowledge l e).stampsOk := by
  unfold State.acknowledge
  dsimp only
  split
  · exact takePassEnd_stamps h l e
  · split
    · exact boundaryPoint_stamps (setLane_stamps_out h l _ rfl) l e
    · exact setLane_stamps_out h l _ rfl

theorem ackEdge_stamps (h : s.stampsOk) (l : LaneId) : (s.ackEdge l).stampsOk := by
  unfold State.ackEdge
  split
  · split
    · exact acknowledge_stamps (raiseRtn_stamps h l) l _
    · exact raiseRtn_stamps h l
  · exact raiseRtn_stamps h l

theorem passEnd_stamps (h : s.stampsOk) (l : LaneId) : (s.passEnd l).stampsOk := by
  unfold State.passEnd
  split
  · exact takePassEnd_stamps h l _
  · exact h

theorem sampleEdge_stamps (h : s.stampsOk) (l : LaneId) (e : Entry) : (s.sampleEdge l e).stampsOk := by
  unfold State.sampleEdge
  dsimp only
  refine present_stamps (setLane_stamps h l fun x a hx => ?_) l _
  dsimp only at hx
  split at hx <;> cases hx

theorem rtnEdgeSample_stamps (h : s.stampsOk) (l : LaneId) : (s.rtnEdgeSample l).stampsOk := by
  unfold State.rtnEdgeSample
  split
  · split
    · exact sampleEdge_stamps (raiseRtn_stamps h l) l _
    · exact raiseRtn_stamps h l
  · exact raiseRtn_stamps h l

theorem endCapture_stamps (h : s.stampsOk) (l : LaneId) (o : EndOutcome) : (s.endCapture l o).stampsOk := by
  unfold State.endCapture
  split
  · exact showPark_stamps (holdIn_stamps (endCurrent_stamps h l o true none) l _) l
  · exact endAndGoOn_stamps h l o

theorem answerStored_stamps (h : s.stampsOk) (l : LaneId) (e : Entry) (w : Word) : (s.answerStored l e w).stampsOk := by
  unfold State.answerStored
  dsimp only
  split
  · exact endAndGoOn_stamps (setLane_stamps_keep h l _ (by rfl)) l _
  · exact setLane_stamps_keep h l _ (by rfl)

theorem appendAnswer_stamps (h : s.stampsOk) (l : LaneId) : (s.appendAnswer l).stampsOk := by
  have h1 : ∀ v, (s.setAnswers l v).stampsOk := fun _ => stampsOk_congr h rfl rfl rfl
  unfold State.appendAnswer
  split
  · exact h
  · dsimp only
    split
    · exact h1 _
    · split
      · exact answerStored_stamps (h1 _) l _ _
      · exact endCapture_stamps (h1 _) l _
      · exact endCapture_stamps (h1 _) l _

/-! ## Leases -/

theorem setLease_stamps (h : s.stampsOk) (l : LaneId) (v : Lease) : (s.setLease l v).stampsOk := stampsOk_congr h rfl rfl rfl

theorem grant_stamps (h : s.stampsOk) (l : LaneId) (k : HostId) (d : Nat) : (s.grant l k d).stampsOk :=
  setLane_stamps_out (setLease_stamps h l _) l _ rfl

theorem grantPosted_stamps (h : s.stampsOk) (l : LaneId) (k : HostId) (d : Nat) : (s.grantPosted l k d).stampsOk :=
  postLease_stamps (grant_stamps h l k d) k _

theorem closeLease_stamps (h : s.stampsOk) (l : LaneId) (c : LeaseEndCause) : (s.closeLease l c).stampsOk :=
  setLease_stamps (drain_stamps h l _) l _

theorem grantHead_stamps (h : s.stampsOk) (l : LaneId) : (s.grantHead l).stampsOk := by
  unfold State.grantHead
  split
  · exact h
  · exact grantPosted_stamps (setLease_stamps h l _) l _ _

theorem grantTo_stamps (h : s.stampsOk) (l : LaneId) (k : HostId) : (s.grantTo l k).stampsOk :=
  grantPosted_stamps (setLease_stamps h l _) l k _

theorem endLease_stamps (h : s.stampsOk) (l : LaneId) (c : LeaseEndCause) : (s.endLease l c).stampsOk :=
  grantHead_stamps (closeLease_stamps h l c) l

theorem revoke_stamps (h : s.stampsOk) (l : LaneId) (k : HostId) (target : Option HostId) : (s.revoke l k target).stampsOk := by
  have h1 := settleClaims_stamps (closeLease_stamps (postLease_stamps h k (.leaseLost l .revoked)) l .revoked) l
  unfold State.revoke
  dsimp only
  split
  · exact grantHead_stamps h1 l
  · exact grantTo_stamps h1 l _

theorem dropClaims_stamps (h : s.stampsOk) (k : HostId) : (s.dropClaims k).stampsOk := by
  unfold State.dropClaims
  generalize laneIds = ls
  induction ls generalizing s with
  | nil => exact h
  | cons l ls ih => exact ih (setLease_stamps h l _)

theorem endLeasesOf_stamps (h : s.stampsOk) (k : HostId) : (s.endLeasesOf k).stampsOk := by
  unfold State.endLeasesOf
  generalize laneIds = ls
  induction ls generalizing s with
  | nil => exact h
  | cons l ls ih => exact ih (ite_stamps (endLease_stamps h l _) h)

theorem expire_stamps (h : s.stampsOk) (l : LaneId) : (s.expire l).stampsOk := by
  unfold State.expire
  split
  · split
    · exact endLease_stamps (postLease_stamps h _ _) l _
    · exact h
  · exact h

theorem configureLane_stamps (h : s.stampsOk) (l : LaneId) (p : Word) (a b : Polarity) :
    (s.configureLane l p a b).stampsOk := setLane_stamps_keep (setLease_stamps h l _) l _ (by rfl)

end Sys2Proof.Machine
end

section
/-! Every step keeps event queues and host links consistent, and files only records of the present timestamp (R148, R149, R157, R168). -/

namespace Sys2Proof.Machine

variable {s t : State} {l : LaneId}

/-! ## Event queues -/

/-- What an operation at a timestamp leaves of a queue: it stays consistent, and it has lost records at its head and got records of
that timestamp at its tail. -/
def EventQueue.Moves (stamp : Stamp) (q q' : EventQueue) : Prop :=
  ∃ n new, q'.queue = q.queue.drop n ++ new ∧ ∀ r ∈ new, r.stamp = stamp

theorem EventQueue.Moves.refl (stamp : Stamp) (q : EventQueue) : q.Moves stamp q := ⟨0, [], by simp, by simp⟩

theorem EventQueue.moves_store (q : EventQueue) (stamp : Stamp) (e : Event) : q.Moves stamp (q.store stamp e) :=
  ⟨0, [⟨q.seq, stamp, e⟩], rfl, by simp⟩

theorem EventQueue.moves_file (q : EventQueue) (stamp : Stamp) (e : Event) : q.Moves stamp (q.file stamp e) := by
  unfold EventQueue.file
  split
  · exact .refl stamp q
  · split
    · exact q.moves_store stamp e
    · exact .refl stamp q

theorem EventQueue.moves_fetched (q : EventQueue) (n : Nat) (stamp : Stamp) : q.Moves stamp (q.fetched n stamp) := by
  unfold EventQueue.fetched
  dsimp only
  split
  · exact ⟨n, [], by simp, by simp⟩
  · exact ⟨n, [⟨q.seq, stamp, .eventsLost q.lost⟩], rfl, by simp⟩

theorem EventQueue.moves_withdraw (q : EventQueue) (c : WithdrawalCause) (stamp : Stamp) :
    q.Moves stamp (q.withdraw c stamp) := by
  unfold EventQueue.withdraw
  dsimp only
  split
  · exact ⟨q.queue.length, [⟨q.seq, stamp, .withdrawn⟩], by simp [EventQueue.store], by simp⟩
  · exact ⟨q.queue.length, [], by simp, by simp⟩

/-- What a command leaves of the event queues: each stays consistent, and where every post carries the present timestamp only
records of it are filed, at the tail. -/
def EventsMove (s t : State) : Prop :=
  ∀ k, ((s.eventsOf k).wf → (t.eventsOf k).wf) ∧ (s.stampsOk → (s.eventsOf k).Moves s.time.timestamp (t.eventsOf k))

theorem EventsMove.of_events (h : t.events = s.events) : EventsMove s t := by
  intro k
  rw [show t.eventsOf k = s.eventsOf k by unfold State.eventsOf; rw [h]]
  exact ⟨id, fun _ => .refl _ _⟩

theorem EventsMove.refl (s : State) : EventsMove s s := .of_events rfl

/-- Only the queue of host k moves. -/
theorem EventsMove.setEvents {k : HostId} {q : EventQueue} (ht : t.events = s.events.upd k q) (hw : (s.eventsOf k).wf → q.wf)
    (hm : s.stampsOk → (s.eventsOf k).Moves s.time.timestamp q) : EventsMove s t := by
  intro j
  rw [show t.eventsOf j = if k = j then q else s.eventsOf j by
    unfold State.eventsOf; rw [ht]; exact Bank.sel_upd _ _ _ _]
  split
  · subst_vars; exact ⟨hw, hm⟩
  · exact ⟨id, fun _ => .refl _ _⟩

theorem OwnerFrame.events (h : OwnerFrame s t) : t.events = s.events := by rw [h]

theorem LinkFrame.events {k : HostId} (h : LinkFrame k s t) : t.events = s.events := by rw [h.1]

theorem decide_events (k : HostId) (kind : RequestKind) {owner : List Byte → State × Reply}
    (ho : ∀ p, EventsMove s (owner p).1) : EventsMove s (s.decide k kind owner) := by
  refine decide_keeps (P := EventsMove s) (fun u v hu e => ?_) (.refl s) k kind ho
  intro j
  rw [show v.eventsOf j = u.eventsOf j by rw [e]; rfl]
  exact hu j

theorem postReady_mem {k : HostId} {i : Nat} {p : Post} (h : s.postReady k i = some p) : p ∈ s.posts ∧ p.host = k := by
  obtain ⟨hp, -⟩ := Option.filter_eq_some_iff.1 h
  have hm := List.mem_of_getElem? hp
  simpa [State.postsFor] using hm

theorem filePost_events (s : State) (k : HostId) (i : Nat) : EventsMove s (s.filePost k i) := by
  unfold State.filePost
  split
  · exact .refl s
  · rename_i p hp
    refine EventsMove.setEvents rfl (fun hw => EventQueue.wf_file hw _ _) fun hs => ?_
    rw [← hs.1 p (postReady_mem hp).1]
    exact EventQueue.moves_file _ _ _

theorem fetchRequest_events (s : State) (k : HostId) (p : List Byte) : EventsMove s (fetchRequest s k p).1 := by
  unfold fetchRequest
  dsimp only
  split
  · exact .refl s
  · rename_i hn
    exact EventsMove.setEvents rfl (fun hw => EventQueue.wf_fetched hw _ (by omega) _)
      fun _ => EventQueue.moves_fetched _ _ _

theorem eventMaskRequest_events (s : State) (k : HostId) (p : List Byte) : EventsMove s (eventMaskRequest s k p).1 := by
  unfold eventMaskRequest
  split
  · exact EventsMove.setEvents rfl (fun hw => hw) fun _ => .refl _ _
  · exact .refl s

theorem eventPart_events (s : State) (n : Nat) : EventsMove s (s.eventPart n) := by
  unfold State.eventPart
  split
  · exact .refl s
  · rename_i w _
    split
    · exact EventsMove.setEvents (congrArg State.events (answerWithdrawal_eq _ _)) (fun _ => EventQueue.wf_withdraw _ _ _)
        fun _ => EventQueue.moves_withdraw _ _ _
    · exact .refl s

theorem deviceReset_events (s : State) : EventsMove s s.deviceReset := by
  intro k
  rw [show s.deviceReset.eventsOf k = EventQueue.reset from Bank.sel_replicate _ k]
  exact ⟨fun _ => EventQueue.wf_reset, fun _ => ⟨(s.eventsOf k).queue.length, [], by simp [EventQueue.reset], by simp⟩⟩

theorem decideWithdrawal_events (s : State) (k : HostId) (kind : RequestKind)
    (owner : List Byte → Except Status (HostId × WithdrawalCause)) :
    (s.decideWithdrawal k kind owner).events = s.events := by
  obtain he | ⟨req, live, -, -, ⟨st, -, he⟩ | ⟨host, cause, -, he⟩⟩ := decideWithdrawal_cases s k kind owner
  · rw [he]
  · rw [he, answer_eq]
  · rw [he]

theorem leasePart_events (s : State) (n : Nat) : (s.leasePart n).events = s.events := by
  unfold State.leasePart
  split
  · rfl
  · split
    · rfl
    · exact (State.setWithdrawal_events _ _ _).trans ((dropClaims_frame s _).trans (endLeasesOf_frame _ _)).events

theorem segmentPart_events (s : State) (n : Nat) : (s.segmentPart n).events = s.events := by
  unfold State.segmentPart
  split
  · rfl
  · split
    · rfl
    · exact (State.setStore_events _ _).trans (State.setWithdrawal_events _ _ _)

/-! ## Requests and timestamps -/

theorem decide_stamps (h : s.stampsOk) (k : HostId) (kind : RequestKind) {owner : List Byte → State × Reply}
    (ho : ∀ p, (owner p).1.stampsOk) : (s.decide k kind owner).stampsOk :=
  decide_keeps (P := State.stampsOk) (fun _ _ hu e => stampsOk_congr hu (by rw [e]) (by rw [e]) (by rw [e])) h k kind ho

theorem StoreOnly.stamps (h : StoreOnly s t) (hs : s.stampsOk) : t.stampsOk := by
  obtain ⟨v, rfl⟩ := h; exact stampsOk_congr hs rfl rfl rfl

theorem claimRequest_stamps (h : s.stampsOk) (k : HostId) (p : List Byte) : (claimRequest s k p).1.stampsOk := by
  unfold claimRequest
  dsimp only
  split
  · split
    · exact h
    · split
      · exact grant_stamps h _ k _
      · repeat' split
        · exact h
        · exact h
        · exact setLease_stamps h _ _
        · exact h
  · exact h

theorem renewRequest_stamps (h : s.stampsOk) (k : HostId) (p : List Byte) : (renewRequest s k p).1.stampsOk := by
  unfold renewRequest
  dsimp only
  split
  · exact h
  · split
    · exact h
    · split
      · exact h
      · exact setLease_stamps h _ _

theorem releaseRequest_stamps (h : s.stampsOk) (k : HostId) (p : List Byte) : (releaseRequest s k p).1.stampsOk := by
  unfold releaseRequest
  split
  · exact h
  · split
    · dsimp only; exact endLease_stamps h _ _
    · split
      · exact setLease_stamps h _ _
      · exact h

theorem configureRequest_stamps (h : s.stampsOk) (k : HostId) (p : List Byte) : (configureRequest s k p).1.stampsOk := by
  unfold configureRequest
  split
  · split
    · exact h
    · split
      · exact h
      · exact configureLane_stamps h _ _ _ _
  · exact h

theorem revokeRequest_stamps (h : s.stampsOk) (k : HostId) (p : List Byte) : (revokeRequest s k p).1.stampsOk := by
  unfold revokeRequest
  split
  · exact h
  · split
    · split
      · exact h
      · exact revoke_stamps h _ _ _
    · exact h

theorem enqueueRequest_stamps (h : s.stampsOk) (k : HostId) (p : List Byte) : (enqueueRequest s k p).1.stampsOk := by
  have ht := fun l => settleClaims_stamps (settleRelease_stamps h l) l
  unfold enqueueRequest
  dsimp only
  repeat' split
  · exact h
  · exact h
  · exact h
  · exact ht _
  · exact acceptEntry_stamps (ht _) _ _ _

theorem flushRequest_stamps (h : s.stampsOk) (k : HostId) (p : List Byte) : (flushRequest s k p).1.stampsOk := by
  unfold flushRequest
  split
  · exact h
  · exact flushLane_stamps (settleRelease_stamps h _) _

theorem abortRequest_stamps (h : s.stampsOk) (k : HostId) (p : List Byte) : (abortRequest s k p).1.stampsOk := by
  unfold abortRequest
  split
  · exact h
  · exact abortLane_stamps (settleRelease_stamps h _) _

theorem holdRequest_stamps (h : s.stampsOk) (k : HostId) (p : List Byte) : (holdRequest s k p).1.stampsOk := by
  unfold holdRequest
  split
  · exact h
  · exact holdByState_stamps (settleRelease_stamps h _) _

theorem resumeRequest_stamps (h : s.stampsOk) (k : HostId) (p : List Byte) : (resumeRequest s k p).1.stampsOk := by
  unfold resumeRequest
  split
  · exact h
  · exact resumeByState_stamps (settleRelease_stamps h _) _

theorem retimeRequest_stamps (h : s.stampsOk) (k : HostId) (p : List Byte) : (retimeRequest s k p).1.stampsOk := by
  unfold retimeRequest
  split
  · exact h
  · exact retimeLane_stamps (settleRelease_stamps h _) _ p

theorem markSetRequest_stamps (h : s.stampsOk) (p : List Byte) : (markSetRequest s p).1.stampsOk := by
  unfold markSetRequest
  split
  · exact h
  · exact settleMark_stamps h _ _

theorem markClearRequest_stamps (h : s.stampsOk) (p : List Byte) : (markClearRequest s p).1.stampsOk := by
  unfold markClearRequest
  split
  · exact h
  · exact stampsOk_congr h rfl rfl rfl

theorem laneStatusRequest_stamps (h : s.stampsOk) (p : List Byte) : (laneStatusRequest s p).1.stampsOk := by
  unfold laneStatusRequest
  split <;> exact h

theorem fetchRequest_stamps (h : s.stampsOk) (k : HostId) (p : List Byte) : (fetchRequest s k p).1.stampsOk := by
  unfold fetchRequest
  dsimp only
  split
  · exact h
  · exact stampsOk_congr h rfl rfl rfl

theorem eventMaskRequest_stamps (h : s.stampsOk) (k : HostId) (p : List Byte) : (eventMaskRequest s k p).1.stampsOk := by
  unfold eventMaskRequest
  split
  · exact stampsOk_congr h rfl rfl rfl
  · exact h

theorem LinkFrame.stamps {k : HostId} (h : LinkFrame k s t) (hs : s.stampsOk) : t.stampsOk :=
  stampsOk_congr hs (by rw [h.1]) (by rw [h.1]) (by rw [h.1])

theorem decideWithdrawal_stamps (h : s.stampsOk) (k : HostId) (kind : RequestKind)
    (owner : List Byte → Except Status (HostId × WithdrawalCause)) : (s.decideWithdrawal k kind owner).stampsOk := by
  obtain he | ⟨req, live, -, -, ⟨st, -, he⟩ | ⟨host, cause, -, he⟩⟩ := decideWithdrawal_cases s k kind owner
  · rw [he]; exact h
  · rw [he]; exact stampsOk_congr h (by rw [answer_eq]) (by rw [answer_eq]) (by rw [answer_eq])
  · rw [he]; exact stampsOk_congr h rfl rfl rfl

theorem mem_withoutPost {k : HostId} {p : Post} : ∀ {i : Nat} {ps : List Post}, p ∈ withoutPost k i ps → p ∈ ps
  | _, [], h => h
  | i, q :: ps, h => by
    unfold withoutPost at h
    split at h
    · cases i with
      | zero => exact List.mem_cons_of_mem q h
      | succ j => exact (List.mem_cons.1 h).elim (fun e => e ▸ List.mem_cons_self) fun hm =>
          List.mem_cons_of_mem q (mem_withoutPost hm)
    · exact (List.mem_cons.1 h).elim (fun e => e ▸ List.mem_cons_self) fun hm => List.mem_cons_of_mem q (mem_withoutPost hm)

theorem filePost_stamps (h : s.stampsOk) (k : HostId) (i : Nat) : (s.filePost k i).stampsOk := by
  unfold State.filePost
  split
  · exact h
  · exact ⟨fun p hp => h.1 p (mem_withoutPost hp), h.2⟩

theorem leasePart_stamps (h : s.stampsOk) (n : Nat) : (s.leasePart n).stampsOk := by
  unfold State.leasePart
  split
  · exact h
  · split
    · exact h
    · exact stampsOk_congr (endLeasesOf_stamps (dropClaims_stamps h _) _) (State.setWithdrawal_posts _ _ _)
        (congrArg _ (State.setWithdrawal_time _ _ _)) (State.setWithdrawal_lanes _ _ _)

theorem segmentPart_stamps (h : s.stampsOk) (n : Nat) : (s.segmentPart n).stampsOk := by
  unfold State.segmentPart
  split
  · exact h
  · split
    · exact h
    · exact stampsOk_congr h ((State.setStore_posts _ _).trans (State.setWithdrawal_posts _ _ _))
        (congrArg TimeBase.timestamp ((State.setStore_time _ _).trans (State.setWithdrawal_time _ _ _)))
        ((State.setStore_lanes _ _).trans (State.setWithdrawal_lanes _ _ _))

theorem eventPart_stamps (h : s.stampsOk) (n : Nat) : (s.eventPart n).stampsOk := by
  unfold State.eventPart
  split
  · exact h
  · split
    · rw [answerWithdrawal_eq]
      exact stampsOk_congr h rfl rfl rfl
    · exact h

theorem mem_laneIds (l : LaneId) : l ∈ laneIds := by
  revert l; decide

theorem claimDue_eq_none_iff (s : State) (l : LaneId) : s.claimDue l = none ↔ s.claimsOf l = [] := by
  unfold State.claimDue
  split <;> simp_all

theorem handbackDue_eq_none_iff (s : State) (l : LaneId) :
    s.handbackDue l = none ↔ s.answersOf l = [] ∧ ∀ x a, (s.lane l).state ≠ .released x a := by
  unfold State.handbackDue
  by_cases ha : s.answersOf l = []
  · cases hs : (s.lane l).state <;> simp [ha]
  · simp [ha]

/-- The part is settled where no post, claim or append answer waits and no lane is released (log 16). -/
theorem settled_iff (s : State) : s.settled = true ↔
    s.posts = [] ∧ ∀ l, s.claimsOf l = [] ∧ s.answersOf l = [] ∧ ∀ x a, (s.lane l).state ≠ .released x a := by
  simp only [State.settled, Bool.and_eq_true, List.isEmpty_iff, List.all_eq_true, mem_laneIds, forall_const,
    Option.isNone_iff_eq_none, claimDue_eq_none_iff, handbackDue_eq_none_iff]

/-- The timestamp rises only where no post waits and no lane is released, so that nothing carries the one before (log 16). -/
theorem timestampTick_stamps (h : s.stampsOk) : s.timestampTick.stampsOk := by
  unfold State.timestampTick
  split
  · rename_i hd
    obtain ⟨hp, hl⟩ := (settled_iff s).1 (Bool.and_eq_true _ _ ▸ hd).2
    exact ⟨fun p hm => by simp [hp] at hm, fun l x a hx => absurd hx ((hl l).2.2 x a)⟩
  · exact h

theorem deviceReset_stamps (s : State) : s.deviceReset.stampsOk := by
  refine ⟨?_, fun l x a hx => ?_⟩
  · rintro p ⟨⟩
  · rw [show s.deviceReset.lane l = Lane.reset from Bank.sel_replicate _ l] at hx
    cases hx

theorem tick_stamps (h : s.stampsOk) : s.tick.stampsOk := by
  refine ⟨h.1, fun l x a hx => ?_⟩
  rw [show s.tick.lane l = s.judgedLane l from Bank.sel_ofFn _ l] at hx
  unfold State.judgedLane at hx
  split at hx <;> exact h.2 l x a hx

/-! ## Every step -/

/-- The invariants of the Event Unit and of the Host Links go through a command, and so do the timestamps. -/
def CommandKeeps (s t : State) : Prop :=
  EventsMove s t ∧ (s.linksOk → t.linksOk) ∧ (s.stampsOk → t.stampsOk)

theorem CommandKeeps.refl (s : State) : CommandKeeps s s := ⟨.refl s, id, id⟩

/-- A command that touches no event queue and no link. -/
theorem OwnerFrame.keeps (h : OwnerFrame s t) (hs : s.stampsOk → t.stampsOk) : CommandKeeps s t :=
  ⟨.of_events h.events, h.linksOk, hs⟩

theorem StoreOnly.keeps (h : StoreOnly s t) : CommandKeeps s t := h.owner.keeps h.stamps

theorem LinkFrame.keeps {k : HostId} (h : LinkFrame k s t) (hl : s.linksOk → t.linksOk) : CommandKeeps s t :=
  ⟨.of_events h.events, hl, h.stamps⟩

theorem decide_commandKeeps (k : HostId) (kind : RequestKind) {owner : List Byte → State × Reply}
    (ho : ∀ p, CommandKeeps s (owner p).1) : CommandKeeps s (s.decide k kind owner) :=
  ⟨decide_events k kind fun p => (ho p).1, fun h => decide_linksOk h k kind fun p => (ho p).2.1 h,
    fun h => decide_stamps h k kind fun p => (ho p).2.2 h⟩

theorem fetchRequest_keeps (s : State) (k : HostId) (p : List Byte) : CommandKeeps s (fetchRequest s k p).1 := by
  refine ⟨fetchRequest_events s k p, fun h => ?_, fun h => fetchRequest_stamps h k p⟩
  unfold fetchRequest
  dsimp only
  split <;> exact h

theorem eventMaskRequest_keeps (s : State) (k : HostId) (p : List Byte) : CommandKeeps s (eventMaskRequest s k p).1 := by
  refine ⟨eventMaskRequest_events s k p, fun h => ?_, fun h => eventMaskRequest_stamps h k p⟩
  unfold eventMaskRequest
  split <;> exact h

theorem filePost_linksOk (h : s.linksOk) (k : HostId) (i : Nat) : (s.filePost k i).linksOk := by
  unfold State.filePost
  split <;> exact h

theorem appendEvent_frame (s : State) (l : LaneId) : StoreFrame s (s.appendEvent l) := by
  unfold State.appendEvent
  split
  · exact StoreFrame.trans ⟨_, _, _, _, rfl⟩ (takeAppend_frame _ _ _ _ _)
  · exact .refl s

theorem releaseEvent_frame (s : State) (l : LaneId) : StoreFrame s (s.releaseEvent l) := by
  unfold State.releaseEvent
  split
  · exact StoreFrame.trans ⟨_, _, _, _, rfl⟩ (takeRelease_frame _ _ _ _ _)
  · exact .refl s

theorem appendEvent_stamps (h : s.stampsOk) (l : LaneId) : (s.appendEvent l).stampsOk := by
  unfold State.appendEvent
  split
  · exact takeAppend_stamps (s := s.setClaims l _) (stampsOk_congr h rfl rfl rfl) l _ _ _
  · exact h

theorem releaseEvent_stamps (h : s.stampsOk) (l : LaneId) : (s.releaseEvent l).stampsOk := by
  unfold State.releaseEvent
  split
  · exact takeRelease_stamps (s := s.setClaims l _) (stampsOk_congr h rfl rfl rfl) l _ _ _
  · exact h

/-- An event of RTN raises the line and then acts on the lane. -/
theorem keeps_of_raiseRtn (h : OwnerFrame (s.raiseRtn l) t) (hs : s.stampsOk → t.stampsOk) : CommandKeeps s t :=
  ⟨.of_events h.events, fun hl => h.linksOk hl, hs⟩

theorem rtnReadyActive_owner (s : State) (l : LaneId) : OwnerFrame (s.raiseRtn l) (s.rtnReadyActive l) := by
  unfold State.rtnReadyActive
  split
  · split
    · exact (driveWord_frame _ l _).owner
    · exact .refl _
  · exact .refl _

theorem ackEdge_owner (s : State) (l : LaneId) : OwnerFrame (s.raiseRtn l) (s.ackEdge l) := by
  unfold State.ackEdge
  split
  · split
    · exact (acknowledge_frame _ l _).owner
    · exact .refl _
  · exact .refl _

theorem rtnEdgeSample_owner (s : State) (l : LaneId) : OwnerFrame (s.raiseRtn l) (s.rtnEdgeSample l) := by
  unfold State.rtnEdgeSample
  split
  · split
    · exact (sampleEdge_frame _ l _).owner
    · exact .refl _
  · exact .refl _

theorem appendAnswer_owner (s : State) (l : LaneId) : OwnerFrame s (s.appendAnswer l) := by
  have h1 : ∀ v, OwnerFrame s (s.setAnswers l v) := fun _ => rfl
  unfold State.appendAnswer
  split
  · exact .refl s
  · dsimp only
    split
    · exact h1 _
    · split
      · exact (h1 _).trans (answerStored_frame _ l _ _).owner
      · exact (h1 _).trans (endCapture_frame _ l _).owner
      · exact (h1 _).trans (endCapture_frame _ l _).owner

/-- A stall timer or a capture timer ends the entry, or nothing happens. -/
theorem ite_keeps {b : Prop} [Decidable b] {u : State} (h : CommandKeeps s u) : CommandKeeps s (if b then u else s) := by
  split
  exacts [h, .refl s]

theorem endFaulted_keeps (s : State) (l : LaneId) (c : FaultCode) : CommandKeeps s (s.endFaulted l c) :=
  (endFaulted_frame s l c).owner.keeps fun h => endFaulted_stamps h l c

theorem endAndGoOn_keeps (s : State) (l : LaneId) (o : EndOutcome) : CommandKeeps s (s.endAndGoOn l o) :=
  (endAndGoOn_frame s l o).owner.keeps fun h => endAndGoOn_stamps h l o

theorem leaseTick_frame (s : State) :
    ∃ leases time, s.leaseTick = { s with leases := leases, time := time } ∧ time.timestamp = s.time.timestamp ∧
      time.clock = s.time.clock := by
  unfold State.leaseTick
  split
  · exact ⟨_, _, rfl, rfl, rfl⟩
  · exact ⟨s.leases, s.time, rfl, rfl, rfl⟩

theorem leaseTick_keeps (s : State) : CommandKeeps s s.leaseTick := by
  obtain ⟨leases, time, he, ht, -⟩ := leaseTick_frame s
  rw [he]
  exact ⟨.of_events rfl, fun h => h, fun h => stampsOk_congr h rfl ht rfl⟩

theorem timestampTick_keeps (s : State) : CommandKeeps s s.timestampTick := by
  refine ⟨?_, fun h => ?_, timestampTick_stamps⟩ <;> unfold State.timestampTick <;> split
  · exact .of_events rfl
  · exact .refl s
  · exact h
  · exact h

theorem deviceRelease_keeps (s : State) (a v w : Bool) : CommandKeeps s (s.deviceRelease a v w) := by
  refine ⟨?_, fun h => deviceRelease_linksOk h a v w, fun h => ?_⟩ <;> unfold State.deviceRelease <;> split
  · exact .refl s
  · exact .of_events rfl
  · exact h
  · exact h

theorem nlrstFall_keeps (s : State) (k : HostId) : CommandKeeps s (s.nlrstFall k) := by
  refine ⟨?_, fun h => nlrstFall_linksOk h k, fun h => ?_⟩ <;> unfold State.nlrstFall <;> split
  · exact .refl s
  · split <;> exact .of_events rfl
  · exact h
  · split <;> exact stampsOk_congr h rfl rfl rfl

theorem decideWithdrawal_keeps (s : State) (k : HostId) (kind : RequestKind)
    (owner : List Byte → Except Status (HostId × WithdrawalCause)) : CommandKeeps s (s.decideWithdrawal k kind owner) :=
  ⟨.of_events (decideWithdrawal_events s k kind owner), fun h => decideWithdrawal_linksOk h k kind owner,
    fun h => decideWithdrawal_stamps h k kind owner⟩

theorem exec_keeps {c : Instr} {s t : State} (he : exec c s = .next t) : CommandKeeps s t := by
  cases c <;> obtain rfl := Host.Outcome.next.inj he
  case deviceReset => exact ⟨deviceReset_events s, fun _ => deviceReset_linksOk s, fun _ => deviceReset_stamps s⟩
  case deviceResetRelease a v w => exact deviceRelease_keeps s a v w
  case linkReset k => exact nlrstFall_keeps s k
  case linkResetRelease k => exact (setLink_frame s k _).keeps fun h => linkResetRelease_linksOk h k
  case requestFrameEnd p f => exact (writeBytes_frame s p.port f p.ends).keeps fun h => writeBytes_ok h p.port f p.ends
  case nullWrite p => exact (nullWrite_frame s p.port p.ends).keeps fun h => nullWrite_ok h p.port p.ends
  case ignoredTransaction p b n =>
    exact (ignoredTransaction_frame s p.port b n p.ends).keeps fun h => ignoredTransaction_ok h p.port b n p.ends
  case responseRead p n => exact (responseRead_frame s p.port n p.ends).keeps fun h => responseRead_ok h p.port n p.ends
  case define k => exact decide_commandKeeps k _ fun p => (defineRequest_storeOnly s k p).keeps
  case extend k => exact decide_commandKeeps k _ fun p => (extendRequest_storeOnly s k p).keeps
  case write k => exact decide_commandKeeps k _ fun p => (writeRequest_storeOnly s k p).keeps
  case read k => exact decide_commandKeeps k _ fun p => (readRequest_storeOnly s k p).keeps
  case publish k => exact decide_commandKeeps k _ fun p => (publishRequest_storeOnly s k p).keeps
  case delete k => exact decide_commandKeeps k _ fun p => (deleteRequest_storeOnly s k p).keeps
  case catalog k => exact decide_commandKeeps k _ fun p => (catalogRequest_storeOnly s k p).keeps
  case query k => exact decide_commandKeeps k _ fun p => (queryRequest_storeOnly s k p).keeps
  case purge k => exact decide_commandKeeps k _ fun p => (purgeRequest_storeOnly s k p).keeps
  case claim k => exact decide_commandKeeps k _ fun p => (claimRequest_owner s k p).keeps fun h => claimRequest_stamps h k p
  case renew k => exact decide_commandKeeps k _ fun p => (renewRequest_owner s k p).keeps fun h => renewRequest_stamps h k p
  case release k =>
    exact decide_commandKeeps k _ fun p => (releaseRequest_owner s k p).keeps fun h => releaseRequest_stamps h k p
  case leaseTick => exact leaseTick_keeps s
  case leaseExpiry l => exact (expire_frame s l).owner.keeps fun h => expire_stamps h l
  case configure k =>
    exact decide_commandKeeps k _ fun p => (configureRequest_owner s k p).keeps fun h => configureRequest_stamps h k p
  case laneStatus k =>
    exact decide_commandKeeps k _ fun p => (laneStatusRequest_owner s p).keeps fun h => laneStatusRequest_stamps h p
  case enqueue k =>
    exact decide_commandKeeps k _ fun p => (enqueueRequest_owner s k p).keeps fun h => enqueueRequest_stamps h k p
  case flush k => exact decide_commandKeeps k _ fun p => (flushRequest_owner s k p).keeps fun h => flushRequest_stamps h k p
  case abort k => exact decide_commandKeeps k _ fun p => (abortRequest_owner s k p).keeps fun h => abortRequest_stamps h k p
  case hold k => exact decide_commandKeeps k _ fun p => (holdRequest_owner s k p).keeps fun h => holdRequest_stamps h k p
  case resume k =>
    exact decide_commandKeeps k _ fun p => (resumeRequest_owner s k p).keeps fun h => resumeRequest_stamps h k p
  case retime k =>
    exact decide_commandKeeps k _ fun p => (retimeRequest_owner s k p).keeps fun h => retimeRequest_stamps h k p
  case stepBoundary l => exact (stepBoundary_frame s l).owner.keeps fun h => stepBoundary_stamps h l
  case strobeEnd l => exact (strobeEnd_frame s l).owner.keeps fun h => strobeEnd_stamps h l
  case rtnReadyActive l => exact keeps_of_raiseRtn (rtnReadyActive_owner s l) fun h => rtnReadyActive_stamps h l
  case ackEdge l => exact keeps_of_raiseRtn (ackEdge_owner s l) fun h => ackEdge_stamps h l
  case rtnEdgeSample l => exact keeps_of_raiseRtn (rtnEdgeSample_owner s l) fun h => rtnEdgeSample_stamps h l
  case readyTimeout l => exact ite_keeps (endFaulted_keeps s l _)
  case ackTimeout l => exact ite_keeps (endFaulted_keeps s l _)
  case passEnd l => exact (passEnd_frame s l).owner.keeps fun h => passEnd_stamps h l
  case captureTimeout l => exact ite_keeps (endAndGoOn_keeps s l _)
  case captureEndPoint l => exact ite_keeps (endAndGoOn_keeps s l _)
  case append l => exact (appendEvent_frame s l).owner.keeps fun h => appendEvent_stamps h l
  case appendAnswer l => exact (appendAnswer_owner s l).keeps fun h => appendAnswer_stamps h l
  case referenceRelease l => exact (releaseEvent_frame s l).owner.keeps fun h => releaseEvent_stamps h l
  case markSet k => exact decide_commandKeeps k _ fun p => (markSetRequest_owner s p).keeps fun h => markSetRequest_stamps h p
  case markReleaseProceed l => exact (settleRelease_frame s l).owner.keeps fun h => settleRelease_stamps h l
  case markClear k =>
    exact decide_commandKeeps k _ fun p => (markClearRequest_owner s p).keeps fun h => markClearRequest_stamps h p
  case markStatus k => exact decide_commandKeeps k _ fun _ => .refl s
  case deviceStatus k => exact decide_commandKeeps k _ fun _ => .refl s
  case eventPost k n => exact ⟨filePost_events s k n, fun h => filePost_linksOk h k n, fun h => filePost_stamps h k n⟩
  case fetch k => exact decide_commandKeeps k _ fun p => fetchRequest_keeps s k p
  case eventMask k => exact decide_commandKeeps k _ fun p => eventMaskRequest_keeps s k p
  case detach k => exact decideWithdrawal_keeps s k _ _
  case evict k => exact decideWithdrawal_keeps s k _ _
  case revoke k => exact decide_commandKeeps k _ fun p => (revokeRequest_owner s k p).keeps fun h => revokeRequest_stamps h k p
  case withdrawalLeasePart n =>
    exact ⟨.of_events (leasePart_events s n), fun h => leasePart_linksOk h n, fun h => leasePart_stamps h n⟩
  case withdrawalSegmentPart n =>
    exact ⟨.of_events (segmentPart_events s n), fun h => segmentPart_linksOk h n, fun h => segmentPart_stamps h n⟩
  case withdrawalEventPart n => exact ⟨eventPart_events s n, fun h => eventPart_linksOk h n, fun h => eventPart_stamps h n⟩
  case timestampTick => exact timestampTick_keeps s

/-- Settles O58: each command keeps the event queues, the links and the timestamps, and a tick touches none of them. -/
theorem everyStepKeepsEventsAndLinks : Obligations.EveryStepKeepsEventsAndLinks := by
  intro s t he hl hs
  have hk : CommandKeeps s t := by
    obtain ⟨c, rest, hc⟩ | rfl := step_cases hs
    · exact exec_keeps (s := { s with pending := rest }) hc
    · exact ⟨.of_events rfl, fun h => h, tick_stamps⟩
  obtain ⟨h1, h2, h3⟩ := hk
  exact ⟨fun k => (h1 k).1 (he k), h2 hl, fun h => ⟨h3 h, fun k => (h1 k).2 h⟩⟩

end Sys2Proof.Machine
end

section
/-! Every step keeps the Segment Manager's store, its references and what R62 says of the play entries (R1, R2, R5 to R9, R23, R62). -/

namespace Sys2Proof.Machine

variable {s t u : State} {l : LaneId}

/-! ## The store -/

theorem settles_setRefs_keeps {P : Store → Prop} (hp : ∀ a b : Store, a.Settles b → P a → P b) {a b c : Store} {i : Slot} {n : Nat}
    (h1 : a.Settles b) (hb : P b → P (b.setRefs i n)) (h2 : (b.setRefs i n).Settles c) (ha : P a) : P c :=
  hp _ _ h2 (hb (hp _ _ h1 ha))

theorem live_ne_free {g : Segment} (h : g.live = true) : g.state ≠ .free := by
  intro e; simp [Segment.live, e] at h

theorem live_ne_condemned {g : Segment} (h : g.live = true) : g.state ≠ .condemned := by
  intro e; simp [Segment.live, e] at h

theorem exec_storeWf {c : Instr} (hs : s.store.wf) (he : exec c s = .next t) (hc : c ≠ .deviceReset) : t.store.wf :=
  storeMoves (fun _ st' => st'.wf) s hs
    (fun i k name v n hf hn h1 hq hp => Store.wf_defineIn hs i k name v n hf hn h1 (by omega) hp)
    (fun i n ho hq _ _ => Store.wf_allocate hs i n ho hq)
    (fun i ho hl _ => Store.wf_publishEntry hs i ho hl)
    (fun i hl => Store.wf_removeEntry hs i true hl)
    (fun h b => Store.wf_purge hs h b)
    (fun h => Store.wf_withdraw hs h)
    c t he hc
    (fun i o ws _ ho _ h1 h2 => Store.wf_putWords hs i o _ ws ho h1 (.inr rfl) h2 (Nat.le_max_left _ _))
    (fun _ _ h => h.wf hs)
    (fun _ i _ _ h1 hl h2 => settles_setRefs_keeps (P := Store.wf) (fun _ _ h => h.wf) h1
      (fun hb => Store.wf_setRefs hb i _ (live_ne_free hl) fun e => absurd e (live_ne_condemned hl)) h2 hs)
    (fun l r id w _ _ _ => takeAppend_wf hs l r id w)
    (fun l r id x _ _ _ => takeRelease_wf hs l r id x)

theorem exec_quotaKept {c : Instr} (hq : s.store.quotaKept) (he : exec c s = .next t) (hc : c ≠ .deviceReset) :
    t.store.quotaKept :=
  storeMoves (fun _ st' => st'.quotaKept) s hq
    (fun i k name v n _ _ _ hr _ => quota_defineIn hq i k name v n hr)
    (fun i n _ _ hr _ => quota_allocate hq i n hr)
    (fun i ho _ _ => quota_publishEntry hq i ho)
    (fun i _ => quota_removeEntry hq i true)
    (fun h b => quota_purge hq h b)
    (fun h => quota_withdraw hq h)
    c t he hc
    (fun i o ws _ _ _ _ _ => quota_putWords hq i o _ ws)
    (fun _ _ h => h.quota hq)
    (fun _ i _ _ h1 _ h2 => settles_setRefs_keeps (P := Store.quotaKept) (fun _ _ h => h.quota) h1
      (fun hb => quota_setRefs hb i _) h2 hq)
    (fun l r id w _ _ _ => takeAppend_quota hq l r id w)
    (fun l r id x _ _ _ => takeRelease_quota hq l r id x)

theorem persists_takeAppend (s : State) (l : LaneId) (r : SegmentRef) (id : Nat) (w : Word) :
    s.store.Persists (s.takeAppend l r id w).store := (takeClaim_settles s l (.append r id w)).persists

theorem persists_takeRelease (s : State) (l : LaneId) (r : SegmentRef) (n : Nat) (x : Option Nat) :
    s.store.Persists (s.takeRelease l r n x).store := (takeClaim_settles s l (.release r n x)).persists

/-- What R62 asks of a segment that something references outlives every command (R14, R18, R62). -/
theorem exec_outlives {c : Instr} (hs : s.store.wf) (he : exec c s = .next t) (hc : c ≠ .deviceReset) :
    s.store.Outlives t.store :=
  storeMoves Store.Outlives s (Store.Persists.refl _).outlives
    (fun i k name v n hf _ _ _ _ => outlives_defineIn _ i k name v n ((hs.2.1 i).1 hf).2.2.2.1)
    (fun i n _ _ _ _ => (persists_allocate _ i n).outlives)
    (fun i _ _ hr => outlives_publishEntry _ i hr)
    (fun i hl => (persists_removeEntry _ i true hl).outlives)
    (fun h b => (persists_purge _ h b).outlives)
    (fun h => (persists_withdraw _ h).outlives)
    c t he hc
    (fun i o ws _ _ _ _ _ => (persists_putWords _ i o _ ws (Nat.le_max_left _ _)).outlives)
    (fun _ _ h => h.persists.outlives)
    (fun _ i _ _ h1 _ h2 => (h1.persists.trans ((persists_setRefs _ i _).trans h2.persists)).outlives)
    (fun l r id w _ _ _ => (persists_takeAppend s l r id w).outlives)
    (fun l r id x _ _ _ => (persists_takeRelease s l r id x).outlives)

/-- The commands of the Segment Manager's requests and of its withdrawal part, which change the table but no reference. -/
def movesTable : Instr → Prop
  | .define _ | .extend _ | .write _ | .read _ | .publish _ | .delete _ | .catalog _ | .query _ | .purge _
  | .withdrawalSegmentPart _ => True
  | _ => False

theorem exec_agrees {c : Instr} {rs : List SegmentRef} (hm : movesTable c) (h : Agrees rs s.store) (he : exec c s = .next t) :
    Agrees rs t.store :=
  storeMoves (fun _ st' => Agrees rs st') s h
    (fun i k name v n hf _ _ _ _ => h.define i k name v n hf)
    (fun i n _ _ _ _ => h.allocate i n)
    (fun i _ _ _ => h.publish i)
    (fun i _ => h.remove i true)
    (fun k b => h.purge k b)
    (fun k => h.withdraw k)
    c t he (by rintro rfl; exact hm)
    (fun i o ws _ _ _ _ _ => h.putWords i o _ ws)
    (fun _ hc _ => by cases c <;> first | exact hm.elim | exact hc.elim)
    (fun _ _ _ ⟨k, e⟩ => by subst e; exact hm.elim)
    (fun _ _ _ _ _ e => by subst e; exact hm.elim)
    (fun _ _ _ _ _ e => by subst e; exact hm.elim)

/-! ## References and holders -/

/-- What a command other than ENQUEUE and device reset does to what is queued: queues lose entries only, the references stay counted,
and a lane with entries queued keeps its holder. -/
def RefMove (s t : State) : Prop :=
  LaneMove s t ∧ ∀ l, (t.lane l).queue ≠ [] → (t.lease l).holder = (s.lease l).holder

theorem LaneMove.refMove (h : LaneMove s t) (hl : t.leases = s.leases) : RefMove s t :=
  ⟨h, fun l _ => by unfold State.lease; rw [hl]⟩

theorem RefMove.refl (s : State) : RefMove s s := ((KeepsRefs.refl s).move rfl).refMove rfl

theorem queue_ne_of_cuts (h : CutsQueues s t) (ht : (t.lane l).queue ≠ []) : (s.lane l).queue ≠ [] := by
  obtain ⟨e, he⟩ := List.exists_mem_of_ne_nil _ ht
  exact List.ne_nil_of_mem (h l e he)

theorem RefMove.trans (h : RefMove s t) (g : RefMove t u) : RefMove s u :=
  ⟨h.1.trans g.1, fun l hl => (g.2 l hl).trans (h.2 l (queue_ne_of_cuts g.1.1 hl))⟩

/-- Nothing but links, posts and the like differs. -/
theorem refMove_of_same (h1 : t.lanes = s.lanes) (h2 : t.claims = s.claims) (h3 : t.store = s.store)
    (h4 : t.leases = s.leases) : RefMove s t := by
  refine LaneMove.refMove (KeepsRefs.move (fun j => ?_) h3) h4
  unfold State.lane State.claimsOf
  rw [h1, h2]
  exact ⟨rfl, rfl⟩

theorem RefMove.links (h : t = { s with links := t.links }) : RefMove s t := by
  rw [h]; exact refMove_of_same rfl rfl rfl rfl

theorem decide_refMove (k : HostId) (kind : RequestKind) {owner : List Byte → State × Reply}
    (ho : ∀ p, RefMove s (owner p).1) : RefMove s (s.decide k kind owner) :=
  decide_keeps (P := RefMove s) (fun _ _ hu e => hu.trans (.links e)) (.refl s) k kind ho

theorem LaneFrame.refMove (h : LaneFrame s t) (hm : LaneMove s t) : RefMove s t := hm.refMove h.leases
theorem StartFrame.refMove (h : StartFrame s t) (hm : LaneMove s t) : RefMove s t := hm.refMove h.leases

/-! ### Leases -/

/-- A lease record changes but not its holder. -/
theorem setLease_refMove (s : State) (l : LaneId) (v : Lease) (h : v.holder = (s.lease l).holder) :
    RefMove s (s.setLease l v) := by
  refine ⟨KeepsRefs.move (fun _ => ⟨rfl, rfl⟩) rfl, fun j _ => ?_⟩
  rw [State.setLease_lease]
  split
  · subst_vars; exact h
  · rfl

/-- A lease record changes where nothing is queued. -/
theorem setLease_refMove_empty (s : State) (l : LaneId) (v : Lease) (h : (s.lane l).queue = []) :
    RefMove s (s.setLease l v) := by
  refine ⟨KeepsRefs.move (fun _ => ⟨rfl, rfl⟩) rfl, fun j hj => ?_⟩
  rw [State.setLease_lease]
  split
  · subst_vars; exact absurd h hj
  · rfl

theorem grant_refMove (s : State) (l : LaneId) (k : HostId) (d : Nat) (h : (s.lane l).queue = []) :
    RefMove s (s.grant l k d) :=
  by
  unfold State.grant
  exact (setLease_refMove_empty s l _ h).trans ((setLane_move (s.setLease l _) l Lane.granted h.symm).refMove rfl)

theorem grantPosted_refMove (s : State) (l : LaneId) (k : HostId) (d : Nat) (h : (s.lane l).queue = []) :
    RefMove s (s.grantPosted l k d) :=
  (grant_refMove s l k d h).trans (((postLease_keeps (s.grant l k d) k _).move rfl).refMove rfl)

theorem closeLease_refMove (s : State) (l : LaneId) (c : LeaseEndCause) :
    RefMove s (s.closeLease l c) ∧ ((s.closeLease l c).lane l).queue = [] := by
  unfold State.closeLease
  have hd := (drain_frame s l (c != .withdrawn)).refMove (drain_move s l (c != .withdrawn))
  have hq := (drain_refs s l (c != .withdrawn)).2 l
  rw [if_pos rfl] at hq
  generalize s.drain l (c != .withdrawn) = u at hd hq ⊢
  exact ⟨hd.trans (setLease_refMove_empty u l _ hq), hq⟩

theorem grantHead_refMove (s : State) (l : LaneId) (h : (s.lane l).queue = []) : RefMove s (s.grantHead l) := by
  unfold State.grantHead
  split
  · exact .refl s
  · exact (setLease_refMove_empty s l _ h).trans (grantPosted_refMove _ l _ _ h)

theorem grantTo_refMove (s : State) (l : LaneId) (k : HostId) (h : (s.lane l).queue = []) : RefMove s (s.grantTo l k) :=
  (setLease_refMove_empty s l _ h).trans (grantPosted_refMove _ l k _ h)

theorem endLease_refMove (s : State) (l : LaneId) (c : LeaseEndCause) : RefMove s (s.endLease l c) :=
  (closeLease_refMove s l c).1.trans (grantHead_refMove _ l (closeLease_refMove s l c).2)

theorem settleClaims_refMove (s : State) (l : LaneId) : RefMove s (s.settleClaims l) :=
  (settleClaims_move s l).refMove (settleClaims_frame s l).leases

theorem postLease_refMove (s : State) (k : HostId) (e : Event) : RefMove s (s.postLease k e) :=
  ((postLease_keeps s k e).move rfl).refMove rfl

theorem revoke_refMove (s : State) (l : LaneId) (k : HostId) (target : Option HostId) : RefMove s (s.revoke l k target) := by
  have h1 := closeLease_refMove (s.postLease k (.leaseLost l .revoked)) l .revoked
  have h2 : RefMove s (((s.postLease k (.leaseLost l .revoked)).closeLease l .revoked).settleClaims l) :=
    (postLease_refMove s k _).trans (h1.1.trans (settleClaims_refMove _ l))
  have hq : ((((s.postLease k (.leaseLost l .revoked)).closeLease l .revoked).settleClaims l).lane l).queue = [] := by
    rw [(settleClaims_frame _ l).lane]; exact h1.2
  unfold State.revoke
  dsimp only
  split
  · exact h2.trans (grantHead_refMove _ l hq)
  · exact h2.trans (grantTo_refMove _ l _ hq)

theorem foldl_refMove (f : State → LaneId → State) (hf : ∀ s l, RefMove s (f s l)) (ls : List LaneId) :
    ∀ s, RefMove s (ls.foldl f s) := by
  induction ls with
  | nil => exact .refl
  | cons l ls ih => exact fun s => (hf s l).trans (ih _)

theorem dropClaims_refMove (s : State) (k : HostId) : RefMove s (s.dropClaims k) :=
  foldl_refMove (fun t l => t.setLease l { (t.lease l) with waiters := withoutHost (t.lease l).waiters k })
    (fun s l => setLease_refMove s l _ rfl) _ s

theorem endLeasesOf_refMove (s : State) (k : HostId) : RefMove s (s.endLeasesOf k) := by
  refine foldl_refMove (fun t l => if (t.lease l).holder = some k then t.endLease l .withdrawn else t) (fun s l => ?_) _ s
  split
  · exact endLease_refMove s l _
  · exact .refl s

theorem expire_refMove (s : State) (l : LaneId) : RefMove s (s.expire l) := by
  unfold State.expire
  split
  · split
    · exact (postLease_refMove s _ _).trans (endLease_refMove _ l _)
    · exact .refl s
  · exact .refl s

theorem Lease.tick_holder (r : Lease) : r.tick.holder = r.holder := by
  unfold Lease.tick
  split
  · rfl
  · split <;> rfl

theorem leaseTick_refMove (s : State) : RefMove s s.leaseTick := by
  obtain ⟨leases, time, he, -, -⟩ := leaseTick_frame s
  have hl : ∀ l, (s.leaseTick.lease l).holder = (s.lease l).holder := by
    intro l
    unfold State.leaseTick
    split
    · unfold State.lease
      rw [Bank.sel_map, Lease.tick_holder]
    · rfl
  refine ⟨KeepsRefs.move (fun j => ?_) (by rw [he]), fun l _ => hl l⟩
  rw [he]
  exact ⟨rfl, rfl⟩

/-! ### Requests -/

theorem claimRequest_refMove (h : s.lanesOk) (k : HostId) (p : List Byte) : RefMove s (claimRequest s k p).1 := by
  unfold claimRequest
  dsimp only
  split
  · split
    · exact .refl s
    · split
      · rename_i hh
        refine grant_refMove s _ k _ ?_
        rw [(vacant_of_noHolder h hh).2.2.2.1]
        rfl
      · repeat' split
        · exact .refl s
        · exact .refl s
        · exact setLease_refMove s _ _ rfl
        · exact .refl s
  · exact .refl s

theorem renewRequest_refMove (s : State) (k : HostId) (p : List Byte) : RefMove s (renewRequest s k p).1 := by
  unfold renewRequest
  dsimp only
  split
  · exact .refl s
  · split
    · exact .refl s
    · split
      · exact .refl s
      · split <;> exact setLease_refMove s _ _ rfl

theorem releaseRequest_refMove (s : State) (k : HostId) (p : List Byte) : RefMove s (releaseRequest s k p).1 := by
  unfold releaseRequest
  split
  · exact .refl s
  · split
    · dsimp only; exact endLease_refMove s _ _
    · split
      · exact setLease_refMove s _ _ rfl
      · exact .refl s

theorem configureLane_refMove (s : State) (l : LaneId) (w : Word) (a b : Polarity) : RefMove s (s.configureLane l w a b) := by
  unfold State.configureLane
  dsimp only
  exact (setLease_refMove s l _ (by rfl)).trans (LaneMove.refMove (setLane_move (s.setLease l _) l _ (by rfl)) (by rfl))

theorem configureRequest_refMove (s : State) (k : HostId) (p : List Byte) : RefMove s (configureRequest s k p).1 := by
  unfold configureRequest
  split
  · split
    · exact .refl s
    · split
      · exact .refl s
      · exact configureLane_refMove s _ _ _ _
  · exact .refl s

theorem revokeRequest_refMove (s : State) (k : HostId) (p : List Byte) : RefMove s (revokeRequest s k p).1 := by
  unfold revokeRequest
  split
  · exact .refl s
  · split
    · split
      · exact .refl s
      · exact revoke_refMove s _ _ _
    · exact .refl s

theorem settleRelease_refMove (s : State) (l : LaneId) : RefMove s (s.settleRelease l) :=
  (settleRelease_frame s l).refMove (settleRelease_move s l)

theorem flushRequest_refMove (s : State) (k : HostId) (p : List Byte) : RefMove s (flushRequest s k p).1 := by
  unfold flushRequest
  split
  · exact .refl s
  · exact (settleRelease_refMove s _).trans ((flushLane_frame _ _).refMove
      ((flushLane_refs _ _).move (flushLane_cuts _ _) (flushLane_frame _ _).store))

theorem abortRequest_refMove (s : State) (k : HostId) (p : List Byte) : RefMove s (abortRequest s k p).1 := by
  unfold abortRequest
  split
  · exact .refl s
  · exact (settleRelease_refMove s _).trans ((abortLane_frame _ _).refMove
      ((abortLane_refs _ _).move (abortLane_cuts _ _) (abortLane_frame _ _).store))

theorem holdByState_keeps (s : State) (l : LaneId) : KeepsRefs s (holdByState s l).1 := by
  unfold holdByState
  dsimp only
  split
  · exact setLane_keeps s l _ rfl
  · exact setLane_keeps s l _ rfl
  · exact (removeWaiter_keeps s l).trans (setLane_keeps _ l _ rfl)
  · exact setLane_keeps s l _ rfl
  · exact .refl s
  · exact .refl s

theorem holdRequest_refMove (s : State) (k : HostId) (p : List Byte) : RefMove s (holdRequest s k p).1 := by
  unfold holdRequest
  split
  · exact .refl s
  · exact (settleRelease_refMove s _).trans ((holdByState_frame _ _).refMove
      ((holdByState_keeps _ _).move (holdByState_frame _ _).store))

theorem resumeRequest_refMove (s : State) (k : HostId) (p : List Byte) : RefMove s (resumeRequest s k p).1 := by
  unfold resumeRequest
  split
  · exact .refl s
  · exact (settleRelease_refMove s _).trans ((resumeByState_frame _ _).refMove (resumeByState_move _ _))

theorem retimeLane_keeps (s : State) (l : LaneId) (p : List Byte) : KeepsRefs s (retimeLane s l p).1 := by
  unfold retimeLane
  repeat' split
  · exact .refl s
  · exact .refl s
  · exact .refl s
  · exact .refl s
  · exact setLane_keeps s l _ rfl

theorem retimeRequest_refMove (s : State) (k : HostId) (p : List Byte) : RefMove s (retimeRequest s k p).1 := by
  unfold retimeRequest
  split
  · exact .refl s
  · exact (settleRelease_refMove s _).trans ((retimeLane_frame _ _ _).refMove
      ((retimeLane_keeps _ _ _).move (retimeLane_frame _ _ _).store))

theorem markSetRequest_refMove (s : State) (p : List Byte) : RefMove s (markSetRequest s p).1 := by
  unfold markSetRequest
  split
  · exact .refl s
  · exact (settleMark_frame s _ none).refMove ((settleMark_keeps s _ none).move (settleMark_frame s _ none).store)

theorem markClearRequest_refMove (s : State) (p : List Byte) : RefMove s (markClearRequest s p).1 := by
  unfold markClearRequest
  split
  · exact .refl s
  · exact (setMark_frame s _ _).refMove ((setMark_keeps s _ _).move rfl)

theorem laneStatusRequest_refMove (s : State) (p : List Byte) : RefMove s (laneStatusRequest s p).1 := by
  unfold laneStatusRequest
  split <;> exact .refl s

theorem fetchRequest_refMove (s : State) (k : HostId) (p : List Byte) : RefMove s (fetchRequest s k p).1 := by
  unfold fetchRequest
  dsimp only
  split
  · exact .refl s
  · exact refMove_of_same rfl rfl rfl rfl

theorem eventMaskRequest_refMove (s : State) (k : HostId) (p : List Byte) : RefMove s (eventMaskRequest s k p).1 := by
  unfold eventMaskRequest
  split
  · exact refMove_of_same rfl rfl rfl rfl
  · exact .refl s

theorem decideWithdrawal_refMove (s : State) (k : HostId) (kind : RequestKind)
    (owner : List Byte → Except Status (HostId × WithdrawalCause)) : RefMove s (s.decideWithdrawal k kind owner) := by
  obtain he | ⟨req, live, -, -, ⟨st, -, he⟩ | ⟨host, cause, -, he⟩⟩ := decideWithdrawal_cases s k kind owner
  · rw [he]; exact .refl s
  · rw [he]; exact .links (answer_eq _ _ _ _ _)
  · rw [he]; exact refMove_of_same rfl rfl rfl rfl

/-! ### Events of the lanes -/

theorem raiseRtn_refMove (s : State) (l : LaneId) : RefMove s (s.raiseRtn l) := ((raiseRtn_keeps s l).move rfl).refMove rfl

theorem rtnReadyActive_refMove (s : State) (l : LaneId) : RefMove s (s.rtnReadyActive l) := by
  unfold State.rtnReadyActive
  split
  · split
    · exact (raiseRtn_refMove s l).trans ((driveWord_frame _ l _).refMove
        ((driveWord_keeps _ l _).move (driveWord_frame _ l _).store))
    · exact raiseRtn_refMove s l
  · exact raiseRtn_refMove s l

theorem ackEdge_refMove (s : State) (l : LaneId) : RefMove s (s.ackEdge l) := by
  unfold State.ackEdge
  split
  · split
    · exact (raiseRtn_refMove s l).trans ((acknowledge_frame _ l _).refMove (acknowledge_move _ l _))
    · exact raiseRtn_refMove s l
  · exact raiseRtn_refMove s l

theorem rtnEdgeSample_refMove (s : State) (l : LaneId) : RefMove s (s.rtnEdgeSample l) := by
  unfold State.rtnEdgeSample
  split
  · split
    · exact (raiseRtn_refMove s l).trans ((sampleEdge_frame _ l _).refMove
        ((sampleEdge_keeps _ l _).move (sampleEdge_frame _ l _).store))
    · exact raiseRtn_refMove s l
  · exact raiseRtn_refMove s l

theorem stepBoundary_refMove (s : State) (l : LaneId) : RefMove s (s.stepBoundary l) := by
  unfold State.stepBoundary
  split
  · exact (boundaryPoint_frame s l _).refMove (boundaryPoint_move s l _)
  · exact .refl s

theorem appendAnswer_refMove (s : State) (l : LaneId) : RefMove s (s.appendAnswer l) := by
  have h1 : ∀ v, RefMove s (s.setAnswers l v) := fun _ => refMove_of_same rfl rfl rfl rfl
  unfold State.appendAnswer
  split
  · exact .refl s
  · dsimp only
    split
    · exact h1 _
    · split
      · exact (h1 _).trans ((answerStored_frame _ l _ _).refMove (answerStored_move _ l _ _))
      · exact (h1 _).trans ((endCapture_frame _ l _).refMove (endCapture_move _ l _))
      · exact (h1 _).trans ((endCapture_frame _ l _).refMove (endCapture_move _ l _))

theorem ite_refMove {b : Prop} [Decidable b] (h : RefMove s u) : RefMove s (if b then u else s) := by
  split
  exacts [h, .refl s]

theorem popClaim_refMove (s : State) (l : LaneId) {c : LaneClaim} {rest : List LaneClaim} (hc : s.claimsOf l = c :: rest) :
    RefMove s ((s.setClaims l rest).takeClaim l c) := by
  have hf := takeClaim_frame (s.setClaims l rest) l c
  exact LaneMove.refMove ⟨fun j e he => by rw [hf.lane] at he; exact he, counted_popClaim l c rest hc⟩ hf.leases

theorem appendEvent_refMove (s : State) (l : LaneId) : RefMove s (s.appendEvent l) := by
  unfold State.appendEvent
  split
  · rename_i hc; exact popClaim_refMove s l hc
  · exact .refl s

theorem releaseEvent_refMove (s : State) (l : LaneId) : RefMove s (s.releaseEvent l) := by
  unfold State.releaseEvent
  split
  · rename_i hc; exact popClaim_refMove s l hc
  · exact .refl s

theorem leasePart_refMove (s : State) (n : Nat) : RefMove s (s.leasePart n) := by
  unfold State.leasePart
  split
  · exact .refl s
  · split
    · exact .refl s
    · exact (dropClaims_refMove s _).trans ((endLeasesOf_refMove _ _).trans (refMove_of_same
        (State.setWithdrawal_lanes _ _ _) (State.setWithdrawal_claims _ _ _) (State.setWithdrawal_store _ _ _)
        (State.setWithdrawal_leases _ _ _)))

theorem filePost_refMove (s : State) (k : HostId) (i : Nat) : RefMove s (s.filePost k i) := by
  unfold State.filePost
  split
  · exact .refl s
  · exact refMove_of_same rfl rfl rfl rfl

theorem eventPart_refMove (s : State) (n : Nat) : RefMove s (s.eventPart n) := by
  unfold State.eventPart
  split
  · exact .refl s
  · split
    · exact RefMove.trans (by exact refMove_of_same rfl rfl rfl rfl) (.links (answerWithdrawal_eq _ _))
    · exact .refl s

theorem timestampTick_refMove (s : State) : RefMove s s.timestampTick := by
  unfold State.timestampTick
  split
  · exact refMove_of_same rfl rfl rfl rfl
  · exact .refl s

theorem deviceRelease_refMove (s : State) (a v w : Bool) : RefMove s (s.deviceRelease a v w) := by
  unfold State.deviceRelease
  split
  · exact .refl s
  · exact refMove_of_same rfl rfl rfl rfl

theorem nlrstFall_refMove (s : State) (k : HostId) : RefMove s (s.nlrstFall k) := by
  unfold State.nlrstFall
  split
  · exact .refl s
  · split <;> exact refMove_of_same rfl rfl rfl rfl

theorem LinkFrame.refMove {k : HostId} (h : LinkFrame k s t) : RefMove s t := .links h.1

theorem tick_refMove (s : State) : RefMove s s.tick := by
  refine LaneMove.refMove (KeepsRefs.move (fun j => ⟨?_, rfl⟩) rfl) rfl
  rw [show s.tick.lane j = s.judgedLane j from Bank.sel_ofFn _ j]
  unfold State.judgedLane
  split <;> rfl

/-- A command that changes the table leaves every queue, claim and lease. -/
theorem movesTable_refMove {c : Instr} (hm : movesTable c) (he : exec c s = .next t) (h1 : t.lanes = s.lanes)
    (h2 : t.claims = s.claims) (h3 : t.leases = s.leases) : RefMove s t := by
  have hr : t.references = s.references := by
    unfold State.references State.lane State.claimsOf; rw [h1, h2]
  refine LaneMove.refMove ⟨fun j e hj => ?_, fun hc => ?_⟩ h3
  · unfold State.lane at hj ⊢; rw [h1] at hj; exact hj
  · rw [referencesCounted_iff, hr]; exact exec_agrees hm hc he

end Sys2Proof.Machine
end

section
/-! O57: ENQUEUE adds a reference and its play entry; what reset leaves; the step lemma of the Segment Manager (R1, R2, R5 to R9, R23, R62). -/

namespace Sys2Proof.Machine

variable {s t u : State} {l : LaneId}

/-- References and play entries stay consistent. -/
def KeepsEntries (s t : State) : Prop := s.referencesCounted → t.referencesCounted ∧ (s.entriesOk → t.entriesOk)

theorem KeepsEntries.refl (s : State) : KeepsEntries s s := fun h => ⟨h, id⟩

theorem KeepsEntries.trans (h : KeepsEntries s t) (g : KeepsEntries t u) : KeepsEntries s u := fun hc =>
  have h1 := h hc
  have h2 := g h1.1
  ⟨h2.1, fun he => h2.2 (h1.2 he)⟩

theorem RefMove.keeps (h : RefMove s t) (ho : s.store.Outlives t.store) : KeepsEntries s t := fun hc =>
  ⟨h.1.2 hc, fun he => entriesOk_of he hc (h.1.2 hc) h.1.1 h.2 ho⟩

theorem KeepsEntries.links (h : t = { s with links := t.links }) : KeepsEntries s t :=
  (RefMove.links h).keeps (by rw [h]; exact (Store.Persists.refl _).outlives)

/-! ## ENQUEUE -/

/-- The entry of an accepted ENQUEUE at the tail of its lane's queue, its reference taken (R64, R65). -/
def State.queueEntry (s : State) (l : LaneId) (i : Slot) (e : Entry) : State :=
  let s1 := s.setStore (s.store.setRefs i ((s.store.entry i).refs + 1))
  let s2 := { s1 with nextEntryId := s1.nextEntryId + 1 }
  s2.setLane l { (s2.lane l) with queue := (s2.lane l).queue ++ [e] }

theorem acceptEntry_queueEntry (s : State) (l : LaneId) (i : Slot) (e : Entry) :
    s.acceptEntry l i e = if (s.lane l).state = .idle then (s.queueEntry l i e).entryStart l else s.queueEntry l i e := rfl

theorem queueEntry_lane (s : State) (l : LaneId) (i : Slot) (e : Entry) (j : LaneId) :
    (s.queueEntry l i e).lane j = if l = j then { (s.lane l) with queue := (s.lane l).queue ++ [e] } else s.lane j :=
  State.setLane_lane _ _ _ _

theorem queueEntry_references (s : State) (l : LaneId) (i : Slot) (e : Entry) :
    (s.queueEntry l i e).references.Perm (e.segment :: s.references) := by
  rw [List.perm_iff_count]
  intro r
  have hl : ∀ j, ((s.queueEntry l i e).laneRefs j).count r = (s.laneRefs j).count r + if j = l then [e.segment].count r else 0 := by
    intro j
    have h := setLane_refs { s.setStore (s.store.setRefs i ((s.store.entry i).refs + 1)) with nextEntryId := s.nextEntryId + 1 } l
      { (s.lane l) with queue := (s.lane l).queue ++ [e] } r j
    have e1 : ∀ x, State.laneRefs { s.setStore (s.store.setRefs i ((s.store.entry i).refs + 1)) with
      nextEntryId := s.nextEntryId + 1 } x = s.laneRefs x := fun _ => rfl
    have e2 : State.lane { s.setStore (s.store.setRefs i ((s.store.entry i).refs + 1)) with
      nextEntryId := s.nextEntryId + 1 } l = s.lane l := rfl
    rw [e1, e2] at h
    have e3 : s.queueEntry l i e = State.setLane { s.setStore (s.store.setRefs i ((s.store.entry i).refs + 1)) with
      nextEntryId := s.nextEntryId + 1 } l { (s.lane l) with queue := (s.lane l).queue ++ [e] } := rfl
    rw [← e3] at h
    split at h
    · rename_i hj
      rw [if_pos hj]
      simp only [List.map_append, List.count_append, List.map_cons, List.map_nil] at h
      omega
    · rename_i hj
      rw [if_neg hj]
      exact h
  rw [List.count_cons]
  simp only [references_eq, laneIds, List.flatMap_cons, List.flatMap_nil, List.count_append, List.count_nil, hl]
  have : ∀ l : Fin 4, l = 0 ∨ l = 1 ∨ l = 2 ∨ l = 3 := by decide
  rcases this l with rfl | rfl | rfl | rfl <;> simp [List.count_cons] <;> omega

/-- What the checks of an ENQUEUE establish of the segment that the entry names (R23, R64). -/
theorem takeCheck_ok {st : Store} {k : HostId} {kind : EntryKind} {r : SegmentRef} {o n : Nat} {room : Bool} {i : Slot}
    (h : st.takeCheck k kind r o n room = .ok i) :
    handleSlot r.handle = some i ∧ (st.entry i).generation = r.generation ∧ (st.entry i).live = true ∧
      (kind = .output → (st.entry i).state = .published ∧ o + n ≤ (st.entry i).length) ∧
      (kind = .capture → (st.entry i).state = .opened ∧ (st.entry i).owner = k) := by
  unfold Store.takeCheck at h
  split at h
  · cases h
  · rename_i j hj
    dsimp only at h
    obtain ⟨h1, h2, -⟩ := handleCheck_ok hj
    cases kind
    · dsimp only at h
      split_ifs at h with a b c
      cases h
      have hs : (st.entry i).state = .published := by simpa using a
      exact ⟨h1, h2, by simp [Segment.live, hs], fun _ => ⟨hs, by omega⟩, fun x => by cases x⟩
    · dsimp only at h
      split_ifs at h with a b
      cases h
      have hs : (st.entry i).state = .opened := by simpa using b
      exact ⟨h1, h2, by simp [Segment.live, hs], fun x => (by cases x), fun _ => ⟨hs, by simpa using a⟩⟩

theorem queueEntry_keeps {k : HostId} {i : Slot} {e : Entry} {room : Bool}
    (ht : s.store.takeCheck k e.kind e.segment e.offset e.count room = .ok i) (hk : e.host = k)
    (hh : (s.lease l).holder = some k) : KeepsEntries s (s.queueEntry l i e) := by
  obtain ⟨h1, h2, h3, hout, hcap⟩ := takeCheck_ok ht
  intro hc
  refine ⟨Agrees.perm (Agrees.take e.segment i hc h1 (live_ne_free h3) h2) (queueEntry_references s l i e).symm,
    fun he j e' hj => ?_⟩
  have hst : ∀ a, ((s.queueEntry l i e).store.entry a).state = (s.store.entry a).state ∧
      ((s.queueEntry l i e).store.entry a).length = (s.store.entry a).length ∧
      ((s.queueEntry l i e).store.entry a).owner = (s.store.entry a).owner := fun a => by
    rw [show (s.queueEntry l i e).store = s.store.setRefs i ((s.store.entry i).refs + 1) from rfl, Store.setRefs_entry]
    split
    · subst_vars; exact ⟨rfl, rfl, rfl⟩
    · exact ⟨rfl, rfl, rfl⟩
  have hls : (s.queueEntry l i e).lease j = s.lease j := rfl
  have hold : e' ∈ (s.lane j).queue ∨ (l = j ∧ e' = e) := by
    rw [queueEntry_lane] at hj
    split at hj
    · subst_vars
      rcases List.mem_append.1 hj with h | h
      · exact .inl h
      · exact .inr ⟨rfl, List.mem_singleton.1 h⟩
    · exact .inl hj
  rcases hold with hold | ⟨rfl, rfl⟩
  · obtain ⟨g1, g2⟩ := he j e' hold
    refine ⟨by rw [hls]; exact g1, fun a ha => ?_⟩
    obtain ⟨s1, s2, s3⟩ := hst a
    dsimp only
    rw [s1, s2, s3]
    exact g2 a ha
  · refine ⟨by rw [hls, hh, hk], fun a ha => ?_⟩
    obtain ⟨s1, s2, s3⟩ := hst a
    dsimp only
    rw [h1] at ha
    cases ha
    rw [s1, s2, s3, hk]
    exact ⟨fun hx => ⟨.inl (hout hx).1, (hout hx).2⟩, fun hx => .inr (hcap hx)⟩

theorem entryStart_keepsEntries (s : State) (l : LaneId) : KeepsEntries s (s.entryStart l) :=
  ((entryStart_frame s l).refMove (entryStart_move s l)).keeps (entryStart_frame s l).2.persists.outlives

theorem acceptEntry_keeps {k : HostId} {i : Slot} {e : Entry} {room : Bool}
    (ht : s.store.takeCheck k e.kind e.segment e.offset e.count room = .ok i) (hk : e.host = k)
    (hh : (s.lease l).holder = some k) : KeepsEntries s (s.acceptEntry l i e) := by
  rw [acceptEntry_queueEntry]
  split
  · exact (queueEntry_keeps ht hk hh).trans (entryStart_keepsEntries _ l)
  · exact queueEntry_keeps ht hk hh

theorem enqueueRequest_keepsEntries (s : State) (k : HostId) (p : List Byte) : KeepsEntries s (enqueueRequest s k p).1 := by
  have hset : ∀ l, KeepsEntries s ((s.settleRelease l).settleClaims l) := fun l =>
    ((settleRelease_refMove s l).trans (settleClaims_refMove _ l)).keeps
      (by rw [← (settleRelease_frame s l).store]; exact (settleClaims_settles _ l).persists.outlives)
  have hlease : ∀ l, ((s.settleRelease l).settleClaims l).lease l = s.lease l := fun l => by
    unfold State.lease
    rw [(settleClaims_frame _ l).leases, (settleRelease_frame s l).leases]
  unfold enqueueRequest
  split
  · exact .refl s
  · rename_i l hl
    have hh := laneOfHolder_holder hl
    split
    · exact .refl s
    · split
      · exact .refl s
      · dsimp only
        split
        · exact hset l
        · rename_i hc
          exact (hset l).trans (acceptEntry_keeps hc rfl (by rw [hlease]; exact hh))

/-! ## Device reset -/

theorem reset_entry (n : Nat) (i : Slot) : ({ Store.reset with epoch := n } : Store).entry i = Segment.reset := by
  simp [Store.entry, Store.reset]

theorem Segment.wf_reset : Segment.reset.wf := by
  simp [Segment.wf, Segment.reset, Segment.live]

theorem Store.wf_reset (n : Nat) : ({ Store.reset with epoch := n } : Store).wf := by
  refine ⟨?_, fun i => ?_, fun i j hi => ?_, ⟨rfl, fun c hc => by cases hc⟩, fun i j hj => ?_⟩
  · have h : ({ Store.reset with epoch := n } : Store).blocks = List.range Config.blockCount := by
      unfold Store.blocks
      simp only [reset_entry]
      rw [show slots.flatMap (fun _ => Segment.reset.chain) = [] from List.flatMap_eq_nil_iff.2 (fun _ _ => rfl), List.append_nil, Store.reset]
    unfold Store.partitioned
    rw [h]
  · rw [reset_entry]
    exact Segment.wf_reset
  · rw [reset_entry] at hi; cases hi
  · rw [reset_entry] at hj; exact absurd hj (Nat.not_lt_zero j)

theorem reset_quotaKept (n : Nat) : ({ Store.reset with epoch := n } : Store).quotaKept := by
  intro k
  have h : ({ Store.reset with epoch := n } : Store).usage k = 0 := by
    unfold Store.usage
    rw [List.sum_eq_zero_iff]
    intro x hx
    obtain ⟨i, -, rfl⟩ := List.mem_map.1 hx
    rw [reset_entry]
    simp [Segment.live, Segment.reset]
  omega

/-- Where no entry is queued and no claim waits, nothing is referenced. -/
theorem reset_consistent {n : Nat} (hs : s.store = { Store.reset with epoch := n }) (hq : ∀ l, (s.lane l).queue = [])
    (hc : ∀ l, s.claimsOf l = []) : s.referencesCounted ∧ s.entriesOk := by
  have hr : s.references = [] := by
    rw [references_eq, List.flatMap_eq_nil_iff]
    intro l _
    unfold State.laneRefs
    rw [hq, hc]
    rfl
  refine ⟨?_, fun l e he => absurd he (by rw [hq]; exact List.not_mem_nil)⟩
  rw [referencesCounted_iff, hr, hs]
  exact ⟨fun r h => absurd h List.not_mem_nil, fun i => by rw [reset_entry]; rfl⟩

theorem deviceReset_consistent (s : State) :
    s.deviceReset.referencesCounted ∧ s.deviceReset.entriesOk :=
  reset_consistent (n := s.store.epoch + 1) rfl
    (fun l => by simp [State.deviceReset, State.reset, State.lane, Lane.reset])
    (fun l => by simp [State.deviceReset, State.reset, State.claimsOf])

/-! ## The step -/

theorem decide_storeOnly (k : HostId) (kind : RequestKind) {owner : List Byte → State × Reply}
    (ho : ∀ p, StoreOnly s (owner p).1) :
    (s.decide k kind owner).lanes = s.lanes ∧ (s.decide k kind owner).claims = s.claims ∧
      (s.decide k kind owner).leases = s.leases :=
  decide_keeps (P := fun t => t.lanes = s.lanes ∧ t.claims = s.claims ∧ t.leases = s.leases)
    (fun _ _ hu e => by rw [e]; exact hu) ⟨rfl, rfl, rfl⟩ k kind
    (fun p => by obtain ⟨v, hv⟩ := ho p; rw [hv]; exact ⟨rfl, rfl, rfl⟩)

theorem decide_storeMove {c : Instr} (k : HostId) (kind : RequestKind) {owner : List Byte → State × Reply} (hm : movesTable c)
    (he : exec c s = .next (s.decide k kind owner)) (ho : ∀ p, StoreOnly s (owner p).1) :
    RefMove s (s.decide k kind owner) := by
  obtain ⟨h1, h2, h3⟩ := decide_storeOnly k kind ho
  exact movesTable_refMove hm he h1 h2 h3

theorem segmentPart_rows (s : State) (n : Nat) :
    (s.segmentPart n).lanes = s.lanes ∧ (s.segmentPart n).claims = s.claims ∧ (s.segmentPart n).leases = s.leases := by
  unfold State.segmentPart
  split
  · exact ⟨rfl, rfl, rfl⟩
  · split
    · exact ⟨rfl, rfl, rfl⟩
    · simp

theorem exec_refMove {c : Instr} (hl : s.lanesOk) (he : exec c s = .next t) (hr : c ≠ .deviceReset)
    (hq : ∀ k, c ≠ .enqueue k) : RefMove s t := by
  cases c <;> obtain rfl := Host.Outcome.next.inj he
  case deviceReset => exact absurd rfl hr
  case deviceResetRelease a v w => exact deviceRelease_refMove s a v w
  case linkReset k => exact nlrstFall_refMove s k
  case linkResetRelease k => exact (setLink_frame s k _).refMove
  case requestFrameEnd p f => exact (writeBytes_frame s p.port f p.ends).refMove
  case nullWrite p => exact (nullWrite_frame s p.port p.ends).refMove
  case ignoredTransaction p b n => exact (ignoredTransaction_frame s p.port b n p.ends).refMove
  case responseRead p n => exact (responseRead_frame s p.port n p.ends).refMove
  case define k => exact decide_storeMove (c := .define k) k _ trivial he (defineRequest_storeOnly s k)
  case extend k => exact decide_storeMove (c := .extend k) k _ trivial he (extendRequest_storeOnly s k)
  case write k => exact decide_storeMove (c := .write k) k _ trivial he (writeRequest_storeOnly s k)
  case read k => exact decide_storeMove (c := .read k) k _ trivial he (readRequest_storeOnly s k)
  case publish k => exact decide_storeMove (c := .publish k) k _ trivial he (publishRequest_storeOnly s k)
  case delete k => exact decide_storeMove (c := .delete k) k _ trivial he (deleteRequest_storeOnly s k)
  case catalog k => exact decide_storeMove (c := .catalog k) k _ trivial he (catalogRequest_storeOnly s k)
  case query k => exact decide_storeMove (c := .query k) k _ trivial he (queryRequest_storeOnly s k)
  case purge k => exact decide_storeMove (c := .purge k) k _ trivial he (purgeRequest_storeOnly s k)
  case withdrawalSegmentPart n =>
    obtain ⟨h1, h2, h3⟩ := segmentPart_rows s n
    exact movesTable_refMove (c := .withdrawalSegmentPart n) trivial he h1 h2 h3
  case claim k => exact decide_refMove k _ (claimRequest_refMove hl k)
  case renew k => exact decide_refMove k _ (renewRequest_refMove s k)
  case release k => exact decide_refMove k _ (releaseRequest_refMove s k)
  case leaseTick => exact leaseTick_refMove s
  case leaseExpiry l => exact expire_refMove s l
  case configure k => exact decide_refMove k _ (configureRequest_refMove s k)
  case laneStatus k => exact decide_refMove k _ (laneStatusRequest_refMove s)
  case enqueue k => exact absurd rfl (hq k)
  case flush k => exact decide_refMove k _ (flushRequest_refMove s k)
  case abort k => exact decide_refMove k _ (abortRequest_refMove s k)
  case hold k => exact decide_refMove k _ (holdRequest_refMove s k)
  case resume k => exact decide_refMove k _ (resumeRequest_refMove s k)
  case retime k => exact decide_refMove k _ (retimeRequest_refMove s k)
  case stepBoundary l => exact stepBoundary_refMove s l
  case strobeEnd l => exact (strobeEnd_frame s l).refMove (strobeEnd_move s l)
  case rtnReadyActive l => exact rtnReadyActive_refMove s l
  case ackEdge l => exact ackEdge_refMove s l
  case rtnEdgeSample l => exact rtnEdgeSample_refMove s l
  case readyTimeout l => exact ite_refMove ((endFaulted_frame s l _).refMove (endFaulted_move s l _))
  case ackTimeout l => exact ite_refMove ((endFaulted_frame s l _).refMove (endFaulted_move s l _))
  case passEnd l => exact (passEnd_frame s l).refMove (passEnd_move s l)
  case captureTimeout l => exact ite_refMove ((endAndGoOn_frame s l _).refMove (endAndGoOn_move s l _))
  case captureEndPoint l => exact ite_refMove ((endAndGoOn_frame s l _).refMove (endAndGoOn_move s l _))
  case append l => exact appendEvent_refMove s l
  case appendAnswer l => exact appendAnswer_refMove s l
  case referenceRelease l => exact releaseEvent_refMove s l
  case markSet k => exact decide_refMove k _ (markSetRequest_refMove s)
  case markReleaseProceed l => exact settleRelease_refMove s l
  case markClear k => exact decide_refMove k _ (markClearRequest_refMove s)
  case markStatus k => exact decide_refMove k _ fun _ => .refl s
  case deviceStatus k => exact decide_refMove k _ fun _ => .refl s
  case eventPost k n => exact filePost_refMove s k n
  case fetch k => exact decide_refMove k _ (fetchRequest_refMove s k)
  case eventMask k => exact decide_refMove k _ (eventMaskRequest_refMove s k)
  case detach k => exact decideWithdrawal_refMove s k _ _
  case evict k => exact decideWithdrawal_refMove s k _ _
  case revoke k => exact decide_refMove k _ (revokeRequest_refMove s k)
  case withdrawalLeasePart n => exact leasePart_refMove s n
  case withdrawalEventPart n => exact eventPart_refMove s n
  case timestampTick => exact timestampTick_refMove s

theorem exec_keepsEntries {c : Instr} (hl : s.lanesOk) (hs : s.store.wf) (he : exec c s = .next t) (hr : c ≠ .deviceReset) :
    KeepsEntries s t := by
  by_cases hq : ∃ k, c = .enqueue k
  · obtain ⟨k, rfl⟩ := hq
    obtain rfl := Host.Outcome.next.inj he
    exact decide_keeps (P := KeepsEntries s) (fun _ _ hu e => hu.trans (.links e)) (.refl s) k _
      (enqueueRequest_keepsEntries s k)
  · exact (exec_refMove hl he hr fun k e => hq ⟨k, e⟩).keeps (exec_outlives hs he hr)

/-- Settles O57: device reset empties the store and the queues; any other command keeps the store's invariants, and moves queues and
references together. -/
theorem everyStepKeepsTheStore : Obligations.EveryStepKeepsTheStore := by
  intro s t hl hw hq hc hs
  obtain ⟨c, rest, he⟩ | rfl := step_cases hs
  · by_cases hr : c = .deviceReset
    · subst hr
      obtain rfl := Host.Outcome.next.inj he
      obtain ⟨h1, h2⟩ := deviceReset_consistent { s with pending := rest }
      exact ⟨Store.wf_reset _, reset_quotaKept _, h1, fun _ => h2⟩
    · obtain ⟨h1, h2⟩ := exec_keepsEntries (s := { s with pending := rest }) hl hw he hr hc
      exact ⟨exec_storeWf (s := { s with pending := rest }) hw he hr, exec_quotaKept (s := { s with pending := rest }) hq he hr, h1, h2⟩
  · obtain ⟨h1, h2⟩ := (tick_refMove s).keeps (Store.Persists.refl _).outlives hc
    exact ⟨hw, hq, h1, h2⟩

end Sys2Proof.Machine
end

section
/-! What a command leaves alone of queue, clock, supervisor and timestamp (log 19, log 24, log 28); the step, the ticks, the resets. -/

namespace Sys2Proof.Machine

variable {s t u : State}

/-! ## The step -/

/-- Settles O1: the step's first case. -/
theorem stepRunsTheFrontCommand : Obligations.StepRunsTheFrontCommand := fun _ _ => rfl

theorem step_of_internal {c : Instr} (h : s.pending = []) (hi : s.internal = some c) : step s = exec c s := by
  simp only [step, h, hi]

theorem step_of_idle (h : s.pending = []) (hi : s.internal = none) : step s = .next s.tick := by
  simp only [step, h, hi]

theorem orElse_eq_none {α : Type} {a : Option α} {b : Unit → Option α} (h : a.orElse b = none) : a = none ∧ b () = none := by
  cases a
  · exact ⟨rfl, h⟩
  · cases h

theorem forall_of_findSome?_laneIds {α : Type} {f : LaneId → Option α} (h : laneIds.findSome? f = none) (l : LaneId) : f l = none :=
  List.findSome?_eq_none_iff.1 h l (mem_laneIds l)

theorem mem_hostIds (k : HostId) : k ∈ hostIds := by revert k; decide

/-- Settles O2: what the inside event looks at, one after another, is absent. -/
theorem timePassesOnlyWhenNothingWaits : Obligations.TimePassesOnlyWhenNothingWaits := by
  intro s hp
  refine ⟨fun c hc => step_of_internal hp hc, fun hi => ⟨step_of_idle hp hi, ?_⟩⟩
  unfold State.internal at hi
  obtain ⟨hpost, hi⟩ := orElse_eq_none hi
  obtain ⟨hclaim, hi⟩ := orElse_eq_none hi
  obtain ⟨hback, hi⟩ := orElse_eq_none hi
  obtain ⟨htime, hi⟩ := orElse_eq_none hi
  obtain ⟨hexp, hi⟩ := orElse_eq_none hi
  obtain ⟨-, hi⟩ := orElse_eq_none hi
  obtain ⟨hreq, -⟩ := orElse_eq_none hi
  have hposts : s.posts = [] := by simpa [State.postDue] using hpost
  have hset : s.settled = true := by
    unfold State.settled
    simp only [hposts, List.isEmpty_nil, Bool.true_and, List.all_eq_true, Bool.and_eq_true]
    exact fun l _ => ⟨by rw [forall_of_findSome?_laneIds hclaim l]; rfl, by rw [forall_of_findSome?_laneIds hback l]; rfl⟩
  have hlanes := ((settled_iff s).1 hset).2
  split at htime
  · cases htime
  · rename_i h1
    split at htime
    · cases htime
    · rename_i h2
      refine ⟨hposts, fun l => ?_, fun k req live hw => ?_, ?_, ?_⟩
      · obtain ⟨g1, g2, g3⟩ := hlanes l
        refine ⟨g1, g2, ?_, g3⟩
        simpa using forall_of_findSome?_laneIds hexp l
      · have := List.findSome?_eq_none_iff.1 hreq k (mem_hostIds k)
        rw [State.requestDue, hw] at this
        simpa using this
      · have h : ¬ Config.microTicks ≤ s.time.subMicro := by simpa [State.timestampDue, hset] using h1
        unfold Config.microTicks at h
        omega
      · have h : ¬ Config.milliTicks ≤ s.time.subMilli := by simpa [State.leaseTickDue] using h2
        unfold Config.milliTicks at h
        omega

/-! ## What a command leaves alone -/

/-- The queue of commands, the clock, the straps and the timestamp are the same. -/
def SameDevice (s t : State) : Prop :=
  t.pending = s.pending ∧ t.time.clock = s.time.clock ∧ t.supervisor = s.supervisor ∧ t.a0 = s.a0 ∧
    t.time.timestamp = s.time.timestamp

theorem SameDevice.refl (s : State) : SameDevice s s := ⟨rfl, rfl, rfl, rfl, rfl⟩

theorem SameDevice.trans (h : SameDevice s t) (g : SameDevice t u) : SameDevice s u := by
  obtain ⟨h1, h2, h3, h4, h5⟩ := h
  obtain ⟨g1, g2, g3, g4, g5⟩ := g
  exact ⟨g1.trans h1, g2.trans h2, g3.trans h3, g4.trans h4, g5.trans h5⟩

theorem OwnerFrame.device (h : OwnerFrame s t) : SameDevice s t := by rw [h]; exact .refl s

theorem LinkFrame.device {k : HostId} (h : LinkFrame k s t) : SameDevice s t := by rw [h.1]; exact .refl s

theorem decide_device (k : HostId) (kind : RequestKind) {owner : List Byte → State × Reply}
    (ho : ∀ p, SameDevice s (owner p).1) : SameDevice s (s.decide k kind owner) :=
  decide_keeps (P := SameDevice s) (fun _ _ hu e => by rw [e]; exact hu) (.refl s) k kind ho

theorem decideWithdrawal_device (s : State) (k : HostId) (kind : RequestKind)
    (owner : List Byte → Except Status (HostId × WithdrawalCause)) : SameDevice s (s.decideWithdrawal k kind owner) := by
  obtain he | ⟨req, live, -, -, ⟨st, -, he⟩ | ⟨host, cause, -, he⟩⟩ := decideWithdrawal_cases s k kind owner
  · rw [he]; exact .refl s
  · rw [he, answer_eq]; exact .refl s
  · rw [he]; exact .refl s

theorem ite_device {b : Prop} [Decidable b] (h : SameDevice s u) : SameDevice s (if b then u else s) := by
  split
  exacts [h, .refl s]

theorem setWithdrawal_device (s : State) (n : Nat) (w : Withdrawal) : SameDevice s (s.setWithdrawal n w) := ⟨rfl, rfl, rfl, rfl, rfl⟩

theorem leasePart_device (s : State) (n : Nat) : SameDevice s (s.leasePart n) := by
  unfold State.leasePart
  split
  · exact .refl s
  · split
    · exact .refl s
    · exact ((dropClaims_frame s _).owner.trans (endLeasesOf_frame _ _).owner).device.trans (setWithdrawal_device _ _ _)

theorem segmentPart_device (s : State) (n : Nat) : SameDevice s (s.segmentPart n) := by
  unfold State.segmentPart
  split
  · exact .refl s
  · split
    · exact .refl s
    · exact (setWithdrawal_device s _ _).trans (setStore_owner _ _).device

theorem eventPart_device (s : State) (n : Nat) : SameDevice s (s.eventPart n) := by
  unfold State.eventPart
  split
  · exact .refl s
  · split
    · exact SameDevice.trans (by exact ⟨rfl, rfl, rfl, rfl, rfl⟩) (by rw [answerWithdrawal_eq]; exact ⟨rfl, rfl, rfl, rfl, rfl⟩)
    · exact .refl s

theorem filePost_device (s : State) (k : HostId) (i : Nat) : SameDevice s (s.filePost k i) := by
  unfold State.filePost
  split
  · exact .refl s
  · exact .refl s

theorem nlrstFall_device (s : State) (k : HostId) : SameDevice s (s.nlrstFall k) := by
  unfold State.nlrstFall
  split
  · exact .refl s
  · split <;> exact .refl s

theorem fetchRequest_device (s : State) (k : HostId) (p : List Byte) : SameDevice s (fetchRequest s k p).1 := by
  unfold fetchRequest
  dsimp only
  split <;> exact .refl s

theorem eventMaskRequest_device (s : State) (k : HostId) (p : List Byte) : SameDevice s (eventMaskRequest s k p).1 := by
  unfold eventMaskRequest
  split <;> exact .refl s

theorem raiseRtn_device (s : State) (l : LaneId) : SameDevice s (s.raiseRtn l) := .refl s

theorem leaseTick_device (s : State) : SameDevice s s.leaseTick := by
  obtain ⟨leases, time, he, h1, h2⟩ := leaseTick_frame s
  rw [he]
  exact ⟨rfl, h2, rfl, rfl, h1⟩

theorem exec_device {c : Instr} (he : exec c s = .next t) (h1 : ∀ a v w, c ≠ .deviceResetRelease a v w)
    (h2 : c ≠ .timestampTick) (h3 : c ≠ .deviceReset) : SameDevice s t := by
  cases c <;> obtain rfl := Host.Outcome.next.inj he
  case deviceReset => exact absurd rfl h3
  case deviceResetRelease a v w => exact absurd rfl (h1 a v w)
  case timestampTick => exact absurd rfl h2
  case linkReset k => exact nlrstFall_device s k
  case linkResetRelease k => exact (setLink_frame s k _).device
  case requestFrameEnd p f => exact (writeBytes_frame s p.port f p.ends).device
  case nullWrite p => exact (nullWrite_frame s p.port p.ends).device
  case ignoredTransaction p b n => exact (ignoredTransaction_frame s p.port b n p.ends).device
  case responseRead p n => exact (responseRead_frame s p.port n p.ends).device
  case define k => exact decide_device k _ fun p => (defineRequest_storeOnly s k p).owner.device
  case extend k => exact decide_device k _ fun p => (extendRequest_storeOnly s k p).owner.device
  case write k => exact decide_device k _ fun p => (writeRequest_storeOnly s k p).owner.device
  case read k => exact decide_device k _ fun p => (readRequest_storeOnly s k p).owner.device
  case publish k => exact decide_device k _ fun p => (publishRequest_storeOnly s k p).owner.device
  case delete k => exact decide_device k _ fun p => (deleteRequest_storeOnly s k p).owner.device
  case catalog k => exact decide_device k _ fun p => (catalogRequest_storeOnly s k p).owner.device
  case query k => exact decide_device k _ fun p => (queryRequest_storeOnly s k p).owner.device
  case purge k => exact decide_device k _ fun p => (purgeRequest_storeOnly s k p).owner.device
  case claim k => exact decide_device k _ fun p => (claimRequest_owner s k p).device
  case renew k => exact decide_device k _ fun p => (renewRequest_owner s k p).device
  case release k => exact decide_device k _ fun p => (releaseRequest_owner s k p).device
  case leaseTick => exact leaseTick_device s
  case leaseExpiry l => exact (expire_frame s l).owner.device
  case configure k => exact decide_device k _ fun p => (configureRequest_owner s k p).device
  case laneStatus k => exact decide_device k _ fun p => (laneStatusRequest_owner s p).device
  case enqueue k => exact decide_device k _ fun p => (enqueueRequest_owner s k p).device
  case flush k => exact decide_device k _ fun p => (flushRequest_owner s k p).device
  case abort k => exact decide_device k _ fun p => (abortRequest_owner s k p).device
  case hold k => exact decide_device k _ fun p => (holdRequest_owner s k p).device
  case resume k => exact decide_device k _ fun p => (resumeRequest_owner s k p).device
  case retime k => exact decide_device k _ fun p => (retimeRequest_owner s k p).device
  case stepBoundary l => exact (stepBoundary_frame s l).owner.device
  case strobeEnd l => exact (strobeEnd_frame s l).owner.device
  case rtnReadyActive l => exact (raiseRtn_device s l).trans (rtnReadyActive_owner s l).device
  case ackEdge l => exact (raiseRtn_device s l).trans (ackEdge_owner s l).device
  case rtnEdgeSample l => exact (raiseRtn_device s l).trans (rtnEdgeSample_owner s l).device
  case readyTimeout l => exact ite_device (endFaulted_frame s l _).owner.device
  case ackTimeout l => exact ite_device (endFaulted_frame s l _).owner.device
  case passEnd l => exact (passEnd_frame s l).owner.device
  case captureTimeout l => exact ite_device (endAndGoOn_frame s l _).owner.device
  case captureEndPoint l => exact ite_device (endAndGoOn_frame s l _).owner.device
  case append l => exact (appendEvent_frame s l).owner.device
  case appendAnswer l => exact (appendAnswer_owner s l).device
  case referenceRelease l => exact (releaseEvent_frame s l).owner.device
  case markSet k => exact decide_device k _ fun p => (markSetRequest_owner s p).device
  case markReleaseProceed l => exact (settleRelease_frame s l).owner.device
  case markClear k => exact decide_device k _ fun p => (markClearRequest_owner s p).device
  case markStatus k => exact decide_device k _ fun _ => .refl s
  case deviceStatus k => exact decide_device k _ fun _ => .refl s
  case eventPost k n => exact filePost_device s k n
  case fetch k => exact decide_device k _ (fetchRequest_device s k)
  case eventMask k => exact decide_device k _ (eventMaskRequest_device s k)
  case detach k => exact decideWithdrawal_device s k _ _
  case evict k => exact decideWithdrawal_device s k _ _
  case revoke k => exact decide_device k _ fun p => (revokeRequest_owner s k p).device
  case withdrawalLeasePart n => exact leasePart_device s n
  case withdrawalSegmentPart n => exact segmentPart_device s n
  case withdrawalEventPart n => exact eventPart_device s n

theorem timestampTick_rest (s : State) :
    s.timestampTick.pending = s.pending ∧ s.timestampTick.time.clock = s.time.clock ∧
      s.timestampTick.supervisor = s.supervisor ∧ s.timestampTick.a0 = s.a0 := by
  unfold State.timestampTick
  split <;> exact ⟨rfl, rfl, rfl, rfl⟩

theorem deviceRelease_rest (s : State) (a v w : Bool) :
    (s.deviceRelease a v w).pending = s.pending ∧ (s.deviceRelease a v w).time = s.time := by
  unfold State.deviceRelease
  split <;> exact ⟨rfl, rfl⟩

/-- Settles O3: device reset, its release and the timestamp tick by what they are, every other command by what it leaves alone. -/
theorem commandsLeaveQueueSupervisorAndTime : Obligations.CommandsLeaveQueueSupervisorAndTime := by
  intro c s
  obtain ⟨t, he⟩ := exec_completes c s
  refine ⟨t, he, ?_⟩
  by_cases h1 : ∃ a v w, c = .deviceResetRelease a v w
  · obtain ⟨a, v, w, rfl⟩ := h1
    obtain rfl := Host.Outcome.next.inj he
    obtain ⟨hp, ht⟩ := deviceRelease_rest s a v w
    exact ⟨hp, congrArg TimeBase.clock ht, fun h => absurd rfl (h a v w), fun _ _ => congrArg TimeBase.timestamp ht⟩
  · by_cases h2 : c = .timestampTick
    · subst h2
      obtain rfl := Host.Outcome.next.inj he
      obtain ⟨hp, hc, hs, ha⟩ := timestampTick_rest s
      exact ⟨hp, hc, fun _ => ⟨hs, ha⟩, fun h => absurd rfl h⟩
    · by_cases h3 : c = .deviceReset
      · subst h3
        obtain rfl := Host.Outcome.next.inj he
        exact ⟨rfl, rfl, fun _ => ⟨rfl, rfl⟩, fun _ h => absurd rfl h⟩
      · obtain ⟨g1, g2, g3, g4, g5⟩ := exec_device he (fun a v w e => h1 ⟨a, v, w, e⟩) h2 h3
        exact ⟨g1, g2, fun _ => ⟨g3, g4⟩, fun _ _ => g5⟩

/-! ## Time -/

theorem Lease.tick_eq (r : Lease) :
    r.tick = if r.holder = none then r
      else if r.remaining ≤ 1 then { r with expiring := true } else { r with remaining := r.remaining - 1 } := by
  unfold Lease.tick
  cases r.holder <;> simp

/-- One lane over a passing tick: an RTN judged inactive is noted (R83). -/
theorem tick_lane (s : State) (l : LaneId) : s.tick.lane l = s.judgedLane l := Bank.sel_ofFn _ l

theorem tick_pinsOf (s : State) (l : LaneId) : s.tick.pinsOf l = pinsAt l (s.time.clock + 1) := Bank.sel_ofFn _ l

theorem rtnActive_eq_false_iff (s : State) (l : LaneId) :
    s.rtnActive l = false ↔ (s.pinsOf l).rtn = match (s.lease l).rtnPol with | .activeHigh => false | .activeLow => true := by
  unfold State.rtnActive
  cases (s.lease l).rtnPol <;> simp

/-- Settles O9: the three passings of time by their definitions. -/
theorem timeTicks : Obligations.TimeTicks := by
  refine ⟨settled_iff, fun s => ?_, fun s => ?_, fun s => ⟨rfl, fun l => ⟨?_, tick_pinsOf s l⟩⟩⟩
  · refine congrArg Host.Outcome.next ?_
    unfold State.timestampTick State.timestampDue
    simp only [Bool.and_eq_true, decide_eq_true_eq]
    rfl
  · refine ⟨s.leaseTick, rfl, ?_⟩
    unfold State.leaseTick State.leaseTickDue
    simp only [decide_eq_true_eq]
    unfold Config.milliTicks
    split
    · refine ⟨rfl, fun l => ?_⟩
      rw [← Lease.tick_eq]
      exact Bank.sel_map s.leases Lease.tick l
    · rfl
  · rw [tick_lane]
    unfold State.judgedLane
    simp only [rtnActive_eq_false_iff]
    rfl

/-! ## Resets -/

theorem deviceReset_pool (s : State) : s.deviceReset.store.pool = List.range 1024 := by
  have h : s.deviceReset.store.pool = List.range Config.blockCount := by
    unfold State.deviceReset Store.reset
    dsimp only
  rw [h]
  unfold Config.blockCount
  dsimp only

/-- Settles O10: each block's reset values, row by row. -/
theorem deviceResetResetsEveryBlock : Obligations.DeviceResetResetsEveryBlock := by
  refine ⟨fun s => ⟨s.deviceReset, rfl, rfl, rfl, rfl, rfl, rfl, deviceReset_pool s, rfl, fun i => Bank.sel_replicate _ i,
    fun l => Bank.sel_replicate _ l, fun l => Bank.sel_replicate _ l,
    fun l => ⟨Bank.sel_replicate _ l, Bank.sel_replicate _ l⟩, fun m => Bank.sel_replicate _ m,
    fun k => Bank.sel_replicate _ k, rfl, rfl, rfl, fun k => Bank.sel_map s.links Link.deviceReset k, rfl, rfl, rfl⟩, ?_⟩
  intro s a0 v w hn
  refine congrArg Host.Outcome.next ?_
  unfold State.deviceRelease
  rw [hn]
  cases v <;> cases w <;> rfl

theorem reset_linksOk : State.reset.linksOk := by
  rw [linksOk_iff]
  intro k
  rw [show State.reset.link k = Link.reset from Bank.sel_replicate _ k]
  exact linkOk_emptied rfl rfl rfl rfl (o := none) rfl

theorem reset_eventsOk : State.reset.eventsOk := by
  intro k
  rw [show State.reset.eventsOf k = EventQueue.reset from Bank.sel_replicate _ k]
  exact EventQueue.wf_reset

theorem reset_stampsOk : State.reset.stampsOk := by
  refine ⟨fun p hp => absurd hp List.not_mem_nil, fun l x a h => ?_⟩
  rw [show State.reset.lane l = Lane.reset from Bank.sel_replicate _ l] at h
  cases h

theorem reset_store : State.reset.store = { Store.reset with epoch := 0 } := by
  unfold State.reset Store.reset
  dsimp only

/-- Settles O60: each invariant at its block's reset values. -/
theorem resetIsWellFormed : Obligations.ResetIsWellFormed := by
  obtain ⟨hr, he⟩ := reset_consistent (s := State.reset) (n := 0) reset_store
    (fun l => by simp [State.reset, State.lane, Lane.reset]) (fun l => by simp [State.reset, State.claimsOf])
  have hw : State.reset.store.wf := by rw [reset_store]; exact Store.wf_reset 0
  have hq : State.reset.store.quotaKept := by rw [reset_store]; exact reset_quotaKept 0
  exact ⟨hw, hq, hr, he, reset_eventsOk, reset_stampsOk, reset_linksOk, reset_lanesOk⟩

end Sys2Proof.Machine
end

section
/-! What any command may do to a segment table entry and to pattern memory (R1, R6, R7, R20, R62). -/

namespace Sys2Proof.Machine

variable {s t u : State} {l : LaneId}

/-! ## States and generations (R6, R7) -/

/-- Every entry keeps its generation. -/
def Store.SameGenerations (st st' : Store) : Prop := ∀ i, (st'.entry i).generation = (st.entry i).generation

theorem Store.SameGenerations.refl (st : Store) : st.SameGenerations st := fun _ => rfl

theorem Store.SameGenerations.trans {a b c : Store} (h : a.SameGenerations b) (g : b.SameGenerations c) : a.SameGenerations c :=
  fun i => (g i).trans (h i)

theorem Store.SameGenerations.of_one {st st' : Store} (i : Slot) (hj : ∀ j, j ≠ i → st'.entry j = st.entry j)
    (hi : (st'.entry i).generation = (st.entry i).generation) : st.SameGenerations st' := by
  intro j
  by_cases e : j = i
  · subst e; exact hi
  · rw [hj j e]

theorem generations_setEntry (st : Store) (i : Slot) (g : Segment) (h : g.generation = (st.entry i).generation) :
    st.SameGenerations (st.setEntry i g) :=
  .of_one i (fun j hj => by rw [Store.setEntry_entry, if_neg (Ne.symm hj)]) (by rw [Store.setEntry_entry, if_pos rfl]; exact h)

theorem generations_freeEntry (st : Store) (i : Slot) : st.SameGenerations (st.freeEntry i) := generations_setEntry st i _ rfl
theorem generations_setRefs (st : Store) (i : Slot) (n : Nat) : st.SameGenerations (st.setRefs i n) :=
  generations_setEntry st i _ rfl
theorem generations_allocate (st : Store) (i : Slot) (n : Nat) : st.SameGenerations (st.allocate i n) :=
  generations_setEntry st i _ rfl
theorem generations_publish (st : Store) (i : Slot) : st.SameGenerations (st.publishEntry i) :=
  generations_setEntry st i _ rfl

theorem generations_removeEntry (st : Store) (i : Slot) (b : Bool) : st.SameGenerations (st.removeEntry i b) := by
  unfold Store.removeEntry
  split
  · exact generations_freeEntry st i
  · exact generations_setEntry st i _ rfl

theorem generations_foldl (f : Store → Slot → Store) (hf : ∀ (st : Store) i, st.SameGenerations (f st i)) (is : List Slot) :
    ∀ st : Store, st.SameGenerations (is.foldl f st) := by
  induction is with
  | nil => exact .refl
  | cons i is ih => exact fun st => (hf st i).trans (ih _)

theorem generations_purge (st : Store) (k : HostId) (b : Bool) : st.SameGenerations (st.purge k b) :=
  generations_foldl _ (fun st i => generations_removeEntry st i b) _ st

theorem generations_withdrawEntry (st : Store) (k : HostId) (i : Slot) : st.SameGenerations (st.withdrawEntry k i) := by
  unfold Store.withdrawEntry
  dsimp only
  split
  · exact .refl st
  · split
    · exact generations_removeEntry st i false
    · split
      · exact generations_setEntry st i _ rfl
      · exact .refl st

theorem generations_withdraw (st : Store) (k : HostId) : st.SameGenerations (st.withdraw k) :=
  generations_foldl _ (fun st i => generations_withdrawEntry st k i) _ st

theorem generations_putWords (st : Store) (i : Slot) (o n : Nat) (ws : List Word) :
    st.SameGenerations ((st.putWords (st.entry i) o ws).setEntry i { (st.entry i) with length := n }) :=
  .of_one i (fun j hj => by rw [Store.setEntry_entry, if_neg (Ne.symm hj)]; simp) (by rw [Store.setEntry_entry, if_pos rfl])

theorem Store.Settles.generations {st st' : Store} (h : st.Settles st') : st.SameGenerations st' := by
  induction h with
  | refl => exact .refl _
  | append i w _ _ _ ih => exact ih.trans (generations_putWords _ i _ _ [w])
  | release i _ ih =>
    refine ih.trans ?_
    unfold Store.afterRelease
    split
    · exact generations_freeEntry _ i
    · exact generations_setRefs _ i _

/-- The move of one entry by R6, and the generation that goes with it (R7). -/
def Segment.Steps (g g' : Segment) : Prop :=
  g.state.mayBecome g'.state = true ∧
    g'.generation = if g.state = .free ∧ g'.state = .opened then (if g.generation = 255 then 1 else g.generation + 1)
      else g.generation

/-- An entry that stays, is condemned or goes FREE moves by R6. -/
theorem Segment.Persists.steps {g g' : Segment} (h : g.Persists g') (hg : g'.generation = g.generation) : g.Steps g' := by
  obtain ⟨h1, h2⟩ := h
  have hs : g'.state = .free ∨ g'.state = g.state ∨ g'.state = .condemned := by tauto
  have hn : ¬(g.state = .free ∧ g'.state = .opened) := fun ⟨a, b⟩ => by rw [h1 a] at b; cases b
  refine ⟨?_, by rw [if_neg hn, hg]⟩
  cases e : g.state
  · rw [h1 e]; rfl
  all_goals
    rcases hs with hs | hs | hs
    · rw [hs]; rfl
    · rw [hs, e]; rfl
    · rw [hs]; rfl

theorem Segment.Steps.refl (g : Segment) : g.Steps g := (Segment.Persists.refl g).steps rfl

theorem Store.Persists.steps {st st' : Store} (h : st.Persists st') (hg : st.SameGenerations st') (i : Slot) :
    (st.entry i).Steps (st'.entry i) := (h i).steps (hg i)

theorem steps_defineIn (st : Store) (i : Slot) (k : HostId) (name : List Byte) (v : Visibility) (n : Nat)
    (hf : (st.entry i).state = .free) (j : Slot) : (st.entry j).Steps ((st.defineIn i k name v n).entry j) := by
  rw [Store.defineIn_entry]
  split
  · subst_vars
    exact ⟨by rw [hf]; rfl, by rw [if_pos ⟨hf, rfl⟩]; rfl⟩
  · exact .refl _

theorem steps_publishEntry (st : Store) (i : Slot) (ho : (st.entry i).state = .opened) (j : Slot) :
    (st.entry j).Steps ((st.publishEntry i).entry j) := by
  rw [Store.publishEntry_entry]
  split
  · subst_vars
    exact ⟨by rw [ho]; rfl, by rw [if_neg (by rw [ho]; simp)]⟩
  · exact .refl _

theorem takeClaim_steps (s : State) (l : LaneId) (c : LaneClaim) (i : Slot) :
    (s.store.entry i).Steps ((s.takeClaim l c).store.entry i) :=
  (takeClaim_settles s l c).persists.steps (takeClaim_settles s l c).generations i

/-- Settles O5, by what a command may do to the table. -/
theorem segmentStatesMoveByTheTable : Obligations.SegmentStatesMoveByTheTable := by
  intro c s t i he hc
  exact storeMoves (fun st st' => ∀ i, (st.entry i).Steps (st'.entry i)) s (fun _ => .refl _)
    (fun i k name v n hf _ _ _ _ => steps_defineIn _ i k name v n hf)
    (fun i n _ _ _ _ => (persists_allocate _ i n).steps (generations_allocate _ i n))
    (fun i ho _ _ => steps_publishEntry _ i ho)
    (fun i hl => (persists_removeEntry _ i true hl).steps (generations_removeEntry _ i true))
    (fun h b => (persists_purge _ h b).steps (generations_purge _ h b))
    (fun h => (persists_withdraw _ h).steps (generations_withdraw _ h))
    c t he hc
    (fun i o ws _ _ _ _ _ => (persists_putWords _ i o _ ws (Nat.le_max_left _ _)).steps (generations_putWords _ i o _ ws))
    (fun _ _ h => h.persists.steps h.generations)
    (fun _ i _ _ h1 _ h2 => (h1.persists.trans ((persists_setRefs _ i _).trans h2.persists)).steps
      (h1.generations.trans ((generations_setRefs _ i _).trans h2.generations)))
    (fun l r id w _ _ _ => takeClaim_steps s l (.append r id w))
    (fun l r id x _ _ _ => takeClaim_steps s l (.release r id x))
    i

/-! ## Pattern memory (R1) -/

/-- Pattern memory is as it was, free content included. -/
def Store.SameMemory (st st' : Store) : Prop := st'.epoch = st.epoch ∧ st'.memory = st.memory

theorem Store.SameMemory.refl (st : Store) : st.SameMemory st := ⟨rfl, rfl⟩

theorem Store.SameMemory.trans {a b c : Store} (h : a.SameMemory b) (g : b.SameMemory c) : a.SameMemory c :=
  ⟨g.1.trans h.1, g.2.trans h.2⟩

theorem memory_removeEntry (st : Store) (i : Slot) (b : Bool) : st.SameMemory (st.removeEntry i b) := by
  unfold Store.removeEntry
  split <;> exact ⟨rfl, rfl⟩

theorem memory_withdrawEntry (st : Store) (k : HostId) (i : Slot) : st.SameMemory (st.withdrawEntry k i) := by
  unfold Store.withdrawEntry
  dsimp only
  split
  · exact .refl st
  · split
    · exact memory_removeEntry st i false
    · split <;> exact ⟨rfl, rfl⟩

theorem memory_foldl (f : Store → Slot → Store) (hf : ∀ (st : Store) i, st.SameMemory (f st i)) (is : List Slot) :
    ∀ st : Store, st.SameMemory (is.foldl f st) := by
  induction is with
  | nil => exact .refl
  | cons i is ih => exact fun st => (hf st i).trans (ih _)

theorem memory_purge (st : Store) (k : HostId) (b : Bool) : st.SameMemory (st.purge k b) :=
  memory_foldl _ (fun st i => memory_removeEntry st i b) _ st

theorem memory_withdraw (st : Store) (k : HostId) : st.SameMemory (st.withdraw k) :=
  memory_foldl _ (fun st i => memory_withdrawEntry st k i) _ st

theorem memory_afterRelease (st : Store) (i : Slot) : st.SameMemory (st.afterRelease i) := by
  unfold Store.afterRelease
  split <;> exact ⟨rfl, rfl⟩

theorem memory_takeRelease (s : State) (l : LaneId) (r : SegmentRef) (n : Nat) (x : Option Nat) :
    s.store.SameMemory (s.takeRelease l r n x).store := by
  rw [takeRelease_store]
  split
  · exact .refl _
  · exact memory_afterRelease _ _

theorem Store.Settles.epoch {st st' : Store} (h : st.Settles st') : st'.epoch = st.epoch := by
  induction h with
  | refl => rfl
  | append i w _ _ _ ih => rw [← ih]; exact Store.putWord_epoch _ _ _ _
  | release i _ ih => exact (memory_afterRelease _ i).1.trans ih

/-- The free content stays, whatever command is taken but device reset (R1). -/
theorem exec_epoch {c : Instr} (he : exec c s = .next t) (hc : c ≠ .deviceReset) : t.store.epoch = s.store.epoch :=
  storeMoves (fun st st' => st'.epoch = st.epoch) s rfl
    (fun _ _ _ _ _ _ _ _ _ _ => rfl) (fun _ _ _ _ _ _ => rfl) (fun _ _ _ _ => rfl)
    (fun i _ => (memory_removeEntry _ i true).1) (fun h b => (memory_purge _ h b).1) (fun h => (memory_withdraw _ h).1)
    c t he hc
    (fun _ o ws _ _ _ _ _ => Store.putWords_epoch _ ws _ o)
    (fun _ _ h => h.epoch)
    (fun _ _ _ _ h1 _ h2 => h2.epoch.trans h1.epoch)
    (fun l r id w _ _ _ => (takeClaim_settles s l (.append r id w)).epoch)
    (fun l r id x _ _ _ => (memory_takeRelease s l r id x).1)

/-- A command in which nothing may be stored leaves pattern memory as it is. -/
theorem exec_memory {c : Instr} (he : exec c s = .next t) (hc : c ≠ .deviceReset) (hw : ∀ k, c ≠ .write k) (hm : ¬ mayStart c)
    (ha : ∀ l, c ≠ .append l) : t.store.memory = s.store.memory :=
  storeMoves (fun st st' => st'.memory = st.memory) s rfl
    (fun _ _ _ _ _ _ _ _ _ _ => rfl) (fun _ _ _ _ _ _ => rfl) (fun _ _ _ _ => rfl)
    (fun i _ => (memory_removeEntry _ i true).2) (fun h b => (memory_purge _ h b).2) (fun h => (memory_withdraw _ h).2)
    c t he hc
    (fun _ _ _ ⟨k, e⟩ => absurd e (hw k))
    (fun _ h => absurd h hm)
    (fun _ _ _ ⟨k, e⟩ => absurd (by rw [e]; trivial) hm)
    (fun l _ _ _ _ e => absurd e (ha l))
    (fun l r id x _ _ _ => (memory_takeRelease s l r id x).2)

/-! ### A lane that has no append waiting -/

/-- No append of lane l waits. -/
def State.noAppend (s : State) (l : LaneId) : Prop := ∀ r id w, LaneClaim.append r id w ∉ s.claimsOf l

/-- Nothing was stored, and no append waits on the lane. -/
def StoresNothing (l : LaneId) (s t : State) : Prop := s.noAppend l → t.noAppend l ∧ t.store.memory = s.store.memory

theorem StoresNothing.refl (l : LaneId) (s : State) : StoresNothing l s s := fun h => ⟨h, rfl⟩

theorem StoresNothing.trans (h : StoresNothing l s t) (g : StoresNothing l t u) : StoresNothing l s u := fun hs =>
  have h1 := h hs
  have h2 := g h1.1
  ⟨h2.1, h2.2.trans h1.2⟩

/-- Neither the claims nor the store differ. -/
theorem storesNothing_of (h1 : t.claims = s.claims) (h2 : t.store = s.store) : StoresNothing l s t := fun h =>
  ⟨by unfold State.noAppend State.claimsOf; rw [h1]; exact h, by rw [h2]⟩

theorem present_storesNothing (s : State) (l : LaneId) (r : SegmentRef) (n : Nat) (x : Option Nat) :
    StoresNothing l s (s.present l (.release r n x)) := by
  refine fun h => ⟨fun r' id w hm => ?_, rfl⟩
  unfold State.present at hm
  rw [State.setClaims_claimsOf_self] at hm
  rcases List.mem_append.1 hm with hm | hm
  · exact h r' id w hm
  · cases List.mem_singleton.1 hm

theorem takeClaims_memory (l : LaneId) (cs : List LaneClaim) (h : ∀ r id w, LaneClaim.append r id w ∉ cs) : ∀ s : State,
    (cs.foldl (fun t c => t.takeClaim l c) s).store.memory = s.store.memory := by
  induction cs with
  | nil => exact fun _ => rfl
  | cons c cs ih =>
    intro s
    rw [List.foldl_cons, ih (fun r id w hm => h r id w (List.mem_cons_of_mem _ hm))]
    cases c with
    | append r id w => exact absurd (List.mem_cons_self ..) (h r id w)
    | release r n x => exact (memory_takeRelease s l r n x).2

theorem settleClaims_noAppend (s : State) (l : LaneId) : (s.settleClaims l).noAppend l := by
  intro r id w
  unfold State.claimsOf
  rw [settleClaims_claims, Bank.sel_upd, if_pos rfl]
  exact List.not_mem_nil

theorem settleClaims_storesNothing (s : State) (l : LaneId) : StoresNothing l s (s.settleClaims l) := fun h =>
  ⟨settleClaims_noAppend s l, takeClaims_memory l _ h _⟩

theorem settleMark_claims (s : State) (m : MarkId) (x : Option (LaneId × Nat)) : (s.settleMark m x).1.claims = s.claims := by
  have hf : ∀ (ls : List LaneId) (u : State), (ls.foldl (State.releaseLane x) u).claims = u.claims := fun ls => by
    induction ls with
    | nil => exact fun _ => rfl
    | cons l ls ih => exact fun u => ih _
  unfold State.settleMark
  split
  · rfl
  · exact hf _ _

theorem setPostMark_storesNothing (s : State) (l : LaneId) (e : Entry) (o : EndOutcome) :
    StoresNothing l s (s.setPostMark l e o) := by
  unfold State.setPostMark
  split
  · exact storesNothing_of (settleMark_claims s _ _) (settleMark_frame s _ _).store
  · exact .refl l s

theorem finishEntry_storesNothing (s : State) (l : LaneId) (e : Entry) (o : EndOutcome) (n : Nat) (d r : Bool) (x : Option Nat) :
    StoresNothing l s (s.finishEntry l e o n d r x) := by
  unfold State.finishEntry
  dsimp only
  refine (setPostMark_storesNothing s l e o).trans (.trans ?_ (present_storesNothing _ l e.segment _ x))
  split
  · exact storesNothing_of rfl rfl
  · exact .refl l _

theorem setLane_storesNothing (s : State) (l j : LaneId) (v : Lane) : StoresNothing l s (s.setLane j v) := storesNothing_of rfl rfl

theorem endCurrent_storesNothing (s : State) (l : LaneId) (o : EndOutcome) (r : Bool) (x : Option Nat) :
    StoresNothing l s (s.endCurrent l o r x) := by
  unfold State.endCurrent
  split
  · exact .refl l s
  · exact (setLane_storesNothing s l l _).trans (finishEntry_storesNothing _ l _ _ _ _ _ _)

theorem endQueued_storesNothing (l : LaneId) (o : EndOutcome) (r : Bool) (x : Option Nat) (es : List Entry) : ∀ s : State,
    StoresNothing l s (s.endQueued l o r x es) := by
  induction es with
  | nil => exact .refl l
  | cons e es ih => exact fun s => (finishEntry_storesNothing s l e o 0 false r x).trans (ih _)

/-- A lane that no mark has released does not proceed. -/
theorem settleRelease_of_not_released (h : ∀ x a, (s.lane l).state ≠ .released x a) : s.settleRelease l = s := by
  unfold State.settleRelease
  split
  · rename_i hs _
    exact absurd hs (h _ _)
  · rfl

theorem drain_storesNothing (h : ∀ x a, (s.lane l).state ≠ .released x a) (r : Bool) : StoresNothing l s (s.drain l r) := by
  unfold State.drain
  rw [settleRelease_of_not_released h]
  dsimp only
  generalize some s.orderCount = x
  have h2 : StoresNothing l s (if (s.countOrder.lane l).state = .markwait then s.countOrder.removeWaiter l else s.countOrder) := by
    split <;> exact storesNothing_of rfl rfl
  generalize (if (s.countOrder.lane l).state = .markwait then s.countOrder.removeWaiter l else s.countOrder) = s2 at h2 ⊢
  have h3 := h2.trans (setLane_storesNothing s2 l l { (s2.lane l) with holdRequest := false })
  generalize s2.setLane l { (s2.lane l) with holdRequest := false } = s3 at h3 ⊢
  have h4 : StoresNothing l s3 (if (s3.lane l).state.hasCurrent = true then s3.endCurrent l .leaseEnded r x else s3) := by
    split
    exacts [endCurrent_storesNothing s3 l _ r x, .refl l s3]
  generalize (if (s3.lane l).state.hasCurrent = true then s3.endCurrent l .leaseEnded r x else s3) = s4 at h4 ⊢
  exact (h3.trans h4).trans (((setLane_storesNothing s4 l l _).trans (endQueued_storesNothing l _ _ _ _ _)).trans
    (setLane_storesNothing _ l l _))

/-- Nothing is stored, where no append waits on the lane. -/
def KeepsMemory (l : LaneId) (s t : State) : Prop := s.noAppend l → t.store.memory = s.store.memory

theorem StoresNothing.keeps (h : StoresNothing l s t) : KeepsMemory l s t := fun hs => (h hs).2

theorem StoresNothing.thenKeeps (h : StoresNothing l s t) (g : KeepsMemory l t u) : KeepsMemory l s u := fun hs =>
  (g (h hs).1).trans (h hs).2

theorem keepsMemory_of (h : t.store = s.store) : KeepsMemory l s t := fun _ => by rw [h]

theorem startQueue_keepsMemory (l : LaneId) (es : List Entry) : ∀ s : State, KeepsMemory l s (startQueue l es s) := by
  induction es with
  | nil => exact fun s => keepsMemory_of rfl
  | cons e es ih =>
    intro s
    unfold startQueue
    dsimp only
    refine (setLane_storesNothing s l l { (s.lane l) with state := .running, pass := 0, words := 0 }).thenKeeps ?_
    generalize s.setLane l { (s.lane l) with state := .running, pass := 0, words := 0 } = s1
    have h2 : StoresNothing l s1 (if e.kind = .capture then s1.settleClaims l else s1) := by
      split
      exacts [settleClaims_storesNothing s1 l, .refl l s1]
    refine h2.thenKeeps ?_
    generalize (if e.kind = .capture then s1.settleClaims l else s1) = s2
    split
    · exact ((setLane_storesNothing s2 l l _).trans (finishEntry_storesNothing _ l _ _ _ _ _ _)).thenKeeps (ih _)
    · exact keepsMemory_of (offerWait_frame s2 l e).store

theorem entryStart_keepsMemory (s : State) (l : LaneId) : KeepsMemory l s (s.entryStart l) := startQueue_keepsMemory l _ s

theorem afterEnd_keepsMemory (s : State) (l : LaneId) : KeepsMemory l s (s.afterEnd l) := by
  unfold State.afterEnd
  split
  · exact keepsMemory_of rfl
  · exact entryStart_keepsMemory s l

theorem endAndGoOn_keepsMemory (s : State) (l : LaneId) (o : EndOutcome) : KeepsMemory l s (s.endAndGoOn l o) :=
  (endCurrent_storesNothing s l o true none).thenKeeps (afterEnd_keepsMemory _ l)

theorem takePassEnd_keepsMemory (s : State) (l : LaneId) (e : Entry) : KeepsMemory l s (s.takePassEnd l e) := by
  unfold State.takePassEnd
  dsimp only
  split
  · exact endAndGoOn_keepsMemory s l _
  · exact (setLane_storesNothing s l l _).thenKeeps (keepsMemory_of (boundaryPoint_frame _ l e).store)

theorem resumeWithin_keepsMemory (s : State) (l : LaneId) (f : HoldForm) (e : Entry) :
    KeepsMemory l s (s.resumeWithin l f e) := by
  unfold State.resumeWithin
  split
  · exact endAndGoOn_keepsMemory s l _
  · split
    · exact keepsMemory_of (attemptBoundary_frame s l e).store
    · split <;> exact keepsMemory_of rfl

theorem resumeByState_keepsMemory (s : State) (l : LaneId) : KeepsMemory l s (resumeByState s l).1 := by
  unfold resumeByState
  dsimp only
  split
  · split <;> exact keepsMemory_of rfl
  · exact resumeWithin_keepsMemory s l _ _
  · exact resumeWithin_keepsMemory s l _ _
  · exact keepsMemory_of (offerWait_frame s l _).store
  · exact entryStart_keepsMemory s l
  · exact (storesNothing_of (t := s.goIdle l) rfl rfl).thenKeeps (entryStart_keepsMemory _ l)
  · exact keepsMemory_of rfl

theorem afterPulse_keepsMemory (s : State) (l : LaneId) (e : Entry) : KeepsMemory l s (s.afterPulse l e) := by
  unfold State.afterPulse
  split
  · split <;> exact keepsMemory_of rfl
  · split
    · exact endAndGoOn_keepsMemory s l _
    · split <;> exact keepsMemory_of rfl
  · exact keepsMemory_of rfl

theorem strobeEnd_keepsMemory (s : State) (l : LaneId) : KeepsMemory l s (s.strobeEnd l) := by
  unfold State.strobeEnd
  split
  · split
    · exact (storesNothing_of (t := s.endPulse l) rfl rfl).thenKeeps (afterPulse_keepsMemory _ l _)
    · exact keepsMemory_of rfl
  · exact keepsMemory_of rfl

theorem acknowledge_keepsMemory (s : State) (l : LaneId) (e : Entry) : KeepsMemory l s (s.acknowledge l e) := by
  unfold State.acknowledge
  dsimp only
  split
  · exact takePassEnd_keepsMemory s l e
  · split
    · exact (setLane_storesNothing s l l _).thenKeeps (keepsMemory_of (boundaryPoint_frame _ l e).store)
    · exact keepsMemory_of rfl

theorem ackEdge_keepsMemory (s : State) (l : LaneId) : KeepsMemory l s (s.ackEdge l) := by
  unfold State.ackEdge
  split
  · split
    · exact (storesNothing_of (t := s.raiseRtn l) rfl rfl).thenKeeps (acknowledge_keepsMemory _ l _)
    · exact keepsMemory_of rfl
  · exact keepsMemory_of rfl

theorem passEnd_keepsMemory (s : State) (l : LaneId) : KeepsMemory l s (s.passEnd l) := by
  unfold State.passEnd
  split
  · exact takePassEnd_keepsMemory s l _
  · exact keepsMemory_of rfl

theorem endCapture_keepsMemory (s : State) (l : LaneId) (o : EndOutcome) : KeepsMemory l s (s.endCapture l o) := by
  unfold State.endCapture
  split
  · exact (endCurrent_storesNothing s l o true none).thenKeeps (keepsMemory_of rfl)
  · exact endAndGoOn_keepsMemory s l o

theorem answerStored_keepsMemory (s : State) (l : LaneId) (e : Entry) (w : Word) : KeepsMemory l s (s.answerStored l e w) := by
  unfold State.answerStored
  dsimp only
  split
  · exact (setLane_storesNothing s l l _).thenKeeps (endAndGoOn_keepsMemory _ l _)
  · exact keepsMemory_of rfl

theorem appendAnswer_keepsMemory (s : State) (l : LaneId) : KeepsMemory l s (s.appendAnswer l) := by
  unfold State.appendAnswer
  split
  · exact keepsMemory_of rfl
  · rename_i rest _
    dsimp only
    refine StoresNothing.thenKeeps (t := s.setAnswers l rest) (storesNothing_of rfl rfl) ?_
    split
    · exact keepsMemory_of rfl
    · split
      · exact answerStored_keepsMemory _ l _ _
      · exact endCapture_keepsMemory _ l _
      · exact endCapture_keepsMemory _ l _

theorem acceptEntry_keepsMemory (s : State) (l : LaneId) (i : Slot) (e : Entry) : KeepsMemory l s (s.acceptEntry l i e) := by
  rw [acceptEntry_queueEntry]
  have h : StoresNothing l s (s.queueEntry l i e) := fun h => ⟨h, rfl⟩
  split
  · exact h.thenKeeps (entryStart_keepsMemory _ l)
  · exact h.keeps

theorem closeLease_storesNothing (h : ∀ x a, (s.lane l).state ≠ .released x a) (c : LeaseEndCause) :
    StoresNothing l s (s.closeLease l c) := by
  unfold State.closeLease
  dsimp only
  have h1 := drain_storesNothing h (c != .withdrawn)
  generalize s.drain l (c != .withdrawn) = u at h1 ⊢
  exact h1.trans (storesNothing_of rfl rfl)

theorem revoke_keepsMemory (h : ∀ x a, (s.lane l).state ≠ .released x a) (k : HostId) (target : Option HostId) :
    KeepsMemory l s (s.revoke l k target) := by
  have h0 : StoresNothing l s (s.postLease k (.leaseLost l .revoked)) := storesNothing_of rfl rfl
  have h1 := (h0.trans (closeLease_storesNothing (s := s.postLease k (.leaseLost l .revoked)) h .revoked)).trans
    (settleClaims_storesNothing _ l)
  unfold State.revoke
  dsimp only
  split
  · exact h1.thenKeeps (keepsMemory_of (grantHead_frame _ l).store)
  · exact h1.thenKeeps (keepsMemory_of (grantTo_frame _ l _).store)

/-! ### Requests -/

/-- No append waits, and no lane is between a mark's release and its own event. -/
def State.quiet (s : State) : Prop :=
  (∀ l, s.noAppend l) ∧ ∀ l x a, (s.lane l).state ≠ .released x a

theorem decide_memory (k : HostId) (kind : RequestKind) {owner : List Byte → State × Reply}
    (ho : ∀ p, (owner p).1.store.memory = s.store.memory) : (s.decide k kind owner).store.memory = s.store.memory :=
  decide_keeps (P := fun t => t.store.memory = s.store.memory) (fun _ _ hu e => by rw [e]; exact hu) rfl k kind ho

theorem enqueueRequest_memory (h : s.quiet) (k : HostId) (p : List Byte) :
    (enqueueRequest s k p).1.store.memory = s.store.memory := by
  unfold enqueueRequest
  split
  · rfl
  · rename_i l _
    have h1 := settleClaims_storesNothing s l (h.1 l)
    split
    · rfl
    · split
      · rfl
      · rw [settleRelease_of_not_released (h.2 l)]
        dsimp only
        split
        · exact h1.2
        · exact (acceptEntry_keepsMemory _ l _ _ h1.1).trans h1.2

theorem resumeRequest_memory (h : s.quiet) (k : HostId) (p : List Byte) :
    (resumeRequest s k p).1.store.memory = s.store.memory := by
  unfold resumeRequest
  split
  · rfl
  · rename_i l _
    rw [settleRelease_of_not_released (h.2 l)]
    exact resumeByState_keepsMemory s l (h.1 l)

theorem revokeRequest_memory (h : s.quiet) (k : HostId) (p : List Byte) :
    (revokeRequest s k p).1.store.memory = s.store.memory := by
  unfold revokeRequest
  split
  · rfl
  · split
    · split
      · rfl
      · exact revoke_keepsMemory (h.2 _) _ _ (h.1 _)
    · rfl

/-- A command that may start an entry stores nothing where no append waits. -/
theorem mayStart_memory {c : Instr} (hm : mayStart c) (h : s.quiet) (he : exec c s = .next t) :
    t.store.memory = s.store.memory := by
  have hite : ∀ {b : Prop} [Decidable b] (v : State), v.store.memory = s.store.memory →
      (if b then v else s).store.memory = s.store.memory := by
    intro b _ v g
    split
    exacts [g, rfl]
  cases c <;> (try exact hm.elim) <;> obtain rfl := Host.Outcome.next.inj he
  case enqueue k => exact decide_memory k _ (enqueueRequest_memory h k)
  case revoke k => exact decide_memory k _ (revokeRequest_memory h k)
  case resume k => exact decide_memory k _ (resumeRequest_memory h k)
  case strobeEnd l => exact strobeEnd_keepsMemory s l (h.1 l)
  case passEnd l => exact passEnd_keepsMemory s l (h.1 l)
  case ackEdge l => exact ackEdge_keepsMemory s l (h.1 l)
  case captureTimeout l => exact hite _ (endAndGoOn_keepsMemory s l _ (h.1 l))
  case captureEndPoint l => exact hite _ (endAndGoOn_keepsMemory s l _ (h.1 l))
  case appendAnswer l => exact appendAnswer_keepsMemory s l (h.1 l)

/-- An APPEND finds nothing to take where no append waits. -/
theorem appendEvent_of_noAppend (h : s.noAppend l) : s.appendEvent l = s := by
  unfold State.appendEvent
  split
  · rename_i r id w rest hc
    exact absurd (by rw [hc]; exact List.mem_cons_self ..) (h r id w)
  · rfl

/-- Settles O4, by which commands may store. -/
theorem patternMemoryChangesOnlyByStores : Obligations.PatternMemoryChangesOnlyByStores := by
  intro c s t he hc
  refine ⟨exec_epoch he hc, fun hw ha hr => ?_, fun h1 h2 => ?_⟩
  · by_cases hm : mayStart c
    · exact mayStart_memory hm ⟨fun l => ha l, hr⟩ he
    · by_cases hp : ∃ l, c = .append l
      · obtain ⟨l, rfl⟩ := hp
        obtain rfl := Host.Outcome.next.inj he
        rw [appendEvent_of_noAppend (ha l)]
      · exact exec_memory he hc hw hm fun l e => hp ⟨l, e⟩
  · refine exec_memory he hc (fun k e => h1 k (by simp [e])) (fun hm => ?_) (fun l e => h2 l (by simp [e]))
    cases c <;> (try exact hm.elim)
    case enqueue k => exact h1 k (by simp)
    case revoke k => exact h1 k (by simp)
    case resume k => exact h1 k (by simp)
    case strobeEnd l => exact h2 l (by simp)
    case passEnd l => exact h2 l (by simp)
    case ackEdge l => exact h2 l (by simp)
    case captureTimeout l => exact h2 l (by simp)
    case captureEndPoint l => exact h2 l (by simp)
    case appendAnswer l => exact h2 l (by simp)

end Sys2Proof.Machine
end

section
/-! The words of a segment: what a store leaves of the others, and that those of a PUBLISHED or CONDEMNED segment stay (R1, R20,
R62). -/

namespace Sys2Proof.Machine

variable {s t u : State} {l : LaneId}

/-! ## What a store leaves -/

theorem Store.word_eq_content {st : Store} {g : Segment} {j a : Nat} (h : wordAddress g.chain j = some a) :
    st.word g j = st.content a := by
  unfold Store.word
  rw [h]

/-- The content of an address is that of the cell, where neither cell nor free content changed. -/
theorem Store.content_congr {st st' : Store} {a : Nat} (he : st'.epoch = st.epoch)
    (hm : memoryRead st'.memory a = memoryRead st.memory a) : st'.content a = st.content a := by
  unfold Store.content
  rw [he, hm]

theorem Store.word_congr {st st' : Store} {g : Segment} {j : Nat} (he : st'.epoch = st.epoch)
    (hm : ∀ a, wordAddress g.chain j = some a → memoryRead st'.memory a = memoryRead st.memory a) : st'.word g j = st.word g j := by
  unfold Store.word
  cases h : wordAddress g.chain j with
  | none => dsimp only; rw [he]
  | some a => exact Store.content_congr he (hm a h)

/-- A segment with the same chain has the same words, where pattern memory is as it was. -/
theorem Store.word_of_chain {st st' : Store} (hm : st.SameMemory st') {g g' : Segment} (h : g'.chain = g.chain) (j : Nat) :
    st'.word g' j = st.word g j := by
  have h1 : st'.word g' j = st'.word g j := by unfold Store.word; rw [h]
  rw [h1]
  exact Store.word_congr hm.1 fun _ _ => by rw [hm.2]

/-- The words put from offset on stand where they were put (R1). -/
theorem putWords_word {st : Store} (hs : st.wf) (i : Slot) (ws : List Word) (o : Nat)
    (hc : o + ws.length ≤ capacityOf (st.entry i)) (j : Nat) (hj : j < ws.length) :
    (st.putWords (st.entry i) o ws).word (st.entry i) (o + j) = ws.getD j 0 := by
  obtain ⟨hp, -, -, ⟨hm, hr⟩, -⟩ := hs
  obtain ⟨a, ha⟩ := wordAddress_isSome (st.entry i).chain (o + j) (by unfold capacityOf at hc; omega)
  have h := (putWords_read (chain_nodup hp i) ws (fun _ _ => wordAddress_lt hp) st o hm hr).1 j hj a ha
  rw [Store.word_eq_content ha, Store.content, h]
  simp [List.getD, hj]

/-- An address that no word is put at keeps its content (R1). -/
theorem putWords_content {st : Store} (hs : st.wf) (i : Slot) (ws : List Word) (o a : Nat)
    (h : ∀ j, j < ws.length → wordAddress (st.entry i).chain (o + j) ≠ some a) :
    memoryRead (st.putWords (st.entry i) o ws).memory a = memoryRead st.memory a := by
  obtain ⟨hp, -, -, ⟨hm, hr⟩, -⟩ := hs
  exact (putWords_read (chain_nodup hp i) ws (fun _ _ => wordAddress_lt hp) st o hm hr).2 a h

/-- The words of another segment stay where words are put in one (R2). -/
theorem putWords_word_apart {st : Store} (hs : st.wf) {i i' : Slot} (hi : i' ≠ i) (ws : List Word) (o j : Nat) :
    (st.putWords (st.entry i) o ws).word (st.entry i') j = st.word (st.entry i') j :=
  Store.word_congr (Store.putWords_epoch _ ws _ _) fun _ ha =>
    putWords_content hs i ws o _ fun _ _ hx => wordAddress_apart hs.1 hi ha hx rfl

/-! ## PUBLISHED and CONDEMNED segments -/

/-- The entry is PUBLISHED or CONDEMNED: no host may change its words (R18, R20). -/
def Segment.fixed (g : Segment) : Prop := g.state = .published ∨ g.state = .condemned

/-- The entry is still fixed and has the fields it had (R20, R62). -/
def Segment.StaysAs (g g' : Segment) : Prop :=
  g'.fixed ∧ g'.name = g.name ∧ g'.owner = g.owner ∧ g'.visibility = g.visibility ∧ g'.length = g.length ∧ g'.chain = g.chain

/-- Each fixed entry stays, words and all, unless it is freed. -/
def Store.Stays (st st' : Store) : Prop :=
  ∀ i, (st.entry i).fixed → (st'.entry i).state ≠ .free →
    (st.entry i).StaysAs (st'.entry i) ∧ ∀ j, j < (st.entry i).length → st'.word (st'.entry i) j = st.word (st.entry i) j

theorem Segment.StaysAs.refl {g : Segment} (h : g.fixed) : g.StaysAs g := ⟨h, rfl, rfl, rfl, rfl, rfl⟩

theorem Store.Stays.refl (st : Store) : st.Stays st := fun _ h _ => ⟨.refl h, fun _ _ => rfl⟩

theorem Store.Stays.trans {a b c : Store} (h : a.Stays b) (g : b.Stays c) (hf : b.Persists c) : a.Stays c := by
  intro i hi hc
  obtain ⟨⟨h0, h1, h2, h3, h4, h5⟩, h6⟩ := h i hi fun e => hc ((hf i).1 e)
  obtain ⟨⟨g0, g1, g2, g3, g4, g5⟩, g6⟩ := g i h0 hc
  exact ⟨⟨g0, g1.trans h1, g2.trans h2, g3.trans h3, g4.trans h4, g5.trans h5⟩,
    fun j hj => (g6 j (by rw [h4]; exact hj)).trans (h6 j hj)⟩

/-- One entry changes and no word does: a fixed one only as it is freed or condemned. -/
theorem Store.Stays.of_one {st st' : Store} (i : Slot) (hm : st.SameMemory st') (hj : ∀ j, j ≠ i → st'.entry j = st.entry j)
    (hi : (st.entry i).fixed → (st'.entry i).state ≠ .free → (st.entry i).StaysAs (st'.entry i)) : st.Stays st' := by
  intro j hx hf
  by_cases e : j = i
  · subst e
    have h := hi hx hf
    exact ⟨h, fun n _ => Store.word_of_chain hm h.2.2.2.2.2 n⟩
  · rw [hj j e]
    exact ⟨.refl hx, fun n _ => Store.word_of_chain hm rfl n⟩

theorem stays_setEntry (st : Store) (i : Slot) (g : Segment)
    (h : (st.entry i).fixed → g.state ≠ .free → (st.entry i).StaysAs g) : st.Stays (st.setEntry i g) :=
  .of_one i ⟨rfl, rfl⟩ (fun j hj => by rw [Store.setEntry_entry, if_neg (Ne.symm hj)])
    (by rw [Store.setEntry_entry, if_pos rfl]; exact h)

theorem stays_freeEntry (st : Store) (i : Slot) : st.Stays (st.freeEntry i) :=
  .of_one i ⟨rfl, rfl⟩ (fun j hj => by rw [Store.freeEntry_entry, if_neg (Ne.symm hj)])
    (by rw [Store.freeEntry_entry, if_pos rfl]; exact fun _ h => absurd rfl h)

theorem stays_removeEntry (st : Store) (i : Slot) (b : Bool) : st.Stays (st.removeEntry i b) := by
  unfold Store.removeEntry
  split
  · exact stays_freeEntry st i
  · exact stays_setEntry st i _ fun _ _ => ⟨.inr rfl, rfl, rfl, rfl, rfl, rfl⟩

theorem stays_setRefs (st : Store) (i : Slot) (n : Nat) : st.Stays (st.setRefs i n) :=
  stays_setEntry st i _ fun h _ => ⟨h, rfl, rfl, rfl, rfl, rfl⟩

theorem not_fixed_of_opened {g : Segment} (h : g.state = .opened) : ¬ g.fixed := by
  rintro (e | e) <;> rw [h] at e <;> cases e

theorem not_fixed_of_free {g : Segment} (h : g.state = .free) : ¬ g.fixed := by
  rintro (e | e) <;> rw [h] at e <;> cases e

theorem stays_putWords {st : Store} (hs : st.wf) (i : Slot) (o n : Nat) (ws : List Word) (ho : (st.entry i).state = .opened) :
    st.Stays ((st.putWords (st.entry i) o ws).setEntry i { (st.entry i) with length := n }) := by
  intro j hx _
  have e : i ≠ j := by rintro rfl; exact not_fixed_of_opened ho hx
  rw [Store.setEntry_entry, if_neg e, Store.putWords_entry]
  exact ⟨.refl hx, fun m _ => putWords_word_apart hs (Ne.symm e) ws o m⟩

theorem stays_afterRelease (st : Store) (i : Slot) : st.Stays (st.afterRelease i) := by
  unfold Store.afterRelease
  split
  · exact stays_freeEntry st i
  · exact stays_setRefs st i _

theorem persists_afterRelease (st : Store) (i : Slot) : st.Persists (st.afterRelease i) :=
  Store.Settles.persists (.release i (.refl st))

theorem Store.Settles.stays {st st' : Store} (h : st.Settles st') (hs : st.wf) : st.Stays st' := by
  induction h with
  | refl => exact .refl _
  | append i w ho _ hm ih =>
    exact ih.trans (stays_putWords (hm.wf hs) i _ _ [w] ho) (persists_putWords _ i _ _ [w] (Nat.le_succ _))
  | release i _ ih => exact ih.trans (stays_afterRelease _ i) (persists_afterRelease _ i)

/-- What a fold over entries keeps, where each entry's move stays and persists. -/
theorem stays_withdrawEntry (st : Store) (k : HostId) (i : Slot) : st.Stays (st.withdrawEntry k i) := by
  unfold Store.withdrawEntry
  dsimp only
  split
  · exact .refl st
  · split
    · exact stays_removeEntry st i false
    · split
      · exact stays_setEntry st i _ fun h _ => ⟨h, rfl, rfl, rfl, rfl, rfl⟩
      · exact .refl st

theorem persists_withdrawEntry (st : Store) (k : HostId) (i : Slot) : st.Persists (st.withdrawEntry k i) := by
  unfold Store.withdrawEntry
  dsimp only
  split
  · exact .refl st
  · split
    · rename_i h
      exact persists_removeEntry st i false h
    · split
      · exact .of_one i (fun j hj => by rw [Store.setEntry_entry, if_neg (Ne.symm hj)])
          (by rw [Store.setEntry_entry, if_pos rfl]; exact Segment.Persists.refl _)
      · exact .refl st

theorem stays_withdraw (st : Store) (k : HostId) : st.Stays (st.withdraw k) := by
  unfold Store.withdraw
  have h : ∀ (is : List Slot) (st : Store),
      st.Stays (is.foldl (fun t i => t.withdrawEntry k i) st) ∧ st.Persists (is.foldl (fun t i => t.withdrawEntry k i) st) := by
    intro is
    induction is with
    | nil => exact fun st => ⟨.refl st, .refl st⟩
    | cons i is ih =>
      exact fun st => ⟨(stays_withdrawEntry st k i).trans (ih _).1 (ih _).2, (persists_withdrawEntry st k i).trans (ih _).2⟩
  exact (h slots st).1

theorem stays_purge (st : Store) (k : HostId) (b : Bool) : st.Stays (st.purge k b) := by
  unfold Store.purge
  have hn : (st.liveOf k).Nodup := slots_nodup.filter _
  have hl : ∀ i ∈ st.liveOf k, (st.entry i).live = true := fun i hi => by
    have := (List.mem_filter.1 hi).2
    simp only [Bool.and_eq_true] at this
    exact this.1
  have h : ∀ (is : List Slot) (st : Store), is.Nodup → (∀ i ∈ is, (st.entry i).live = true) →
      st.Stays (is.foldl (fun t i => t.removeEntry i b) st) ∧ st.Persists (is.foldl (fun t i => t.removeEntry i b) st) := by
    intro is
    induction is with
    | nil => exact fun st _ _ => ⟨.refl st, .refl st⟩
    | cons i is ih =>
      intro st hn hl
      rw [List.nodup_cons] at hn
      obtain ⟨h1, h2⟩ := ih (st.removeEntry i b) hn.2 fun j hj => by
        have e : i ≠ j := by rintro rfl; exact hn.1 hj
        rw [Store.removeEntry_entry_ne _ _ _ e]
        exact hl j (List.mem_cons_of_mem _ hj)
      exact ⟨(stays_removeEntry st i b).trans h1 h2, (persists_removeEntry st i b (hl i (List.mem_cons_self ..))).trans h2⟩
  exact (h _ st hn hl).1

/-- Settles O6, by what a command may do to the table and to pattern memory. -/
theorem publishedWordsStay : Obligations.PublishedWordsStay := by
  intro c s t i hs he hc hx hf
  have h : s.store.Stays t.store := storeMoves Store.Stays s (.refl _)
    (fun i k name v n hf _ _ _ _ => .of_one i ⟨rfl, rfl⟩ (fun j hj => by rw [Store.defineIn_entry, if_neg (Ne.symm hj)])
      fun h => absurd h (not_fixed_of_free hf))
    (fun i n ho _ _ _ => .of_one i ⟨rfl, rfl⟩ (fun j hj => by rw [Store.allocate_entry, if_neg (Ne.symm hj)])
      fun h => absurd h (not_fixed_of_opened ho))
    (fun i ho _ _ => .of_one i ⟨rfl, rfl⟩ (fun j hj => by rw [Store.publishEntry_entry, if_neg (Ne.symm hj)])
      fun h => absurd h (not_fixed_of_opened ho))
    (fun i _ => stays_removeEntry _ i true) (fun h b => stays_purge _ h b) (fun h => stays_withdraw _ h)
    c t he hc
    (fun i o ws _ ho _ _ _ => stays_putWords hs i o _ ws ho)
    (fun _ _ h => h.stays hs)
    (fun st i _ _ h1 hl h2 => by
      have hw : (st.setRefs i ((st.entry i).refs + 1)).wf :=
        Store.wf_setRefs (h1.wf hs) i _ (live_ne_free hl) fun e => absurd e (live_ne_condemned hl)
      exact ((h1.stays hs).trans (stays_setRefs st i _) (persists_setRefs st i _)).trans (h2.stays hw) h2.persists)
    (fun l r id w _ _ _ => (takeClaim_settles s l (.append r id w)).stays hs)
    (fun l r id x _ _ _ => (takeClaim_settles s l (.release r id x)).stays hs)
  obtain ⟨⟨-, h1, h2, h3, h4, h5⟩, h6⟩ := h i hx hf
  exact ⟨h1, h2, h3, h4, h5, h6⟩

end Sys2Proof.Machine
end

section
/-! The requests of the Segment Manager: how each is decided (R10, R13 to R22, R31), and the claims it takes (R25 to R27). -/

namespace Sys2Proof.Machine

variable {s t u : State} {l : LaneId}

/-! ## How a request's decision is followed to its answer

`x` is what the owner of a request decides: a state and a reply. The statements speak of `x` answered. -/

section
variable {k : HostId} {req : Request} {live : Bool} {x y : State × Reply}

theorem refused_eq {st : Status} (hx : (s, refusal st) = x) : s.refused (x.1.answer k req live x.2) k req live st := by
  subst hx; exact refused_of k req live st

theorem refused_if {p : Prop} [Decidable p] {st : Status} (hx : (if p then (s, refusal st) else y) = x) (h : p) :
    s.refused (x.1.answer k req live x.2) k req live st := by
  rw [if_pos h] at hx; exact refused_eq hx

theorem else_of {α : Type} {p : Prop} [Decidable p] {a b c : α} (hx : (if p then a else b) = c) (h : ¬p) : b = c := by
  rw [if_neg h] at hx; exact hx

theorem then_of {α : Type} {p : Prop} [Decidable p] {a b c : α} (hx : (if p then a else b) = c) (h : p) : a = c := by
  rw [if_pos h] at hx; exact hx

/-- An accepted request: what the owner leaves, with the links as the answer leaves them. -/
theorem accepted_eq {u v : State} {r : Reply} (hx : (u, r) = x) (hl : u.links = s.links) (hv : u = v) :
    x.1.answer k req live x.2 = { v with links := (x.1.answer k req live x.2).links } ∧
      s.answered (x.1.answer k req live x.2) k req live r := by
  subst hx; exact answered_from hl k req live r v hv

end

/-! ## The handle check (R10) -/

theorem handleSlot_eq_none_iff (b : Byte) : handleSlot b = none ↔ b.toNat = 0 ∨ 64 < b.toNat := by
  unfold handleSlot
  split <;> simp <;> omega

theorem handleCheck_of_none {st : Store} {r : SegmentRef} (h : handleSlot r.handle = none) : st.handleCheck r = .error .badHandle := by
  simp only [Store.handleCheck, h]

theorem handleCheck_of_slot {st : Store} {r : SegmentRef} {i : Slot} (h : handleSlot r.handle = some i) :
    st.handleCheck r =
      if r.generation = 0 then .error .badHandle
      else if (st.entry i).state = .free then (if (st.entry i).generation = 0 then .error .badHandle else .error .staleHandle)
      else if (st.entry i).generation ≠ r.generation then .error .staleHandle
      else if (st.entry i).state = .condemned then .error .gone
      else .ok i := by
  simp only [Store.handleCheck, h]

theorem queryCheck_of_slot {st : Store} {r : SegmentRef} {i : Slot} (h : handleSlot r.handle = some i) :
    st.queryCheck r = if st.handleCheck r = .error .gone then .ok i else st.handleCheck r := by
  unfold Store.queryCheck
  split
  · rename_i hc
    rw [if_pos hc, h]
  · rename_i hc
    rw [if_neg hc]

/-- Settles O16, by the rows of the table. -/
theorem handleCheckByTheTable : Obligations.HandleCheckByTheTable := by
  refine fun st r => ⟨fun h => ?_, fun i hi hg => ?_⟩
  · by_cases hn : handleSlot r.handle = none
    · exact handleCheck_of_none hn
    · obtain ⟨i, hi⟩ := Option.ne_none_iff_exists'.1 hn
      have hz : r.generation = 0 := by
        rw [handleSlot_eq_none_iff] at hn
        tauto
      rw [handleCheck_of_slot hi, if_pos hz]
  · have hs : handleSlot r.handle = some i := (handleSlot_iff _ i).2 hi
    have hc := handleCheck_of_slot (st := st) hs
    rw [if_neg hg] at hc
    refine ⟨hc, ?_⟩
    rw [queryCheck_of_slot hs]
    refine if_congr ?_ rfl rfl
    rw [hc]
    by_cases h1 : (st.entry i).state = .free
    · rw [if_pos h1]
      split <;> simp [h1]
    · rw [if_neg h1]
      by_cases h2 : (st.entry i).generation = r.generation
      · rw [if_neg (not_not.2 h2)]
        by_cases h3 : (st.entry i).state = .condemned
        · rw [if_pos h3]; simp [h2, h3]
        · rw [if_neg h3]; simp [h3]
      · rw [if_pos h2]; simp [h2]

/-! ## DEFINE and EXTEND -/

theorem nameTaken_iff (st : Store) (name : List Byte) :
    st.nameTaken name = true ↔ ∃ i, (st.entry i).live = true ∧ (st.entry i).name = some name := by
  simp [Store.nameTaken, mem_slots]

theorem lowestFree_eq_none_iff (st : Store) : st.lowestFree = none ↔ ∀ i, (st.entry i).state ≠ .free := by
  simp [Store.lowestFree, mem_slots]

/-- The lowest FREE entry has no FREE entry before it (R14). -/
theorem lowestFree_first {st : Store} {i : Slot} (h : st.lowestFree = some i) (j : Slot) (hj : j < i) :
    (st.entry j).state ≠ .free := by
  unfold Store.lowestFree slots at h
  rw [List.find?_eq_some_iff_getElem] at h
  obtain ⟨-, n, hn, he, hlt⟩ := h
  have e : n = i.val := by rw [← he]; simp
  have := hlt j.val (by rw [e]; exact hj)
  simpa using this

/-- The table after a DEFINE, the two changes of the entry as one. -/
theorem defineIn_eq (st : Store) (i : Slot) (k : HostId) (name : List Byte) (v : Visibility) (n : Nat) :
    st.defineIn i k name v n = { st with
      table := st.table.upd i
        { state := .opened, generation := nextGeneration (st.entry i).generation, name := some name, owner := k, visibility := v,
          length := 0, chain := st.pool.take n, refs := 0, notifyOnFree := false },
      pool := st.pool.drop n } := by
  unfold Store.defineIn Store.allocate
  simp [Store.entry, Store.setEntry]

/-- Settles O17, check by check. -/
theorem defineAndExtendAllocate : Obligations.DefineAndExtendAllocate := by
  refine ⟨fun s k req live hw => ?_, fun s k req live hw => ?_⟩
  · refine ⟨_, congrArg Host.Outcome.next (decide_of_waits hw (defineRequest s k)), ?_⟩
    generalize hx : defineRequest s k req.params = x
    simp only [← nameTaken_iff, ← lowestFree_eq_none_iff]
    unfold defineRequest at hx
    dsimp only at hx
    split
    · rename_i name v hn hv
      rw [hn, hv] at hx
      dsimp only at hx
      split
      · rename_i h
        exact refused_if hx h
      rename_i h1
      replace hx := else_of hx h1
      split
      · rename_i h
        exact refused_if hx h
      rename_i h2
      replace hx := else_of hx h2
      split
      · rename_i h
        rw [h] at hx
        exact refused_eq hx
      rename_i h3
      obtain ⟨i, hi⟩ := Option.ne_none_iff_exists'.1 h3
      rw [hi] at hx
      dsimp only at hx
      split
      · rename_i h
        exact refused_if hx h
      rename_i h4
      replace hx := else_of hx h4
      split
      · rename_i h
        exact refused_if hx h
      rename_i h5
      replace hx := else_of hx h5
      obtain ⟨h6, h7⟩ := accepted_eq (s := s) (k := k) (req := req) (live := live) hx rfl
        (congrArg s.setStore (defineIn_eq s.store i k name v _))
      exact ⟨i, Store.lowestFree_spec hi, lowestFree_first hi, h6, h7⟩
    · rename_i hn
      split at hx
      · rename_i a b
        exact absurd b (hn _ _ a)
      · exact refused_eq hx
  · refine ⟨_, congrArg Host.Outcome.next (decide_of_waits hw (extendRequest s k)), ?_⟩
    generalize hx : extendRequest s k req.params = x
    unfold extendRequest at hx
    dsimp only at hx ⊢
    split
    · rename_i h
      exact refused_if hx h
    rename_i h1
    replace hx := else_of hx h1
    split
    · rename_i h
      rw [h] at hx
      exact refused_eq hx
    rename_i i h
    rw [h] at hx
    dsimp only at hx
    split
    · rename_i h
      exact refused_if hx h
    rename_i h2
    replace hx := else_of hx h2
    split
    · rename_i h
      exact refused_if hx h
    rename_i h3
    replace hx := else_of hx h3
    split
    · rename_i h
      exact refused_if hx h
    rename_i h4
    replace hx := else_of hx h4
    split
    · rename_i h
      exact refused_if hx h
    rename_i h5
    replace hx := else_of hx h5
    split
    · rename_i h
      exact refused_if hx h
    rename_i h6
    replace hx := else_of hx h6
    exact accepted_eq hx rfl rfl

end Sys2Proof.Machine
end

section
/-! WRITE, PUBLISH, DELETE, the inspections and PURGE (R16 to R22, R31), and the claims the Segment Manager takes (R25 to R27). -/

namespace Sys2Proof.Machine

variable {s t u : State} {l : LaneId}

/-! ## PUBLISH and DELETE -/

/-- Settles O19, check by check. -/
theorem publishAndDelete : Obligations.PublishAndDelete := by
  refine ⟨fun s k req live hw => ?_, fun s k req live hw => ?_⟩
  · refine ⟨_, congrArg Host.Outcome.next (decide_of_waits hw (publishRequest s k)), ?_⟩
    generalize hx : publishRequest s k req.params = x
    unfold publishRequest at hx
    dsimp only at hx ⊢
    split
    · rename_i h
      rw [h] at hx
      exact refused_eq hx
    rename_i i h
    rw [h] at hx
    dsimp only at hx
    split
    · exact refused_if hx ‹_›
    replace hx := else_of hx ‹_›
    split
    · exact refused_if hx ‹_›
    replace hx := else_of hx ‹_›
    split
    · exact refused_if hx ‹_›
    replace hx := else_of hx ‹_›
    split
    · exact refused_if hx (by omega)
    replace hx := else_of hx (by omega)
    exact accepted_eq hx rfl rfl
  · refine ⟨_, congrArg Host.Outcome.next (decide_of_waits hw (deleteRequest s k)), ?_⟩
    generalize hx : deleteRequest s k req.params = x
    unfold deleteRequest at hx
    dsimp only at hx ⊢
    split
    · rename_i h
      rw [h] at hx
      exact refused_eq hx
    rename_i i h
    rw [h] at hx
    dsimp only at hx
    split
    · exact refused_if hx ‹_›
    replace hx := else_of hx ‹_›
    unfold Store.removeEntry at hx
    split
    · rename_i h0
      rw [if_pos h0, if_pos h0] at hx
      exact accepted_eq hx rfl rfl
    · rename_i h0
      rw [if_neg h0, if_neg h0] at hx
      exact accepted_eq hx rfl rfl

/-! ## READ, CATALOG and QUERY -/

theorem getWords_bytes (st : Store) (g : Segment) (o n : Nat) :
    (st.getWords g o n).flatMap wordBytes = (List.range n).flatMap fun j => le16 (st.word g (o + j)).toNat := by
  simp only [Store.getWords, List.flatMap_map, wordBytes]

/-- What CATALOG shows of an entry, by its owner or by its visibility (R21). -/
theorem catalogShows_eq (k : HostId) (g : Segment) :
    catalogShows k g = ((g.owner == k && (g.state == .opened || g.state == .published)) ||
      (g.visibility == .shared && g.state == .published)) := by
  unfold catalogShows Segment.live
  by_cases h : g.owner = k
  · rw [if_pos h]
    cases g.state <;> simp [h]
  · rw [if_neg h]
    simp [h]

theorem nameBytes_eq (name : Option (List Byte)) :
    nameBytes name = (List.range 8).map fun j => (name.getD []).getD j 0 := by
  unfold nameBytes
  refine List.ext_getElem (by simp) fun n h1 h2 => ?_
  simp only [List.length_map, List.length_range] at h2
  simp only [List.getElem_map, List.getElem_range, List.getD_eq_getElem?_getD]
  rw [List.getElem_append]
  split
  · rename_i h
    simp only [List.length_take] at h
    rw [List.getElem_take, List.getElem?_eq_getElem (by omega)]
    rfl
  · rename_i h
    simp only [List.length_take] at h
    rw [List.getElem_replicate, List.getElem?_eq_none (by omega)]
    rfl

/-- Settles O20: each inspection check by check, then the records field by field. -/
theorem segmentInspections : Obligations.SegmentInspections := by
  refine ⟨fun s k req live hw => ?_, fun s k req live hw => ?_, fun s k req live hw => ?_, fun i g => ?_⟩
  · refine ⟨_, congrArg Host.Outcome.next (decide_of_waits hw (readRequest s k)), ?_⟩
    generalize hx : readRequest s k req.params = x
    unfold readRequest at hx
    dsimp only at hx ⊢
    split
    · exact refused_if hx ‹_›
    replace hx := else_of hx ‹_›
    split
    · rename_i h
      rw [h] at hx
      exact refused_eq hx
    rename_i i h
    rw [h] at hx
    dsimp only at hx
    split
    · exact refused_if hx ‹_›
    replace hx := else_of hx ‹_›
    split
    · exact refused_if hx ‹_›
    replace hx := else_of hx ‹_›
    rw [getWords_bytes] at hx
    exact accepted_eq hx rfl rfl
  · refine ⟨_, congrArg Host.Outcome.next (decide_of_waits hw (catalogRequest s k)), ?_⟩
    generalize hx : catalogRequest s k req.params = x
    unfold catalogRequest at hx
    dsimp only at hx ⊢
    split
    · exact refused_if hx ‹_›
    replace hx := else_of hx ‹_›
    simp only [← catalogShows_eq]
    rw [List.length_take] at hx
    exact accepted_eq hx rfl rfl
  · refine ⟨_, congrArg Host.Outcome.next (decide_of_waits hw (queryRequest s k)), ?_⟩
    generalize hx : queryRequest s k req.params = x
    unfold queryRequest at hx
    dsimp only at hx ⊢
    split
    · rename_i h
      rw [h] at hx
      exact refused_eq hx
    rename_i i h
    rw [h] at hx
    dsimp only at hx
    split
    · exact refused_if hx ‹_›
    exact accepted_eq (else_of hx ‹_›) rfl rfl
  · dsimp only
    rw [← nameBytes_eq]
    refine ⟨?_, ?_⟩
    · unfold segmentRecord
      cases g.visibility <;> cases g.state <;> rfl
    · unfold queryRecord
      cases g.visibility <;> cases g.state <;> rfl

/-! ## WRITE -/

/-- The address of a word below the capacity, spelled (R1). -/
theorem wordAddress_of_lt {chain : List Nat} {j : Nat} (h : j < 32 * chain.length) :
    wordAddress chain j = some (chain.getD (j / 32) 0 * 32 + j % 32) := by
  have h1 : j / 32 < chain.length := by omega
  unfold wordAddress Config.blockWords
  rw [List.getElem?_eq_getElem h1, List.getD_eq_getElem?_getD, List.getElem?_eq_getElem h1]
  rfl

/-- Settles O18, check by check; what is stored is that of `putWords`. -/
theorem writeStoresItsWords : Obligations.WriteStoresItsWords := by
  intro s k req live hs hw
  refine ⟨_, congrArg Host.Outcome.next (decide_of_waits hw (writeRequest s k)), ?_⟩
  generalize hx : writeRequest s k req.params = x
  unfold writeRequest at hx
  dsimp only at hx ⊢
  split
  · rename_i h
    rw [h] at hx
    exact refused_eq hx
  rename_i i h
  rw [h] at hx
  dsimp only at hx
  generalize wordsOf (req.params.drop 4) = ws at hx ⊢
  generalize u16At req.params 2 = o at hx ⊢
  split
  · exact refused_if hx ‹_›
  replace hx := else_of hx ‹_›
  split
  · exact refused_if hx ‹_›
  replace hx := else_of hx ‹_›
  split
  · exact refused_if hx (by omega)
  replace hx := else_of hx (by omega)
  split
  · exact refused_if hx ‹_›
  rename_i hb
  replace hx := else_of hx hb
  have hcap : o + ws.length ≤ 32 * (s.store.entry i).chain.length := by omega
  obtain ⟨h1, h2⟩ := accepted_eq (s := s) (k := k) (req := req) (live := live) hx rfl rfl
  generalize x.1.answer k req live x.2 = t at h1 h2 ⊢
  generalize hst : (s.store.putWords (s.store.entry i) o ws).setEntry i
    { (s.store.entry i) with length := max (s.store.entry i).length (o + ws.length) } = st at h1
  have ht : t.store = st := congrArg State.store h1
  have hentry : ∀ j, (st.entry j).chain = (s.store.entry j).chain := fun j => by
    rw [← hst, Store.setEntry_entry]
    split
    · subst_vars; rfl
    · rw [Store.putWords_entry]
  have hword : ∀ j n, st.word (st.entry j) n = (s.store.putWords (s.store.entry i) o ws).word (s.store.entry j) n := fun j n =>
    Store.word_of_chain (by rw [← hst]; exact ⟨rfl, rfl⟩) (hentry j) n
  have haddr : ∀ j, j < ws.length → wordAddress (s.store.entry i).chain (o + j) =
      some ((s.store.entry i).chain.getD ((o + j) / 32) 0 * 32 + (o + j) % 32) := fun j hj => wordAddress_of_lt (by omega)
  refine ⟨?_, h2, fun j hj => ?_, fun a ha => ?_, fun i' j hj hi => ?_⟩
  · rw [ht, ← hst]
    rw [← hst] at h1
    refine h1.trans ?_
    unfold State.setStore Store.setEntry
    rw [Store.putWords_table, Store.putWords_pool, Store.putWords_epoch]
  · rw [ht, hword, putWords_word hs i ws o hcap j hj]
  · rw [ht]
    refine Store.content_congr (by rw [← hst]; exact Store.putWords_epoch _ ws _ _) ?_
    rw [← hst]
    refine putWords_content hs i ws o a fun j hj e => ha j hj ?_
    rw [haddr j hj] at e
    exact (Option.some.inj e).symm
  · rw [ht, hword]
    by_cases e : i' = i
    · subst e
      refine Store.word_congr (Store.putWords_epoch _ ws _ _) fun a ha => putWords_content hs i' ws o a fun n hn hx => ?_
      have := wordAddress_inj (chain_nodup hs.1 i') ha hx
      have := hi rfl
      omega
    · exact putWords_word_apart hs e ws o j

/-! ## PURGE -/

/-- The chains of the entries that a removal of each frees join the tail of the pool, in order (R4, R31). -/
theorem foldl_removeEntry (b : Bool) (is : List Slot) : ∀ st : Store, is.Nodup →
    (is.foldl (fun t i => t.removeEntry i b) st).pool =
      st.pool ++ (is.filter (fun i => (st.entry i).refs == 0)).flatMap (fun i => (st.entry i).chain) ∧
    ∀ j, (is.foldl (fun t i => t.removeEntry i b) st).entry j =
      if j ∈ is then (if (st.entry j).refs = 0 then (st.entry j).freed
        else { (st.entry j) with state := .condemned, notifyOnFree := b }) else st.entry j := by
  induction is with
  | nil => exact fun st _ => ⟨by simp, fun j => by simp⟩
  | cons i is ih =>
    intro st hn
    rw [List.nodup_cons] at hn
    obtain ⟨h1, h2⟩ := ih (st.removeEntry i b) hn.2
    have hne : ∀ j ∈ is, (st.removeEntry i b).entry j = st.entry j := fun j hj =>
      Store.removeEntry_entry_ne _ _ _ (by rintro rfl; exact hn.1 hj)
    have hpool : (st.removeEntry i b).pool = st.pool ++ if (st.entry i).refs = 0 then (st.entry i).chain else [] := by
      unfold Store.removeEntry
      split
      · rfl
      · rw [List.append_nil]; rfl
    refine ⟨?_, fun j => ?_⟩
    · rw [List.foldl_cons, h1, hpool, List.filter_congr (q := fun i => (st.entry i).refs == 0) (fun j hj => by rw [hne j hj]),
        List.flatMap_congr (g := fun i => (st.entry i).chain) fun j hj => by rw [hne j (List.mem_of_mem_filter hj)]]
      rw [List.filter_cons]
      split <;> rename_i hz
      · rw [if_pos (by simpa using hz), List.flatMap_cons, List.append_assoc]
      · rw [if_neg (by simpa using hz), List.append_nil]
    · rw [List.foldl_cons, h2]
      by_cases e : i = j
      · subst e
        rw [if_neg hn.1, if_pos (List.mem_cons_self ..)]
        unfold Store.removeEntry
        split
        · rw [Store.freeEntry_entry, if_pos rfl]
        · rw [Store.condemnEntry_entry, if_pos rfl]
      · rw [Store.removeEntry_entry_ne _ _ _ e]
        simp only [List.mem_cons, Ne.symm e, false_or]

/-- Settles O54: the removals one after another, read off the table they start from. -/
theorem purgeDeletesEverySegment : Obligations.PurgeDeletesEverySegment := by
  intro s k req live hw
  refine ⟨_, congrArg Host.Outcome.next (decide_of_waits hw (purgeRequest s k)), ?_⟩
  generalize hx : purgeRequest s k req.params = x
  unfold purgeRequest at hx
  dsimp only at hx ⊢
  split
  · rename_i h
    exact refused_if hx (by simpa [State.permitted] using h)
  rename_i h
  replace hx := else_of hx (by simpa [State.permitted] using h)
  split
  · rename_i h
    rw [h] at hx
    exact refused_eq hx
  rename_i h hh
  rw [hh] at hx
  dsimp only at hx
  have hfrees : slots.filter (fun i => ((s.store.entry i).live && (s.store.entry i).owner == h) && (s.store.entry i).refs == 0) =
      (s.store.liveOf h).filter (fun i => (s.store.entry i).refs == 0) := by
    unfold Store.liveOf
    rw [List.filter_filter]
    exact List.filter_congr fun i _ => Bool.and_comm _ _
  have hcond : slots.filter (fun i => ((s.store.entry i).live && (s.store.entry i).owner == h) && (s.store.entry i).refs != 0) =
      (s.store.liveOf h).filter (fun i => (s.store.entry i).refs != 0) := by
    unfold Store.liveOf
    rw [List.filter_filter]
    exact List.filter_congr fun i _ => Bool.and_comm _ _
  have hlen : (s.store.liveOf h).length - ((s.store.liveOf h).filter (fun i => (s.store.entry i).refs == 0)).length =
      ((s.store.liveOf h).filter (fun i => (s.store.entry i).refs != 0)).length := by
    have := List.length_eq_length_filter_add (l := s.store.liveOf h) (fun i => (s.store.entry i).refs == 0)
    simp only [bne]
    omega
  have hn : (s.store.liveOf h).Nodup := slots_nodup.filter _
  obtain ⟨hpool, hentry⟩ := foldl_removeEntry true (s.store.liveOf h) s.store hn
  obtain ⟨hep, hmem⟩ := memory_purge s.store h true
  rw [hfrees, hcond]
  rw [hlen] at hx
  obtain ⟨h1, h2⟩ := accepted_eq (s := s) (k := k) (req := req) (live := live) hx rfl rfl
  generalize x.1.answer k req live x.2 = t at h1 h2 ⊢
  have ht : t.store = s.store.purge h true := congrArg State.store h1
  refine ⟨?_, fun i => ?_, h2⟩
  · have hs : s.store.purge h true = { s.store with
        table := t.store.table,
        pool := s.store.pool ++ ((s.store.liveOf h).filter (fun i => (s.store.entry i).refs == 0)).flatMap
          (fun i => (s.store.entry i).chain) } := by
      rw [ht]
      dsimp only
      rw [← hmem, ← hep, ← hpool]
      rfl
    rw [hs] at h1
    exact h1
  · rw [ht]
    refine (hentry i).trans ?_
    by_cases hi : i ∈ s.store.liveOf h
    · rw [if_pos hi]
      by_cases hr : (s.store.entry i).refs = 0
      · rw [if_pos hr, if_pos (List.mem_filter.2 ⟨hi, by simpa using hr⟩)]
      · rw [if_neg hr, if_neg fun hm => hr (by simpa using (List.mem_filter.1 hm).2),
          if_pos (List.mem_filter.2 ⟨hi, by simpa using hr⟩)]
    · rw [if_neg hi, if_neg fun hm => hi (List.mem_of_mem_filter hm), if_neg fun hm => hi (List.mem_of_mem_filter hm)]

/-! ## The claims the Segment Manager takes -/

theorem appendEvent_of_append {r : SegmentRef} {id : Nat} {w : Word} {rest : List LaneClaim}
    (hc : s.claimsOf l = .append r id w :: rest) : s.appendEvent l = (s.setClaims l rest).takeAppend l r id w := by
  simp only [State.appendEvent, hc]

theorem releaseEvent_of_release {r : SegmentRef} {n : Nat} {x : Option Nat} {rest : List LaneClaim}
    (hc : s.claimsOf l = .release r n x :: rest) : s.releaseEvent l = (s.setClaims l rest).takeRelease l r n x := by
  simp only [State.releaseEvent, hc]

/-- What an append whose handle names a slot does (R27). -/
theorem takeAppend_of_slot {r : SegmentRef} {i : Slot} (hi : handleSlot r.handle = some i) (s : State) (id : Nat) (w : Word) :
    s.takeAppend l r id w = { s with
      store := if appendResult (s.store.entry i) = .stored then
          (s.store.putWord (s.store.entry i) (s.store.entry i).length w).setEntry i
            { (s.store.entry i) with length := (s.store.entry i).length + 1 }
        else s.store,
      answers := s.answers.upd l (s.answersOf l ++ [⟨id, appendResult (s.store.entry i)⟩]) } := by
  unfold State.takeAppend
  rw [hi]
  dsimp only
  split <;> rfl

/-- Settles O21, by the state of the segment and its room. -/
theorem appendAnsweredByState : Obligations.AppendAnsweredByState := by
  intro s l r id w rest i hm hc hr hst
  have hi : handleSlot r.handle = some i := (handleSlot_iff _ i).2 hr
  refine ⟨_, congrArg Host.Outcome.next ((appendEvent_of_append hc).trans (takeAppend_of_slot hi _ id w)), ?_⟩
  by_cases hg : (s.store.entry i).state = .condemned
  · have ha : appendResult (s.store.entry i) = .gone := by simp [appendResult, hg]
    rw [if_pos hg]
    simp only [State.setClaims_store, ha]
    rfl
  have ho : (s.store.entry i).state = .opened := hst.resolve_right hg
  rw [if_neg hg]
  by_cases hl : (s.store.entry i).length < 32 * (s.store.entry i).chain.length
  · have ha : appendResult (s.store.entry i) = .stored := by
      unfold appendResult
      rw [if_pos ho, if_pos (by exact hl)]
    rw [if_pos hl]
    simp only [State.setClaims_store, ha, if_true]
    have haddr := wordAddress_of_lt hl
    have hp : s.store.putWord (s.store.entry i) (s.store.entry i).length w = { s.store with
        memory := memoryWrite s.store.memory ((s.store.entry i).chain.getD ((s.store.entry i).length / 32) 0 * 32 +
          (s.store.entry i).length % 32) w } := by
      unfold Store.putWord
      rw [haddr]
    rw [hp]
    refine ⟨rfl, ?_, fun a ha => ?_⟩
    · rw [Store.word_eq_content haddr]
      unfold Store.content Store.setEntry
      dsimp only
      rw [memoryRead_memoryWrite_self]
      rfl
    · refine Store.content_congr rfl ?_
      exact memoryRead_memoryWrite_ne _ _ _ _ (Ne.symm ha) hm.1
  · have ha : appendResult (s.store.entry i) = .full := by
      unfold appendResult
      rw [if_pos ho, if_neg (by exact hl)]
    rw [if_neg hl]
    simp only [State.setClaims_store, ha]
    rfl

/-- The last reference release of a CONDEMNED segment frees it (R26). -/
theorem takeRelease_last {r : SegmentRef} {i : Slot} (hi : handleSlot r.handle = some i)
    (hg : (s.store.entry i).state = .condemned ∧ (s.store.entry i).refs ≤ 1) (n : Nat) (x : Option Nat) :
    s.takeRelease l r n x = { s with
      store := s.store.freeEntry i,
      posts := s.posts ++ if (s.store.entry i).notifyOnFree then [freedPost s l (s.store.entry i) r n x] else [] } := by
  rw [takeRelease_eq, hi]
  simp only [Store.afterRelease, hg, true_and, and_self, if_true]

/-- Any other reference release lowers refs (R25). -/
theorem takeRelease_lower {r : SegmentRef} {i : Slot} (hi : handleSlot r.handle = some i)
    (hg : ¬((s.store.entry i).state = .condemned ∧ (s.store.entry i).refs ≤ 1)) (n : Nat) (x : Option Nat) :
    s.takeRelease l r n x = { s with store := s.store.setRefs i ((s.store.entry i).refs - 1) } := by
  unfold State.takeRelease
  rw [hi]
  dsimp only
  rw [if_neg hg]
  rfl

/-- Settles O22, by whether the release is the last one on a CONDEMNED segment. -/
theorem referenceReleaseLowersRefs : Obligations.ReferenceReleaseLowersRefs := by
  intro s l r n x rest i hc hr _ h1
  have hi : handleSlot r.handle = some i := (handleSlot_iff _ i).2 hr
  refine congrArg Host.Outcome.next ((releaseEvent_of_release hc).trans ?_)
  by_cases hg : (s.store.entry i).state = .condemned ∧ (s.store.entry i).refs = 1
  · rw [if_pos hg]
    exact takeRelease_last (s := s.setClaims l rest) hi ⟨hg.1, le_of_eq hg.2⟩ n x
  · rw [if_neg hg]
    exact takeRelease_lower (s := s.setClaims l rest) hi (fun h => hg ⟨h.1, le_antisymm h.2 h1⟩) n x

end Sys2Proof.Machine
end

section
/-! The CRC (R171), the timing encoding (R84, R85), the Event Unit (R149 to R153) and the requests that make a withdrawal (R187, R188). -/

namespace Sys2Proof.Machine

variable {s t u : State} {l : LaneId}

/-! ## The CRC -/

theorem crc8_changed (a b : List Byte) {x y : Byte} (h : x ≠ y) : crc8 (a ++ x :: b) ≠ crc8 (a ++ y :: b) := by
  intro e
  unfold crc8 at e
  rw [List.foldl_append, List.foldl_append, List.foldl_cons, List.foldl_cons] at e
  exact h (crcByte_inj_byte _ _ _ (crcFold_inj b _ _ e))

theorem byteAt_append_left {a b : List Byte} {i : Nat} (h : i < a.length) : byteAt (a ++ b) i = a[i] := by
  simp [byteAt, List.getElem?_append_left h, h]

theorem byteAt_concat (a : List Byte) (c : Byte) : byteAt (a ++ [c]) a.length = c := by
  simp [byteAt]

/-- Settles O15: the byte is one of the body, whose CRC changes, or the CRC byte itself. -/
theorem crcDetectsAChangedByte : Obligations.CrcDetectsAChangedByte := by
  refine ⟨fun a b _ _ h => crc8_changed a b h, fun body i x hi => ?_⟩
  dsimp only
  intro hx
  rcases Nat.lt_succ_iff_lt_or_eq.1 hi with h | rfl
  · rw [List.set_append_left _ _ h, List.dropLast_concat, List.length_append, List.length_singleton, Nat.add_sub_cancel,
      byteAt_concat]
    rw [byteAt_append_left h] at hx
    have h1 : body.set i x = body.take i ++ x :: body.drop (i + 1) := List.set_eq_take_append_cons_drop.trans (if_pos h)
    have h2 : body = body.take i ++ body[i] :: body.drop (i + 1) := by simp
    rw [h1]
    conv_rhs => rw [h2]
    exact crc8_changed _ _ (Ne.symm hx)
  · rw [List.set_append_right _ _ (le_refl _), Nat.sub_self, List.set_cons_zero, List.dropLast_concat, List.length_append,
      List.length_singleton, Nat.add_sub_cancel, byteAt_concat]
    rw [byteAt_concat] at hx
    exact hx

/-! ## The timing encoding -/

theorem unitNs_pos (u : TimeUnit) : 0 < unitNs u := by cases u <;> decide

/-- A mantissa rounded up covers the time, by less than a unit. -/
theorem ceilDiv_bounds (p : Nat) {n : Nat} (h : 0 < n) : p ≤ ceilDiv p n * n ∧ ceilDiv p n * n < p + n := by
  unfold ceilDiv
  have h1 := Nat.div_add_mod (p + n - 1) n
  have h2 := Nat.mod_lt (p + n - 1) h
  rw [Nat.mul_comm] at h1
  omega

/-- The chosen unit holds the period, no smaller one does, and the mantissa is not small (R84 step 2). -/
theorem chooseUnit_spec {p : Nat} (h1 : 400 ≤ p) (h2 : p ≤ 25500000) :
    ceilDiv p (unitNs (chooseUnit p)) ≤ 255 ∧ (∀ v, unitNs v < unitNs (chooseUnit p) → 255 < ceilDiv p (unitNs v)) ∧
      (if chooseUnit p = .ns100 then 4 else 26) ≤ ceilDiv p (unitNs (chooseUnit p)) := by
  obtain ⟨a1, a2⟩ := ceilDiv_bounds p (unitNs_pos .ns100)
  obtain ⟨b1, b2⟩ := ceilDiv_bounds p (unitNs_pos .us1)
  obtain ⟨c1, c2⟩ := ceilDiv_bounds p (unitNs_pos .us10)
  obtain ⟨d1, d2⟩ := ceilDiv_bounds p (unitNs_pos .us100)
  simp only [unitNs] at a1 a2 b1 b2 c1 c2 d1 d2
  by_cases ha : ceilDiv p (unitNs .ns100) ≤ 255
  · have e : chooseUnit p = .ns100 := if_pos ha
    rw [e]
    refine ⟨ha, fun v hv => ?_, ?_⟩
    · cases v <;> simp [unitNs] at hv
    · simp only [unitNs, if_true]; omega
  by_cases hb : ceilDiv p (unitNs .us1) ≤ 255
  · have e : chooseUnit p = .us1 := (if_neg ha).trans (if_pos hb)
    rw [e]
    refine ⟨hb, fun v hv => ?_, ?_⟩
    · cases v <;> simp [unitNs] at hv ha ⊢; omega
    · simp [unitNs] at ha ⊢; omega
  by_cases hc : ceilDiv p (unitNs .us10) ≤ 255
  · have e : chooseUnit p = .us10 := (if_neg ha).trans ((if_neg hb).trans (if_pos hc))
    rw [e]
    refine ⟨hc, fun v hv => ?_, ?_⟩
    · cases v <;> simp [unitNs] at hv ha hb ⊢ <;> omega
    · simp [unitNs] at hb ⊢; omega
  · have e : chooseUnit p = .us100 := (if_neg ha).trans ((if_neg hb).trans (if_neg hc))
    rw [e]
    refine ⟨?_, fun v hv => ?_, ?_⟩
    · simp only [unitNs]; omega
    · cases v <;> simp [unitNs] at hv ha hb hc ⊢ <;> omega
    · simp [unitNs] at hc ⊢; omega

/-- Settles O36, with the unit that the encoding chooses. -/
theorem timingEncodingRoundsUp : Obligations.TimingEncodingRoundsUp := by
  intro p q
  unfold encodeTiming
  simp only [Bool.or_eq_true, decide_eq_true_eq]
  split
  · rfl
  · rename_i h
    rw [not_or, Nat.not_lt, Nat.not_lt] at h
    obtain ⟨h1, h2, h3⟩ := chooseUnit_spec h.1 h.2
    obtain ⟨p1, p2⟩ := ceilDiv_bounds p (unitNs_pos (chooseUnit p))
    obtain ⟨q1, q2⟩ := ceilDiv_bounds q (unitNs_pos (chooseUnit p))
    exact ⟨chooseUnit p, h1, h2, h3, p1, p2, q1, q2, rfl⟩

/-! ## The Event Unit -/

theorem before_iff (early late : Post) : early.before late = true ↔
    (early.host = late.host ∧ early.event.block = late.event.block) ∨
    (early.event.block = .leases ∧ ∃ n, late.order = some n ∧ early.rank < n) ∨
    ∃ l n, late.after = some (l, n) ∧ early.event.block = .lane l ∧ early.rank < n := by
  unfold Post.before
  simp only [Bool.or_eq_true, Bool.and_eq_true, beq_iff_eq, Option.any_eq_true, decide_eq_true_eq, or_assoc, Prod.exists]

theorem filePost_of_few {k : HostId} {i : Nat} (h : s.posts.countP (fun q => q.host == k) ≤ i) : s.filePost k i = s := by
  have hn : s.postReady k i = none := by
    unfold State.postReady State.postsFor
    rw [List.countP_eq_length_filter] at h
    rw [List.getElem?_eq_none h]
    rfl
  simp only [State.filePost, hn]

/-- The post that stands behind `ahead`, by its number among those for its host. -/
theorem postsFor_split {k : HostId} {ahead behind : List Post} {p : Post} (hp : p.host = k) :
    ((ahead ++ p :: behind).filter (fun q => q.host == k))[ahead.countP (fun q => q.host == k)]? = some p := by
  rw [List.filter_append, List.countP_eq_length_filter, List.getElem?_append_right (le_refl _), Nat.sub_self, List.filter_cons,
    if_pos (by simp [hp])]
  rfl

theorem postsAhead_split {k : HostId} {behind : List Post} {p : Post} (hp : p.host = k) (ahead : List Post) :
    postsAhead k (ahead.countP (fun q => q.host == k)) (ahead ++ p :: behind) = ahead := by
  induction ahead with
  | nil => simp [postsAhead, hp]
  | cons a as ih =>
    by_cases h : a.host = k
    · rw [List.countP_cons_of_pos (by simpa using h), List.cons_append]
      simp only [postsAhead, if_pos h, ih]
    · rw [List.countP_cons_of_neg (by simpa using h), List.cons_append]
      simp only [postsAhead, if_neg h, ih]

theorem withoutPost_split {k : HostId} {behind : List Post} {p : Post} (hp : p.host = k) (ahead : List Post) :
    withoutPost k (ahead.countP (fun q => q.host == k)) (ahead ++ p :: behind) = ahead ++ behind := by
  induction ahead with
  | nil => simp [withoutPost, hp]
  | cons a as ih =>
    by_cases h : a.host = k
    · rw [List.countP_cons_of_pos (by simpa using h), List.cons_append]
      simp only [withoutPost, if_pos h, ih, List.cons_append]
    · rw [List.countP_cons_of_neg (by simpa using h), List.cons_append]
      simp only [withoutPost, if_neg h, ih, List.cons_append]

theorem postReady_split {k : HostId} {ahead behind : List Post} {p : Post} (hs : s.posts = ahead ++ p :: behind)
    (hp : p.host = k) :
    s.postReady k (ahead.countP (fun q => q.host == k)) = if ∃ q ∈ ahead, q.before p = true then none else some p := by
  unfold State.postReady State.postsFor
  rw [hs, postsFor_split hp, postsAhead_split hp]
  by_cases h : ∃ q ∈ ahead, q.before p = true
  · rw [if_pos h, Option.filter_some, if_neg]
    simpa using h
  · rw [if_neg h, Option.filter_some, if_pos]
    simpa using h

/-- Filing by the mask and the room in the queue (R149). -/
theorem EventQueue.file_eq (q : EventQueue) (stamp : Stamp) (e : Event) :
    q.file stamp e = if q.mask.drops e then q
      else if q.queue.length < 16 then
        { q with queue := q.queue ++ [{ seq := q.seq, stamp := stamp, event := e }], seq := q.seq + 1, attn := .low }
      else if q.lost = 65535 then q
      else if q.lost < 65535 then { q with lost := q.lost + 1 }
      else q := by
  unfold EventQueue.file Config.eventDepth Config.maxCount
  split
  · rfl
  · split
    · rfl
    · by_cases h : q.lost = 65535
      · rw [if_pos h, if_neg (by omega)]
      · rw [if_neg h]
        split <;> rfl

/-- Settles O51, by whether a post that stands ahead comes before the one taken. -/
theorem eventPostFilesTheRecord : Obligations.EventPostFilesTheRecord := by
  refine ⟨before_iff, fun s k i h => congrArg Host.Outcome.next (filePost_of_few h), fun s k ahead behind p hs hp => ?_⟩
  refine ⟨_, rfl, ?_⟩
  have hr := postReady_split hs hp
  by_cases h : ∃ q ∈ ahead, q.before p = true
  · rw [if_pos h] at hr ⊢
    simp only [State.filePost, hr]
  · rw [if_neg h] at hr ⊢
    have ht : s.filePost k (ahead.countP (fun q => q.host == k)) =
        { (s.setEvents k ((s.eventsOf k).file p.stamp p.event)) with posts := ahead ++ behind } := by
      rw [← withoutPost_split hp ahead, ← hs]
      simp only [State.filePost, hr]
    dsimp only
    rw [ht]
    refine ⟨rfl, fun j hj => State.setEvents_eventsOf_ne s k _ (Ne.symm hj), ?_⟩
    refine (State.setEvents_eventsOf_self s k _).trans ?_
    rw [EventQueue.file_eq]
    unfold EventMask.drops
    cases p.event <;> rfl

theorem EventQueue.fetched_eq (q : EventQueue) (n : Nat) (stamp : Stamp) :
    q.fetched n stamp =
      { queue := q.queue.drop n ++ if q.lost = 0 then [] else [{ seq := q.seq, stamp := stamp, event := .eventsLost q.lost }],
        lost := 0, mask := q.mask, seq := if q.lost = 0 then q.seq else q.seq + 1,
        attn := if q.queue.drop n ++ (if q.lost = 0 then [] else
          [{ seq := q.seq, stamp := stamp, event := .eventsLost q.lost }]) = [] then .high else .low } := by
  unfold EventQueue.fetched EventQueue.store attentionFor
  by_cases h : q.lost = 0
  · simp [h]
  · simp [h]

theorem kindByte_entryDone (l : LaneId) (g : SegmentRef) (tag : Word) (o : EndOutcome) (n : Nat) (d : Bool) :
    kindByte (.entryDone l g tag o n d) = if d then 0x82 else 0x02 := by
  cases d
  · rfl
  · show (0x02 : Byte) ||| 0x80 = 0x82
    decide

/-- Settles O52: FETCH check by check, then a record by its kind. -/
theorem fetchRemovesAndReports : Obligations.FetchRemovesAndReports := by
  refine ⟨fun s k req live hw => ?_, fun r => ?_⟩
  · refine ⟨_, congrArg Host.Outcome.next (decide_of_waits hw (fetchRequest s k)), ?_⟩
    generalize hx : fetchRequest s k req.params = x
    unfold fetchRequest at hx
    dsimp only at hx ⊢
    split
    · exact refused_if hx ‹_›
    replace hx := else_of hx ‹_›
    rw [List.length_take, EventQueue.fetched_eq] at hx
    exact accepted_eq hx rfl rfl
  · dsimp only
    unfold recordBytes
    obtain ⟨seq, stamp, event⟩ := r
    cases event with
    | entryStarted l g tag => rfl
    | entryDone l g tag o words d =>
      dsimp only
      rw [kindByte_entryDone]
      cases o <;> rfl
    | leaseGranted l d => rfl
    | leaseLost l c => cases c <;> rfl
    | segmentFreed g => rfl
    | eventsLost n => rfl
    | withdrawn => rfl

/-! ## EVICT and DETACH -/

/-- A request that makes a withdrawal, decided: refused by its link, or left to the withdrawal (R187, R188). -/
theorem decideWithdrawal_of_waits {k : HostId} {kind : RequestKind} {req : Request} {live : Bool} (h : s.waits k kind req live)
    (owner : List Byte → Except Status (HostId × WithdrawalCause)) :
    s.decideWithdrawal k kind owner = match owner req.params with
      | .error st => s.answer k req live (refusal st)
      | .ok (host, cause) => { s with
          links := s.links.upd k (if live then { (s.link k) with deciding := none } else { (s.link k) with orphan := none }),
          withdrawals := s.withdrawals ++
            [{ host := host, cause := cause, leaseTaken := false, segmentTaken := false, leasesEnded := 0,
               claimsRemoved := 0, firstOrder := 0, endOrder := 0, answer := if live then some (k, req) else none }] } := by
  obtain ⟨hw, hc⟩ := h
  unfold State.decideWithdrawal
  rw [hw]
  dsimp only
  rw [if_pos hc]
  cases owner req.params with
  | error st => rfl
  | ok x => cases live <;> rfl

/-- Settles O55. -/
theorem evictAndDetachWithdraw : Obligations.EvictAndDetachWithdraw := by
  refine ⟨fun s k req live hw => ⟨_, congrArg Host.Outcome.next (decideWithdrawal_of_waits hw (evictRequest s k)), ?_⟩,
    fun s k req live hw => congrArg Host.Outcome.next (decideWithdrawal_of_waits hw _)⟩
  have hp : s.permitted k = false ↔ s.supervisor ≠ some k := by simp [State.permitted]
  by_cases h : s.supervisor ≠ some k
  · have he : evictRequest s k req.params = .error .notPermitted := by rw [evictRequest, if_pos (hp.2 h)]
    rw [if_pos h, he]
    exact refused_of k req live _
  · rw [if_neg h]
    cases hd : decodeHost (byteAt req.params 0) with
    | none =>
      have he : evictRequest s k req.params = .error .badParam := by rw [evictRequest, if_neg (mt hp.1 h), hd]
      rw [he]
      exact refused_of k req live _
    | some host =>
      have he : evictRequest s k req.params = .ok (host, .evicted) := by rw [evictRequest, if_neg (mt hp.1 h), hd]
      rw [he]

end Sys2Proof.Machine
end

section
/-! Leases: CLAIM, RENEW, lease ends, the drain, CONFIGURE and REVOKE (chapter 2, R80, R182). -/

namespace Sys2Proof.Machine

variable {s t u : State} {l : LaneId}

/-! ## CLAIM and RENEW -/

theorem validDuration_eq_false_iff (d : Nat) : validDuration d = false ↔ d < 10 ∨ 60000 < d := by
  simp only [validDuration, Bool.and_eq_false_iff, decide_eq_false_iff_not, Nat.not_le]

/-- What a grant leaves: the default configuration, and the lane IDLE at the default park word with STB low (R42). -/
theorem Lane.granted_eq : Lane.granted = { Lane.reset with state := .idle, stb := .low } := by decide

theorem grant_eq (s : State) (l : LaneId) (k : HostId) (d : Nat) :
    s.grant l k d = { s with
      leases := s.leases.upd l { Lease.reset with holder := some k, duration := d, remaining := d, waiters := (s.lease l).waiters },
      lanes := s.lanes.upd l { Lane.reset with state := .idle, stb := .low } } := by
  unfold State.grant
  rw [Lane.granted_eq]
  rfl

/-- Settles O23, row by row. -/
theorem claimByTheTable : Obligations.ClaimByTheTable := by
  intro s k req live hw
  refine ⟨_, congrArg Host.Outcome.next (decide_of_waits hw (claimRequest s k)), ?_⟩
  generalize hx : claimRequest s k req.params = x
  unfold claimRequest at hx
  dsimp only at hx ⊢
  split
  · rename_i l wait hl hf
    rw [hl, hf] at hx
    dsimp only at hx
    simp only [validDuration_eq_false_iff] at hx
    split
    · exact refused_if hx ‹_›
    replace hx := else_of hx ‹_›
    cases hh : (s.lease l).holder with
    | none =>
      rw [hh] at hx
      rw [if_pos rfl]
      exact accepted_eq hx rfl (grant_eq s l k _)
    | some h =>
      rw [hh] at hx
      dsimp only at hx
      rw [if_neg (by simp)]
      simp only [← waitsFor_iff, Option.some.injEq]
      split
      · exact refused_if hx ‹_›
      replace hx := else_of hx ‹_›
      split
      · exact refused_if hx ‹_›
      replace hx := else_of hx ‹_›
      split
      · rename_i hwait
        rw [hwait] at hx
        exact refused_eq hx
      rename_i hwait
      exact accepted_eq (then_of hx (by simpa using hwait)) rfl rfl
  · rename_i hn
    split at hx
    · rename_i a b
      exact absurd b (hn _ _ a)
    · exact refused_eq hx

/-- Settles O24, check by check. -/
theorem renewSetsTheLease : Obligations.RenewSetsTheLease := by
  intro s k req live hw
  refine ⟨_, congrArg Host.Outcome.next (decide_of_waits hw (renewRequest s k)), ?_⟩
  generalize hx : renewRequest s k req.params = x
  unfold renewRequest at hx
  dsimp only at hx ⊢
  simp only [validDuration_eq_false_iff] at hx
  split
  · rename_i h
    rw [h] at hx
    exact refused_eq hx
  rename_i l h
  rw [h] at hx
  dsimp only at hx
  split
  · exact refused_if hx ‹_›
  replace hx := else_of hx ‹_›
  split
  · exact refused_if hx ‹_›
  exact accepted_eq (else_of hx ‹_›) rfl rfl

/-! ## Lease ends -/

/-- The head of the waiter list is granted the lane, or the lane stays OFF (R50), whatever stood in the rest of its lease. -/
theorem grantHead_passedOn (u : State) (l : LaneId) :
    u.passedOn ((u.setLease l { Lease.reset with waiters := (u.lease l).waiters }).grantHead l) l := by
  unfold State.passedOn State.grantHead
  rw [State.setLease_lease_self]
  dsimp only
  cases (u.lease l).waiters with
  | nil => rfl
  | cons w rest =>
    dsimp only
    unfold State.grantPosted
    rw [grant_eq]
    simp only [State.setLease_lease_self]
    unfold State.setLease State.postLease State.postRanked State.post State.countOrder
    dsimp only
    rw [Bank.upd_upd_self, Bank.upd_upd_self]

theorem endLease_passedOn (s : State) (l : LaneId) (c : LeaseEndCause) :
    (s.drain l (c != .withdrawn)).passedOn (s.endLease l c) l := grantHead_passedOn _ l

theorem expire_of_due {k : HostId} (h : (s.lease l).holder = some k) (he : (s.lease l).expiring = true) :
    s.expire l = (s.postLease k (.leaseLost l .expired)).endLease l .expired := by
  have hd : s.expiryDue l = true := by simp [State.expiryDue, h, he]
  simp only [State.expire, h, hd, if_true]

theorem expire_of_not_due (h : (s.lease l).holder = none ∨ (s.lease l).expiring = false) : s.expire l = s := by
  have hd : s.expiryDue l = false := by
    rcases h with h | h <;> simp [State.expiryDue, h]
  unfold State.expire
  split
  · rw [hd]; rfl
  · rfl

theorem answer_links (s : State) (k : HostId) (req : Request) (live : Bool) (r : Reply) (u : State) (h : s = u) :
    s.answer k req live r = { u with links := (s.answer k req live r).links } := by rw [← h]; exact answer_eq s k req live r

/-- Settles O26. -/
theorem leaseEndPassesTheLane : Obligations.LeaseEndPassesTheLane := by
  refine ⟨fun s k req live hw => ?_, fun s l k h he => ?_, fun s l h => congrArg Host.Outcome.next (expire_of_not_due h)⟩
  · refine ⟨_, congrArg Host.Outcome.next (decide_of_waits hw (releaseRequest s k)), ?_⟩
    generalize hx : releaseRequest s k req.params = x
    unfold releaseRequest at hx
    split
    · rename_i h
      rw [h] at hx
      exact refused_eq hx
    rename_i l h
    rw [h] at hx
    dsimp only at hx
    intro hk
    obtain ⟨h1, h2⟩ := accepted_eq (s := s) (k := k) (req := req) (live := live) (then_of hx hk) (endLease_frame s l _).links rfl
    exact ⟨⟨s.endLease l .released, endLease_passedOn s l .released, h1⟩, h2⟩
  · exact ⟨_, congrArg Host.Outcome.next (expire_of_due h he), endLease_passedOn (s.postLease k (.leaseLost l .expired)) l .expired⟩

/-! ## The drain (R80) -/

theorem timesWaiting_of_not_markwait (h : s.marksOk) (hs : (s.lane l).state ≠ .markwait) : s.timesWaiting l = 0 := by
  rw [h.2 l, if_neg hs]

/-- A lane that waits on no mark leaves the mark lists as they are. -/
theorem leaveMarks_eq (h : s.marksOk) (l : LaneId) :
    (if (s.lane l).state = .markwait then s.removeWaiter l else s) =
      { s with marks := s.marks.map (fun m => { m with waiters := m.waiters.filter (fun w => w.1 != l) }) } := by
  split
  · rfl
  · rename_i hs
    rw [removeWaiter_absent s l (timesWaiting_of_not_markwait h hs)]

/-! ### A current entry that proceeds -/

theorem driveWord_proceeded (s : State) (l : LaneId) (e : Entry) : ((s.driveWord l e).lane l).state.proceeded = true := by
  unfold State.driveWord
  dsimp only
  split
  · exact congrArg LaneState.proceeded (congrArg Lane.state (State.setLane_lane_self _ l _))
  · exact congrArg LaneState.proceeded (congrArg Lane.state (State.setLane_lane_self _ l _))

theorem sampleBoundary_proceeded (s : State) (l : LaneId) (e : Entry) :
    ((s.sampleBoundary l e).lane l).state.proceeded = true := by
  unfold State.sampleBoundary
  dsimp only
  split
  · exact congrArg LaneState.proceeded (congrArg Lane.state (State.setLane_lane_self s l _))
  · exact congrArg LaneState.proceeded (congrArg Lane.state (State.setLane_lane_self s l _))

theorem attemptBoundary_proceeded (s : State) (l : LaneId) (e : Entry) :
    ((s.attemptBoundary l e).lane l).state.proceeded = true := by
  unfold State.attemptBoundary
  split
  · split
    · exact congrArg LaneState.proceeded (congrArg Lane.state (State.setLane_lane_self s l _))
    · exact driveWord_proceeded s l e
  · exact sampleBoundary_proceeded s l e

/-- An entry that proceeds leaves its lane RUNNING or STALLED (R70). -/
theorem proceed_proceeded (s : State) (l : LaneId) (e : Entry) (x : Stamp) (a : Option (LaneId × Nat)) :
    ((s.proceed l e x a).lane l).state.proceeded = true := by
  unfold State.proceed
  dsimp only
  split
  · exact attemptBoundary_proceeded _ l e
  · split
    · exact congrArg LaneState.proceeded (congrArg Lane.state (State.setLane_lane_self _ l _))
    · exact sampleBoundary_proceeded _ l e

theorem settleRelease_of_released {x : Stamp} {a : Option (LaneId × Nat)} {e : Entry} {rest : List Entry}
    (hs : (s.lane l).state = .released x a) (hq : (s.lane l).queue = e :: rest) : s.settleRelease l = s.proceed l e x a := by
  simp only [State.settleRelease, hs, hq]

/-- Settles O27: where no mark has released the lane, by the end of a whole queue; and else by letting it proceed. -/
theorem drainEndsEveryEntry : Obligations.DrainEndsEveryEntry := by
  refine ⟨fun s l r h hr => ?_, fun s l r x a e rest hs hq => ?_⟩
  · unfold State.drain
    rw [settleRelease_of_not_released hr]
    dsimp only
    rw [leaveMarks_eq (s := s.countOrder) h.2.2 l]
    have hw := h.1 l
    refine (endAll_eq (({ s.countOrder with marks := s.countOrder.marks.map (fun m => { m with
      waiters := m.waiters.filter (fun w => w.1 != l) }) } : State).setLane l { (s.lane l) with holdRequest := false }) l
      .leaseEnded .leaseEnded (by decide) (by decide) r (some s.orderCount) ?_ Lane.reset).trans ?_
    · rw [State.setLane_lane_self]
      exact hw.2.1
    · rw [State.setLane_lane_self]
      unfold State.setLane State.countOrder
      dsimp only
      rw [Bank.upd_upd_self]
      rfl
  · have hp := proceed_proceeded s l e x a
    unfold State.drain
    rw [settleRelease_of_released hs hq, settleRelease_of_not_released (s := s.proceed l e x a) fun _ _ h => by
      rw [h] at hp; cases hp]

/-! ## CONFIGURE (R51, R52) -/

theorem configurable_iff (x : LaneState) : x.configurable = false ↔ laneStateByte x ∉ ([0x01, 0x05, 0x06] : List Byte) := by
  cases x <;> simp [LaneState.configurable, laneStateByte]

/-- Whether a lane on which CONFIGURE is accepted shows its park word. -/
theorem showsPark_iff {x : LaneState} (h : x.configurable ≠ false) : x.showsPark = true ↔
    x = .idle ∨ x = .holding .outOfIdle ∨ x = .holding .outOfMarkwait ∨ x = .holding .betweenEntries := by
  cases x with
  | holding f => cases f <;> simp [LaneState.showsPark]
  | idle => simp [LaneState.showsPark]
  | faulted c => simp [LaneState.showsPark]
  | _ => exact absurd rfl h

theorem Drive.ofWord_level (w : Word) (i : Nat) (hi : i < 8) :
    (Drive.ofWord w).level.getLsbD i = (w.getLsbD i && w.getLsbD (8 + i)) := by
  simp [Drive.ofWord, hi]

theorem configureLane_eq (s : State) (l : LaneId) (park : Word) (a b : Polarity) :
    s.configureLane l park a b = { s with
      leases := s.leases.upd l { (s.lease l) with park := park, stbPol := a, rtnPol := b },
      lanes := s.lanes.upd l { (s.lane l) with
        stb := if a = .activeHigh then .low else .high,
        drive := if (s.lane l).state.showsPark then Drive.ofWord park else (s.lane l).drive } } := by
  unfold State.configureLane
  cases a <;> rfl

/-- Settles O28, check by check. -/
theorem configureReachesTheLines : Obligations.ConfigureReachesTheLines := by
  intro s k req live hw
  refine ⟨_, congrArg Host.Outcome.next (decide_of_waits hw (configureRequest s k)), ?_⟩
  generalize hx : configureRequest s k req.params = x
  unfold configureRequest at hx
  dsimp only at hx ⊢
  split
  · rename_i l a b hl ha hb
    rw [hl, ha, hb] at hx
    dsimp only at hx
    simp only [configurable_iff] at hx
    split
    · exact refused_if hx ‹_›
    replace hx := else_of hx ‹_›
    split
    · exact refused_if hx ‹_›
    rename_i hs
    replace hx := else_of hx hs
    obtain ⟨h1, h2⟩ := accepted_eq (s := s) (k := k) (req := req) (live := live) hx rfl (configureLane_eq s l _ a b)
    generalize x.1.answer k req live x.2 = t at h1 h2 ⊢
    have hd : (t.lane l).drive = if (s.lane l).state.showsPark then Drive.ofWord (wordAt req.params 1) else (s.lane l).drive := by
      rw [h1]
      exact congrArg Lane.drive (Bank.sel_upd_self _ _ _)
    have hp := showsPark_iff (mt (configurable_iff _).1 hs)
    refine ⟨by rw [hd]; exact h1, fun h => ?_, fun h => ?_, h2⟩
    · rw [hd, if_pos (hp.2 h)]
      exact ⟨rfl, Drive.ofWord_level _⟩
    · rw [hd, if_neg (mt hp.1 h)]
  · rename_i hn
    split at hx
    · rename_i a b c
      exact absurd c (hn _ _ _ a b)
    · exact refused_eq hx

/-! ## REVOKE (R56, R182, R183) -/

theorem takeClaim_setLease (s : State) (l j : LaneId) (c : LaneClaim) (v : Lease) :
    (s.setLease j v).takeClaim l c = (s.takeClaim l c).setLease j v := by
  cases c with
  | append r id w =>
    show (s.setLease j v).takeAppend l r id w = (s.takeAppend l r id w).setLease j v
    unfold State.takeAppend
    split
    · rfl
    · dsimp only [State.setLease_store]
      split <;> rfl
  | release r n x =>
    show (s.setLease j v).takeRelease l r n x = (s.takeRelease l r n x).setLease j v
    rw [takeRelease_eq, takeRelease_eq]
    split <;> rfl

/-- A lane record and the claims taken do not meet. -/
theorem settleClaims_setLease (s : State) (l j : LaneId) (v : Lease) :
    (s.setLease j v).settleClaims l = (s.settleClaims l).setLease j v := by
  have h : ∀ (cs : List LaneClaim) (u : State),
      cs.foldl (fun t c => t.takeClaim l c) (u.setLease j v) = (cs.foldl (fun t c => t.takeClaim l c) u).setLease j v := by
    intro cs
    induction cs with
    | nil => exact fun _ => rfl
    | cons c cs ih => exact fun u => by rw [List.foldl_cons, takeClaim_setLease, ih, List.foldl_cons]
  exact h (s.claimsOf l) (s.setClaims l [])

/-- The lane without its lease, its references released and taken (R49, R183). -/
theorem closeLease_settleClaims (s : State) (l : LaneId) (c : LeaseEndCause) :
    (s.closeLease l c).settleClaims l =
      ((s.drain l (c != .withdrawn)).settleClaims l).setLease l
        { Lease.reset with waiters := (((s.drain l (c != .withdrawn)).settleClaims l).lease l).waiters } := by
  have h : ((s.drain l (c != .withdrawn)).settleClaims l).lease l = (s.drain l (c != .withdrawn)).lease l := by
    unfold State.lease
    rw [(settleClaims_frame _ l).leases]
  unfold State.closeLease
  rw [settleClaims_setLease, h]

theorem decodeLane_eq_none_iff (b : Byte) : decodeLane b = none ↔ 3 < b.toNat := by
  unfold decodeLane
  split <;> simp <;> omega

theorem decodeHost_iff (b : Byte) (k : HostId) : decodeHost b = some k ↔ b.toNat = k.val := by
  unfold decodeHost
  split
  · simp [Fin.ext_iff]
  · simp; omega

theorem decodeHost_eq_none_iff (b : Byte) : decodeHost b = none ↔ 2 < b.toNat := by
  unfold decodeHost
  split <;> simp <;> omega

theorem byte_eq_ff_iff (b : Byte) : b = 0xFF ↔ b.toNat = 255 := by
  rw [← BitVec.toNat_inj]
  rfl

theorem decodeGrantTo_eq_none_iff (b : Byte) : decodeGrantTo b = none ↔ 2 < b.toNat ∧ b.toNat ≠ 255 := by
  unfold decodeGrantTo
  split
  · rename_i h
    simp [(byte_eq_ff_iff b).1 h]
  · rename_i h
    rw [Option.map_eq_none_iff, decodeHost_eq_none_iff]
    exact ⟨fun g => ⟨g, mt (byte_eq_ff_iff b).2 h⟩, And.left⟩

theorem decodeGrantTo_nobody {b : Byte} (h : b.toNat = 255) : decodeGrantTo b = some none := by
  unfold decodeGrantTo
  rw [if_pos ((byte_eq_ff_iff b).2 h)]

theorem decodeGrantTo_host {b : Byte} {k : HostId} (h : b.toNat = k.val) : decodeGrantTo b = some (some k) := by
  unfold decodeGrantTo
  rw [if_neg (mt (byte_eq_ff_iff b).1 (by omega)), (decodeHost_iff b k).2 h]
  rfl

theorem grantToTerm_eq (ws : List WaitingClaim) (k : HostId) :
    grantToTerm ws k = ((ws.find? (fun w => w.host == k)).map (fun w => w.duration)).getD 1000 := by
  unfold grantToTerm
  cases ws.find? (fun w => w.host == k) <;> rfl

/-- A REVOKE to a host: it leaves the waiter list and is granted the lane (R56). -/
theorem grantTo_eq (u : State) (l : LaneId) (v : Lease) (h : HostId) :
    (u.setLease l v).grantTo l h = { u with
      leases := u.leases.upd l { Lease.reset with
        holder := some h, duration := grantToTerm v.waiters h, remaining := grantToTerm v.waiters h,
        waiters := withoutHost v.waiters h },
      lanes := u.lanes.upd l { Lane.reset with state := .idle, stb := .low },
      posts := u.posts ++ [{ host := h, stamp := u.time.timestamp, event := .leaseGranted l (grantToTerm v.waiters h),
                             rank := u.orderCount, after := none, order := none }],
      orderCount := u.orderCount + 1 } := by
  unfold State.grantTo State.grantPosted
  dsimp only
  rw [grant_eq]
  simp only [State.setLease_lease_self]
  unfold State.setLease State.postLease State.postRanked State.post State.countOrder
  dsimp only
  rw [Bank.upd_upd_self, Bank.upd_upd_self]

theorem grantHead_holder (u : State) (l : LaneId) (v : Lease) (hv : v.holder = none) :
    (((u.setLease l v).grantHead l).lease l).holder = v.waiters.head?.map (fun w => w.host) := by
  unfold State.grantHead
  rw [State.setLease_lease_self]
  cases h : v.waiters with
  | nil => exact (congrArg Lease.holder (State.setLease_lease_self u l v)).trans hv
  | cons w rest =>
    dsimp only
    unfold State.grantPosted
    rw [grant_eq]
    exact congrArg Lease.holder (Bank.sel_upd_self _ _ _)

/-- A lease record after the drain of its lane and the taking of its claims. -/
theorem drain_settleClaims_lease (s : State) (l j : LaneId) (r : Bool) :
    ((s.drain l r).settleClaims l).lease j = s.lease j := by
  unfold State.lease
  rw [(settleClaims_frame _ l).leases, (drain_frame s l r).leases]

theorem told_lease (s : State) (l j : LaneId) (former : HostId) :
    (((s.postLease former (.leaseLost l .revoked)).drain l true).settleClaims l).lease j = s.lease j :=
  drain_settleClaims_lease (s.postLease former (.leaseLost l .revoked)) l j true

theorem told_stamp (s : State) (l : LaneId) (former : HostId) :
    (((s.postLease former (.leaseLost l .revoked)).drain l true).settleClaims l).time = s.time := by
  have h : ∀ u : State, (u.settleClaims l).time = u.time := fun u => by
    obtain ⟨_, _, _, _, e⟩ := settleClaims_frame u l
    rw [e]
  rw [h, (drain_frame _ l true).time]
  rfl

/-- The former holder told, the lane drained and its claims taken: the lane passes on (R56). -/
theorem revoke_none {u : State} {l : LaneId} {former : HostId}
    (hu : ((s.postLease former (.leaseLost l .revoked)).drain l true).settleClaims l = u) :
    u.passedOn (s.revoke l former none) l ∧
      ((s.revoke l former none).lease l).holder = (s.lease l).waiters.head?.map (fun w => w.host) := by
  have hl := told_lease s l l former
  have hc : ((s.postLease former (.leaseLost l .revoked)).closeLease l .revoked).settleClaims l = _ :=
    closeLease_settleClaims (s.postLease former (.leaseLost l .revoked)) l .revoked
  have hr : (LeaseEndCause.revoked != .withdrawn) = true := rfl
  rw [hr] at hc
  rw [hu] at hl hc
  unfold State.revoke
  dsimp only
  rw [hc, ← hl]
  exact ⟨grantHead_passedOn u l, grantHead_holder u l _ rfl⟩

theorem revoke_some (s : State) (l : LaneId) (former h : HostId) :
    let u := ((s.postLease former (.leaseLost l .revoked)).drain l true).settleClaims l
    s.revoke l former (some h) = { u with
      leases := u.leases.upd l { Lease.reset with
        holder := some h, duration := grantToTerm (s.lease l).waiters h, remaining := grantToTerm (s.lease l).waiters h,
        waiters := withoutHost (s.lease l).waiters h },
      lanes := u.lanes.upd l { Lane.reset with state := .idle, stb := .low },
      posts := u.posts ++ [{ host := h, stamp := s.time.timestamp, event := .leaseGranted l (grantToTerm (s.lease l).waiters h),
                             rank := u.orderCount, after := none, order := none }],
      orderCount := u.orderCount + 1 } ∧
    ((s.revoke l former (some h)).lease l).holder = some h := by
  have hl := told_lease s l l former
  have ht := told_stamp s l former
  have hc : ((s.postLease former (.leaseLost l .revoked)).closeLease l .revoked).settleClaims l = _ :=
    closeLease_settleClaims (s.postLease former (.leaseLost l .revoked)) l .revoked
  have hr : (LeaseEndCause.revoked != .withdrawn) = true := rfl
  rw [hr] at hc
  unfold State.revoke
  dsimp only
  rw [hc, ← hl, ← ht]
  generalize ((s.postLease former (.leaseLost l .revoked)).drain l true).settleClaims l = u
  rw [grantTo_eq]
  exact ⟨rfl, congrArg Lease.holder (Bank.sel_upd_self u.leases l _)⟩

end Sys2Proof.Machine
end

section
/-! REVOKE (R182, R56). -/

namespace Sys2Proof.Machine

section
variable {s : State} {k : HostId} {req : Request} {live : Bool} {l : LaneId} {former : HostId} {x : State × Reply}

theorem revoke_links (s : State) (l : LaneId) (former : HostId) (target : Option HostId) :
    (s.revoke l former target).links = s.links := by
  rw [revoke_owner s l former target]

/-- REVOKE accepted with nobody named: the head waiter gets the lane (R56). -/
theorem revoke_answered_none {u : State}
    (hu : ((s.postLease former (.leaseLost l .revoked)).drain l true).settleClaims l = u)
    (hx : (s.revoke l former none,
      okReply [hostByte (some former), hostByte ((s.revoke l former none).lease l).holder]) = x) :
    (∃ v, u.passedOn v l ∧ x.1.answer k req live x.2 = { v with links := (x.1.answer k req live x.2).links }) ∧
      s.answered (x.1.answer k req live x.2) k req live
        (okReply [byteOf former.val, hostByte ((s.lease l).waiters.head?.map (fun w => w.host))]) := by
  obtain ⟨hpass, hold⟩ := revoke_none hu
  rw [hold] at hx
  obtain ⟨h1, h2⟩ := accepted_eq (k := k) (req := req) (live := live) hx (revoke_links s l former none) rfl
  exact ⟨⟨_, hpass, h1⟩, h2⟩

/-- REVOKE accepted with a host named: that host gets the lane (R56). -/
theorem revoke_answered_some {h : HostId}
    (hx : (s.revoke l former (some h),
      okReply [hostByte (some former), hostByte ((s.revoke l former (some h)).lease l).holder]) = x) :
    let u := ((s.postLease former (.leaseLost l .revoked)).drain l true).settleClaims l
    let ws := (s.lease l).waiters
    let d := ((ws.find? (fun w => w.host == h)).map (fun w => w.duration)).getD 1000
    x.1.answer k req live x.2 = { u with
        links := (x.1.answer k req live x.2).links,
        leases := u.leases.upd l { Lease.reset with
          holder := some h, duration := d, remaining := d, waiters := ws.filter (fun w => w.host != h) },
        lanes := u.lanes.upd l { Lane.reset with state := .idle, stb := .low },
        posts := u.posts ++ [{ host := h, stamp := s.time.timestamp, event := .leaseGranted l d,
                               rank := u.orderCount, after := none, order := none }],
        orderCount := u.orderCount + 1 } ∧
      s.answered (x.1.answer k req live x.2) k req live (okReply [byteOf former.val, byteOf h.val]) := by
  have ⟨hr, hold⟩ := revoke_some s l former h
  rw [hold] at hx
  dsimp only at hr ⊢
  rw [grantToTerm_eq] at hr
  generalize ((s.postLease former (.leaseLost l .revoked)).drain l true).settleClaims l = u at hr ⊢
  have h1 := accepted_eq (k := k) (req := req) (live := live) hx (revoke_links s l former (some h)) hr
  exact h1

end

/-- Settles O29, check by check. -/
theorem revokeMovesTheLane : Obligations.RevokeMovesTheLane := by
  intro s k req live hw
  refine ⟨_, congrArg Host.Outcome.next (decide_of_waits hw (revokeRequest s k)), ?_⟩
  generalize hx : revokeRequest s k req.params = x
  unfold revokeRequest at hx
  dsimp only at hx ⊢
  have hp : s.permitted k = false ↔ s.supervisor ≠ some k := by simp [State.permitted]
  simp only [hp] at hx
  split
  · exact refused_if hx ‹_›
  replace hx := else_of hx ‹_›
  split
  · rename_i h
    have hn : decodeLane (byteAt req.params 0) = none ∨ decodeGrantTo (byteAt req.params 1) = none := by
      rw [decodeLane_eq_none_iff, decodeGrantTo_eq_none_iff]; exact h
    split at hx
    · rename_i a b
      rcases hn with hn | hn
      · rw [a] at hn; cases hn
      · rw [b] at hn; cases hn
    · exact refused_eq hx
  rename_i hb
  rw [not_or] at hb
  obtain ⟨l, hl⟩ := Option.ne_none_iff_exists'.1 (mt (decodeLane_eq_none_iff _).1 hb.1)
  obtain ⟨target, ht⟩ := Option.ne_none_iff_exists'.1 (mt (decodeGrantTo_eq_none_iff _).1 hb.2)
  rw [hl, ht] at hx
  dsimp only at hx
  refine ⟨l, (decodeLane_iff _ l).1 hl, ?_⟩
  cases hh : (s.lease l).holder with
  | none =>
    rw [hh] at hx
    exact refused_eq hx
  | some former =>
    rw [hh] at hx
    dsimp only at hx ⊢
    by_cases h255 : (byteAt req.params 1).toNat = 255
    · rw [decodeGrantTo_nobody h255] at ht
      obtain rfl := Option.some.inj ht
      rw [if_pos h255]
      exact revoke_answered_none rfl hx
    · have h3 : (byteAt req.params 1).toNat < 3 := by omega
      have hhost : decodeGrantTo (byteAt req.params 1) = some (some ⟨_, h3⟩) := decodeGrantTo_host rfl
      rw [hhost] at ht
      obtain rfl := Option.some.inj ht
      rw [if_neg h255]
      exact ⟨⟨_, h3⟩, rfl, revoke_answered_some hx⟩

end Sys2Proof.Machine
end

section
/-! The requests of the lane sequencers that end or hold entries, and RETIME (R78, R102, R105, R112). -/

namespace Sys2Proof.Machine

section
variable {s : State} {k : HostId} {p : List Byte} {l : LaneId}

theorem laneOfHolder_of_holder (hl : (byteAt p 0).toNat = l.val) (hh : (s.lease l).holder = some k) :
    laneOfHolder s k p = .ok l := by
  unfold laneOfHolder
  rw [(decodeLane_iff _ l).2 hl]
  exact if_pos hh

theorem laneOfHolder_of_not_holder (hl : (byteAt p 0).toNat = l.val) (hh : (s.lease l).holder ≠ some k) :
    laneOfHolder s k p = .error .notHolder := by
  unfold laneOfHolder
  rw [(decodeLane_iff _ l).2 hl]
  exact if_neg hh

theorem laneOfHolder_of_no_lane (hl : 3 < (byteAt p 0).toNat) : laneOfHolder s k p = .error .badParam := by
  unfold laneOfHolder
  rw [(decodeLane_eq_none_iff _).2 hl]

theorem settleRelease_links (s : State) (l : LaneId) : (s.settleRelease l).links = s.links := (settleRelease_frame s l).links

end

/-! ## FLUSH (R78) -/

theorem flushLane_eq (u : State) (l : LaneId) : u.flushLane l = { u with
    lanes := u.lanes.upd l { (u.lane l) with queue := (u.lane l).keptAtFlush },
    claims := u.claims.upd l (u.claimsOf l ++ endReleases none true u.orderCount (u.lane l).flushable),
    posts := u.posts ++ queuedPosts l u.time.timestamp .flushed none u.orderCount (u.lane l).flushable,
    orderCount := u.orderCount + (u.lane l).flushable.length } := by
  unfold State.flushLane
  exact endQueued_eq l .flushed (by decide) true none _ _

/-- Settles O31: the queue of a lane with a current entry but for its head, and else the whole of it, ends. -/
theorem flushEndsQueuedEntries : Obligations.FlushEndsQueuedEntries := by
  intro s k req live l hw hl
  refine ⟨_, congrArg Host.Outcome.next (decide_of_waits hw (flushRequest s k)), ?_⟩
  generalize hx : flushRequest s k req.params = x
  unfold flushRequest at hx
  have hlinks := settleRelease_links s l
  have htime := (settleRelease_frame s l).time
  dsimp only
  by_cases hh : (s.lease l).holder = some k
  · rw [laneOfHolder_of_holder hl hh] at hx
    dsimp only at hx
    rw [if_neg (not_not.2 hh), ← htime]
    generalize s.settleRelease l = u at hx hlinks
    obtain ⟨h1, h2⟩ := accepted_eq (k := k) (req := req) (live := live) hx ((flushLane_frame u l).links.trans hlinks)
      (flushLane_eq u l)
    exact ⟨h1, h2⟩
  · rw [laneOfHolder_of_not_holder hl hh] at hx
    rw [if_pos hh]
    exact refused_eq hx

/-! ## ABORT (R112) -/

/-- What an ABORT leaves of a lane: IDLE at its park word, the queue empty, STB inactive. -/
def Lane.aborted (r : Lease) : Lane :=
  { Lane.reset with state := .idle, drive := Drive.ofWord r.park, stb := stbInactive r.stbPol }

theorem clearCurrent_aborted (ln : Lane) (r : Lease) (h : ln.holdRequest = false) :
    ({ ln.clearCurrent r.stbPol with queue := [], drive := Drive.ofWord r.park, stb := stbInactive r.stbPol } : Lane) =
      Lane.aborted r := by
  unfold Lane.clearCurrent Lane.aborted Lane.reset
  rw [h]

/-- The end of the current entry leaves a hold request as it stands (R106). -/
theorem endCurrent_holdRequest (s : State) (l : LaneId) (o : EndOutcome) (ho : o ≠ .complete) (r : Bool) (x : Option Nat) :
    ((s.endCurrent l o r x).lane l).holdRequest = (s.lane l).holdRequest := by
  cases hq : (s.lane l).queue with
  | nil =>
    unfold State.endCurrent
    rw [hq]
  | cons e rest =>
    rw [endCurrent_eq s l e rest o ho r x hq]
    exact (congrArg Lane.holdRequest (Bank.sel_upd_self s.lanes l ((s.lane l).leftBy e rest (s.lease l)))).trans rfl

/-- Where no hold request stands, the end of a whole queue as ABORT does it leaves the lane IDLE at its park word (R112). -/
theorem endAll_showPark (s : State) (l : LaneId) (hq : (s.lane l).state.hasCurrent = true → (s.lane l).queue ≠ [])
    (hr : (s.lane l).holdRequest = false) :
    let s3 := if (s.lane l).state.hasCurrent then s.endCurrent l .aborted true none else s
    let s4 := (s3.setLane l { (s3.lane l) with queue := [] }).endQueued l .flushed true none (s3.lane l).queue
    (s4.setLane l { ((s4.lane l).clearCurrent (s4.lease l).stbPol) with queue := [] }).showPark l = { s with
      lanes := s.lanes.upd l (Lane.aborted (s.lease l)),
      claims := s.claims.upd l (s.claimsOf l ++ endReleases none true s.orderCount (s.lane l).queue),
      posts := s.posts ++ (s.lane l).endPosts l s.time.timestamp .aborted .flushed none s.orderCount,
      orderCount := s.orderCount + (s.lane l).queue.length } := by
  intro s3 s4
  have hall := endAll_eq s l .aborted .flushed (by decide) (by decide) true none hq (Lane.aborted (s.lease l))
  have h3 : s3 = if (s.lane l).state.hasCurrent then s.endCurrent l .aborted true none else s := rfl
  have hr3 : (s3.lane l).holdRequest = false := by
    rw [h3]
    split
    · rw [endCurrent_holdRequest s l .aborted (by decide) true none]; exact hr
    · exact hr
  have h4 : s4 = (s3.setLane l { (s3.lane l) with queue := [] }).endQueued l .flushed true none (s3.lane l).queue := rfl
  have hl3 : s3.lease l = s.lease l := by
    rw [h3]
    split
    · exact (endCurrent_frame s l _ _ _).lease l
    · rfl
  have hl4 : s4.lease l = s.lease l := by
    rw [h4, (endQueued_frame l _ _ _ _ _).lease l]
    exact hl3
  have hr4 : (s4.lane l).holdRequest = false := by
    rw [h4, endQueued_eq l .flushed (by decide) true none]
    exact (congrArg Lane.holdRequest (State.setLane_lane_self s3 l _)).trans hr3
  have hp : (s4.setLane l { ((s4.lane l).clearCurrent (s4.lease l).stbPol) with queue := [] }).showPark l =
      s4.setLane l (Lane.aborted (s.lease l)) := by
    rw [hl4, ← clearCurrent_aborted (s4.lane l) (s.lease l) hr4, ← hl4]
    unfold State.showPark
    rw [State.setLane_lane_self, State.setLane_lease]
    unfold State.setLane
    dsimp only
    rw [Bank.upd_upd_self]
  rw [hp]
  exact hall

theorem abortLane_eq (u : State) (l : LaneId) (h : u.lanesOk) : u.abortLane l = { u with
    lanes := u.lanes.upd l (Lane.aborted (u.lease l)),
    claims := u.claims.upd l (u.claimsOf l ++ endReleases none true u.orderCount (u.lane l).queue),
    posts := u.posts ++ (u.lane l).endPosts l u.time.timestamp .aborted .flushed none u.orderCount,
    orderCount := u.orderCount + (u.lane l).queue.length,
    marks := u.marks.map (fun m => { m with waiters := m.waiters.filter (fun w => w.1 != l) }) } := by
  unfold State.abortLane
  dsimp only
  rw [leaveMarks_eq h.2.2 l]
  have hw := h.1 l
  refine (endAll_showPark (({ u with marks := u.marks.map (fun m => { m with
      waiters := m.waiters.filter (fun w => w.1 != l) }) } : State).setLane l
        { (u.lane l) with holdRequest := false, stallTimer := none }) l ?_ ?_).trans ?_
  · rw [State.setLane_lane_self]
    exact hw.2.1
  · rw [State.setLane_lane_self]
  · rw [State.setLane_lane_self]
    unfold State.setLane
    dsimp only
    rw [Bank.upd_upd_self]
    rfl

theorem flushable_length (ln : Lane) :
    ln.flushable.length = if ln.state.hasCurrent then ln.queue.length - 1 else ln.queue.length := by
  unfold Lane.flushable
  split
  · exact List.length_drop
  · rfl

/-- Settles O32: a lane that no mark has released any more, its whole queue ended. -/
theorem abortEmptiesTheLane : Obligations.AbortEmptiesTheLane := by
  intro s k req live l hok hw hl
  refine ⟨_, congrArg Host.Outcome.next (decide_of_waits hw (abortRequest s k)), ?_⟩
  generalize hx : abortRequest s k req.params = x
  unfold abortRequest at hx
  have hlinks := settleRelease_links s l
  have htime := (settleRelease_frame s l).time
  have hlease := (settleRelease_frame s l).lease l
  have hu := settleRelease_ok (l := l) hok
  dsimp only
  by_cases hh : (s.lease l).holder = some k
  · rw [laneOfHolder_of_holder hl hh] at hx
    dsimp only at hx
    rw [if_neg (not_not.2 hh), ← htime, ← hlease]
    generalize s.settleRelease l = u at hx hlinks hu
    rw [flushable_length] at hx
    obtain ⟨h1, h2⟩ := accepted_eq (k := k) (req := req) (live := live) hx ((abortLane_frame u l).links.trans hlinks)
      (abortLane_eq u l hu)
    refine ⟨h1, ?_⟩
    cases hc : (u.lane l).state.hasCurrent
    · rw [hc] at h2; exact h2
    · rw [hc] at h2; exact h2
  · rw [laneOfHolder_of_not_holder hl hh] at hx
    rw [if_pos hh]
    exact refused_eq hx

/-! ## HOLD (R105) -/

/-- What a STALLED lane waits in, as RESUME needs it (R107, R128). -/
theorem stalledForm_eq {ln : Lane} (h : ln.state = .stalled) :
    stalledForm ln.current =
      (if (match ln.queue with | e :: _ => e.pacing == .ready | [] => false : Bool) then .atBoundary else .inWait) := by
  unfold Lane.current
  rw [h]
  cases ln.queue with
  | nil => rfl
  | cons e rest =>
    show (if e.pacing = .ready then HoldForm.atBoundary else .inWait) = _
    simp only [beq_iff_eq]

/-- Settles O33, state by state. -/
theorem holdByLaneState : Obligations.HoldByLaneState := by
  intro s k req live l hw hl
  refine ⟨_, congrArg Host.Outcome.next (decide_of_waits hw (holdRequest s k)), ?_⟩
  generalize hx : holdRequest s k req.params = x
  unfold holdRequest at hx
  have hlinks := settleRelease_links s l
  dsimp only
  by_cases hh : (s.lease l).holder = some k
  · rw [laneOfHolder_of_holder hl hh] at hx
    dsimp only at hx
    rw [if_neg (not_not.2 hh)]
    generalize s.settleRelease l = u at hx hlinks
    unfold holdByState at hx
    dsimp only at hx
    cases hs : (u.lane l).state with
    | running =>
      rw [hs] at hx
      exact accepted_eq hx hlinks rfl
    | stalled =>
      rw [hs] at hx
      dsimp only at hx
      rw [stalledForm_eq hs] at hx
      exact accepted_eq hx hlinks rfl
    | markwait =>
      rw [hs] at hx
      exact accepted_eq hx hlinks rfl
    | idle =>
      rw [hs] at hx
      exact accepted_eq hx hlinks rfl
    | holding f =>
      rw [hs] at hx
      dsimp only at hx ⊢
      unfold State.lane
      rw [Bank.upd_sel_self]
      exact accepted_eq hx hlinks rfl
    | faulted c =>
      rw [hs] at hx
      exact refused_eq hx
    | off => trivial
    | released _ _ => trivial
  · rw [laneOfHolder_of_not_holder hl hh] at hx
    rw [if_pos hh]
    exact refused_eq hx

/-! ## RETIME (R102) -/

theorem timingBytes_eq (t : Timing) : timingBytes t =
    [match t.unit with | .ns100 => 0x00 | .us1 => 0x01 | .us10 => 0x02 | .us100 => 0x03,
      BitVec.ofNat 8 t.period, BitVec.ofNat 8 t.strobe] := by
  unfold timingBytes
  cases t.unit <;> rfl

/-- Settles O35, check by check. -/
theorem retimeStagesTiming : Obligations.RetimeStagesTiming := by
  intro s k req live l hw hl
  refine ⟨_, congrArg Host.Outcome.next (decide_of_waits hw (retimeRequest s k)), ?_⟩
  generalize hx : retimeRequest s k req.params = x
  unfold retimeRequest at hx
  have hlinks := settleRelease_links s l
  dsimp only
  by_cases hh : (s.lease l).holder = some k
  · rw [laneOfHolder_of_holder hl hh] at hx
    dsimp only at hx
    rw [if_neg (not_not.2 hh)]
    generalize s.settleRelease l = u at hx hlinks
    unfold retimeLane at hx
    cases ht : encodeTiming (u32At req.params 1) (u32At req.params 5) with
    | none =>
      rw [ht] at hx
      exact refused_eq hx
    | some t =>
      rw [ht] at hx
      dsimp only at hx ⊢
      unfold Lane.current at hx
      cases hc : (u.lane l).state.hasCurrent with
      | false =>
        rw [hc] at hx
        exact refused_eq hx
      | true =>
        rw [hc, if_pos rfl] at hx
        cases hq : (u.lane l).queue with
        | nil =>
          rw [hq] at hx
          exact refused_eq hx
        | cons e rest =>
          rw [hq] at hx
          dsimp only [List.head?_cons] at hx ⊢
          split
          · exact refused_if hx ‹_›
          replace hx := else_of hx ‹_›
          split
          · exact refused_if hx (Option.isSome_iff_ne_none.2 ‹_›)
          replace hx := else_of hx (mt Option.isSome_iff_ne_none.1 ‹_›)
          rw [timingBytes_eq] at hx
          exact accepted_eq hx hlinks rfl
  · rw [laneOfHolder_of_not_holder hl hh] at hx
    rw [if_pos hh]
    exact refused_eq hx

end Sys2Proof.Machine
end

section
/-! MARK_SET and the status reports (R55, R136, R138, R144, R180). -/

namespace Sys2Proof.Machine

/-! ## A setting of a mark (R136) -/

/-- The walk releases the PASS waiters ahead of the first TAKE waiter and that one, and sets the mark where there is none. -/
theorem markWalk_eq (ws : List (LaneId × WaitMode)) :
    markWalk ws = ((ws.takeWhile (fun w => w.2 == .pass) ++ (ws.dropWhile (fun w => w.2 == .pass)).take 1).map (fun w => w.1),
      (ws.dropWhile (fun w => w.2 == .pass)).drop 1, (ws.dropWhile (fun w => w.2 == .pass)).isEmpty) := by
  induction ws with
  | nil => rfl
  | cons w ws ih =>
    obtain ⟨l, mode⟩ := w
    cases mode with
    | pass =>
      simp only [markWalk]
      rw [ih]
      rfl
    | take => rfl

theorem releaseLanes_eq (x : Option (LaneId × Nat)) (ls : List LaneId) : ∀ s : State,
    ls.foldl (State.releaseLane x) s = { s with lanes := (ls.foldl (State.releaseLane x) s).lanes } := by
  induction ls with
  | nil => exact fun _ => rfl
  | cons l ls ih =>
    intro s
    rw [List.foldl_cons, ih]
    rfl

/-- Settles O48, by whether the mark is SET. -/
theorem markSettingWalksTheList : Obligations.MarkSettingWalksTheList := by
  intro s k req live hw
  refine ⟨_, congrArg Host.Outcome.next (decide_of_waits hw (markSetRequest s)), ?_⟩
  generalize hx : markSetRequest s req.params = x
  unfold markSetRequest at hx
  cases hm : decodeMark (byteAt req.params 0) with
  | none =>
    rw [hm] at hx
    exact refused_eq hx
  | some m =>
    rw [hm] at hx
    dsimp only at hx ⊢
    unfold State.settleMark at hx
    rw [markWalk_eq] at hx
    split
    · rename_i hset
      rw [if_pos hset] at hx
      dsimp only at hx
      rw [hset] at hx
      exact accepted_eq hx rfl rfl
    · rename_i hset
      rw [if_neg hset] at hx
      dsimp only at hx
      generalize hr : ((s.mark m).waiters.takeWhile (fun w => w.2 == .pass) ++
        ((s.mark m).waiters.dropWhile (fun w => w.2 == .pass)).take 1).map (fun w => w.1) = released at hx ⊢
      generalize hv : Mark.mk ((s.mark m).waiters.dropWhile (fun w => w.2 == .pass)).isEmpty
        (((s.mark m).waiters.dropWhile (fun w => w.2 == .pass)).drop 1) = v at hx ⊢
      have he := releaseLanes_eq none released (s.setMark m v)
      have hmark : ((released.foldl (State.releaseLane none) (s.setMark m v)).mark m) = v := by
        rw [he]; exact Bank.sel_upd_self s.marks m v
      have hlane := fun l => releaseLanes_lane none released l (s.setMark m v)
      have hisSet : v.isSet = ((s.mark m).waiters.dropWhile (fun w => w.2 == .pass)).isEmpty := by rw [← hv]
      rw [hmark, hisSet] at hx
      generalize released.foldl (State.releaseLane none) (s.setMark m v) = u at hx he hlane
      have hlinks : u.links = s.links := by rw [he]; rfl
      obtain ⟨h1, h2⟩ := accepted_eq (k := k) (req := req) (live := live) hx hlinks rfl
      generalize x.1.answer k req live x.2 = t at h1 h2 ⊢
      have hlanes : t.lanes = u.lanes := by rw [h1]
      refine ⟨?_, fun l => ?_, h2⟩
      · rw [hlanes]
        exact h1.trans (congrArg (fun w : State => { w with links := t.links }) he)
      · exact (congrArg (fun b => b.sel l) hlanes).trans (hlane l)

/-! ## Status reports (R55, R144, R180) -/

/-- The first n of a list, filled up with a byte. -/
theorem take_fill (f : α → Byte) (ws : List α) (n : Nat) (b : Byte) :
    (ws.map f).take n ++ List.replicate (n - ((ws.map f).take n).length) b =
      (List.range n).map (fun i => (ws[i]?.map f).getD b) := by
  apply List.ext_getElem
  · simp
  · intro i h1 h2
    have hi : i < n := by simpa using h2
    by_cases hw : i < ws.length
    · rw [List.getElem_append_left (by simp; omega)]
      simp [hw]
    · rw [List.getElem_append_right (by simp; omega)]
      simp [hw]

theorem waiterBytes_eq (ws : List WaitingClaim) : waiterBytes ws =
    [match ws[0]? with | some w => byteOf w.host.val | none => 0xFF,
     match ws[1]? with | some w => byteOf w.host.val | none => 0xFF] := by
  unfold waiterBytes
  dsimp only
  rw [take_fill]
  have hbyte : ∀ i : Nat, (ws[i]?.map (fun c => hostByte (some c.host))).getD 0xFF =
      (match ws[i]? with | some w => byteOf w.host.val | none => 0xFF) := fun i => by cases ws[i]? <;> rfl
  rw [← hbyte 0, ← hbyte 1]
  rfl

theorem markRecord_eq (m : Mark) :
    let waiter := fun (i : Nat) => match m.waiters[i]? with
      | some (l, mode) => byteOf l.val ||| (match mode with | .pass => 0x00 | .take => 0x80)
      | none => 0xFF
    markRecord m = [if m.isSet then 1 else 0, waiter 0, waiter 1, waiter 2, waiter 3] := by
  have hwaiter : ∀ i : Nat, (m.waiters[i]?.map waiterByte).getD 0xFF = (match m.waiters[i]? with
      | some (l, mode) => byteOf l.val ||| (match mode with | .pass => 0x00 | .take => 0x80)
      | none => 0xFF) := fun i => by cases m.waiters[i]? <;> rfl
  dsimp only
  unfold markRecord
  dsimp only
  rw [List.cons_append, take_fill, ← hwaiter 0, ← hwaiter 1, ← hwaiter 2, ← hwaiter 3]
  rfl

theorem laneStatusRecord_eq (r : Lease) (ln : Lane) :
    let host := fun (i : Nat) => match r.waiters[i]? with | some w => byteOf w.host.val | none => 0xFF
    let state : Byte := match ln.state with
      | .off => 0x00 | .idle => 0x01 | .markwait => 0x02 | .released .. => 0x03 | .running => 0x03 | .stalled => 0x04
      | .holding _ => 0x05 | .faulted _ => 0x06
    let fault : Byte := match ln.state with
      | .faulted .readyTimeout => 0x05
      | .faulted .ackTimeout => 0x06
      | _ => 0x00
    let current := match ln.state.hasCurrent, ln.queue with
      | true, e :: _ => some e
      | _, _ => none
    laneStatusRecord r ln =
      [state, fault, hostByte r.holder, host 0, host 1, byteOf ln.queue.length,
        (if current.isSome then 0x01 else 0x00) ||| (if ln.staged.isSome then 0x02 else 0x00)] ++
      (match current with
        | some e => le16 e.tag.toNat ++ le16 ln.pass ++ le16 ln.words
        | none => [0, 0, 0, 0, 0, 0]) ++ le16 r.remaining := by
  have hstate : laneStateByte ln.state = (match ln.state with
      | .off => 0x00 | .idle => 0x01 | .markwait => 0x02 | .released .. => 0x03 | .running => 0x03 | .stalled => 0x04
      | .holding _ => 0x05 | .faulted _ => 0x06) := by cases ln.state <;> rfl
  have hfault : faultByte ln.state = (match ln.state with
      | .faulted .readyTimeout => 0x05
      | .faulted .ackTimeout => 0x06
      | _ => 0x00) := by
    cases ln.state with
    | faulted c => cases c <;> rfl
    | _ => rfl
  have hcurrent : ln.current = (match ln.state.hasCurrent, ln.queue with
      | true, e :: _ => some e
      | _, _ => none) := by
    unfold Lane.current
    cases ln.state.hasCurrent <;> cases ln.queue <;> rfl
  dsimp only
  rw [← hstate, ← hfault, ← hcurrent]
  unfold laneStatusRecord
  rw [waiterBytes_eq]
  cases ln.current <;> rfl

theorem countState_eq (st : Store) (x : SegmentState) :
    st.countState x = slots.countP (fun i => (st.entry i).state == x) := List.countP_eq_length_filter.symm

/-- Settles O50, report by report. -/
theorem statusReportsChangeNoState : Obligations.StatusReportsChangeNoState := by
  refine ⟨fun s k req live hw => ?_, fun s k req live hw => ?_, fun s k req live hw => ?_⟩
  · refine ⟨_, congrArg Host.Outcome.next (decide_of_waits hw (laneStatusRequest s)), ?_⟩
    generalize hx : laneStatusRequest s req.params = x
    unfold laneStatusRequest at hx
    cases hl : decodeLane (byteAt req.params 0) with
    | none =>
      rw [hl] at hx
      exact refused_eq hx
    | some l =>
      rw [hl] at hx
      dsimp only at hx ⊢
      rw [laneStatusRecord_eq] at hx
      generalize (s.settleRelease l).lane l = ln at hx ⊢
      exact accepted_eq hx rfl rfl
  · refine ⟨_, congrArg Host.Outcome.next (decide_of_waits hw (fun _ => markStatusRequest s)), ?_⟩
    generalize hx : markStatusRequest s = x
    unfold markStatusRequest at hx
    have he : markIds.flatMap (fun m => markRecord (s.mark m)) = _ :=
      congrArg (fun f => (List.finRange 8).flatMap f) (funext fun m => markRecord_eq (s.mark m))
    rw [he] at hx
    exact accepted_eq hx rfl rfl
  · refine ⟨_, congrArg Host.Outcome.next (decide_of_waits hw (fun _ => (s, okReply (deviceStatusRecord s)))), ?_⟩
    generalize hx : (s, okReply (deviceStatusRecord s)) = x
    unfold deviceStatusRecord at hx
    simp only [countState_eq] at hx
    exact accepted_eq hx rfl rfl

end Sys2Proof.Machine
end

section
/-! RESUME and ENQUEUE (R64 to R66, R109 to R111). -/

namespace Sys2Proof.Machine

/-! ## RESUME (R109) -/

theorem goIdle_eq (u : State) (l : LaneId) : u.goIdle l = { u with lanes := u.lanes.upd l { (u.lane l) with
    state := .idle, drive := Drive.ofWord (u.lease l).park, stb := stbInactive (u.lease l).stbPol } } := by
  unfold State.goIdle State.showPark
  rw [State.setLane_lane_self]
  unfold State.setLane
  dsimp only
  rw [Bank.upd_upd_self]
  rfl

theorem LaneFrame.rtnActive {s t : State} (h : LaneFrame s t) (l : LaneId) : t.rtnActive l = s.rtnActive l := by
  unfold State.rtnActive State.pinsOf
  rw [h.lease, h.pins]

theorem LaneFrame.now {s t : State} (h : LaneFrame s t) : t.now = s.now := congrArg TimeBase.clock h.time

/-- The first judgement of a watch on a lane that a frame leaves its lease and its pins (R83). -/
theorem LaneFrame.judgeNow {s t : State} (h : LaneFrame s t) (l : LaneId) :
    t.judgeNow l = if s.rtnActive l then none else some s.now := by
  unfold State.judgeNow
  rw [h.rtnActive, h.now]

theorem startAckWait_eq {s u : State} (h : LaneFrame s u) (l : LaneId) : u.startAckWait l =
    { u with lanes := u.lanes.upd l { (u.lane l) with
        state := .stalled, inactiveAt := if s.rtnActive l then none else some s.now, stallTimer := some s.now } } := by
  unfold State.startAckWait
  rw [h.judgeNow, h.now]
  rfl

theorem startEdgeWatch_eq {s u : State} (h : LaneFrame s u) (l : LaneId) (n : Nat) : u.startEdgeWatch l n =
    { u with lanes := u.lanes.upd l { (u.lane l) with
        state := .stalled, inactiveAt := if s.rtnActive l then none else some s.now,
        capture := { (u.lane l).capture with timer := some n } } } := by
  unfold State.startEdgeWatch
  rw [h.judgeNow]
  rfl

/-- Settles O34, state by state. -/
theorem resumeByLaneState : Obligations.ResumeByLaneState := by
  intro s k req live l hw hl
  refine ⟨_, congrArg Host.Outcome.next (decide_of_waits hw (resumeRequest s k)), ?_⟩
  generalize hx : resumeRequest s k req.params = x
  unfold resumeRequest at hx
  have hframe := settleRelease_frame s l
  dsimp only
  by_cases hh : (s.lease l).holder = some k
  · rw [laneOfHolder_of_holder hl hh] at hx
    dsimp only at hx
    rw [if_neg (not_not.2 hh)]
    generalize s.settleRelease l = u at hx hframe
    have hlinks := hframe.links
    unfold resumeByState at hx
    dsimp only at hx
    cases hs : (u.lane l).state with
    | running =>
      rw [hs] at hx
      dsimp only at hx ⊢
      split
      · exact accepted_eq (then_of hx ‹_›) hlinks rfl
      · exact refused_eq (else_of hx ‹_›)
    | stalled =>
      rw [hs] at hx
      exact refused_eq hx
    | markwait =>
      rw [hs] at hx
      exact refused_eq hx
    | idle =>
      rw [hs] at hx
      exact refused_eq hx
    | holding f =>
      rw [hs] at hx
      cases f with
      | betweenEntries => exact accepted_eq hx ((entryStart_frame u l).links.trans hlinks) rfl
      | outOfIdle => exact accepted_eq hx ((entryStart_frame u l).links.trans hlinks) rfl
      | outOfMarkwait =>
        cases hq : (u.lane l).queue with
        | nil => trivial
        | cons e rest =>
          rw [hq] at hx
          exact accepted_eq hx ((offerWait_frame u l e).links.trans hlinks) rfl
      | atBoundary =>
        cases hq : (u.lane l).queue with
        | nil => trivial
        | cons e rest =>
          rw [hq] at hx
          dsimp only at hx ⊢
          unfold State.resumeWithin at hx
          split
          · rw [if_pos ‹_›] at hx
            exact accepted_eq hx ((endAndGoOn_frame u l _).links.trans hlinks) rfl
          · rw [if_neg ‹_›] at hx
            exact accepted_eq hx ((attemptBoundary_frame u l e).links.trans hlinks) rfl
      | inWait =>
        cases hq : (u.lane l).queue with
        | nil => trivial
        | cons e rest =>
          rw [hq] at hx
          dsimp only at hx ⊢
          unfold State.resumeWithin at hx
          split
          · rw [if_pos ‹_›] at hx
            exact accepted_eq hx ((endAndGoOn_frame u l _).links.trans hlinks) rfl
          · rw [if_neg ‹_›] at hx
            dsimp only at hx
            rw [startEdgeWatch_eq hframe, startAckWait_eq hframe, hframe.now] at hx
            rw [← hq]
            split
            · rw [if_pos ‹_›] at hx
              exact accepted_eq hx hlinks rfl
            · rw [if_neg ‹_›] at hx
              exact accepted_eq hx hlinks rfl
    | faulted c =>
      rw [hs] at hx
      dsimp only at hx ⊢
      rw [goIdle_eq, hframe.lease] at hx
      exact accepted_eq hx (by exact (entryStart_frame _ l).links.trans hlinks) rfl
    | off => trivial
    | released _ _ => trivial
  · rw [laneOfHolder_of_not_holder hl hh] at hx
    rw [if_pos hh]
    exact refused_eq hx

/-! ## The fields of a play entry (table 10-5) -/

/-- The code of a pacing. -/
def pacingByte : Pacing → Byte
  | .free => 0x00 | .ready => 0x01 | .ack => 0x02 | .step => 0x10 | .change => 0x11 | .rtnEdge => 0x12

/-- The wait mark byte of a wait. -/
def waitMarkByte : Option (MarkId × WaitMode) → Byte
  | none => 0x00
  | some (m, mode) => 0x80 + byteOf m.val + (match mode with | .pass => 0x00 | .take => 0x08)

/-- The post mark byte of a post mark. -/
def postMarkByte : Option MarkId → Byte
  | none => 0x00
  | some m => 0x80 + byteOf m.val

theorem decodePacing_some {b : Byte} {x : Pacing} (h : decodePacing b = some x) : pacingByte x = b := by
  unfold decodePacing at h
  split_ifs at h with h0 h1 h2 h3 h4 h5
  all_goals
    cases h
    symm
    assumption

/-- The kind and the pacing fit: an output under FREE, READY or ACK, or a capture under STEP, CHANGE or RTN_EDGE. -/
theorem kind_of_pacing {a b : Byte} {x : Pacing} (ha : decodeKind a = some (pacingKind x)) (hb : decodePacing b = some x) :
    (a = 0 ∧ b.toNat ≤ 2 ∧ pacingKind x = .output) ∨
      (a = 1 ∧ 0x10 ≤ b.toNat ∧ b.toNat ≤ 0x12 ∧ pacingKind x = .capture) := by
  have hb := decodePacing_some hb
  unfold decodeKind at ha
  split_ifs at ha with h0 h1
  · left
    refine ⟨h0, ?_, (Option.some.inj ha).symm⟩
    cases x <;> cases ha <;> subst hb <;> decide
  · right
    refine ⟨h1, ?_, ?_, (Option.some.inj ha).symm⟩
    · cases x <;> cases ha <;> subst hb <;> decide
    · cases x <;> cases ha <;> subst hb <;> decide

theorem pacing_of_output {b : Byte} (h : b.toNat ≤ 2) : ∃ x, decodePacing b = some x ∧ pacingKind x = .output := by
  have hb : b = 0 ∨ b = 1 ∨ b = 2 := by
    rcases (by omega : b.toNat = 0 ∨ b.toNat = 1 ∨ b.toNat = 2) with h | h | h
    · exact .inl (BitVec.eq_of_toNat_eq h)
    · exact .inr (.inl (BitVec.eq_of_toNat_eq h))
    · exact .inr (.inr (BitVec.eq_of_toNat_eq h))
  rcases hb with rfl | rfl | rfl
  · exact ⟨.free, rfl, rfl⟩
  · exact ⟨.ready, rfl, rfl⟩
  · exact ⟨.ack, rfl, rfl⟩

theorem pacing_of_capture {b : Byte} (h1 : 0x10 ≤ b.toNat) (h2 : b.toNat ≤ 0x12) :
    ∃ x, decodePacing b = some x ∧ pacingKind x = .capture := by
  have hb : b = 0x10 ∨ b = 0x11 ∨ b = 0x12 := by
    rcases (by omega : b.toNat = 0x10 ∨ b.toNat = 0x11 ∨ b.toNat = 0x12) with h | h | h
    · exact .inl (BitVec.eq_of_toNat_eq h)
    · exact .inr (.inl (BitVec.eq_of_toNat_eq h))
    · exact .inr (.inr (BitVec.eq_of_toNat_eq h))
  rcases hb with rfl | rfl | rfl
  · exact ⟨.step, rfl, rfl⟩
  · exact ⟨.change, rfl, rfl⟩
  · exact ⟨.rtnEdge, rfl, rfl⟩

/-- Wait and post mark bytes are put together again from their bits. -/
theorem wait_bits : ∀ b : BitVec 8, b &&& 0xF0 = 0x80 →
    0x80 + byteOf (markBits b).val + (if b.getLsbD 3 then 0x08 else 0x00) = b := by decide

theorem post_bits : ∀ b : BitVec 8, b &&& 0xF8 = 0x80 → 0x80 + byteOf (markBits b).val = b := by decide

theorem decodeWait_some {b : Byte} {x : Option (MarkId × WaitMode)} (h : decodeWait b = some x) :
    (b = 0 ∨ b &&& 0xF0 = 0x80) ∧ waitMarkByte x = b := by
  unfold decodeWait at h
  split_ifs at h with h0 h1 h2
  · cases h
    exact ⟨.inl h0, h0.symm⟩
  · cases h
    have hb := wait_bits b h1
    rw [if_pos h2] at hb
    exact ⟨.inr h1, hb⟩
  · cases h
    have hb := wait_bits b h1
    rw [if_neg h2] at hb
    exact ⟨.inr h1, hb⟩

theorem decodePost_some {b : Byte} {x : Option MarkId} (h : decodePost b = some x) :
    (b = 0 ∨ b &&& 0xF8 = 0x80) ∧ postMarkByte x = b := by
  unfold decodePost at h
  split_ifs at h with h0 h1
  · cases h
    exact ⟨.inl h0, h0.symm⟩
  · cases h
    exact ⟨.inr h1, post_bits b h1⟩

theorem decodeWait_of_fits {b : Byte} (h : b = 0 ∨ b &&& 0xF0 = 0x80) : ∃ x, decodeWait b = some x := by
  unfold decodeWait
  by_cases h0 : b = 0
  · exact ⟨_, if_pos h0⟩
  · exact ⟨_, (if_neg h0).trans (if_pos (h.resolve_left h0))⟩

theorem decodePost_of_fits {b : Byte} (h : b = 0 ∨ b &&& 0xF8 = 0x80) : ∃ x, decodePost b = some x := by
  unfold decodePost
  by_cases h0 : b = 0
  · exact ⟨_, if_pos h0⟩
  · exact ⟨_, (if_neg h0).trans (if_pos (h.resolve_left h0))⟩

theorem entryRanges_iff (kind : EntryKind) (o c r : Nat) : entryRanges kind o c r = true ↔
    o ≤ 16383 ∧ 1 ≤ c ∧ c ≤ 16384 ∧ r ≤ 255 ∧ (kind = .output ∨ (o = 0 ∧ r = 1)) := by
  unfold entryRanges Config.maxWords
  simp only [Bool.and_eq_true, Bool.or_eq_true, decide_eq_true_eq, beq_iff_eq, and_assoc]

theorem decodeFlag_some {b : Byte} {x : Bool} (h : decodeFlag b = some x) : b.toNat ≤ 1 ∧ (x = true ↔ b = 1) := by
  unfold decodeFlag at h
  split_ifs at h with h0 h1
  · cases h
    subst h0
    decide
  · cases h
    subst h1
    decide

/-- What an ENQUEUE's parameters must be for their fields to be read, and what is read. -/
theorem decodeEntry_some {p : List Byte} {f : EntryFields} (h : decodeEntry p = some f) :
    decodeKind (byteAt p 1) = some (pacingKind f.pacing) ∧ decodePacing (byteAt p 17) = some f.pacing ∧
      decodeWait (byteAt p 20) = some f.waitMark ∧ decodePost (byteAt p 21) = some f.postMark ∧
      decodeFlag (byteAt p 24) = some f.notifyStart ∧
      entryRanges (pacingKind f.pacing) (u16At p 4) (u16At p 6) (byteAt p 8).toNat = true ∧
      f.segment = segmentAt p 2 ∧ f.offset = u16At p 4 ∧ f.count = u16At p 6 ∧ f.repeats = (byteAt p 8).toNat ∧
      f.period = u32At p 9 ∧ f.strobe = u32At p 13 ∧ f.stallLimit = u16At p 18 ∧ f.tag = wordAt p 22 := by
  unfold decodeEntry at h
  split at h
  · rename_i kind pacing wait post notify h1 h2 h3 h4 h5
    split at h
    · rename_i hc
      obtain ⟨rfl, hr⟩ := hc
      cases h
      exact ⟨h1, h2, h3, h4, h5, hr, rfl, rfl, rfl, rfl, rfl, rfl, rfl, rfl⟩
    · cases h
  · cases h

theorem decodeEntry_of_fits {p : List Byte} {x : Pacing} {w : Option (MarkId × WaitMode)} {m : Option MarkId} {n : Bool}
    (h1 : decodeKind (byteAt p 1) = some (pacingKind x)) (h2 : decodePacing (byteAt p 17) = some x)
    (h3 : decodeWait (byteAt p 20) = some w) (h4 : decodePost (byteAt p 21) = some m)
    (h5 : decodeFlag (byteAt p 24) = some n)
    (h6 : entryRanges (pacingKind x) (u16At p 4) (u16At p 6) (byteAt p 8).toNat = true) : decodeEntry p ≠ none := by
  unfold decodeEntry
  rw [h1, h2, h3, h4, h5]
  dsimp only
  rw [if_pos ⟨rfl, h6⟩]
  exact Option.some_ne_none _

theorem entry_fields (p : List Byte) :
    let field := fun i => byteAt p i
    let fits :=
      ((field 1 = 0 ∧ (field 17).toNat ≤ 2) ∨
        (field 1 = 1 ∧ 0x10 ≤ (field 17).toNat ∧ (field 17).toNat ≤ 0x12 ∧ u16At p 4 = 0 ∧ field 8 = 1)) ∧
      u16At p 4 ≤ 16383 ∧ 1 ≤ u16At p 6 ∧ u16At p 6 ≤ 16384 ∧ (field 20 = 0 ∨ field 20 &&& 0xF0 = 0x80) ∧
      (field 21 = 0 ∨ field 21 &&& 0xF8 = 0x80) ∧ (field 24).toNat ≤ 1
    match decodeEntry p with
    | none => ¬fits
    | some f =>
      fits ∧
      (match f.pacing with
        | .free => 0x00 | .ready => 0x01 | .ack => 0x02 | .step => 0x10 | .change => 0x11 | .rtnEdge => 0x12) = field 17 ∧
      f.segment = ⟨field 2, field 3⟩ ∧ f.offset = u16At p 4 ∧ f.count = u16At p 6 ∧ f.repeats = (field 8).toNat ∧
      f.period = u32At p 9 ∧ f.strobe = u32At p 13 ∧ f.stallLimit = u16At p 18 ∧
      (match f.waitMark with
        | none => 0x00
        | some (m, mode) => 0x80 + byteOf m.val + (match mode with | .pass => 0x00 | .take => 0x08)) = field 20 ∧
      (match f.postMark with
        | none => 0x00
        | some m => 0x80 + byteOf m.val) = field 21 ∧
      f.tag = wordAt p 22 ∧ (f.notifyStart = true ↔ field 24 = 1) := by
  intro field fits
  cases hd : decodeEntry p with
  | none =>
    rintro ⟨hkind, hoff, hcount, hmax, hwait, hpost, hflag⟩
    obtain ⟨w, hw⟩ := decodeWait_of_fits hwait
    obtain ⟨m, hm⟩ := decodePost_of_fits hpost
    have hn := decodeFlag_of_le hflag
    have h8 : (byteAt p 8).toNat ≤ 255 := by omega
    rcases hkind with ⟨hk, hp⟩ | ⟨hk, hp1, hp2, hzero, hone⟩
    · obtain ⟨x, hx, hx'⟩ := pacing_of_output hp
      refine decodeEntry_of_fits ?_ hx hw hm hn ?_ hd
      · rw [hx']
        exact congrArg decodeKind hk
      · exact (entryRanges_iff _ _ _ _).2 ⟨hoff, hcount, hmax, h8, .inl hx'⟩
    · obtain ⟨x, hx, hx'⟩ := pacing_of_capture hp1 hp2
      refine decodeEntry_of_fits ?_ hx hw hm hn ?_ hd
      · rw [hx']
        exact congrArg decodeKind hk
      · exact (entryRanges_iff _ _ _ _).2 ⟨hoff, hcount, hmax, h8, .inr ⟨hzero, congrArg BitVec.toNat hone⟩⟩
  | some f =>
    obtain ⟨h1, h2, h3, h4, h5, h6, hseg, ho, hc, hr, hper, hstr, hlim, htag⟩ := decodeEntry_some hd
    obtain ⟨r1, r2, r3, -, r5⟩ := (entryRanges_iff _ _ _ _).1 h6
    obtain ⟨hw, hw'⟩ := decodeWait_some h3
    obtain ⟨hm, hm'⟩ := decodePost_some h4
    obtain ⟨hn, hn'⟩ := decodeFlag_some h5
    refine ⟨⟨?_, r1, r2, r3, hw, hm, hn⟩, decodePacing_some h2, hseg, ho, hc, hr, hper, hstr, hlim, hw', hm', htag, hn'⟩
    rcases kind_of_pacing h1 h2 with ⟨ha, hb, -⟩ | ⟨ha, hb, hb', hk⟩
    · exact .inl ⟨ha, hb⟩
    · obtain ⟨hz, hone⟩ := r5.resolve_left (by rw [hk]; exact EntryKind.noConfusion)
      exact .inr ⟨ha, hb, hb', hz, BitVec.eq_of_toNat_eq hone⟩

/-! ## ENQUEUE (R64 to R66) -/

/-- The reference take in the order of R23, where the handle check passes. -/
theorem takeCheck_of_ok {st : Store} {r : SegmentRef} {i : Slot} (h : st.handleCheck r = .ok i) (k : HostId)
    (kind : EntryKind) (o n q : Nat) :
    let g := st.entry i
    st.takeCheck k kind r o n (decide (q < Config.queueDepth)) =
      if kind = .output ∧ g.state ≠ .published then .error .wrongState
      else if kind = .output ∧ g.owner ≠ k ∧ g.visibility = .hidden then .error .notVisible
      else if kind = .capture ∧ g.owner ≠ k then .error .notOwner
      else if kind = .capture ∧ g.state ≠ .opened then .error .wrongState
      else if kind = .output ∧ g.length < o + n then .error .badRange
      else if 8 ≤ q then .error .queueFull
      else .ok i := by
  have hroom : ∀ a b : Except Status Slot, (if decide (q < Config.queueDepth) = true then a else b) = if 8 ≤ q then b else a := by
    intro a b
    unfold Config.queueDepth
    by_cases hq : 8 ≤ q
    · rw [if_pos hq, if_neg (by simpa using hq)]
    · rw [if_neg hq, if_pos (by simpa using hq)]
  unfold Store.takeCheck
  rw [h]
  cases kind with
  | output => simp only [hroom, true_and, reduceCtorEq, false_and, if_false]
  | capture => simp only [hroom, true_and, reduceCtorEq, false_and, if_false]

theorem takeCheck_of_error {st : Store} {r : SegmentRef} {x : Status} (h : st.handleCheck r = .error x) (k : HostId)
    (kind : EntryKind) (o n : Nat) (room : Bool) : st.takeCheck k kind r o n room = .error x := by
  unfold Store.takeCheck
  rw [h]

theorem queueEntry_eq (u : State) (l : LaneId) (i : Slot) (e : Entry) : u.queueEntry l i e = { u with
    store := { u.store with table := u.store.table.upd i { (u.store.entry i) with refs := (u.store.entry i).refs + 1 } },
    nextEntryId := u.nextEntryId + 1,
    lanes := u.lanes.upd l { (u.lane l) with queue := (u.lane l).queue ++ [e] } } := rfl

theorem acceptEntry_links (u : State) (l : LaneId) (i : Slot) (e : Entry) : (u.acceptEntry l i e).links = u.links := by
  rw [acceptEntry_queueEntry]
  split
  · exact (entryStart_frame _ l).links
  · rfl

/-- An ENQUEUE whose fields and timing are good, on the state that the lane's release and its earlier claims leave. -/
theorem enqueue_decided {s u : State} {k : HostId} {req : Request} {live : Bool} {l : LaneId} {x : State × Reply}
    {f : EntryFields} {timing : Timing} (hlinks : u.links = s.links)
    (hx : (match u.store.takeCheck k (pacingKind f.pacing) f.segment f.offset f.count
        (decide ((u.lane l).queue.length < Config.queueDepth)) with
      | .error status => (u, refusal status)
      | .ok i => (u.acceptEntry l i (f.entry u.nextEntryId timing k),
          okReply (byteOf ((u.lane l).queue.length + 1) :: timingBytes timing))) = x) :
    let t := x.1.answer k req live x.2
    let ln := u.lane l
    match u.store.handleCheck f.segment with
    | .error x => u.refused t k req live x
    | .ok i =>
      let g := u.store.entry i
      let v := u.queueEntry l i (f.entry u.nextEntryId timing k)
      if pacingKind f.pacing = .output ∧ g.state ≠ .published then u.refused t k req live .wrongState
      else if pacingKind f.pacing = .output ∧ g.owner ≠ k ∧ g.visibility = .hidden then
        u.refused t k req live .notVisible
      else if pacingKind f.pacing = .capture ∧ g.owner ≠ k then u.refused t k req live .notOwner
      else if pacingKind f.pacing = .capture ∧ g.state ≠ .opened then u.refused t k req live .wrongState
      else if pacingKind f.pacing = .output ∧ g.length < f.offset + f.count then u.refused t k req live .badRange
      else if 8 ≤ ln.queue.length then u.refused t k req live .queueFull
      else
        t = { (if ln.state = .idle then v.entryStart l else v) with links := t.links } ∧
        s.answered t k req live (okReply (byteOf (ln.queue.length + 1) :: timingBytes timing)) := by
  dsimp only
  cases hc : u.store.handleCheck f.segment with
  | error y =>
    rw [takeCheck_of_error hc] at hx
    exact refused_eq hx
  | ok i =>
    rw [takeCheck_of_ok hc] at hx
    dsimp only at hx ⊢
    split
    · rw [if_pos ‹_›] at hx; exact refused_eq hx
    rw [if_neg ‹_›] at hx
    split
    · rw [if_pos ‹_›] at hx; exact refused_eq hx
    rw [if_neg ‹_›] at hx
    split
    · rw [if_pos ‹_›] at hx; exact refused_eq hx
    rw [if_neg ‹_›] at hx
    split
    · rw [if_pos ‹_›] at hx; exact refused_eq hx
    rw [if_neg ‹_›] at hx
    split
    · rw [if_pos ‹_›] at hx; exact refused_eq hx
    rw [if_neg ‹_›] at hx
    split
    · rw [if_pos ‹_›] at hx; exact refused_eq hx
    rw [if_neg ‹_›] at hx
    exact accepted_eq hx ((acceptEntry_links u l i _).trans hlinks) (acceptEntry_queueEntry u l i _)

/-- A request that its owner refuses BAD_PARAM for want of a lane. -/
theorem refused_of_no_lane {s : State} {k : HostId} {kind : RequestKind} {req : Request} {live : Bool}
    {f : List Byte → State × Reply} (hw : s.waits k kind req live) (hf : f req.params = (s, refusal .badParam)) :
    s.refused (s.decide k kind f) k req live .badParam := by
  rw [decide_of_waits hw f, hf]
  exact refused_of k req live .badParam

/-- Settles O30: the checks in order, the fields byte by byte, and each of the six requests for no lane. -/
theorem enqueueQueuesOrStarts : Obligations.EnqueueQueuesOrStarts := by
  refine ⟨fun s k req live l hw hl => ?_, entry_fields, fun s k req live kind hk hw hp => ?_⟩
  · refine ⟨_, congrArg Host.Outcome.next (decide_of_waits hw (enqueueRequest s k)), ?_⟩
    generalize hx : enqueueRequest s k req.params = x
    unfold enqueueRequest at hx
    dsimp only
    by_cases hh : (s.lease l).holder = some k
    · rw [laneOfHolder_of_holder hl hh] at hx
      dsimp only at hx
      rw [if_neg (not_not.2 hh)]
      cases hf : decodeEntry req.params with
      | none =>
        rw [hf] at hx
        exact refused_eq hx
      | some f =>
        rw [hf] at hx
        dsimp only at hx ⊢
        cases ht : encodeTiming f.period f.strobe with
        | none =>
          rw [ht] at hx
          exact refused_eq hx
        | some timing =>
          rw [ht] at hx
          dsimp only at hx ⊢
          have hlinks : ((s.settleRelease l).settleClaims l).links = s.links :=
            (settleClaims_start (s.settleRelease l) l).links.trans (settleRelease_links s l)
          generalize (s.settleRelease l).settleClaims l = u at hx hlinks ⊢
          have h := enqueue_decided (req := req) (live := live) hlinks hx
          rw [timingBytes_eq] at h
          exact h
    · rw [laneOfHolder_of_not_holder hl hh] at hx
      rw [if_pos hh]
      exact refused_eq hx
  · have hn := laneOfHolder_of_no_lane (s := s) (k := k) hp
    simp only [List.mem_cons, List.not_mem_nil, or_false] at hk
    rcases hk with rfl | rfl | rfl | rfl | rfl | rfl
    · exact ⟨_, rfl, refused_of_no_lane hw (by unfold enqueueRequest; rw [hn])⟩
    · exact ⟨_, rfl, refused_of_no_lane hw (by unfold flushRequest; rw [hn])⟩
    · exact ⟨_, rfl, refused_of_no_lane hw (by unfold abortRequest; rw [hn])⟩
    · exact ⟨_, rfl, refused_of_no_lane hw (by unfold holdRequest; rw [hn])⟩
    · exact ⟨_, rfl, refused_of_no_lane hw (by unfold resumeRequest; rw [hn])⟩
    · exact ⟨_, rfl, refused_of_no_lane hw (by unfold retimeRequest; rw [hn])⟩

end Sys2Proof.Machine
end

section
/-! The parts of a withdrawal (R57, R32, R158). -/

namespace Sys2Proof.Machine

/-! ## What an event of one lane leaves of the others -/

/-- `t` is `s` to every lane but l: its sequencer and the claims it has presented. -/
def OnlyLane (l : LaneId) (s t : State) : Prop := ∀ j, j ≠ l → t.lane j = s.lane j ∧ t.claimsOf j = s.claimsOf j

section
variable {s t u : State} {l : LaneId}

theorem OnlyLane.refl (l : LaneId) (s : State) : OnlyLane l s s := fun _ _ => ⟨rfl, rfl⟩

theorem OnlyLane.trans (h : OnlyLane l s t) (g : OnlyLane l t u) : OnlyLane l s u := fun j hj =>
  ⟨(g j hj).1.trans (h j hj).1, (g j hj).2.trans (h j hj).2⟩

theorem setLane_only (s : State) (l : LaneId) (v : Lane) : OnlyLane l s (s.setLane l v) := fun _ hj =>
  ⟨State.setLane_lane_ne s l v hj.symm, rfl⟩

theorem present_only (s : State) (l : LaneId) (c : LaneClaim) : OnlyLane l s (s.present l c) := fun _ hj =>
  ⟨rfl, State.setClaims_claimsOf_ne s l _ hj.symm⟩

theorem postRanked_only (s : State) (l : LaneId) (p : Nat → Post) : OnlyLane l s (s.postRanked p) := fun _ _ => ⟨rfl, rfl⟩

theorem driveWord_only (s : State) (l : LaneId) (e : Entry) : OnlyLane l s (s.driveWord l e) := by
  unfold State.driveWord
  dsimp only
  split
  · exact (setLane_only s l _).trans (setLane_only _ l _)
  · exact setLane_only s l _

theorem sampleBoundary_only (s : State) (l : LaneId) (e : Entry) : OnlyLane l s (s.sampleBoundary l e) := by
  unfold State.sampleBoundary
  dsimp only
  split
  · exact (setLane_only s l _).trans (present_only _ l _)
  · exact setLane_only s l _

theorem attemptBoundary_only (s : State) (l : LaneId) (e : Entry) : OnlyLane l s (s.attemptBoundary l e) := by
  unfold State.attemptBoundary
  split
  · split
    · exact setLane_only s l _
    · exact driveWord_only s l e
  · exact sampleBoundary_only s l e

theorem proceed_only (s : State) (l : LaneId) (e : Entry) (x : Stamp) (a : Option (LaneId × Nat)) :
    OnlyLane l s (s.proceed l e x a) := by
  have hpost : ∀ u : State, OnlyLane l u (if e.notifyStart then u.postRanked (startedPost l e x a) else u) := fun u => by
    split
    · exact postRanked_only u l _
    · exact OnlyLane.refl l u
  unfold State.proceed
  dsimp only
  split
  · exact ((setLane_only s l _).trans (hpost _)).trans (attemptBoundary_only _ l e)
  · split
    · exact (((setLane_only s l _).trans (hpost _)).trans (setLane_only _ l _)).trans (setLane_only _ l _)
    · exact (((setLane_only s l _).trans (hpost _)).trans (setLane_only _ l _)).trans (sampleBoundary_only _ l e)

theorem settleRelease_only (s : State) (l : LaneId) : OnlyLane l s (s.settleRelease l) := by
  unfold State.settleRelease
  split
  · exact proceed_only s l _ _ _
  · exact OnlyLane.refl l s

theorem finishEntry_only (s : State) (l : LaneId) (e : Entry) {o : EndOutcome} (ho : o ≠ .complete) (n : Nat) (d r : Bool)
    (x : Option Nat) : OnlyLane l s (s.finishEntry l e o n d r x) := by
  rw [finishEntry_eq s l e ho]
  exact fun j hj => ⟨rfl, Bank.sel_upd_ne s.claims _ hj.symm⟩

theorem endCurrent_only (s : State) (l : LaneId) {o : EndOutcome} (ho : o ≠ .complete) (r : Bool) (x : Option Nat) :
    OnlyLane l s (s.endCurrent l o r x) := by
  unfold State.endCurrent
  split
  · exact OnlyLane.refl l s
  · exact (setLane_only s l _).trans (finishEntry_only _ l _ ho _ _ _ _)

theorem endQueued_only (l : LaneId) {o : EndOutcome} (ho : o ≠ .complete) (r : Bool) (x : Option Nat) (es : List Entry) :
    ∀ s : State, OnlyLane l s (s.endQueued l o r x es) := by
  induction es with
  | nil => exact OnlyLane.refl l
  | cons e es ih => exact fun s => (finishEntry_only s l e ho _ _ _ _).trans (ih _)

/-- The drain of a lane touches no other (R80). -/
theorem drain_only (s : State) (l : LaneId) (r : Bool) : OnlyLane l s (s.drain l r) := by
  unfold State.drain
  dsimp only
  refine OnlyLane.trans (t := (s.settleRelease l).countOrder) (settleRelease_only s l) ?_
  generalize some (s.settleRelease l).orderCount = x
  generalize (s.settleRelease l).countOrder = s1
  refine OnlyLane.trans (t := if (s1.lane l).state = .markwait then s1.removeWaiter l else s1) ?_ ?_
  · split
    · exact fun _ _ => ⟨rfl, rfl⟩
    · exact OnlyLane.refl l s1
  generalize (if (s1.lane l).state = .markwait then s1.removeWaiter l else s1) = s2
  refine OnlyLane.trans (setLane_only s2 l { (s2.lane l) with holdRequest := false }) ?_
  generalize s2.setLane l { (s2.lane l) with holdRequest := false } = s3
  refine OnlyLane.trans (t := if (s3.lane l).state.hasCurrent then s3.endCurrent l .leaseEnded r x else s3) ?_ ?_
  · split
    · exact endCurrent_only s3 l (by decide) r x
    · exact OnlyLane.refl l s3
  generalize (if (s3.lane l).state.hasCurrent then s3.endCurrent l .leaseEnded r x else s3) = s4
  exact ((setLane_only s4 l _).trans (endQueued_only l (by decide) r x _ _)).trans (setLane_only _ l _)

theorem drain_lane (s : State) (l : LaneId) (r : Bool) : (s.drain l r).lane l = Lane.reset := State.setLane_lane_self _ l _

/-! ## The leases of a withdrawn host (R57) -/

/-- What a withdrawal of k leaves of lane l, whose lease, sequencer and claims stood as in `s`. -/
def tookLane (k : HostId) (l : LaneId) (s t : State) : Prop :=
  if (s.lease l).holder = some k then
    match (s.lease l).waiters with
    | [] => t.lease l = Lease.reset ∧ t.lane l = Lane.reset
    | c :: rest =>
      t.lease l = { Lease.reset with
        holder := some c.host, duration := c.duration, remaining := c.duration, waiters := rest } ∧
      t.lane l = { Lane.reset with state := .idle, stb := .low }
  else t.lease l = s.lease l ∧ t.lane l = s.lane l ∧ t.claimsOf l = s.claimsOf l

/-- `t` is `s` to lane l: its lease, its sequencer and the claims it has presented. -/
def SameLane (l : LaneId) (s t : State) : Prop :=
  t.lease l = s.lease l ∧ t.lane l = s.lane l ∧ t.claimsOf l = s.claimsOf l

theorem SameLane.took_left {k : HostId} (h : SameLane l s t) (g : tookLane k l t u) : tookLane k l s u := by
  obtain ⟨h1, h2, h3⟩ := h
  unfold tookLane at g ⊢
  rw [h1, h2, h3] at g
  exact g

theorem SameLane.took_right {k : HostId} (g : tookLane k l s t) (h : SameLane l t u) : tookLane k l s u := by
  obtain ⟨h1, h2, h3⟩ := h
  unfold tookLane at g ⊢
  rw [h1, h2, h3]
  exact g

/-- What a lane that passes on is left with, and what the others keep (R50). -/
theorem State.passedOn.lanes (h : u.passedOn t l) (hl : u.lane l = Lane.reset) :
    (match (u.lease l).waiters with
      | [] => t.lease l = Lease.reset ∧ t.lane l = Lane.reset
      | c :: rest =>
        t.lease l = { Lease.reset with
          holder := some c.host, duration := c.duration, remaining := c.duration, waiters := rest } ∧
        t.lane l = { Lane.reset with state := .idle, stb := .low }) ∧
      ∀ j, j ≠ l → SameLane j u t := by
  unfold State.passedOn at h
  cases hw : (u.lease l).waiters with
  | nil =>
    rw [hw] at h
    subst h
    exact ⟨⟨Bank.sel_upd_self u.leases l _, hl⟩, fun j hj => ⟨Bank.sel_upd_ne u.leases _ hj.symm, rfl, rfl⟩⟩
  | cons c rest =>
    rw [hw] at h
    subst h
    exact ⟨⟨Bank.sel_upd_self u.leases l _, Bank.sel_upd_self u.lanes l _⟩,
      fun j hj => ⟨Bank.sel_upd_ne u.leases _ hj.symm, Bank.sel_upd_ne u.lanes _ hj.symm, rfl⟩⟩

/-- One lane of step 2 of the Lease Controller's part (R57). -/
def State.endLeaseOf (s : State) (k : HostId) (l : LaneId) : State :=
  if (s.lease l).holder = some k then s.endLease l .withdrawn else s

theorem endLeasesOf_eq (s : State) (k : HostId) : s.endLeasesOf k = laneIds.foldl (fun t l => t.endLeaseOf k l) s := rfl

theorem endLeaseOf_takenFrom (s : State) (k : HostId) (l : LaneId) : s.takenFrom (s.endLeaseOf k l) k l := by
  unfold State.takenFrom State.endLeaseOf
  split
  · exact endLease_passedOn s l .withdrawn
  · rfl

theorem takenFrom_took {k : HostId} (h : s.takenFrom t k l) : tookLane k l s t ∧ ∀ j, j ≠ l → SameLane j s t := by
  unfold State.takenFrom at h
  unfold tookLane
  split at h
  · have hlease : ∀ j, (s.drain l false).lease j = s.lease j := (drain_frame s l false).lease
    obtain ⟨h1, h2⟩ := State.passedOn.lanes h (drain_lane s l false)
    rw [hlease] at h1
    rw [if_pos ‹_›]
    refine ⟨h1, fun j hj => ?_⟩
    obtain ⟨g1, g2, g3⟩ := h2 j hj
    obtain ⟨d1, d2⟩ := drain_only s l false j hj
    exact ⟨g1.trans (hlease j), g2.trans d1, g3.trans d2⟩
  · rw [if_neg ‹_›]
    subst h
    exact ⟨⟨rfl, rfl, rfl⟩, fun _ _ => ⟨rfl, rfl, rfl⟩⟩

/-- The lanes of a list without repetition are taken from k one after another, each as it stood at first. -/
theorem foldl_endLeaseOf (k : HostId) (ls : List LaneId) : ∀ s : State, ls.Nodup → ∀ l,
    if l ∈ ls then tookLane k l s (ls.foldl (fun t l => t.endLeaseOf k l) s)
    else SameLane l s (ls.foldl (fun t l => t.endLeaseOf k l) s) := by
  induction ls with
  | nil => exact fun s _ l => ⟨rfl, rfl, rfl⟩
  | cons i ls ih =>
    intro s hn l
    rw [List.nodup_cons] at hn
    obtain ⟨h1, h2⟩ := takenFrom_took (endLeaseOf_takenFrom s k i)
    have h := ih (s.endLeaseOf k i) hn.2 l
    rw [List.foldl_cons]
    by_cases e : l = i
    · subst e
      rw [if_neg hn.1] at h
      rw [if_pos (List.mem_cons_self ..)]
      exact SameLane.took_right h1 h
    · by_cases hm : l ∈ ls
      · rw [if_pos hm] at h
        rw [if_pos (List.mem_cons_of_mem _ hm)]
        exact (h2 l e).took_left h
      · rw [if_neg hm] at h
        rw [if_neg fun hc => (List.mem_cons.1 hc).elim e hm]
        obtain ⟨a1, a2, a3⟩ := h2 l e
        obtain ⟨b1, b2, b3⟩ := h
        exact ⟨b1.trans a1, b2.trans a2, b3.trans a3⟩

theorem endLeasesOf_took (s : State) (k : HostId) (l : LaneId) : tookLane k l s (s.endLeasesOf k) := by
  have h := foldl_endLeaseOf k laneIds s (by decide) l
  rw [if_pos (mem_laneIds l)] at h
  exact h

theorem dropClaims_eq (s : State) (k : HostId) : s.dropClaims k =
    { s with leases := s.leases.map (fun r => { r with waiters := r.waiters.filter (fun c => c.host != k) }) } := by
  have he : s.dropClaims k = { s with leases := (s.dropClaims k).leases } := rfl
  have hl : (s.dropClaims k).leases =
      s.leases.map (fun r => { r with waiters := r.waiters.filter (fun c => c.host != k) }) := by
    refine Bank.ext_sel fun i => ?_
    rw [Bank.sel_map]
    unfold State.dropClaims laneIds State.setLease State.lease withoutHost
    simp only [List.foldl_cons, List.foldl_nil, Bank.sel_upd]
    fin_cases i <;> simp
  rw [he, hl]

end

/-- The filter of a list, counted. -/
theorem laneIds_filter_length (p : LaneId → Bool) : (laneIds.filter p).length = (List.finRange 4).countP p :=
  List.countP_eq_length_filter.symm

/-! ## The segments of a withdrawn host (R32) -/

/-- What a withdrawal of k makes of an entry it reaches. -/
def Segment.withdrawn (g : Segment) (k : HostId) : Segment :=
  if g.live && g.owner == k && g.refs == 0 then g.freed
  else if g.owner = k ∧ g.state ≠ .free then { g with state := .condemned, notifyOnFree := false }
  else g

theorem live_eq_false {g : Segment} (h : ¬g.live = true) : g.state = .free ∨ g.state = .condemned := by
  unfold Segment.live at h
  cases hs : g.state <;> simp_all

theorem withdrawEntry_pool (st : Store) (k : HostId) (i : Slot) : (st.withdrawEntry k i).pool =
    st.pool ++ if (st.entry i).live && (st.entry i).owner == k && (st.entry i).refs == 0 then (st.entry i).chain else [] := by
  unfold Store.withdrawEntry
  dsimp only
  by_cases ho : (st.entry i).owner = k
  · rw [if_neg (not_not.2 ho)]
    cases hl : (st.entry i).live with
    | true =>
      unfold Store.removeEntry
      by_cases hr : (st.entry i).refs = 0
      · simp [ho, hr, Store.freeEntry]
      · simp [hr, Store.condemnEntry]
    | false =>
      rw [if_neg Bool.false_ne_true]
      simp only [Bool.false_and, Bool.false_eq_true, if_false, List.append_nil]
      split <;> rfl
  · rw [if_pos ho, if_neg (by simp [ho]), List.append_nil]

theorem withdrawEntry_entry (st : Store) (k : HostId) (i j : Slot) : (st.withdrawEntry k i).entry j =
    if i = j then (st.entry i).withdrawn k else st.entry j := by
  unfold Store.withdrawEntry Segment.withdrawn
  dsimp only
  by_cases ho : (st.entry i).owner = k
  · rw [if_neg (not_not.2 ho)]
    cases hl : (st.entry i).live with
    | true =>
      have hs : (st.entry i).state ≠ .free := live_ne_free hl
      unfold Store.removeEntry
      by_cases hr : (st.entry i).refs = 0
      · simp [ho, hr, Store.freeEntry_entry]
      · simp [ho, hr, hs, Store.condemnEntry_entry]
    | false =>
      rw [if_neg Bool.false_ne_true]
      by_cases hc : (st.entry i).state = .condemned
      · simp [ho, hc, Store.setEntry_entry]
      · have hs : (st.entry i).state = .free := (live_eq_false (by simp [hl])).resolve_right hc
        simp only [hs, ne_eq, not_true, and_false, if_false, reduceCtorEq, Bool.false_and, Bool.false_eq_true]
        split
        · subst_vars; rfl
        · rfl
  · rw [if_pos ho]
    simp only [ho, beq_eq_false_iff_ne.2 ho, Bool.and_false, Bool.false_and, Bool.false_eq_true, false_and, if_false]
    split
    · subst_vars; rfl
    · rfl

theorem foldl_withdrawEntry (k : HostId) (is : List Slot) : ∀ st : Store, is.Nodup →
    (is.foldl (fun t i => t.withdrawEntry k i) st).pool =
      st.pool ++ (is.filter (fun i => (st.entry i).live && (st.entry i).owner == k && (st.entry i).refs == 0)).flatMap
        (fun i => (st.entry i).chain) ∧
    ∀ j, (is.foldl (fun t i => t.withdrawEntry k i) st).entry j =
      if j ∈ is then (st.entry j).withdrawn k else st.entry j := by
  induction is with
  | nil => exact fun st _ => ⟨by simp, fun j => by simp⟩
  | cons i is ih =>
    intro st hn
    rw [List.nodup_cons] at hn
    obtain ⟨h1, h2⟩ := ih (st.withdrawEntry k i) hn.2
    have hne : ∀ j ∈ is, (st.withdrawEntry k i).entry j = st.entry j := fun j hj => by
      rw [withdrawEntry_entry, if_neg (by rintro rfl; exact hn.1 hj)]
    refine ⟨?_, fun j => ?_⟩
    · rw [List.foldl_cons, h1, withdrawEntry_pool,
        List.filter_congr (q := fun i => (st.entry i).live && (st.entry i).owner == k && (st.entry i).refs == 0)
          (fun j hj => by rw [hne j hj]),
        List.flatMap_congr (g := fun i => (st.entry i).chain) fun j hj => by rw [hne j (List.mem_of_mem_filter hj)],
        List.filter_cons]
      split
      · rw [List.flatMap_cons, List.append_assoc]
      · rw [List.append_nil]
    · rw [List.foldl_cons, h2, withdrawEntry_entry]
      by_cases e : i = j
      · subst e
        rw [if_neg hn.1, if_pos rfl, if_pos (List.mem_cons_self ..)]
      · rw [if_neg e]
        simp only [List.mem_cons, Ne.symm e, false_or]

/-! ## The event queue of a withdrawn host (R158) -/

theorem awaitsPost_iff (w : Withdrawal) (p : Post) : w.awaitsPost p = true ↔ p.host = w.host ∨
    (p.event.block = .leases ∧ (w.firstOrder ≤ p.rank ∧ p.rank < w.endOrder)) ∨
    ∃ x, p.order = some x ∧ (w.firstOrder ≤ x ∧ x < w.endOrder) := by
  unfold Withdrawal.awaitsPost Withdrawal.numbered
  simp only [Bool.or_eq_true, Bool.and_eq_true, beq_iff_eq, decide_eq_true_eq, or_assoc]
  cases p.order <;> simp

theorem awaitsClaim_iff (w : Withdrawal) (c : LaneClaim) : w.awaitsClaim c = true ↔
    ∃ r y x, c = .release r y (some x) ∧ (w.firstOrder ≤ x ∧ x < w.endOrder) := by
  unfold Withdrawal.awaitsClaim Withdrawal.numbered
  cases c with
  | append r id v => simp
  | release r y o => cases o <;> simp

theorem eventPartDue_iff (s : State) (w : Withdrawal) : s.eventPartDue w = true ↔
    w.leaseTaken = true ∧ w.segmentTaken = true ∧
    ¬((∃ p ∈ s.posts, p.host = w.host ∨
        (p.event.block = .leases ∧ (w.firstOrder ≤ p.rank ∧ p.rank < w.endOrder)) ∨
        ∃ x, p.order = some x ∧ (w.firstOrder ≤ x ∧ x < w.endOrder)) ∨
      ∃ l r y x, LaneClaim.release r y (some x) ∈ s.claimsOf l ∧ (w.firstOrder ≤ x ∧ x < w.endOrder)) := by
  have hp : s.posts.any w.awaitsPost = true ↔ ∃ p ∈ s.posts, p.host = w.host ∨
      (p.event.block = .leases ∧ (w.firstOrder ≤ p.rank ∧ p.rank < w.endOrder)) ∨
      ∃ x, p.order = some x ∧ (w.firstOrder ≤ x ∧ x < w.endOrder) := by
    rw [List.any_eq_true]
    simp only [awaitsPost_iff]
  have hc : laneIds.all (fun l => !(s.claimsOf l).any w.awaitsClaim) = true ↔
      ¬∃ l r y x, LaneClaim.release r y (some x) ∈ s.claimsOf l ∧ (w.firstOrder ≤ x ∧ x < w.endOrder) := by
    rw [List.all_eq_true]
    constructor
    · rintro h ⟨l, r, y, x, hm, hx⟩
      have := h l (mem_laneIds l)
      rw [Bool.not_eq_true', List.any_eq_false] at this
      exact this _ hm ((awaitsClaim_iff w _).2 ⟨r, y, x, rfl, hx⟩)
    · intro h l _
      rw [Bool.not_eq_true', List.any_eq_false]
      intro c hm ha
      obtain ⟨r, y, x, rfl, hx⟩ := (awaitsClaim_iff w c).1 ha
      exact h ⟨l, r, y, x, hm, hx⟩
  unfold State.eventPartDue
  rw [Bool.and_eq_true, Bool.and_eq_true, Bool.and_eq_true, hc, Bool.not_eq_true', ← Bool.not_eq_true, hp, not_or]
  tauto

theorem EventQueue.withdraw_eq (q : EventQueue) (c : WithdrawalCause) (stamp : Stamp) : q.withdraw c stamp =
    { queue := if c = .evicted then [{ seq := q.seq, stamp := stamp, event := .withdrawn }] else [],
      lost := 0, mask := { started := true, done := true, freed := true },
      seq := if c = .evicted then q.seq + 1 else q.seq,
      attn := if c = .evicted then .low else .high } := by
  unfold EventQueue.withdraw
  cases c <;> rfl

/-! ## The three parts -/

theorem leasePart_of_taken {s : State} {n : Nat} {w : Withdrawal} (hw : s.withdrawals[n]? = some w)
    (h : w.leaseTaken = true) : s.leasePart n = s := by
  unfold State.leasePart
  rw [hw]
  exact if_pos h

/-- The Lease Controller's part: the waiting claims gone, the lanes are taken one after another (R57). -/
theorem leasePart_eq {s : State} {n : Nat} {w : Withdrawal} (hw : s.withdrawals[n]? = some w)
    (h : w.leaseTaken = false) : s.leasePart n = { ((s.dropClaims w.host).endLeasesOf w.host) with
      withdrawals := s.withdrawals.set n { w with
        leaseTaken := true,
        leasesEnded := (List.finRange 4).countP (fun l => (s.lease l).holder == some w.host),
        claimsRemoved := (List.finRange 4).countP (fun l => (s.lease l).waiters.any (fun c => c.host == w.host)),
        firstOrder := s.orderCount, endOrder := ((s.dropClaims w.host).endLeasesOf w.host).orderCount } } := by
  have hwd : ((s.dropClaims w.host).endLeasesOf w.host).withdrawals = s.withdrawals :=
    (endLeasesOf_frame (s.dropClaims w.host) w.host).withdrawals.trans (dropClaims_frame s w.host).withdrawals
  unfold State.leasePart
  rw [hw]
  dsimp only
  rw [if_neg (by rw [h]; exact Bool.false_ne_true)]
  unfold State.setWithdrawal State.leasesHeld State.claimsWaiting State.waitsFor
  rw [hwd, laneIds_filter_length, laneIds_filter_length]

/-- The lanes that a withdrawal of k takes, read off the lanes before it (R57). -/
theorem endLeasesOf_dropClaims (s : State) (k : HostId) (l : LaneId) :
    let t := (s.dropClaims k).endLeasesOf k
    let ws := (s.lease l).waiters.filter (fun c => c.host != k)
    if (s.lease l).holder = some k then
      (match ws with
      | [] => t.lease l = Lease.reset ∧ t.lane l = Lane.reset
      | c :: rest =>
        t.lease l = { Lease.reset with
          holder := some c.host, duration := c.duration, remaining := c.duration, waiters := rest } ∧
        t.lane l = { Lane.reset with state := .idle, stb := .low })
    else t.lease l = { (s.lease l) with waiters := ws } ∧ t.lane l = s.lane l ∧ t.claimsOf l = s.claimsOf l := by
  have h := endLeasesOf_took (s.dropClaims k) k l
  have hlease : (s.dropClaims k).lease l =
      { (s.lease l) with waiters := (s.lease l).waiters.filter (fun c => c.host != k) } := by
    rw [dropClaims_eq]
    exact Bank.sel_map _ _ _
  have hlane : (s.dropClaims k).lane l = s.lane l := by rw [dropClaims_eq]; rfl
  have hclaims : (s.dropClaims k).claimsOf l = s.claimsOf l := by rw [dropClaims_eq]; rfl
  unfold tookLane at h
  rw [hlease, hlane, hclaims] at h
  exact h

/-- The lanes are taken in ascending order (R57). -/
theorem endLeasesOf_chain (u : State) (k : HostId) : ∃ u0 u1 u2 : State,
    u.takenFrom u0 k 0 ∧ u0.takenFrom u1 k 1 ∧ u1.takenFrom u2 k 2 ∧ u2.takenFrom (u.endLeasesOf k) k 3 :=
  ⟨u.endLeaseOf k 0, (u.endLeaseOf k 0).endLeaseOf k 1, ((u.endLeaseOf k 0).endLeaseOf k 1).endLeaseOf k 2,
    endLeaseOf_takenFrom u k 0, endLeaseOf_takenFrom _ k 1, endLeaseOf_takenFrom _ k 2, endLeaseOf_takenFrom _ k 3⟩

theorem segmentPart_of_taken {s : State} {n : Nat} {w : Withdrawal} (hw : s.withdrawals[n]? = some w)
    (h : w.segmentTaken = true) : s.segmentPart n = s := by
  unfold State.segmentPart
  rw [hw]
  exact if_pos h

theorem segmentPart_eq {s : State} {n : Nat} {w : Withdrawal} (hw : s.withdrawals[n]? = some w)
    (h : w.segmentTaken = false) : s.segmentPart n = { s with
      store := s.store.withdraw w.host,
      withdrawals := s.withdrawals.set n { w with segmentTaken := true } } := by
  unfold State.segmentPart
  rw [hw]
  dsimp only
  rw [if_neg (by rw [h]; exact Bool.false_ne_true)]
  rfl

theorem withdraw_eq (st : Store) (k : HostId) :
    let frees := slots.filter (fun i => (st.entry i).live && (st.entry i).owner == k && (st.entry i).refs == 0)
    st.withdraw k = { st with
      table := (st.withdraw k).table, pool := st.pool ++ frees.flatMap (fun i => (st.entry i).chain) } ∧
    ∀ i, (st.withdraw k).entry i =
      if i ∈ frees then (st.entry i).freed
      else if (st.entry i).owner = k ∧ (st.entry i).state ≠ .free then
        { (st.entry i) with state := .condemned, notifyOnFree := false }
      else st.entry i := by
  intro frees
  have hfold : st.withdraw k = slots.foldl (fun t i => t.withdrawEntry k i) st := rfl
  obtain ⟨hpool, hentry⟩ := foldl_withdrawEntry k slots st slots_nodup
  obtain ⟨hep, hmem⟩ := memory_withdraw st k
  rw [← hfold] at hpool hentry
  refine ⟨?_, fun i => ?_⟩
  · rw [← hmem, ← hep, ← hpool]
  · rw [hentry, if_pos (mem_slots i)]
    unfold Segment.withdrawn
    have hi : i ∈ frees ↔ ((st.entry i).live && (st.entry i).owner == k && (st.entry i).refs == 0) = true := by
      rw [List.mem_filter]
      exact and_iff_right (mem_slots i)
    simp only [hi]

theorem eventPart_of_not_due {s : State} {n : Nat} {w : Withdrawal} (hw : s.withdrawals[n]? = some w)
    (h : ¬s.eventPartDue w = true) : s.eventPart n = s := by
  unfold State.eventPart
  rw [hw]
  exact if_neg h

theorem eventPart_of_due {s : State} {n : Nat} {w : Withdrawal} (hw : s.withdrawals[n]? = some w)
    (h : s.eventPartDue w = true) : s.eventPart n = State.answerWithdrawal { s with
      events := s.events.upd w.host ((s.eventsOf w.host).withdraw w.cause s.time.timestamp),
      withdrawals := s.withdrawals.eraseIdx n } w := by
  unfold State.eventPart
  rw [hw]
  dsimp only
  rw [if_pos h]
  rfl

/-- Settles O56, part by part. -/
theorem withdrawalPartsUndoTheHost : Obligations.WithdrawalPartsUndoTheHost := by
  intro s n w hw
  refine ⟨fun h => ?_, fun h => ?_, fun h => ?_, fun h => ?_, ?_⟩
  · have hpart := leasePart_eq hw h
    have hframe := (dropClaims_frame s w.host).trans (endLeasesOf_frame (s.dropClaims w.host) w.host)
    have hlanes := endLeasesOf_dropClaims s w.host
    obtain ⟨u0, u1, u2, h0, h1, h2, h3⟩ := endLeasesOf_chain (s.dropClaims w.host) w.host
    dsimp only
    rw [← dropClaims_eq]
    generalize (s.dropClaims w.host).endLeasesOf w.host = u3 at hpart hframe hlanes h3
    generalize s.dropClaims w.host = u at h0 ⊢
    refine ⟨_, congrArg Host.Outcome.next hpart, ⟨u0, u1, u2, u3, h0, h1, h2, h3, rfl⟩, ?_, hlanes⟩
    obtain ⟨_, _, _, _, _, _, e⟩ := hframe
    rw [e]
  · exact congrArg Host.Outcome.next (leasePart_of_taken hw h)
  · obtain ⟨h1, h2⟩ := withdraw_eq s.store w.host
    refine ⟨_, congrArg Host.Outcome.next (segmentPart_eq hw h), ?_, ?_⟩
    · dsimp only at h1 ⊢
      rw [← h1]
    · dsimp only at h2 ⊢
      exact h2
  · exact congrArg Host.Outcome.next (segmentPart_of_taken hw h)
  · dsimp only
    refine ⟨fun h => ?_, fun h1 h2 h3 => ?_⟩
    · refine congrArg Host.Outcome.next (eventPart_of_not_due hw fun hd => ?_)
      obtain ⟨g1, g2, g3⟩ := (eventPartDue_iff s w).1 hd
      rcases h with h | h | h
      · rw [g1] at h; cases h
      · rw [g2] at h; cases h
      · exact g3 h
    · refine ⟨_, congrArg Host.Outcome.next (eventPart_of_due hw ((eventPartDue_iff s w).2 ⟨h1, h2, h3⟩)), ?_⟩
      rw [EventQueue.withdraw_eq]
      unfold State.answerWithdrawal
      cases ha : w.answer with
      | none => rfl
      | some a =>
        obtain ⟨k, req⟩ := a
        exact answered_from (by rfl) k req true (okReply w.results) _ rfl

end Sys2Proof.Machine
end

section
/-! The end of a current entry, and what the lane goes on to (R74, R76). -/

namespace Sys2Proof.Machine

variable {s : State} {l : LaneId}

theorem settleMark_eq (s : State) (m : MarkId) (x : Option (LaneId × Nat)) : (s.settleMark m x).1 =
    { s with lanes := (s.settleMark m x).1.lanes, marks := (s.settleMark m x).1.marks } := by
  unfold State.settleMark
  split
  · rfl
  · dsimp only
    rw [releaseLanes_eq]
    rfl

theorem setPostMark_marks (s : State) (l : LaneId) (e : Entry) (o : EndOutcome) : s.setPostMark l e o =
    { s with lanes := (s.setPostMark l e o).lanes, marks := (s.setPostMark l e o).marks } := by
  unfold State.setPostMark
  split
  · exact settleMark_eq s _ _
  · rfl

/-- A setting leaves a lane that waits on no mark as it is. -/
theorem settleMark_lane_of_absent (h : ∀ m, ∀ x ∈ (s.mark m).waiters, x.1 ≠ l) (m : MarkId) (x : Option (LaneId × Nat)) :
    (s.settleMark m x).1.lane l = s.lane l := by
  unfold State.settleMark
  split
  · rfl
  · dsimp only
    rw [releaseLanes_lane, if_neg]
    · rfl
    · intro hl
      have hmap := (markWalk_split (s.mark m).waiters).1
      have hm : l ∈ (s.mark m).waiters.map (fun w => w.1) := by
        rw [hmap]
        exact List.mem_append_left _ hl
      obtain ⟨y, hy, e⟩ := List.mem_map.1 hm
      exact h m y hy e

theorem setPostMark_lane_of_absent (h : ∀ m, ∀ x ∈ (s.mark m).waiters, x.1 ≠ l) (e : Entry) (o : EndOutcome) :
    (s.setPostMark l e o).lane l = s.lane l := by
  unfold State.setPostMark
  split
  · exact settleMark_lane_of_absent h _ _
  · rfl

theorem driveLeft_eq (ln : Lane) (e : Entry) (park : Word) :
    ln.driveLeft e park = if e.kind = .capture then Drive.ofWord park else ln.drive := by
  unfold Lane.driveLeft
  cases e.kind <;> rfl

/-- The end of a current entry, whatever its outcome (R74): the lane cleared, the post mark set where it is to be, ENTRY_DONE posted
and the reference released. -/
theorem endCurrent_reported {e : Entry} {rest : List Entry} (hq : (s.lane l).queue = e :: rest) (o : EndOutcome) :
    let v := (s.setLane l ((s.lane l).leftBy e rest (s.lease l))).setPostMark l e o
    s.endCurrent l o true none = { v with
      posts := v.posts ++ [donePost l e s.time.timestamp o (s.lane l).words (s.lane l).staged.isSome none s.orderCount],
      orderCount := s.orderCount + 1,
      claims := v.claims.upd l (s.claimsOf l ++ [.release e.segment (s.orderCount + 1) none]) } := by
  intro v
  have hv : v = { s with lanes := v.lanes, marks := v.marks } :=
    setPostMark_marks (s.setLane l ((s.lane l).leftBy e rest (s.lease l))) l e o
  have hc : s.endCurrent l o true none =
      (v.postRanked (donePost l e s.time.timestamp o (s.lane l).words (s.lane l).staged.isSome none)).present l
        (.release e.segment (v.orderCount + 1) none) := by
    unfold State.endCurrent
    rw [hq]
    rfl
  have hcount : v.orderCount = s.orderCount := by rw [hv]
  have hclaims : v.claimsOf l = s.claimsOf l := by rw [hv]; rfl
  rw [hc, ← hcount, ← hclaims]
  rfl

/-- Where a hold request is pending, the lane goes HOLDING between entries at its park word (R76, R106). -/
theorem afterEnd_of_hold {u : State} (h : (u.lane l).holdRequest = true) (ht : (u.lane l).stallTimer = none)
    (hs : (u.lane l).stb = stbInactive (u.lease l).stbPol) : u.afterEnd l =
    { u with lanes := u.lanes.upd l { (u.lane l) with
      state := .holding .betweenEntries, holdRequest := false, drive := Drive.ofWord (u.lease l).park } } := by
  unfold State.afterEnd
  rw [if_pos h]
  unfold State.holdIn State.showPark
  rw [State.setLane_lane_self, State.setLane_lease]
  unfold State.setLane
  dsimp only
  rw [Bank.upd_upd_self, ← hs, ← ht]

theorem afterEnd_of_no_hold {u : State} (h : (u.lane l).holdRequest = false) : u.afterEnd l = u.entryStart l := by
  unfold State.afterEnd
  rw [if_neg (by rw [h]; exact Bool.false_ne_true)]

theorem endAndGoOn_eq {e : Entry} {rest : List Entry} (hq : (s.lane l).queue = e :: rest)
    (h : ∀ m, ∀ x ∈ (s.mark m).waiters, x.1 ≠ l) (o : EndOutcome) :
    let cleared := (s.lane l).leftBy e rest (s.lease l)
    let v := (s.setLane l cleared).setPostMark l e o
    let w : State := { v with
      posts := v.posts ++ [donePost l e s.time.timestamp o (s.lane l).words (s.lane l).staged.isSome none s.orderCount],
      orderCount := s.orderCount + 1,
      claims := v.claims.upd l (s.claimsOf l ++ [.release e.segment (s.orderCount + 1) none]) }
    s.endAndGoOn l o = if (s.lane l).holdRequest then
        { w with lanes := w.lanes.upd l { cleared with
          state := .holding .betweenEntries, holdRequest := false, drive := Drive.ofWord (s.lease l).park } }
      else w.entryStart l := by
  intro cleared v w
  have he : s.endAndGoOn l o = w.afterEnd l := congrArg (fun t => State.afterEnd t l) (endCurrent_reported hq o)
  have hv : v = { s with lanes := v.lanes, marks := v.marks } := setPostMark_marks (s.setLane l cleared) l e o
  have hlane : w.lane l = cleared :=
    (setPostMark_lane_of_absent (s := s.setLane l cleared) h e o).trans (State.setLane_lane_self s l cleared)
  have hlease : w.lease l = s.lease l := by
    have hleases : v.leases = s.leases := by rw [hv]
    exact congrArg (fun b => b.sel l) hleases
  rw [he]
  cases hh : (s.lane l).holdRequest with
  | true =>
    rw [afterEnd_of_hold (by rw [hlane]; exact hh) (by rw [hlane]; rfl) (by rw [hlane, hlease]; rfl), hlane, hlease]
    rfl
  | false => exact afterEnd_of_no_hold (by rw [hlane]; exact hh)

/-! ## The two ends that a capture makes by itself (R120, R123) -/

theorem limitReached_iff (start limit now : Nat) :
    limitReached (some start) limit now = true ↔ ¬(limit = 0 ∨ now < start + 100 * limit) := by
  unfold limitReached Config.stallTicks
  simp only [Bool.and_eq_true, bne_iff_ne, decide_eq_true_eq]
  omega

theorem captureLimit_iff {e : Entry} {rest : List Entry} {start : Nat} (hs : (s.lane l).state = .stalled)
    (hq : (s.lane l).queue = e :: rest) (hp : e.pacing = .rtnEdge) (ht : (s.lane l).capture.timer = some start) :
    (s.lane l).captureLimitReached s.now = true ↔ ¬(e.stallLimit = 0 ∨ s.now < start + 100 * e.stallLimit) := by
  unfold Lane.captureLimitReached
  rw [Lane.stalledUnder_some hs hq hp]
  dsimp only
  rw [ht]
  exact limitReached_iff _ _ _

theorem captureEnd_iff {e : Entry} {rest : List Entry} {p : Nat} (hs : (s.lane l).state = .running)
    (hq : (s.lane l).queue = e :: rest) (hp : e.pacing = .step ∨ e.pacing = .change) (ht : (s.lane l).point = some p)
    (hc : e.count ≤ (s.lane l).words) : (s.lane l).captureEndDue s.now = true ↔ ¬s.now < p := by
  unfold Lane.captureEndDue reached
  rw [Lane.current_eq (by rw [hs]; rfl) hq, hs, ht]
  simp only [Bool.and_eq_true, Bool.or_eq_true, beq_iff_eq, decide_eq_true_eq, hp, hc, true_and, and_true, not_lt]

/-- Settles O43. -/
theorem entryEndThenGoesOn : Obligations.EntryEndThenGoesOn := by
  refine ⟨fun s l e rest o hq => ?_, fun s l e rest start => ?_, fun s l e rest p => ?_⟩
  · intro ln park stb cleared u v w h
    have he := endAndGoOn_eq hq h o
    have hcl : (s.lane l).leftBy e rest (s.lease l) = cleared := by
      unfold Lane.leftBy
      rw [driveLeft_eq]
    rw [hcl] at he
    have hv : (s.setLane l cleared).setPostMark l e o = v := rfl
    dsimp only at he
    rw [hv] at he
    exact he
  · intro ln hs hq hp ht
    refine congrArg Host.Outcome.next ?_
    by_cases h : e.stallLimit = 0 ∨ s.now < start + 100 * e.stallLimit
    · rw [if_pos h, if_neg fun hc => (captureLimit_iff hs hq hp ht).1 hc h]
    · rw [if_neg h, if_pos ((captureLimit_iff hs hq hp ht).2 h)]
  · intro ln hs hq hp ht hc
    refine congrArg Host.Outcome.next ?_
    by_cases h : s.now < p
    · rw [if_pos h, if_neg fun hd => (captureEnd_iff hs hq hp ht hc).1 hd h]
    · rw [if_neg h, if_pos ((captureEnd_iff hs hq hp ht hc).2 h)]

end Sys2Proof.Machine
end

section
/-! A request that its owner refuses changes nothing but its own link (R11, R39, R102, R182). -/

namespace Sys2Proof.Machine

/-- What an owner's decision can be: a refusal, which leaves the state as it is, or an acceptance. -/
inductive Decided (s : State) : State × Reply → Prop
  | refused (st : Status) : Decided s (s, refusal st)
  | accepted {u : State} {r : Reply} (h : r.status.refuses = false) : Decided s (u, r)

/-- A check ahead of a decision. -/
theorem Decided.check {s : State} {c : Prop} [Decidable c] {st : Status} {x : State × Reply} (h : Decided s x) :
    Decided s (if c then (s, refusal st) else x) := by
  split
  · exact .refused st
  · exact h

section
variable {s : State} {k : HostId} {p : List Byte}

/-! ## Requests of the Segment Manager -/

theorem defineRequest_decided : Decided s (defineRequest s k p) := by
  unfold defineRequest
  dsimp only
  split
  · refine .check (.check ?_)
    split
    · exact .refused _
    · exact .check (.check (.accepted rfl))
  · exact .refused _

theorem extendRequest_decided : Decided s (extendRequest s k p) := by
  unfold extendRequest
  refine .check ?_
  split
  · exact .refused _
  · exact .check (.check (.check (.check (.check (.accepted rfl)))))

theorem writeRequest_decided : Decided s (writeRequest s k p) := by
  unfold writeRequest
  dsimp only
  split
  · exact .refused _
  · exact .check (.check (.check (.check (.accepted rfl))))

theorem readRequest_decided : Decided s (readRequest s k p) := by
  unfold readRequest
  refine .check ?_
  split
  · exact .refused _
  · exact .check (.check (.accepted rfl))

theorem publishRequest_decided : Decided s (publishRequest s k p) := by
  unfold publishRequest
  split
  · exact .refused _
  · exact .check (.check (.check (.check (.accepted rfl))))

theorem deleteRequest_decided : Decided s (deleteRequest s k p) := by
  unfold deleteRequest
  split
  · exact .refused _
  · refine .check (.accepted ?_)
    dsimp only
    split <;> rfl

theorem catalogRequest_decided : Decided s (catalogRequest s k p) := by
  unfold catalogRequest
  exact .check (.accepted rfl)

theorem queryRequest_decided : Decided s (queryRequest s k p) := by
  unfold queryRequest
  split
  · exact .refused _
  · exact .check (.accepted rfl)

theorem purgeRequest_decided : Decided s (purgeRequest s k p) := by
  unfold purgeRequest
  refine .check ?_
  split
  · exact .refused _
  · exact .accepted rfl

/-! ## Requests of the Lease Controller -/

theorem claimRequest_decided : Decided s (claimRequest s k p) := by
  unfold claimRequest
  dsimp only
  split
  · refine .check ?_
    split
    · exact .accepted rfl
    · refine .check (.check ?_)
      split
      · exact .accepted rfl
      · exact .refused _
  · exact .refused _

theorem renewRequest_decided : Decided s (renewRequest s k p) := by
  unfold renewRequest
  dsimp only
  split
  · exact .refused _
  · exact .check (.check (.accepted rfl))

theorem releaseRequest_decided : Decided s (releaseRequest s k p) := by
  unfold releaseRequest
  split
  · exact .refused _
  · split
    · exact .accepted rfl
    · split
      · exact .accepted rfl
      · exact .refused _

theorem configureRequest_decided : Decided s (configureRequest s k p) := by
  unfold configureRequest
  split
  · exact .check (.check (.accepted rfl))
  · exact .refused _

theorem laneStatusRequest_decided : Decided s (laneStatusRequest s p) := by
  unfold laneStatusRequest
  split
  · exact .refused _
  · exact .accepted rfl

theorem revokeRequest_decided : Decided s (revokeRequest s k p) := by
  unfold revokeRequest
  refine .check ?_
  split
  · split
    · exact .refused _
    · exact .accepted rfl
  · exact .refused _

/-! ## Requests of the Mark Unit and the Event Unit -/

theorem markSetRequest_decided : Decided s (markSetRequest s p) := by
  unfold markSetRequest
  split
  · exact .refused _
  · exact .accepted rfl

theorem markClearRequest_decided : Decided s (markClearRequest s p) := by
  unfold markClearRequest
  split
  · exact .refused _
  · exact .accepted rfl

theorem fetchRequest_decided : Decided s (fetchRequest s k p) := by
  unfold fetchRequest
  exact .check (.accepted rfl)

theorem eventMaskRequest_decided : Decided s (eventMaskRequest s k p) := by
  unfold eventMaskRequest
  split
  · exact .accepted rfl
  · exact .refused _

/-! ## Requests of the lane sequencers, with no released lane and no claim of a lane waiting -/

/-- No claim of a lane waits and no lane is between a mark's release and its own event. -/
def State.laneQuiet (s : State) : Prop := ∀ l, s.claimsOf l = [] ∧ ∀ x a, (s.lane l).state ≠ .released x a

theorem settleClaims_of_none {l : LaneId} (h : s.claimsOf l = []) : s.settleClaims l = s := by
  unfold State.settleClaims
  rw [h]
  have hu : s.claims.upd l [] = s.claims := by
    rw [← h]
    exact Bank.upd_sel_self s.claims l
  unfold State.setClaims
  rw [hu]
  rfl

theorem enqueueRequest_decided (h : s.laneQuiet) : Decided s (enqueueRequest s k p) := by
  unfold enqueueRequest
  split
  · exact .refused _
  · rename_i l _
    split
    · exact .refused _
    · split
      · exact .refused _
      · obtain ⟨hc, hr⟩ := h l
        rw [settleRelease_of_not_released hr, settleClaims_of_none hc]
        dsimp only
        split
        · exact .refused _
        · exact .accepted rfl

theorem flushRequest_decided : Decided s (flushRequest s k p) := by
  unfold flushRequest
  split
  · exact .refused _
  · exact .accepted rfl

theorem abortRequest_decided : Decided s (abortRequest s k p) := by
  unfold abortRequest
  split
  · exact .refused _
  · exact .accepted rfl

theorem holdByState_decided (l : LaneId) : Decided s (holdByState s l) := by
  unfold holdByState
  dsimp only
  split
  · exact .accepted rfl
  · exact .accepted rfl
  · exact .accepted rfl
  · exact .accepted rfl
  · exact .accepted rfl
  · exact .refused _

theorem holdRequest_decided (h : s.laneQuiet) : Decided s (holdRequest s k p) := by
  unfold holdRequest
  split
  · exact .refused _
  · rename_i l _
    rw [settleRelease_of_not_released (h l).2]
    exact holdByState_decided l

theorem resumeByState_decided (l : LaneId) : Decided s (resumeByState s l) := by
  unfold resumeByState
  dsimp only
  split
  · split
    · exact .accepted rfl
    · exact .refused _
  · exact .accepted rfl
  · exact .accepted rfl
  · exact .accepted rfl
  · exact .accepted rfl
  · exact .accepted rfl
  · exact .refused _

theorem resumeRequest_decided (h : s.laneQuiet) : Decided s (resumeRequest s k p) := by
  unfold resumeRequest
  split
  · exact .refused _
  · rename_i l _
    rw [settleRelease_of_not_released (h l).2]
    exact resumeByState_decided l

theorem retimeRequest_decided (h : s.laneQuiet) : Decided s (retimeRequest s k p) := by
  unfold retimeRequest
  split
  · exact .refused _
  · rename_i l _
    rw [settleRelease_of_not_released (h l).2]
    unfold retimeLane
    split
    · exact .refused _
    · split
      · exact .refused _
      · exact .check (.check (.accepted rfl))

end

/-! ## Every request -/

/-- Every request is decided by its owner, or makes a withdrawal. -/
theorem request_decided {s : State} (h : s.laneQuiet) (k : HostId) (kind : RequestKind) (p : List Byte) :
    (∃ f, exec (requestCommand k kind) s = .next (s.decide k kind f) ∧ Decided s (f p)) ∨
      ∃ f, exec (requestCommand k kind) s = .next (s.decideWithdrawal k kind f) := by
  cases kind with
  | define => exact .inl ⟨_, rfl, defineRequest_decided⟩
  | extend => exact .inl ⟨_, rfl, extendRequest_decided⟩
  | write => exact .inl ⟨_, rfl, writeRequest_decided⟩
  | read => exact .inl ⟨_, rfl, readRequest_decided⟩
  | publish => exact .inl ⟨_, rfl, publishRequest_decided⟩
  | delete => exact .inl ⟨_, rfl, deleteRequest_decided⟩
  | catalog => exact .inl ⟨_, rfl, catalogRequest_decided⟩
  | query => exact .inl ⟨_, rfl, queryRequest_decided⟩
  | claim => exact .inl ⟨_, rfl, claimRequest_decided⟩
  | renew => exact .inl ⟨_, rfl, renewRequest_decided⟩
  | release => exact .inl ⟨_, rfl, releaseRequest_decided⟩
  | configure => exact .inl ⟨_, rfl, configureRequest_decided⟩
  | laneStatus => exact .inl ⟨_, rfl, laneStatusRequest_decided⟩
  | enqueue => exact .inl ⟨_, rfl, enqueueRequest_decided h⟩
  | flush => exact .inl ⟨_, rfl, flushRequest_decided⟩
  | abort => exact .inl ⟨_, rfl, abortRequest_decided⟩
  | hold => exact .inl ⟨_, rfl, holdRequest_decided h⟩
  | resume => exact .inl ⟨_, rfl, resumeRequest_decided h⟩
  | retime => exact .inl ⟨_, rfl, retimeRequest_decided h⟩
  | markSet => exact .inl ⟨_, rfl, markSetRequest_decided⟩
  | markClear => exact .inl ⟨_, rfl, markClearRequest_decided⟩
  | markStatus => exact .inl ⟨_, rfl, .accepted rfl⟩
  | fetch => exact .inl ⟨_, rfl, fetchRequest_decided⟩
  | eventMask => exact .inl ⟨_, rfl, eventMaskRequest_decided⟩
  | deviceStatus => exact .inl ⟨_, rfl, .accepted rfl⟩
  | revoke => exact .inl ⟨_, rfl, revokeRequest_decided⟩
  | purge => exact .inl ⟨_, rfl, purgeRequest_decided⟩
  | detach => exact .inr ⟨_, rfl⟩
  | evict => exact .inr ⟨_, rfl⟩

/-- The replay record of an answer that is held. -/
theorem answer_replay (u : State) (k : HostId) (req : Request) (r : Reply) :
    ((u.answer k req true r).link k).replay = some { tag := req.tag, code := req.code, crc := req.crc, reply := r } := by
  unfold State.answer State.respond
  rw [if_pos rfl]
  exact congrArg Link.replay (State.setLink_link_self _ k _)

/-- A decision whose held answer refuses was a refusal. -/
theorem refused_of_decided {s : State} {k : HostId} {req : Request} {x : State × Reply} {r : ReplayRecord}
    (hd : Decided s x) (hr : ((x.1.answer k req true x.2).link k).replay = some r) (href : r.reply.status.refuses = true) :
    r.reply.results = [] ∧ s.refused (x.1.answer k req true x.2) k req true r.reply.status := by
  rw [answer_replay] at hr
  obtain rfl := Option.some.inj hr
  cases hd with
  | refused st => exact ⟨rfl, refused_of k req true st⟩
  | accepted h =>
    rw [h] at href
    cases href

/-- Settles O7: an owner's refusal leaves the state as it is, and a withdrawal leaves the port EXECUTING. -/
theorem refusedRequestsChangeNothing : Obligations.RefusedRequestsChangeNothing := by
  intro s t k kind req r hw hport hq hstep hready hr href
  rcases request_decided hq k kind req.params with ⟨f, he, hd⟩ | ⟨f, he⟩
  · obtain rfl := Host.Outcome.next.inj (he.symm.trans hstep)
    rw [decide_of_waits hw] at hr ⊢
    exact refused_of_decided hd hr href
  · obtain rfl := Host.Outcome.next.inj (he.symm.trans hstep)
    rw [decideWithdrawal_of_waits hw] at hr hready ⊢
    cases hf : f req.params with
    | error st =>
      rw [hf] at hr
      exact refused_of_decided (.refused st) hr href
    | ok a =>
      obtain ⟨host, cause⟩ := a
      rw [hf] at hready
      have hlink := (congrArg Link.port (Bank.sel_upd_self s.links k { (s.link k) with deciding := none })).symm.trans hready
      rw [hport] at hlink
      cases hlink

end Sys2Proof.Machine
end

section
/-! Boundaries, strobe ends, stall limits and pass ends (R86 to R97, R116 to R118). -/

namespace Sys2Proof.Machine

variable {s : State} {l : LaneId}

/-! ## Boundaries (R86 to R90, R103, R116 to R118) -/

theorem boundaryTiming_eq (ln : Lane) (e : Entry) : ln.boundaryTiming e = ln.staged.getD (ln.timing.getD e.timing) := by
  unfold Lane.boundaryTiming
  cases ln.staged <;> rfl

theorem setLane_judgeNow (s : State) (l : LaneId) (v : Lane) :
    (s.setLane l v).judgeNow l = if s.rtnActive l then none else some s.now := (setLane_frame s l v).judgeNow l

/-- The boundary of an output entry, in the lane (R86 to R89, R93, R103). -/
theorem driveWord_eq (s : State) (l : LaneId) (e : Entry) :
    let ln := s.lane l
    let timing := ln.staged.getD (ln.timing.getD e.timing)
    let pol := (s.lease l).stbPol
    let waits := e.pacing = .ack ∧ timing.strobe = 0
    s.driveWord l e = { s with lanes := s.lanes.upd l { ln with
      state := if waits then .stalled else .running,
      timing := some timing, staged := none, point := some (s.now + periodTicks timing), acked := false,
      stallTimer := if waits then some s.now else none,
      inactiveAt := if waits then (if s.rtnActive l then none else some s.now) else none,
      drive := Drive.ofWord (s.segmentWord e.segment (e.offset + ln.passWords)),
      stb := if timing.strobe = 0 then stbInactive pol else stbActive pol,
      pulseEnd := if timing.strobe = 0 then none else some (s.now + strobeTicks timing),
      words := min (ln.words + 1) 65535, passWords := ln.passWords + 1 } } := by
  unfold State.driveWord
  dsimp only
  rw [boundaryTiming_eq]
  generalize (s.lane l).staged.getD ((s.lane l).timing.getD e.timing) = t
  by_cases hw : e.pacing = .ack ∧ t.strobe = 0
  · simp only [if_pos hw]
    unfold State.startAckWait
    rw [setLane_judgeNow, State.setLane_lane_self, setLane_setLane, State.setLane_now]
    rfl
  · simp only [if_neg hw]
    rfl

/-- What the scheduled point of a boundary does: nothing before it, and a pending hold request defers it (R106). -/
theorem stepBoundary_eq {e : Entry} {rest : List Entry} {p : Nat} (hs : (s.lane l).state = .running)
    (hq : (s.lane l).queue = e :: rest) (hp : (s.lane l).point = some p) (hb : (s.lane l).boundaryLeft e = true) :
    s.stepBoundary l = if s.now < p then s
      else if (s.lane l).holdRequest then
        { s with lanes := s.lanes.upd l { (s.lane l) with
          state := .holding .atBoundary, holdRequest := false, stallTimer := none } }
      else s.attemptBoundary l e := by
  unfold State.stepBoundary
  rw [Lane.boundaryDue_eq s l e rest p hs hq hp hb]
  by_cases h : s.now < p
  · rw [if_pos h, if_pos h]
  · rw [if_neg h, if_neg h]
    rfl

theorem attemptBoundary_output {e : Entry} (h : e.kind = .output) (s : State) (l : LaneId) : s.attemptBoundary l e =
    if e.pacing = .ready ∧ s.rtnActive l = false then
      { s with lanes := s.lanes.upd l { (s.lane l) with
        state := .stalled, stallTimer := some s.now, inactiveAt := some s.now } }
    else s.driveWord l e := by
  unfold State.attemptBoundary
  rw [h]
  rfl

theorem attemptBoundary_capture {e : Entry} (h : e.kind = .capture) (s : State) (l : LaneId) :
    s.attemptBoundary l e = s.sampleBoundary l e := by
  unfold State.attemptBoundary
  rw [h]

theorem kind_of_step {e : Entry} (h : e.pacing = .step ∨ e.pacing = .change) : e.kind = .capture := by
  unfold Entry.kind
  rcases h with h | h <;> rw [h] <;> rfl

/-- An output entry has a boundary left where words of the pass are, under ACK once the last is acknowledged. -/
theorem boundaryLeft_output {ln : Lane} {e : Entry} (hk : e.kind = .output) (hw : ln.passWords < e.count)
    (ha : e.pacing = .ack → ln.acked = true) : ln.boundaryLeft e = true := by
  unfold Lane.boundaryLeft
  unfold Entry.kind at hk
  cases hp : e.pacing with
  | free => exact decide_eq_true hw
  | ready => exact decide_eq_true hw
  | ack => simp [hw, ha hp]
  | step => rw [hp] at hk; cases hk
  | change => rw [hp] at hk; cases hk
  | rtnEdge => rw [hp] at hk; cases hk

theorem boundaryLeft_capture {ln : Lane} {e : Entry} (hp : e.pacing = .step ∨ e.pacing = .change) (hw : ln.words < e.count)
    (ha : ln.capture.pendingAppend = none) : ln.boundaryLeft e = true := by
  unfold Lane.boundaryLeft
  rcases hp with hp | hp <;> rw [hp] <;> simp [hw, ha]

/-- Settles O37. -/
theorem outputBoundaryDrivesTheWord : Obligations.OutputBoundaryDrivesTheWord := by
  refine ⟨fun s l e => driveWord_eq s l e, fun s l e rest p => ?_⟩
  intro ln hs hq hk hp hw ha
  refine congrArg Host.Outcome.next ?_
  rw [stepBoundary_eq hs hq hp (boundaryLeft_output hk hw ha), attemptBoundary_output hk]

theorem countAt_eq (c : Capture) : c.countAt = if c.lastKept = none then 0 else min 255 (c.boundaryCount + 1) := by
  unfold Capture.countAt
  cases c.lastKept <;> simp

theorem keeps_iff (c : Capture) (e : Entry) (x : Byte) (h : e.pacing = .step ∨ e.pacing = .change) :
    c.keeps e.pacing x = true ↔ e.pacing = .step ∨ c.lastKept ≠ some x ∨ c.countAt = 255 := by
  unfold Capture.keeps
  simp only [Bool.or_eq_true, bne_iff_ne, beq_iff_eq, or_assoc]
  rcases h with h | h <;> simp [h]

theorem elapsedAt_eq (c : Capture) (e : Entry) (h : e.pacing = .step ∨ e.pacing = .change) :
    c.elapsedAt e.pacing = if c.lastKept = none then 0 else if e.pacing = .step then 1 else c.countAt := by
  unfold Capture.elapsedAt
  rcases h with h | h <;> rw [h] <;> cases c.lastKept <;> simp

/-- The boundary of a STEP or CHANGE capture, in the lane and its claims (R116 to R118, R121). -/
theorem sampleBoundary_eq (s : State) (l : LaneId) (e : Entry) (h : e.pacing = .step ∨ e.pacing = .change) :
    let ln := s.lane l
    let c := ln.capture
    let timing := ln.staged.getD (ln.timing.getD e.timing)
    let pol := (s.lease l).stbPol
    let sample := (s.pinsOf l).data
    let count := if c.lastKept = none then 0 else min 255 (c.boundaryCount + 1)
    let keeps := e.pacing = .step ∨ c.lastKept ≠ some sample ∨ count = 255
    let elapsed := if c.lastKept = none then 0 else if e.pacing = .step then 1 else count
    let word : Word := byteOf elapsed ++ sample
    s.sampleBoundary l e = { s with
      claims := if keeps then s.claims.upd l (s.claimsOf l ++ [.append e.segment e.id word]) else s.claims,
      lanes := s.lanes.upd l { ln with
        state := .running, timing := some timing, staged := none, point := some (s.now + periodTicks timing),
        acked := false, stallTimer := none, inactiveAt := none,
        stb := if timing.strobe = 0 then stbInactive pol else stbActive pol,
        pulseEnd := if timing.strobe = 0 then none else some (s.now + strobeTicks timing),
        capture := { c with
          boundaryCount := if e.pacing = .change then count else c.boundaryCount,
          pendingAppend := if keeps then some word else c.pendingAppend } } } := by
  intro ln c timing pol sample count keeps elapsed word
  have hcount : c.countAt = count := countAt_eq c
  have hkeeps : c.keeps e.pacing sample = true ↔ keeps := by rw [keeps_iff c e sample h, hcount]
  have hword : captureWord sample (c.elapsedAt e.pacing) = word := by
    rw [elapsedAt_eq c e h, hcount]
    rfl
  have hkeep : ∀ (α : Type) (a b : α), (if c.keeps e.pacing sample = true then a else b) = if keeps then a else b :=
    fun _ a b => by simp only [hkeeps]
  unfold State.sampleBoundary
  dsimp only
  rw [boundaryTiming_eq, hkeep, hkeep, hword, hcount]
  by_cases hk : keeps
  · rw [if_pos hk, if_pos hk, if_pos hk]
    rfl
  · rw [if_neg hk, if_neg hk, if_neg hk]
    rfl

/-- Settles O38. -/
theorem captureBoundarySamples : Obligations.CaptureBoundarySamples := by
  refine ⟨fun s l e h => sampleBoundary_eq s l e h, fun s l e rest p => ?_⟩
  intro ln hs hq hk hp hw ha
  refine congrArg Host.Outcome.next ?_
  rw [stepBoundary_eq hs hq hp (boundaryLeft_capture hk hw ha), attemptBoundary_capture (kind_of_step hk)]

end Sys2Proof.Machine
end

section
/-! Strobe ends, stall limits, pass ends and RTN (R83, R87 to R97, R119). -/

namespace Sys2Proof.Machine

variable {s : State} {l : LaneId}

/-! ## The end of an STB pulse (R87) -/

theorem pulseDue_iff {ln : Lane} {p : Nat} (h : ln.pulseEnd = some p) (now : Nat) : ln.pulseDue now = true ↔ ¬now < p := by
  unfold Lane.pulseDue reached
  rw [h]
  exact decide_eq_true_iff.trans not_lt.symm

theorem strobeEnd_of_none (h : (s.lane l).pulseEnd = none) : s.strobeEnd l = s := by
  unfold State.strobeEnd Lane.pulseDue
  rw [h]
  rfl

theorem strobeEnd_before {p : Nat} (h : (s.lane l).pulseEnd = some p) (hp : s.now < p) : s.strobeEnd l = s := by
  unfold State.strobeEnd
  rw [if_neg fun hd => (pulseDue_iff h s.now).1 hd hp]

theorem strobeEnd_running {p : Nat} {e : Entry} {rest : List Entry} (h : (s.lane l).pulseEnd = some p) (hp : ¬s.now < p)
    (hs : (s.lane l).state = .running) (hq : (s.lane l).queue = e :: rest) :
    s.strobeEnd l = (s.endPulse l).afterPulse l e := by
  unfold State.strobeEnd
  rw [if_pos ((pulseDue_iff h s.now).2 hp), Lane.current_eq (by rw [hs]; rfl) hq, hs]

theorem strobeEnd_other {p : Nat} (h : (s.lane l).pulseEnd = some p) (hp : ¬s.now < p)
    (hn : ∀ e rest, (s.lane l).state = .running → (s.lane l).queue = e :: rest → False) : s.strobeEnd l = s.endPulse l := by
  unfold State.strobeEnd
  rw [if_pos ((pulseDue_iff h s.now).2 hp)]
  split
  · rename_i e hs hc
    unfold Lane.current at hc
    rw [hs] at hc
    replace hc : (s.lane l).queue.head? = some e := hc
    cases hq : (s.lane l).queue with
    | nil => rw [hq] at hc; cases hc
    | cons e' rest => exact (hn e' rest hs hq).elim
  · rfl

/-- A lane whose pulse has just ended, held in its wait (R106, R128). -/
theorem endPulse_holdIn (s : State) (l : LaneId) (f : HoldForm) : (s.endPulse l).holdIn l f =
    { s with lanes := s.lanes.upd l { (s.lane l) with
      stb := stbInactive (s.lease l).stbPol, pulseEnd := none, state := .holding f, holdRequest := false,
      stallTimer := none } } := by
  unfold State.holdIn State.endPulse
  rw [State.setLane_lane_self, setLane_setLane]
  rfl

theorem endPulse_startAckWait (s : State) (l : LaneId) : (s.endPulse l).startAckWait l =
    { s with lanes := s.lanes.upd l { (s.lane l) with
      stb := stbInactive (s.lease l).stbPol, pulseEnd := none, state := .stalled, stallTimer := some s.now,
      inactiveAt := if s.rtnActive l then none else some s.now } } := by
  unfold State.startAckWait State.endPulse
  rw [setLane_judgeNow, State.setLane_lane_self, setLane_setLane, State.setLane_now]
  rfl

theorem endPulse_startEdgeWatch (s : State) (l : LaneId) (n : Nat) : (s.endPulse l).startEdgeWatch l n =
    { s with lanes := s.lanes.upd l { (s.lane l) with
      stb := stbInactive (s.lease l).stbPol, pulseEnd := none, state := .stalled,
      inactiveAt := if s.rtnActive l then none else some s.now,
      capture := { (s.lane l).capture with timer := some n } } } := by
  unfold State.startEdgeWatch State.endPulse
  rw [setLane_judgeNow, State.setLane_lane_self, setLane_setLane]
  rfl

theorem endPulse_lane (s : State) (l : LaneId) : (s.endPulse l).lane l =
    { (s.lane l) with stb := stbInactive (s.lease l).stbPol, pulseEnd := none } := State.setLane_lane_self s l _

/-- What follows the end of a pulse, pacing by pacing (R93, R106, R119, R123, R128). -/
theorem endPulse_afterPulse (s : State) (l : LaneId) (e : Entry) :
    let ln := s.lane l
    let off := { ln with stb := stbInactive (s.lease l).stbPol, pulseEnd := none }
    let becomes := fun (v : Lane) => { s with lanes := s.lanes.upd l v }
    let held := { off with state := .holding .inWait, holdRequest := false, stallTimer := none }
    (s.endPulse l).afterPulse l e = match e.pacing with
      | .ack =>
        if ln.holdRequest then becomes held
        else becomes { off with
          state := .stalled, stallTimer := some s.now, inactiveAt := if s.rtnActive l then none else some s.now }
      | .rtnEdge =>
        if e.count ≤ ln.words then (becomes off).endAndGoOn l .complete
        else if ln.holdRequest then becomes held
        else becomes { off with
          state := .stalled, inactiveAt := if s.rtnActive l then none else some s.now,
          capture := { ln.capture with timer := some s.now } }
      | _ => becomes off := by
  have hnow : (s.endPulse l).now = s.now := rfl
  dsimp only
  unfold State.afterPulse
  rw [endPulse_lane, endPulse_holdIn, endPulse_startAckWait, endPulse_startEdgeWatch, hnow]
  cases e.pacing <;> rfl

/-- Settles O39. -/
theorem strobeEndStartsTheWait : Obligations.StrobeEndStartsTheWait := by
  intro s l ln off becomes held
  refine congrArg Host.Outcome.next ?_
  split
  · exact strobeEnd_of_none ‹_›
  · rename_i p h
    by_cases hp : s.now < p
    · rw [if_pos hp]
      exact strobeEnd_before h hp
    · rw [if_neg hp]
      split
      · rename_i hs hq
        rw [strobeEnd_running h hp hs hq]
        exact endPulse_afterPulse s l _
      · rename_i hn
        exact strobeEnd_other h hp hn

/-! ## Stall limits (R92, R95, R96) -/

theorem stallLimit_iff {e : Entry} {rest : List Entry} {start : Nat} {x : Pacing} (hs : (s.lane l).state = .stalled)
    (hq : (s.lane l).queue = e :: rest) (hp : e.pacing = x) (ht : (s.lane l).stallTimer = some start) :
    (s.lane l).stallLimitReached x s.now = true ↔ ¬(e.stallLimit = 0 ∨ s.now < start + 100 * e.stallLimit) := by
  unfold Lane.stallLimitReached
  rw [Lane.stalledUnder_some hs hq hp]
  dsimp only
  rw [ht]
  exact limitReached_iff _ _ _

theorem faultOutcome_ne_complete (c : FaultCode) : faultOutcome c ≠ .complete := by
  cases c <;> exact EndOutcome.noConfusion

/-- A pacing fault (R100): the entry ends in it, and the lane keeps its queue and its lines. -/
theorem endFaulted_eq {e : Entry} {rest : List Entry} (hq : (s.lane l).queue = e :: rest) (hk : e.kind = .output)
    (c : FaultCode) : s.endFaulted l c = { s with
      lanes := s.lanes.upd l { Lane.reset with
        state := .faulted c, queue := rest, drive := (s.lane l).drive, stb := stbInactive (s.lease l).stbPol },
      claims := s.claims.upd l (s.claimsOf l ++ [.release e.segment (s.orderCount + 1) none]),
      posts := s.posts ++
        [donePost l e s.time.timestamp (faultOutcome c) (s.lane l).words (s.lane l).staged.isSome none s.orderCount],
      orderCount := s.orderCount + 1 } := by
  have hd : (s.lane l).driveLeft e (s.lease l).park = (s.lane l).drive := by
    unfold Lane.driveLeft
    rw [hk]
  unfold State.endFaulted
  rw [endCurrent_eq s l e rest _ (faultOutcome_ne_complete c) true none hq]
  unfold State.setLane State.lane Lane.leftBy
  dsimp only
  rw [Bank.upd_upd_self, Bank.sel_upd_self]
  dsimp only
  unfold State.lane at hd
  rw [hd]
  rfl

/-- Settles O41. -/
theorem stallLimitFaults : Obligations.StallLimitFaults := by
  intro s l e rest start code ln pacing command hs hq hp ht
  have hk : e.kind = .output := by
    unfold Entry.kind
    rw [hp]
    cases code <;> rfl
  have hlim := stallLimit_iff hs hq hp ht
  have hexec : exec command s = .next (if (s.lane l).stallLimitReached pacing s.now then s.endFaulted l code else s) := by
    cases code <;> rfl
  rw [hexec]
  refine congrArg Host.Outcome.next ?_
  by_cases h : e.stallLimit = 0 ∨ s.now < start + 100 * e.stallLimit
  · rw [if_pos h, if_neg fun hc => hlim.1 hc h]
  · rw [if_neg h, if_pos (hlim.2 h)]
    exact endFaulted_eq hq hk code

/-! ## Pass ends (R71, R72, R97) -/

theorem lastPass_iff (ln : Lane) (e : Entry) :
    ln.lastPass e = true ↔ (if e.repeats = 0 then 1 < ln.queue.length else e.repeats ≤ ln.pass) := by
  unfold Lane.lastPass
  split <;> exact decide_eq_true_iff

theorem takePassEnd_eq (s : State) (l : LaneId) (e : Entry) :
    let ln := s.lane l
    let next := { ln with pass := min (ln.pass + 1) 65535, passWords := 0, stallTimer := none }
    s.takePassEnd l e =
      if (if e.repeats = 0 then 1 < ln.queue.length else e.repeats ≤ ln.pass) then s.endAndGoOn l .complete
      else if ln.holdRequest then
        { s with lanes := s.lanes.upd l { next with state := .holding .atBoundary, holdRequest := false } }
      else State.attemptBoundary { s with lanes := s.lanes.upd l next } l e := by
  intro ln next
  unfold State.takePassEnd
  dsimp only
  simp only [lastPass_iff]
  by_cases h : if e.repeats = 0 then 1 < ln.queue.length else e.repeats ≤ ln.pass
  · rw [if_pos h, if_pos h]
  · rw [if_neg h, if_neg h]
    unfold State.boundaryPoint State.holdIn
    rw [State.setLane_lane_self, setLane_setLane]
    rfl

theorem passEnd_eq {e : Entry} {rest : List Entry} {p : Nat} (hs : (s.lane l).state = .running)
    (hq : (s.lane l).queue = e :: rest) (hf : e.pacing = .free ∨ e.pacing = .ready) (hp : (s.lane l).point = some p)
    (hc : e.count ≤ (s.lane l).passWords) : s.passEnd l = if s.now < p then s else s.takePassEnd l e := by
  unfold State.passEnd Lane.passEndDue reached
  rw [Lane.current_eq (by rw [hs]; rfl) hq, hs, hp]
  by_cases h : s.now < p
  · rw [if_pos h, if_neg (by simpa using h)]
  · rw [if_neg h, if_pos (by simpa using h), Option.filter_some, if_pos (by simpa [hc] using hf)]

/-- Settles O42. -/
theorem passEndTaken : Obligations.PassEndTaken :=
  ⟨takePassEnd_eq, fun _ _ _ _ _ hs hq hf hp hc => congrArg Host.Outcome.next (passEnd_eq hs hq hf hp hc)⟩

end Sys2Proof.Machine
end

section
/-! RTN of a waiting or watching lane, and the answers to its appends (R83, R91, R94, R119 to R124). -/

namespace Sys2Proof.Machine

variable {s : State} {l : LaneId}

/-! ## READY stalls and ACK waits (R91, R94) -/

theorem mayJudge_iff (ln : Lane) (now : Nat) : ln.mayJudge now = true ↔ ln.inactiveAt ≠ some now := bne_iff_ne

theorem edgeArmed_iff (ln : Lane) (now : Nat) : ln.edgeArmed now = true ↔ ∃ n, ln.inactiveAt = some n ∧ n ≠ now := by
  unfold Lane.edgeArmed Lane.mayJudge
  cases ln.inactiveAt <;> simp

theorem rtnReadyActive_of_stalled {e : Entry} {rest : List Entry} (hs : (s.lane l).state = .stalled)
    (hq : (s.lane l).queue = e :: rest) (hp : e.pacing = .ready) (hj : (s.lane l).inactiveAt ≠ some s.now) :
    s.rtnReadyActive l = (s.raiseRtn l).driveWord l e := by
  unfold State.rtnReadyActive
  rw [Lane.stalledUnder_some hs hq hp]
  exact if_pos ((mayJudge_iff _ _).2 hj)

theorem rtnReadyActive_of_judged (hj : (s.lane l).inactiveAt = some s.now) : s.rtnReadyActive l = s.raiseRtn l := by
  unfold State.rtnReadyActive
  split
  · exact if_neg fun h => (mayJudge_iff _ _).1 h hj
  · rfl

theorem rtnReadyActive_of_none (h : (s.lane l).stalledUnder .ready = none) : s.rtnReadyActive l = s.raiseRtn l := by
  unfold State.rtnReadyActive
  rw [h]

theorem ackEdge_of_stalled {e : Entry} {rest : List Entry} (hs : (s.lane l).state = .stalled)
    (hq : (s.lane l).queue = e :: rest) (hp : e.pacing = .ack) (ha : ∃ n, (s.lane l).inactiveAt = some n ∧ n ≠ s.now) :
    s.ackEdge l = (s.raiseRtn l).acknowledge l e := by
  unfold State.ackEdge
  rw [Lane.stalledUnder_some hs hq hp]
  exact if_pos ((edgeArmed_iff _ _).2 ha)

theorem ackEdge_of_unarmed (h : ¬∃ n, (s.lane l).inactiveAt = some n ∧ n ≠ s.now) : s.ackEdge l = s.raiseRtn l := by
  unfold State.ackEdge
  split
  · exact if_neg fun ha => h ((edgeArmed_iff _ _).1 ha)
  · rfl

theorem ackEdge_of_none (h : (s.lane l).stalledUnder .ack = none) : s.ackEdge l = s.raiseRtn l := by
  unfold State.ackEdge
  rw [h]

/-- The acknowledging edge where no hold request is pending: the pass end, or the next boundary at the later of the edge and the
scheduled point (R94, R97). -/
theorem acknowledge_eq {e : Entry} (u : State) (l : LaneId) (hp : e.pacing = .ack) (hh : (u.lane l).holdRequest = false) :
    let v := { u with lanes := u.lanes.upd l { (u.lane l) with
      state := .running, acked := true, stallTimer := none, inactiveAt := none } }
    u.acknowledge l e = if e.count ≤ (u.lane l).passWords then u.takePassEnd l e
      else match (u.lane l).point with
        | some p => if p ≤ u.now then v.driveWord l e else v
        | none => v := by
  intro v
  have hk : e.kind = .output := by
    unfold Entry.kind
    rw [hp]
    rfl
  have hv : (v.lane l).holdRequest = false :=
    (congrArg Lane.holdRequest (State.setLane_lane_self u l _)).trans hh
  have hb : v.boundaryPoint l e = v.driveWord l e := by
    unfold State.boundaryPoint
    rw [if_neg (by rw [hv]; exact Bool.false_ne_true), attemptBoundary_output hk]
    exact if_neg (by rw [hp]; rintro ⟨h, -⟩; cases h)
  have ha : u.acknowledge l e = if e.count ≤ (u.lane l).passWords then u.takePassEnd l e
      else if reached (u.lane l).point u.now then v.boundaryPoint l e else v := rfl
  rw [ha, hb]
  unfold reached
  cases (u.lane l).point with
  | none => rfl
  | some p => simp only [decide_eq_true_eq]

/-- Settles O40. -/
theorem rtnEndsStalls : Obligations.RtnEndsStalls := by
  refine ⟨fun s l e rest => ⟨fun hs hq hp hj => ?_, fun h => ?_⟩, fun s l e rest => ⟨fun hs hq hp ha hh => ?_, fun h => ?_⟩⟩
  · exact congrArg Host.Outcome.next (rtnReadyActive_of_stalled hs hq hp hj)
  · refine congrArg Host.Outcome.next ?_
    rcases h with h | h | h
    · exact rtnReadyActive_of_none (Lane.stalledUnder_none (e := e) (rest := rest) (.inl h))
    · exact rtnReadyActive_of_none (Lane.stalledUnder_none (.inr h))
    · exact rtnReadyActive_of_judged h
  · exact congrArg Host.Outcome.next ((ackEdge_of_stalled hs hq hp ha).trans (acknowledge_eq (s.raiseRtn l) l hp hh))
  · refine congrArg Host.Outcome.next ?_
    rcases h with h | h | h | h
    · exact ackEdge_of_none (Lane.stalledUnder_none (e := e) (rest := rest) (.inl h))
    · exact ackEdge_of_none (Lane.stalledUnder_none (.inr h))
    · exact ackEdge_of_unarmed fun ⟨n, hn, _⟩ => by rw [h] at hn; cases hn
    · exact ackEdge_of_unarmed fun ⟨n, hn, hne⟩ => hne (Option.some.inj (hn.symm.trans h))

/-! ## RTN_EDGE samples (R119, R120) -/

theorem edgeReady_iff (ln : Lane) (e : Entry) (now : Nat) : ln.edgeReady e now = true ↔
    (∃ n, ln.inactiveAt = some n ∧ n ≠ now) ∧ ln.words < e.count ∧ ln.capture.pendingAppend = none := by
  unfold Lane.edgeReady
  rw [Bool.and_eq_true, Bool.and_eq_true, edgeArmed_iff, decide_eq_true_eq, Option.isNone_iff_eq_none, and_assoc]

theorem rtnEdgeSample_of_ready {e : Entry} {rest : List Entry} (hs : (s.lane l).state = .stalled)
    (hq : (s.lane l).queue = e :: rest) (hp : e.pacing = .rtnEdge) (hr : (s.lane l).edgeReady e s.now = true) :
    s.rtnEdgeSample l = (s.raiseRtn l).sampleEdge l e := by
  unfold State.rtnEdgeSample
  rw [Lane.stalledUnder_some hs hq hp]
  exact if_pos hr

theorem rtnEdgeSample_of_not_ready
    (h : ∀ e, (s.lane l).stalledUnder .rtnEdge = some e → ¬(s.lane l).edgeReady e s.now = true) :
    s.rtnEdgeSample l = s.raiseRtn l := by
  unfold State.rtnEdgeSample
  split
  · exact if_neg (h _ ‹_›)
  · rfl

/-- A lane that watches under a pacing has its current entry at the head of its queue. -/
theorem queue_of_stalledUnder {ln : Lane} {x : Pacing} {e e' : Entry} {rest : List Entry}
    (h : ln.stalledUnder x = some e') (hq : ln.queue = e :: rest) : e' = e := by
  unfold Lane.stalledUnder at h
  split at h
  · rename_i hs
    rw [Lane.current_eq (by rw [hs]; rfl) hq] at h
    exact (Option.some.inj (Option.mem_filter_iff.1 (Option.mem_def.2 h)).1).symm
  · cases h

theorem stallTicks_eq (prev : Option Nat) (now : Nat) : edgeElapsed prev now =
    match prev with
    | none => 0
    | some p => min 255 ((now - p) / 100) := by
  unfold edgeElapsed Config.stallTicks
  rfl

/-- The sample of an edge, in the lane and its claims (R119, R120). -/
theorem sampleEdge_eq (u : State) (l : LaneId) (e : Entry) :
    let ln := u.lane l
    let timing := ln.timing.getD e.timing
    let pol := (u.lease l).stbPol
    let elapsed := match ln.capture.prevSample with
      | none => 0
      | some p => min 255 ((u.now - p) / 100)
    let word : Word := byteOf elapsed ++ (u.pinsOf l).data
    u.sampleEdge l e = { u with
      claims := u.claims.upd l (u.claimsOf l ++ [.append e.segment e.id word]),
      lanes := u.lanes.upd l { ln with
        state := if timing.strobe = 0 then .stalled else .running,
        inactiveAt := none,
        stb := if timing.strobe = 0 then stbInactive pol else stbActive pol,
        pulseEnd := if timing.strobe = 0 then none else some (u.now + strobeTicks timing),
        capture := { ln.capture with
          prevSample := some u.now, pendingAppend := some word,
          timer := if timing.strobe = 0 then some (u.now + 1) else none } } } := by
  dsimp only
  rw [← stallTicks_eq]
  rfl

/-- Settles O46. -/
theorem rtnEdgeSamples : Obligations.RtnEdgeSamples := by
  intro s l e rest
  refine ⟨fun hs hq hp ha hw hn => ?_, fun h => ?_⟩
  · have hr := (edgeReady_iff (s.lane l) e s.now).2 ⟨ha, hw, hn⟩
    refine congrArg Host.Outcome.next ((rtnEdgeSample_of_ready hs hq hp hr).trans ((sampleEdge_eq _ l e).trans ?_))
    have hpins : (s.raiseRtn l).pinsOf l = { (s.pinsOf l) with rtn := (s.lease l).rtnPol == .activeHigh } :=
      State.setPins_pinsOf_self s l _
    rw [hpins]
    rfl
  · refine congrArg Host.Outcome.next (rtnEdgeSample_of_not_ready fun e' he hr => ?_)
    obtain ⟨⟨n, hn, hne⟩, hw, hpend⟩ := (edgeReady_iff _ _ _).1 hr
    rcases h with h | h | h | h | h | ⟨hq, hcount⟩
    · rw [Lane.stalledUnder_none (e := e) (rest := rest) (.inl h)] at he
      cases he
    · rw [Lane.stalledUnder_none (.inr h)] at he
      cases he
    · rw [h] at hn
      cases hn
    · exact hne (Option.some.inj (hn.symm.trans h))
    · exact h hpend
    · rw [queue_of_stalledUnder he hq] at hw
      exact absurd hw (not_lt.2 hcount)

/-! ## The answer to an append (R122 to R124) -/

theorem awaits_eq (ln : Lane) (a : AppendAnswer) : ln.awaits a =
    match ln.state.hasCurrent, ln.queue, ln.capture.pendingAppend with
    | true, e :: _, some w => if e.id ≠ a.entry ∨ e.kind = .output then none else some (e, w)
    | _, _, _ => none := by
  unfold Lane.awaits Lane.current
  cases ln.state.hasCurrent with
  | false => rfl
  | true =>
    cases ln.queue with
    | nil => rfl
    | cons e rest =>
      cases ln.capture.pendingAppend with
      | none => rfl
      | some w =>
        show (if e.id = a.entry ∧ e.kind = .capture then some (e, w) else none) =
          if e.id ≠ a.entry ∨ e.kind = .output then none else some (e, w)
        cases e.kind <;> simp

theorem answerStored_eq (u : State) (l : LaneId) (e : Entry) (w : Word) :
    let ln := u.lane l
    let words := min (ln.words + 1) 65535
    let v := { u with lanes := u.lanes.upd l { ln with
      words := words,
      capture := { ln.capture with
        lastKept := some (w.extractLsb' 0 8), boundaryCount := 0, pendingAppend := none } } }
    u.answerStored l e w =
      if e.pacing = .rtnEdge ∧ e.count ≤ words ∧ ln.pulseEnd = none ∧ ln.state = .stalled then v.endAndGoOn l .complete
      else v := rfl

/-- A capture that its answer ends (R122): a lane HOLDING within it goes HOLDING between entries at its park word. -/
theorem endCapture_eq (u : State) (l : LaneId) (o : EndOutcome) : u.endCapture l o =
    match (u.lane l).state with
    | .holding _ =>
      let v := u.endCurrent l o true none
      { v with lanes := v.lanes.upd l { (v.lane l) with
        state := .holding .betweenEntries, holdRequest := false, stallTimer := none,
        drive := Drive.ofWord (u.lease l).park, stb := stbInactive (u.lease l).stbPol } }
    | _ => u.endAndGoOn l o := by
  have hlease := (endCurrent_frame u l o true none).lease l
  have hv : ((u.endCurrent l o true none).holdIn l .betweenEntries).showPark l =
      (u.endCurrent l o true none).setLane l { ((u.endCurrent l o true none).lane l) with
        state := .holding .betweenEntries, holdRequest := false, stallTimer := none,
        drive := Drive.ofWord (u.lease l).park, stb := stbInactive (u.lease l).stbPol } := by
    rw [← hlease]
    generalize u.endCurrent l o true none = v
    unfold State.showPark State.holdIn
    rw [State.setLane_lane_self, State.setLane_lease, setLane_setLane]
  unfold State.endCapture
  rw [hv]
  rfl

/-- Settles O47. -/
theorem appendAnswerActs : Obligations.AppendAnswerActs := by
  intro s l a answers hans ln u ends
  refine congrArg Host.Outcome.next ?_
  have hends : ∀ o, u.endCapture l o = ends o := fun o => endCapture_eq u l o
  unfold State.appendAnswer
  rw [hans]
  dsimp only
  rw [awaits_eq]
  cases (s.lane l).state.hasCurrent with
  | false => rfl
  | true =>
    cases hq : (s.lane l).queue with
    | nil => rfl
    | cons e rest =>
      cases (s.lane l).capture.pendingAppend with
      | none => rfl
      | some w =>
        dsimp only
        rw [← hq]
        by_cases h : e.id ≠ a.entry ∨ e.kind = .output
        · rw [if_pos h, if_pos h]
          rfl
        · rw [if_neg h, if_neg h]
          dsimp only
          cases a.result with
          | full => exact hends .segmentFull
          | gone => exact hends .segmentGone
          | stored => exact answerStored_eq u l e w

end Sys2Proof.Machine
end

section
/-! How an entry proceeds, and entry start (R67 to R70, R134, R137). -/

namespace Sys2Proof.Machine

variable {s : State} {l : LaneId}

/-! ## Proceed (R70, R114, R115, R119) -/

/-- A lane begun on its entry and ENTRY_STARTED posted where asked for. -/
theorem started_eq (s : State) (l : LaneId) (e : Entry) (x : Stamp) (a : Option (LaneId × Nat)) (v : Lane) :
    (if e.notifyStart then (s.setLane l v).postRanked (startedPost l e x a) else s.setLane l v) =
      { s with
        posts := s.posts ++ if e.notifyStart then [startedPost l e x a s.orderCount] else [],
        orderCount := s.orderCount + if e.notifyStart then 1 else 0,
        lanes := s.lanes.upd l v } := by
  cases e.notifyStart with
  | true => rfl
  | false =>
    simp only [Bool.false_eq_true, if_false, List.append_nil]
    rfl

theorem stallReady_eq (u : State) (l : LaneId) (v : Lane) (b : Bank 4 Lane) (hl : u.lanes = b.upd l v) (n : Nat) :
    ({ u with lanes := u.lanes.upd l { (u.lane l) with state := .stalled, stallTimer := some n, inactiveAt := some n } } : State) =
      { u with lanes := b.upd l { v with state := .stalled, stallTimer := some n, inactiveAt := some n } } := by
  have hv : u.lane l = v := by
    unfold State.lane
    rw [hl]
    exact Bank.sel_upd_self b l v
  rw [hv, hl, Bank.upd_upd_self]

theorem setLane_of_upd (u : State) (l : LaneId) (v w : Lane) (b : Bank 4 Lane) (hl : u.lanes = b.upd l v) :
    u.setLane l w = { u with lanes := b.upd l w } := by
  unfold State.setLane
  rw [hl, Bank.upd_upd_self]

theorem lane_of_upd (u : State) (l : LaneId) (v : Lane) (b : Bank 4 Lane) (hl : u.lanes = b.upd l v) : u.lane l = v := by
  unfold State.lane
  rw [hl]
  exact Bank.sel_upd_self b l v

/-- Settles O44. -/
theorem entryProceeds : Obligations.EntryProceeds := by
  refine ⟨fun s l e stamp after => ?_, fun s l e rest stamp after hs hq => ?_, fun s l h => ?_⟩
  · intro ln begun posts told output capturing
    have hout : (if e.notifyStart then (s.setLane l begun).postRanked (startedPost l e stamp after) else s.setLane l begun) =
        output := started_eq s l e stamp after begun
    have hlane : output.lane l = begun := lane_of_upd output l begun s.lanes rfl
    have hproceed : s.proceed l e stamp after = match e.kind with
        | .output => output.attemptBoundary l e
        | .capture =>
          let s3 := output.setLane l { (output.lane l) with
            drive := Drive.none, stb := stbInactive (s.lease l).stbPol, capture := Capture.none }
          if e.pacing = .rtnEdge then s3.startEdgeWatch l s.now else s3.sampleBoundary l e := by
      rw [← hout]
      rfl
    have hcap : output.setLane l { (output.lane l) with
        drive := Drive.none, stb := stbInactive (s.lease l).stbPol, capture := Capture.none } =
        { told with lanes := s.lanes.upd l capturing } := by
      rw [hlane]
      exact setLane_of_upd output l begun capturing s.lanes rfl
    rw [hproceed, hcap]
    unfold Entry.kind
    cases hp : e.pacing with
    | free =>
      have hk : e.kind = .output := by unfold Entry.kind; rw [hp]; rfl
      exact (attemptBoundary_output hk output l).trans (if_neg (by rw [hp]; rintro ⟨h, -⟩; cases h))
    | ack =>
      have hk : e.kind = .output := by unfold Entry.kind; rw [hp]; rfl
      exact (attemptBoundary_output hk output l).trans (if_neg (by rw [hp]; rintro ⟨h, -⟩; cases h))
    | ready =>
      have hk : e.kind = .output := by unfold Entry.kind; rw [hp]; rfl
      have hr : output.rtnActive l = s.rtnActive l := rfl
      refine (attemptBoundary_output hk output l).trans ?_
      dsimp only
      rw [hr]
      cases s.rtnActive l with
      | true => exact if_neg (by rintro ⟨-, h⟩; cases h)
      | false => exact (if_pos ⟨hp, rfl⟩).trans (stallReady_eq output l begun s.lanes rfl s.now)
    | rtnEdge =>
      refine (if_pos rfl).trans ?_
      unfold State.startEdgeWatch
      rw [lane_of_upd { told with lanes := s.lanes.upd l capturing } l capturing s.lanes rfl]
      exact setLane_of_upd { told with lanes := s.lanes.upd l capturing } l capturing _ s.lanes rfl
    | step => exact if_neg Pacing.noConfusion
    | change => exact if_neg Pacing.noConfusion
  · exact congrArg Host.Outcome.next (settleRelease_of_released hs hq)
  · exact congrArg Host.Outcome.next (settleRelease_of_not_released h)

/-! ## Entry start (R67 to R69, R134) -/

theorem offerWait_eq (s : State) (l : LaneId) (e : Entry) : s.offerWait l e =
    match e.waitMark with
    | none => s.proceed l e s.time.timestamp none
    | some (m, mode) =>
      if (s.mark m).isSet then
        (match mode with
        | .pass => s.proceed l e s.time.timestamp none
        | .take => State.proceed { s with
            marks := s.marks.upd m { isSet := false, waiters := (s.mark m).waiters } } l e s.time.timestamp none)
      else { s with
        marks := s.marks.upd m { isSet := false, waiters := (s.mark m).waiters ++ [(l, mode)] },
        lanes := s.lanes.upd l { (s.lane l) with
          state := .markwait, drive := Drive.ofWord (s.lease l).park, stb := stbInactive (s.lease l).stbPol } } := by
  unfold State.offerWait
  cases e.waitMark with
  | none => rfl
  | some w =>
    obtain ⟨m, mode⟩ := w
    dsimp only
    cases hm : (s.mark m).isSet with
    | true => cases mode <;> rfl
    | false =>
      refine (if_neg Bool.false_ne_true).trans (Eq.trans ?_ (if_neg Bool.false_ne_true).symm)
      unfold State.showPark
      rw [State.setLane_lane_self, State.setLane_lease, setLane_setLane]
      rfl

theorem takeClaim_setLane (s : State) (l j : LaneId) (v : Lane) (c : LaneClaim) :
    (s.setLane j v).takeClaim l c = (s.takeClaim l c).setLane j v := by
  cases c with
  | append r id w =>
    show (s.setLane j v).takeAppend l r id w = (s.takeAppend l r id w).setLane j v
    unfold State.takeAppend
    split
    · rfl
    · dsimp only [State.setLane_store]
      split <;> rfl
  | release r n x =>
    show (s.setLane j v).takeRelease l r n x = (s.takeRelease l r n x).setLane j v
    rw [takeRelease_eq, takeRelease_eq]
    split <;> rfl

/-- A lane and the claims taken do not meet. -/
theorem settleClaims_setLane (s : State) (l j : LaneId) (v : Lane) :
    (s.setLane j v).settleClaims l = (s.settleClaims l).setLane j v := by
  have h : ∀ (cs : List LaneClaim) (u : State),
      cs.foldl (fun t c => t.takeClaim l c) (u.setLane j v) = (cs.foldl (fun t c => t.takeClaim l c) u).setLane j v := by
    intro cs
    induction cs with
    | nil => exact fun _ => rfl
    | cons c cs ih => exact fun u => by rw [List.foldl_cons, takeClaim_setLane, ih, List.foldl_cons]
  exact h (s.claimsOf l) (s.setClaims l [])

theorem entryCondemned_iff (u : State) (e : Entry) : u.entryCondemned e = true ↔
    ∀ i : Slot, e.segment.handle.toNat = i.val + 1 → (u.store.entry i).state = .condemned := by
  unfold State.entryCondemned
  cases h : handleSlot e.segment.handle with
  | none =>
    refine iff_of_true rfl fun i hi => ?_
    rw [(handleSlot_iff _ i).2 hi] at h
    cases h
  | some i =>
    have hi := (handleSlot_iff _ i).1 h
    constructor
    · intro hc j hj
      have e : i = j := Fin.ext (by omega)
      subst e
      simpa using hc
    · intro hc
      simpa using hc i hi

/-- The store after the claims that a capture's state claim waits for (R30, log 11). -/
def State.claimsSettled (s : State) (l : LaneId) (e : Entry) : State := if e.kind = .capture then s.settleClaims l else s

theorem claimsSettled_setLane (s : State) (l : LaneId) (e : Entry) (v : Lane) :
    (s.setLane l v).claimsSettled l e = (s.claimsSettled l e).setLane l v := by
  unfold State.claimsSettled
  split
  · exact settleClaims_setLane s l l v
  · rfl

/-- Entry start on a queue with a head (R67 to R69). -/
theorem startQueue_cons (s : State) (l : LaneId) (e : Entry) (rest : List Entry) :
    let u := (s.claimsSettled l e).setLane l { (s.lane l) with state := .running, pass := 0, words := 0 }
    startQueue l (e :: rest) s = if e.kind = .capture ∧ u.entryCondemned e then
        startQueue l rest
          ((u.setLane l { ((u.lane l).clearCurrent (u.lease l).stbPol) with queue := rest }).finishEntry l e
            .segmentGone 0 false true none)
      else u.offerWait l e := by
  dsimp only
  rw [← claimsSettled_setLane]
  rfl

theorem claimsSettled_frame (s : State) (l : LaneId) (e : Entry) : StoreFrame s (s.claimsSettled l e) := by
  unfold State.claimsSettled
  split
  · exact settleClaims_frame s l
  · exact StoreFrame.refl s

/-- A capture entry whose segment is gone, ended at its start (R68): the claims of the lane were taken, and its release stands alone. -/
theorem gone_finished (s : State) (l : LaneId) (e : Entry) (rest : List Entry) (v : Lane) :
    let u := s.settleClaims l
    ((u.setLane l v).setLane l { (v.clearCurrent (s.lease l).stbPol) with queue := rest }).finishEntry l e
        .segmentGone 0 false true none = { u with
      lanes := u.lanes.upd l { (v.clearCurrent (s.lease l).stbPol) with queue := rest },
      posts := u.posts ++ [donePost l e s.time.timestamp .segmentGone 0 false none s.orderCount],
      orderCount := s.orderCount + 1,
      claims := u.claims.upd l [.release e.segment (s.orderCount + 1) none] } := by
  have hclaims : (s.settleClaims l).claimsOf l = [] := by
    unfold State.claimsOf
    rw [settleClaims_claims]
    exact Bank.sel_upd_self s.claims l []
  have hcount : (s.settleClaims l).orderCount = s.orderCount := by
    obtain ⟨_, _, _, _, h⟩ := settleClaims_frame s l
    rw [h]
  have htime : (s.settleClaims l).time = s.time := (settleClaims_start s l).time
  dsimp only
  generalize s.settleClaims l = u at hclaims hcount htime
  rw [setLane_setLane, finishEntry_eq _ l e (by decide)]
  rw [← hcount, ← htime]
  unfold State.setLane State.claimsOf at *
  dsimp only
  rw [hclaims]
  rfl

theorem entryStart_of_queue {t : State} {rest : List Entry} (h : (t.lane l).queue = rest) :
    startQueue l rest t = t.entryStart l := by
  subst h
  rfl

/-- Settles O45. -/
theorem waitOfferedAtEntryStart : Obligations.WaitOfferedAtEntryStart := by
  refine ⟨offerWait_eq, fun s l hq => ?_, fun s l e rest hq => ?_⟩
  · exact (congrArg (fun q => startQueue l q s) hq).trans (goIdle_eq s l)
  · intro ln u gone
    have hstart : s.entryStart l = startQueue l (e :: rest) s := congrArg (fun q => startQueue l q s) hq
    rw [hstart, startQueue_cons]
    dsimp only
    have hu : s.claimsSettled l e = u := rfl
    have hgone : e.kind = .capture ∧
        ((s.claimsSettled l e).setLane l { (s.lane l) with state := .running, pass := 0, words := 0 }).entryCondemned e = true ↔
          gone := by
      rw [entryCondemned_iff]
      exact Iff.rfl
    refine ⟨fun h => ?_, fun h => ?_⟩
    · rw [if_neg (mt hgone.1 h)]
      rfl
    · rw [if_pos (hgone.2 h), State.setLane_lane_self, State.setLane_lease]
      have hk := h.1
      have hs : s.claimsSettled l e = s.settleClaims l := if_pos hk
      have hlease : (s.settleClaims l).lease l = s.lease l := (settleClaims_start s l).lease l
      have hu' : u = s.settleClaims l := if_pos hk
      rw [hs, hlease, gone_finished, hu']
      generalize s.settleClaims l = w
      exact entryStart_of_queue (congrArg Lane.queue (Bank.sel_upd_self w.lanes l _))

end Sys2Proof.Machine
end

section
/-! Commands with nothing to act on (log 2). -/

namespace Sys2Proof.Machine

variable {s : State} {k : HostId} {l : LaneId}

/-! ## Requests -/

theorem decide_of_not_waiting {kind : RequestKind}
    (h : ∀ req live, s.waiting k = some (req, live) → req.code ≠ requestCode kind) (f : List Byte → State × Reply) :
    s.decide k kind f = s := by
  unfold State.decide
  split
  · rfl
  · exact if_neg (h _ _ ‹_›)

theorem decideWithdrawal_of_not_waiting {kind : RequestKind}
    (h : ∀ req live, s.waiting k = some (req, live) → req.code ≠ requestCode kind)
    (f : List Byte → Except Status (HostId × WithdrawalCause)) : s.decideWithdrawal k kind f = s := by
  unfold State.decideWithdrawal
  split
  · rfl
  · exact if_neg (h _ _ ‹_›)

theorem requestCommand_exec (s : State) (k : HostId) (kind : RequestKind) :
    (∃ f, exec (requestCommand k kind) s = .next (s.decide k kind f)) ∨
      ∃ f, exec (requestCommand k kind) s = .next (s.decideWithdrawal k kind f) := by
  cases kind with
  | detach => exact .inr ⟨_, rfl⟩
  | evict => exact .inr ⟨_, rfl⟩
  | _ => exact .inl ⟨_, rfl⟩

theorem requestCommand_of_not_waiting {kind : RequestKind}
    (h : ∀ req live, s.waiting k = some (req, live) → req.code ≠ requestCode kind) :
    exec (requestCommand k kind) s = .next s := by
  rcases requestCommand_exec s k kind with ⟨f, he⟩ | ⟨f, he⟩
  · rw [he, decide_of_not_waiting h]
  · rw [he, decideWithdrawal_of_not_waiting h]

/-! ## The events of an OFF lane -/

theorem stalledUnder_of_off (h : s.lane l = Lane.reset) (x : Pacing) : (s.lane l).stalledUnder x = none := by
  rw [h]
  rfl

theorem off_event (h : s.lane l = Lane.reset) :
    ∀ c ∈ [Instr.stepBoundary l, .strobeEnd l, .readyTimeout l, .ackTimeout l, .passEnd l, .captureTimeout l,
      .captureEndPoint l, .markReleaseProceed l], exec c s = .next s := by
  intro c hc
  simp only [List.mem_cons, List.not_mem_nil, or_false] at hc
  rcases hc with rfl | rfl | rfl | rfl | rfl | rfl | rfl | rfl <;> refine congrArg Host.Outcome.next ?_
  · unfold State.stepBoundary
    rw [h]
    rfl
  · exact strobeEnd_of_none (by rw [h]; rfl)
  · rw [h]
    rfl
  · rw [h]
    rfl
  · unfold State.passEnd
    rw [h]
    rfl
  · rw [h]
    rfl
  · rw [h]
    rfl
  · exact settleRelease_of_not_released fun x a => by rw [h]; exact LaneState.noConfusion

theorem off_rtn (h : s.lane l = Lane.reset) :
    ∀ c ∈ [Instr.rtnReadyActive l, .ackEdge l, .rtnEdgeSample l],
      exec c s = .next (s.setPins l { (s.pinsOf l) with rtn := (s.lease l).rtnPol == .activeHigh }) := by
  intro c hc
  simp only [List.mem_cons, List.not_mem_nil, or_false] at hc
  rcases hc with rfl | rfl | rfl <;> refine congrArg Host.Outcome.next ?_
  · exact rtnReadyActive_of_none (stalledUnder_of_off h _)
  · exact ackEdge_of_none (stalledUnder_of_off h _)
  · exact rtnEdgeSample_of_not_ready fun e he => by rw [stalledUnder_of_off h] at he; cases he

/-! ## Takings with nothing presented -/

theorem leasePart_of_none (h : s.withdrawals = []) (n : Nat) : s.leasePart n = s := by
  unfold State.leasePart
  rw [h]
  rfl

theorem segmentPart_of_none (h : s.withdrawals = []) (n : Nat) : s.segmentPart n = s := by
  unfold State.segmentPart
  rw [h]
  rfl

theorem eventPart_of_none (h : s.withdrawals = []) (n : Nat) : s.eventPart n = s := by
  unfold State.eventPart
  rw [h]
  rfl

/-- Settles O8, command by command. -/
theorem nothingToActOn : Obligations.NothingToActOn := by
  refine ⟨fun s k kind h => requestCommand_of_not_waiting h, fun s l h => ⟨off_event h, off_rtn h⟩,
    fun s l h => ⟨?_, ?_⟩, fun s l h => ?_, fun s k i h => ?_, fun s n h => ⟨?_, ?_, ?_⟩⟩
  · refine congrArg Host.Outcome.next ?_
    unfold State.appendEvent
    rw [h]
  · refine congrArg Host.Outcome.next ?_
    unfold State.releaseEvent
    rw [h]
  · refine congrArg Host.Outcome.next ?_
    unfold State.appendAnswer
    rw [h]
  · refine congrArg Host.Outcome.next ?_
    have hr : s.postReady k i = none := by
      unfold State.postReady State.postsFor
      rw [h]
      rfl
    unfold State.filePost
    rw [hr]
  · exact congrArg Host.Outcome.next (leasePart_of_none h n)
  · exact congrArg Host.Outcome.next (segmentPart_of_none h n)
  · exact congrArg Host.Outcome.next (eventPart_of_none h n)

end Sys2Proof.Machine
end

section
/-! Link resets and the transactions on the ports (R163 to R167, R174, R178, R179). -/

namespace Sys2Proof.Machine

variable {s : State} {k : HostId} {p : Port}

/-! ## Link reset (R178) -/

theorem handsOn_iff (s : State) (k : HostId) : s.handsOn k = true ↔
    (s.link k).orphan = none ∧ ∀ w ∈ s.withdrawals, w.host = k → w.cause = .evicted := by
  unfold State.handsOn
  rw [Bool.and_eq_true, Bool.not_eq_true', List.any_eq_false, Option.isNone_iff_eq_none, and_comm]
  refine and_congr Iff.rfl (forall₂_congr fun w _ => ?_)
  simp only [Bool.and_eq_true, beq_iff_eq, bne_iff_ne, not_and, not_not]

/-- The request that a link reset leaves with its owner: the one handed on, or one left before (R178). -/
theorem linkReset_orphan (s : State) (k : HostId) :
    (if s.handsOn k then (s.link k).orphan.orElse (fun _ => (s.link k).deciding) else (s.link k).orphan) =
      if s.handsOn k then (s.link k).deciding else (s.link k).orphan := by
  split
  · rw [((handsOn_iff s k).1 ‹_›).1]
    rfl
  · rfl

/-- Settles O11. -/
theorem linkResetEmptiesTheLink : Obligations.LinkResetEmptiesTheLink := by
  refine ⟨fun s k h => ?_, fun s k => ?_, handsOn_iff⟩
  · refine ⟨s.nlrstFall k, rfl, ?_⟩
    unfold State.nlrstFall
    rw [if_neg (by rw [h]; exact Bool.noConfusion)]
    by_cases hn : s.nresetHigh = true
    · rw [if_pos hn, if_pos hn]
      unfold State.linkReset Link.linkReset
      rw [linkReset_orphan]
      exact ⟨rfl, fun j hj => State.setLink_link_ne s k _ hj.symm, State.setLink_link_self s k _, rfl⟩
    · rw [if_neg hn, if_neg hn]
      exact ⟨rfl, fun j hj => State.setLink_link_ne s k _ hj.symm, State.setLink_link_self s k _, rfl⟩
  · exact ⟨_, rfl, rfl, fun j hj => State.setLink_link_ne s k _ hj.symm, State.setLink_link_self s k _⟩

/-! ## How a transaction begins (R163, R166, R167) -/

theorem writeKind_eq (p : Port) : writeKind p = .write := by cases p <;> rfl

theorem readKind_eq (p : Port) : readKind p = .read := by cases p <;> rfl

theorem listens_iff (s : State) (p : Port) : s.listens p = true ↔
    s.nresetHigh = true ∧ (s.link (portHost p)).nlrstHigh = true ∧
      ∀ address, p = .i2c address → address = if s.a0 then 0x4D else 0x4C := by
  unfold State.listens i2cAddress
  rw [Bool.and_eq_true, Bool.and_eq_true, and_assoc]
  refine and_congr Iff.rfl (and_congr Iff.rfl ?_)
  cases p with
  | spi q => simp
  | i2c a => simp

theorem beginKind_eq (s : State) (p : Port) (kind : BusKind) : s.beginKind p kind =
    if s.listens p = false then .ignored
    else match p with
      | .spi _ => kind
      | .i2c _ => if kind = .write ∧ (s.link (portHost p)).port = .executing then .ignored else kind := by
  unfold State.beginKind
  cases p with
  | spi q => rfl
  | i2c a => cases kind <;> simp

theorem busFor_eq (s : State) (p : Port) (kind : BusKind) : s.busFor p kind =
    match (s.link (portHost p)).transaction, p with
    | some _, _ => (s.link (portHost p)).bus
    | none, .spi _ => { bytes := [0xFF], acks := [] }
    | none, .i2c _ => { bytes := [], acks := [decide (s.beginKind p kind ≠ .ignored)] } := by
  unfold State.busFor
  cases (s.link (portHost p)).transaction with
  | some tr => rfl
  | none =>
    cases p with
    | spi q => rfl
    | i2c a =>
      dsimp only
      cases s.beginKind (.i2c a) kind <;> rfl

/-- A write is taken or ignored, never answered as a read. -/
theorem beginKind_write_ne_read (s : State) (p : Port) : s.beginKind p .write ≠ .read := by
  rw [beginKind_eq]
  split
  · exact BusKind.noConfusion
  · split
    · exact BusKind.noConfusion
    · split <;> exact BusKind.noConfusion

theorem transactionFor_eq (s : State) (p : Port) (kind : BusKind) : s.transactionFor p kind =
    (s.link (portHost p)).transaction.getD { kind := s.beginKind p kind, frame := [], stream := none, sent := 0 } := rfl

/-! ## Bytes of a write (R163, R166, R174) -/

theorem busStep_link (s : State) (p : Port) (tr : Transaction) (old : BusReply) (b : List Byte) (a : List Bool) (ends : Bool) :
    (s.busStep p tr old b a ends).link (portHost p) = { (s.link (portHost p)) with
      transaction := if ends then none else some tr,
      bus := { bytes := old.bytes ++ b, acks := old.acks ++ a } } := State.setLink_link_self s _ _

/-- What a port puts on its bus for the bytes of a write. -/
def BusReply.afterWrite (old : BusReply) (p : Port) (taken : Bool) (n : Nat) : BusReply :=
  match p with
  | .spi _ => { bytes := old.bytes ++ List.replicate n 0xFF, acks := old.acks }
  | .i2c _ => { bytes := old.bytes, acks := old.acks ++ List.replicate n taken }

theorem afterWrite_eq (old : BusReply) (p : Port) (taken : Bool) (n : Nat) :
    ({ bytes := old.bytes ++ idleBytes p n, acks := old.acks ++ dataAcks p taken n } : BusReply) = old.afterWrite p taken n := by
  cases p with
  | spi q =>
    unfold idleBytes dataAcks
    dsimp only
    rw [List.append_nil]
    rfl
  | i2c a =>
    unfold idleBytes dataAcks
    dsimp only
    rw [List.append_nil]
    rfl

/-- The bytes of a write gathered, before the port takes the end of its frame. -/
def State.gathered (s : State) (p : Port) (bytes : List Byte) (ends : Bool) : State :=
  s.busStep p { s.transactionFor p .write with frame := (s.transactionFor p .write).frame ++ bytes } (s.busFor p .write)
    (idleBytes p bytes.length) (dataAcks p true bytes.length) ends

theorem gathered_link (s : State) (p : Port) (bytes : List Byte) (ends : Bool) :
    (s.gathered p bytes ends).link (portHost p) = { (s.link (portHost p)) with
      transaction := if ends then none
        else some { s.transactionFor p .write with frame := (s.transactionFor p .write).frame ++ bytes },
      bus := (s.busFor p .write).afterWrite p true bytes.length } := by
  unfold State.gathered
  rw [busStep_link, afterWrite_eq]

theorem writeBytes_eq (s : State) (p : Port) (bytes : List Byte) (ends : Bool) : s.writeBytes p bytes ends =
    match (s.transactionFor p .write).kind with
    | .read => s
    | .ignored => s.busStep p (s.transactionFor p .write) (s.busFor p .write) (idleBytes p bytes.length)
        (dataAcks p false bytes.length) ends
    | .write => if ends then (s.gathered p bytes ends).takeFrame p ((s.transactionFor p .write).frame ++ bytes)
        else s.gathered p bytes ends := by
  unfold State.writeBytes
  dsimp only
  rw [writeKind_eq]
  rfl

theorem writeBytes_ignored {bytes : List Byte} {ends : Bool} (h : (s.transactionFor p .write).kind = .ignored) :
    (s.writeBytes p bytes ends).link (portHost p) = { (s.link (portHost p)) with
      transaction := if ends then none else some (s.transactionFor p .write),
      bus := (s.busFor p .write).afterWrite p false bytes.length } := by
  rw [writeBytes_eq, h]
  dsimp only
  rw [busStep_link, afterWrite_eq]

theorem writeBytes_read {bytes : List Byte} {ends : Bool} (h : (s.transactionFor p .write).kind = .read) :
    s.writeBytes p bytes ends = s := by
  rw [writeBytes_eq, h]

theorem writeBytes_goes_on {bytes : List Byte} (h : (s.transactionFor p .write).kind = .write) :
    s.writeBytes p bytes false = s.gathered p bytes false := by
  rw [writeBytes_eq, h]
  exact if_neg Bool.false_ne_true

theorem writeBytes_ends {bytes : List Byte} (h : (s.transactionFor p .write).kind = .write) :
    s.writeBytes p bytes true = (s.gathered p bytes true).takeFrame p ((s.transactionFor p .write).frame ++ bytes) := by
  rw [writeBytes_eq, h]
  exact if_pos rfl

/-- An SPI frame that ends in EXECUTING sets the overrun flag, and an I2C port has none to end (R166, R174). -/
theorem takeFrame_executing (s : State) (p : Port) (frame : List Byte) (hf : frame ≠ []) :
    (s.link (portHost p)).port = .executing →
    (s.takeFrame p frame).link (portHost p) = { (s.link (portHost p)) with
      overrun := match p with | .spi _ => true | .i2c _ => (s.link (portHost p)).overrun } := by
  intro h
  cases p with
  | spi q =>
    have ht : s.takeFrame (.spi q) frame =
        s.setLink (portHost (.spi q)) { (s.link (portHost (.spi q))) with overrun := true } := by
      unfold State.takeFrame
      dsimp only
      rw [if_neg (by simpa using hf), h]
    rw [ht]
    exact State.setLink_link_self s _ _
  | i2c a =>
    have ht : s.takeFrame (.i2c a) frame = s := by
      unfold State.takeFrame
      dsimp only
      rw [if_neg (by simpa using hf), h]
    rw [ht]

/-- Settles O13, by what the transaction is. -/
theorem frameEndOnABusyOrSilentPort : Obligations.FrameEndOnABusyOrSilentPort := by
  intro s p ends bytes k lk begun tr old bus
  have htr : s.transactionFor p .write = tr := by
    rw [transactionFor_eq, beginKind_eq]
    show lk.transaction.getD _ = (match lk.transaction with | some tr => tr | none => _)
    cases lk.transaction with
    | some t => rfl
    | none =>
      dsimp only [Option.getD_none]
      cases s.listens p with
      | false => rfl
      | true =>
        cases p with
        | spi q => rfl
        | i2c a =>
          simp only [Bool.true_eq_false, if_false, true_and]
          split <;> rfl
  have hbus : ∀ taken, old.afterWrite p taken bytes.length = bus taken := fun taken => by cases p <;> rfl
  obtain ⟨hframe, hlinks⟩ := writeBytes_frame s p bytes ends
  refine ⟨s.writeBytes p bytes ends, rfl, hframe, hlinks, fun h => ?_, fun h he hx hf => ?_, fun h he => ?_, fun h => ?_⟩
  · rw [← htr, ← hbus]
    exact writeBytes_ignored (by rw [htr]; exact h)
  · have hl := gathered_link s p bytes true
    subst he
    have hw := writeBytes_ends (s := s) (p := p) (bytes := bytes) (by rw [htr]; exact h)
    rw [htr] at hw
    rw [← hbus]
    refine (congrArg (fun t => t.link k) hw).trans ((takeFrame_executing _ p _ hf (by rw [hl]; exact hx)).trans ?_)
    rw [hl]
    rfl
  · subst he
    rw [writeBytes_goes_on (by rw [htr]; exact h), ← hbus]
    have hl := gathered_link s p bytes false
    rw [htr] at hl
    exact hl
  · exact writeBytes_read (by rw [htr]; exact h)

end Sys2Proof.Machine
end

section
/-! Null writes, ignored transactions and response reads (R163 to R167). -/

namespace Sys2Proof.Machine

variable {s : State} {p : Port}

/-! ## Null writes (R164) -/

theorem afterWrite_zero (old : BusReply) (p : Port) (taken : Bool) : old.afterWrite p taken 0 = old := by
  cases p <;> simp [BusReply.afterWrite]

theorem takeFrame_nil (s : State) (p : Port) : s.takeFrame p [] = s := by
  unfold State.takeFrame
  exact if_pos rfl

/-- A write that brings no byte to a frame that has none changes the transaction and the record of the bus. -/
theorem writeBytes_nil {ends : Bool} (hk : (s.transactionFor p .write).kind ≠ .read)
    (hf : (s.transactionFor p .write).frame = []) :
    (s.writeBytes p [] ends).link (portHost p) = { (s.link (portHost p)) with
      transaction := if ends then none else some (s.transactionFor p .write), bus := s.busFor p .write } := by
  have hg : ∀ ends, (s.gathered p [] ends).link (portHost p) = { (s.link (portHost p)) with
      transaction := if ends then none else some (s.transactionFor p .write), bus := s.busFor p .write } := fun ends => by
    rw [gathered_link, List.append_nil]
    exact congrArg (fun b : BusReply => ({ (s.link (portHost p)) with
      transaction := if ends then none else some (s.transactionFor p .write), bus := b } : Link))
      (afterWrite_zero (s.busFor p .write) p true)
  cases h : (s.transactionFor p .write).kind with
  | read => exact absurd h hk
  | ignored =>
    rw [writeBytes_ignored h]
    exact congrArg (fun b : BusReply => ({ (s.link (portHost p)) with
      transaction := if ends then none else some (s.transactionFor p .write), bus := b } : Link))
      (afterWrite_zero (s.busFor p .write) p false)
  | write =>
    cases ends with
    | true =>
      rw [writeBytes_ends h, hf, List.append_nil, takeFrame_nil]
      exact hg true
    | false =>
      rw [writeBytes_goes_on h]
      exact hg false

/-- A read in progress takes no byte of a write (log 2). -/
theorem nullWrite_of_read {ends : Bool} (h : (s.transactionFor p .write).kind = .read) : s.nullWrite p ends = s := by
  unfold State.nullWrite
  split
  · exact writeBytes_read h
  · rfl

theorem nullWrite_of_frame {ends : Bool} (h : (s.transactionFor p .write).frame ≠ []) : s.nullWrite p ends = s := by
  unfold State.nullWrite
  rw [writeKind_eq]
  exact if_neg (by simpa using h)

theorem nullWrite_of_empty {ends : Bool} (h : (s.transactionFor p .write).frame = []) :
    s.nullWrite p ends = s.writeBytes p [] ends := by
  unfold State.nullWrite
  rw [writeKind_eq, h]
  rfl

theorem nullWrite_link (s : State) (p : Port) (ends : Bool) :
    (s.nullWrite p ends).link (portHost p) = match (s.link (portHost p)).transaction with
      | none => { (s.link (portHost p)) with
          transaction := if ends then none else some { kind := s.beginKind p .write, frame := [], stream := none, sent := 0 },
          bus := s.busFor p .write }
      | some tr =>
        if tr.kind = .read ∨ tr.frame ≠ [] then s.link (portHost p)
        else { (s.link (portHost p)) with transaction := if ends then none else some tr } := by
  have htr := transactionFor_eq s p .write
  have hbus := busFor_eq s p .write
  cases hl : (s.link (portHost p)).transaction with
  | none =>
    rw [hl] at htr
    dsimp only [Option.getD_none] at htr
    rw [nullWrite_of_empty (by rw [htr]), writeBytes_nil (by rw [htr]; exact beginKind_write_ne_read s p) (by rw [htr]), htr]
  | some tr =>
    rw [hl] at htr hbus
    dsimp only [Option.getD_some] at htr hbus
    dsimp only
    by_cases h : tr.kind = .read ∨ tr.frame ≠ []
    · rw [if_pos h]
      rcases h with h | h
      · rw [nullWrite_of_read (by rw [htr]; exact h)]
      · rw [nullWrite_of_frame (by rw [htr]; exact h)]
    · rw [if_neg h]
      rw [not_or, not_not] at h
      rw [nullWrite_of_empty (by rw [htr]; exact h.2), writeBytes_nil (by rw [htr]; exact h.1) (by rw [htr]; exact h.2), htr,
        hbus]

/-! ## SPI transactions of neither kind (R163) -/

theorem spiKind_eq (first : Byte) : spiKind first = if first = 0xA5 then .write else if first = 0x5A then .read else .ignored :=
  rfl

theorem beginKind_ignored (s : State) (q : SpiPort) : s.beginKind (.spi q) .ignored = .ignored := by
  rw [beginKind_eq]
  split <;> rfl

theorem ignoredTransaction_eq {first : Byte} (h : spiKind first = .ignored) (s : State) (q : SpiPort) (n : Nat) (ends : Bool) :
    s.ignoredTransaction q first n ends =
      if (s.transactionFor (.spi q) .ignored).kind ≠ .ignored then s
      else s.busStep (.spi q) (s.transactionFor (.spi q) .ignored) (s.busFor (.spi q) .ignored)
        (List.replicate (s.laterBytes (.spi q) n) 0xFF) [] ends := by
  unfold State.ignoredTransaction
  dsimp only
  rw [h]
  simp only [ne_eq, not_true, false_or]

theorem ignoredTransaction_link {first : Byte} (h : spiKind first = .ignored) (s : State) (q : SpiPort) (n : Nat) (ends : Bool) :
    let lk := s.link (portHost (.spi q))
    (s.ignoredTransaction q first n ends).link (portHost (.spi q)) = match lk.transaction with
      | none => { lk with
          transaction := if ends then none else some { kind := .ignored, frame := [], stream := none, sent := 0 },
          bus := { bytes := 0xFF :: List.replicate (n - 1) 0xFF, acks := [] } }
      | some tr =>
        if tr.kind = .ignored then { lk with
          transaction := if ends then none else some tr,
          bus := { bytes := lk.bus.bytes ++ List.replicate n 0xFF, acks := lk.bus.acks } }
        else lk := by
  intro lk
  have htr := transactionFor_eq s (.spi q) .ignored
  have hbus := busFor_eq s (.spi q) .ignored
  rw [ignoredTransaction_eq h]
  unfold State.laterBytes
  show _ = match (s.link (portHost (.spi q))).transaction with | none => _ | some tr => _
  cases hl : (s.link (portHost (.spi q))).transaction with
  | none =>
    rw [hl] at htr hbus
    dsimp only [Option.getD_none] at htr hbus
    rw [beginKind_ignored] at htr
    rw [htr, if_neg (by simp), busStep_link, hbus]
    rfl
  | some tr =>
    rw [hl] at htr hbus
    dsimp only [Option.getD_some] at htr hbus
    dsimp only
    rw [htr]
    by_cases hk : tr.kind = .ignored
    · rw [if_pos hk, if_neg (not_not.2 hk), busStep_link, hbus, List.append_nil]
    · rw [if_neg hk, if_pos hk]

/-! ## Response reads (R165, R167) -/

theorem clockOut_length (stream : List Byte) (n : Nat) : (clockOut stream n).length = n := by
  unfold clockOut
  rw [List.length_append, List.length_take, List.length_replicate]
  omega

theorem clockOut_getD (stream : List Byte) (n i : Nat) (h : i < n) : (clockOut stream n).getD i 0 = stream.getD i 0xFF := by
  unfold clockOut
  by_cases hi : i < stream.length
  · rw [List.getD_append _ _ _ _ (by rw [List.length_take]; omega)]
    simp [List.getD_eq_getElem?_getD, h, hi]
  · have hlen : (stream.take n).length = stream.length := by
      rw [List.length_take]
      omega
    rw [List.getD_append_right _ _ _ _ (by omega), hlen, List.getD_replicate _ (by omega)]
    exact (List.getD_eq_default _ _ (by omega)).symm

theorem readStream_eq (lk : Link) : readStream lk = match lk.port with
    | .idle => [0x00]
    | .executing => [0x01]
    | .ready => 0x02 :: lk.held.getD [] := by
  unfold readStream
  cases lk.port <;> rfl

/-- What a response read is to the part, by what the transaction is. -/
theorem responseRead_eq (s : State) (p : Port) (n : Nat) (ends : Bool) :
    let tr := s.transactionFor p .read
    let m := s.laterBytes p n
    let stream := tr.stream.getD (readStream (s.link (portHost p)))
    s.responseRead p n ends = match tr.kind with
      | .write => s
      | .ignored => s.busStep p tr (s.busFor p .read) (idleBytes p m) [] ends
      | .read => s.busStep p { tr with stream := if m = 0 then tr.stream else some stream, sent := tr.sent + m }
          (s.busFor p .read) (clockOut (stream.drop tr.sent) m) [] ends := by
  unfold State.responseRead
  dsimp only
  rw [readKind_eq] <;> rfl

theorem busStep_link_bytes (s : State) (p : Port) (tr : Transaction) (old : BusReply) (b : List Byte) (ends : Bool) :
    (s.busStep p tr old b [] ends).link (portHost p) = { (s.link (portHost p)) with
      transaction := if ends then none else some tr, bus := { bytes := old.bytes ++ b, acks := old.acks } } := by
  rw [busStep_link, List.append_nil]

/-- Settles O14. -/
theorem transactionsThatChangeNoPort : Obligations.TransactionsThatChangeNoPort := by
  refine ⟨spiKind_eq, fun lk => ?_, fun s p kind => ⟨listens_iff s p, beginKind_eq s p kind, busFor_eq s p kind⟩,
    fun s p ends => ?_, fun s q first n ends h1 h2 => ?_, fun s p n ends => ?_⟩
  · unfold Link.drivesMiso
    exact Option.isSome_iff_ne_none
  · obtain ⟨h1, h2⟩ := nullWrite_frame s p ends
    exact ⟨s.nullWrite p ends, rfl, h1, h2, nullWrite_link s p ends⟩
  · obtain ⟨g1, g2⟩ := ignoredTransaction_frame s q first n ends
    have hk : spiKind first = .ignored := by rw [spiKind_eq, if_neg h1, if_neg h2]
    exact ⟨s.ignoredTransaction q first n ends, rfl, g1, g2, ignoredTransaction_link hk s q n ends⟩
  · intro lk begun tr m stream old
    obtain ⟨g1, g2⟩ := responseRead_frame s p n ends
    have htr : s.transactionFor p .read = tr := rfl
    have hm : s.laterBytes p n = m := rfl
    have hstream : tr.stream.getD (readStream (s.link (portHost p))) = stream := by
      rw [readStream_eq] <;> rfl
    have hread := responseRead_eq s p n ends
    dsimp only at hread
    rw [htr, hm, hstream] at hread
    cases hk : tr.kind with
    | read =>
      rw [hk] at hread
      refine ⟨s.responseRead p n ends, clockOut (stream.drop tr.sent) m, rfl, g1, g2, fun _ => ⟨?_, fun i hi => ?_, ?_⟩,
        fun h => BusKind.noConfusion h, fun h => BusKind.noConfusion h⟩
      · exact clockOut_length _ _
      · rw [clockOut_getD _ _ _ hi, List.getD_eq_getElem?_getD, List.getElem?_drop, ← List.getD_eq_getElem?_getD]
      · rw [hread]
        exact busStep_link_bytes s p _ _ _ ends
    | ignored =>
      rw [hk] at hread
      refine ⟨s.responseRead p n ends, idleBytes p m, rfl, g1, g2, fun h => BusKind.noConfusion h, fun _ => ⟨rfl, ?_⟩,
        fun h => BusKind.noConfusion h⟩
      rw [hread]
      exact busStep_link_bytes s p _ _ _ ends
    | write =>
      rw [hk] at hread
      exact ⟨s.responseRead p n ends, [], rfl, g1, g2, fun h => BusKind.noConfusion h, fun h => BusKind.noConfusion h,
        fun _ => hread⟩

end Sys2Proof.Machine
end

section
/-! The end of a frame on a free port, and the tables of status codes and requests (R169 to R173, R177, R194 to R196). -/

namespace Sys2Proof.Machine

variable {s : State} {k : HostId} {frame : List Byte}

/-! ## The frame checks in their order (R172) -/

/-- The length of a frame is at fault: under 4 bytes, a length byte above 64, or another length than it says. -/
def lengthFault (frame : List Byte) : Prop :=
  frame.length < 4 ∨ 64 < (byteAt frame 2).toNat ∨ frame.length ≠ 4 + (byteAt frame 2).toNat

theorem lengthFault_iff (frame : List Byte) : lengthFault frame ↔
    (decide (frame.length < 4) || decide (64 < frameLength frame) || frame.length != 4 + frameLength frame) = true := by
  unfold lengthFault frameLength
  simp [or_assoc]

theorem frameCheck_of_lengthFault (h : lengthFault frame) : frameCheck frame = some .frameError :=
  if_pos ((lengthFault_iff frame).1 h)

theorem frameCheck_of_length (h : ¬ lengthFault frame) : frameCheck frame =
    if crc8 frame.dropLast ≠ byteAt frame (frame.length - 1) then some .crcError
    else match requestOfCode (byteAt frame 1) with
      | none => some .unknownRequest
      | some r => if lengthAdmitted r (byteAt frame 2).toNat = false then some .badLength else none := by
  unfold frameCheck
  rw [if_neg (mt (lengthFault_iff frame).2 h)]
  simp only [bne_iff_ne]
  refine if_congr Iff.rfl rfl ?_
  cases requestOfCode (byteAt frame 1) with
  | none => rfl
  | some r =>
    unfold frameLength
    by_cases ha : lengthAdmitted r (byteAt frame 2).toNat = true
    · exact (if_pos ha).trans (if_neg (by rw [ha]; exact Bool.noConfusion)).symm
    · exact (if_neg ha).trans (if_pos (Bool.not_eq_true _ ▸ ha)).symm

/-! ## What a port makes of its frame (R169, R173, R177) -/

/-- A link that has just been given a response to hold. -/
def Link.holding (lk : Link) (tag code : Byte) (reply : Reply) (replayed : Bool) : Link :=
  { lk with port := .ready, held := some (composeResponse tag code reply (responseFlags replayed lk.overrun)),
            overrun := false, deciding := none }

theorem handsOn_congr {t : State} (hw : t.withdrawals = s.withdrawals) (ho : (t.link k).orphan = (s.link k).orphan) :
    t.handsOn k = s.handsOn k := by
  unfold State.handsOn
  rw [hw, ho]

theorem setLink_handsOn (s : State) (k : HostId) (v : Link) (h : v.orphan = (s.link k).orphan) :
    (s.setLink k v).handsOn k = s.handsOn k :=
  handsOn_congr rfl (by rw [State.setLink_link_self, h])

/-- The state in which a port processes the frame that it takes. -/
def State.executing (s : State) (k : HostId) : State :=
  s.setLink k { (s.link k) with port := .executing, held := none, deciding := none }

theorem executing_link (s : State) (k : HostId) :
    (s.executing k).link k = { (s.link k) with port := .executing, held := none, deciding := none } :=
  State.setLink_link_self s k _

theorem acceptFrame_refused {status : Status} (h : frameCheck frame = some status) :
    (s.acceptFrame k frame).link k = (s.link k).holding (byteAt frame 0) (byteAt frame 1) (refusal status) false := by
  show ((s.executing k).processFrame k frame).link k = _
  unfold State.processFrame
  rw [h]
  dsimp only
  rw [holdResponse_link, executing_link]
  rfl

theorem acceptFrame_replayed {r : ReplayRecord} (h : frameCheck frame = none)
    (hr : replayMatch (s.link k).replay (frameRequest frame) = some r) :
    (s.acceptFrame k frame).link k = (s.link k).holding (byteAt frame 0) (byteAt frame 1) r.reply true := by
  have hx : replayMatch ((s.executing k).link k).replay (frameRequest frame) = some r := by
    rw [executing_link]
    exact hr
  show ((s.executing k).processFrame k frame).link k = _
  unfold State.processFrame
  rw [h]
  dsimp only
  rw [hx]
  dsimp only
  rw [holdResponse_link, executing_link]
  rfl

/-- A frame that passes its checks and is no repetition is refused by the link or left with its owner. -/
theorem acceptFrame_new (h : frameCheck frame = none) (hr : replayMatch (s.link k).replay (frameRequest frame) = none) :
    (s.acceptFrame k frame).link k =
      if linkRefuses (frameRequest frame) = true ∧ s.handsOn k = true then
        { (s.link k).holding (byteAt frame 0) (byteAt frame 1) (refusal .badParam) false with
          replay := some { tag := (frameRequest frame).tag, code := (frameRequest frame).code,
                           crc := (frameRequest frame).crc, reply := refusal .badParam } }
      else { (s.link k) with port := .executing, held := none, deciding := some (frameRequest frame) } := by
  have hx : replayMatch ((s.executing k).link k).replay (frameRequest frame) = none := by
    rw [executing_link]
    exact hr
  have ho : (s.executing k).handsOn k = s.handsOn k := setLink_handsOn s k _ rfl
  show ((s.executing k).processFrame k frame).link k = _
  unfold State.processFrame
  rw [h]
  dsimp only
  rw [hx, ho]
  dsimp only
  by_cases hl : linkRefuses (frameRequest frame) = true ∧ s.handsOn k = true
  · rw [if_pos hl, if_pos (by rw [hl.1, hl.2]; rfl), respond_link, executing_link]
    rfl
  · rw [if_neg hl, if_neg (by rw [Bool.and_eq_true]; exact hl), State.setLink_link_self, executing_link]

/-- The link refuses the lane requests that name no lane (R173). -/
theorem linkRefuses_iff {kind : RequestKind} (h : requestOfCode (byteAt frame 1) = some kind) :
    linkRefuses (frameRequest frame) = true ↔
      laneRequest kind = true ∧ decodeLane (byteAt (frameRequest frame).params 0) = none := by
  have hc : requestOfCode (frameRequest frame).code = some kind := h
  unfold linkRefuses
  rw [hc]
  dsimp only
  rw [Bool.and_eq_true, Option.isNone_iff_eq_none]

theorem takeFrame_free {p : Port} (hf : frame ≠ []) : (s.link (portHost p)).port ≠ .executing →
    s.takeFrame p frame = s.acceptFrame (portHost p) frame := by
  intro hx
  unfold State.takeFrame
  dsimp only
  rw [if_neg (by simpa using hf)]
  split
  · exact absurd ‹_› hx
  · exact absurd ‹_› hx
  · rfl

/-- The transaction of a write that a port takes, in progress or beginning now. -/
theorem transactionFor_write {p : Port} {tr : Transaction} (hx : (s.link (portHost p)).port ≠ .executing)
    (h : (s.link (portHost p)).transaction = none ∧ s.listens p = true ∧
        tr = { kind := .write, frame := [], stream := none, sent := 0 } ∨
      (s.link (portHost p)).transaction = some tr ∧ tr.kind = .write) :
    s.transactionFor p .write = tr ∧ tr.kind = .write := by
  rw [transactionFor_eq]
  rcases h with ⟨h1, h2, rfl⟩ | ⟨h1, h2⟩
  · have hb : s.beginKind p .write = .write := by
      rw [beginKind_eq, if_neg (by rw [h2]; exact Bool.noConfusion)]
      cases p with
      | spi q => rfl
      | i2c a => exact if_neg (fun h => hx h.2)
    rw [h1, hb]
    exact ⟨rfl, rfl⟩
  · rw [h1]
    exact ⟨rfl, h2⟩

/-! ## The tables (tables 10-2 and 10-3) -/

/-- Every status, in the order of table 10-2. -/
def statuses : List Status :=
  [.ok, .queued, .staged, .freed, .condemned, .waitCancelled, .frameError, .crcError, .unknownRequest, .badLength,
   .badParam, .badTiming, .badRange, .badHandle, .staleHandle, .gone, .notOwner, .notVisible, .wrongState, .inUse, .empty,
   .nameInUse, .noSpace, .quota, .tableFull, .notHolder, .laneHeld, .alreadyHeld, .alreadyWaiting, .queueFull, .busy,
   .nothingPlaying, .notPermitted]

theorem mem_statuses (a : Status) : a ∈ statuses := by cases a <;> decide

/-- The table of a function on a list that holds every argument says what its values are. -/
theorem mem_table_iff {α β : Type} {l : List α} (hl : ∀ a, a ∈ l) (f : α → β) (x : α × β) :
    x ∈ l.map (fun a => (a, f a)) ↔ f x.1 = x.2 := by
  rw [List.mem_map]
  constructor
  · rintro ⟨a, _, rfl⟩
    rfl
  · intro h
    exact ⟨x.1, hl _, Prod.ext rfl h⟩

theorem requestOfCode_requestCode (kind : RequestKind) : requestOfCode (requestCode kind) = some kind := by cases kind <;> rfl

theorem requestOfCode_eq_some_iff (code : Byte) (kind : RequestKind) :
    requestOfCode code = some kind ↔ requestCode kind = code := by
  constructor
  · intro h
    exact beq_iff_eq.1 (List.find?_some (p := fun r => requestCode r == code) h)
  · rintro rfl
    exact requestOfCode_requestCode kind

/-- Settles O12. -/
theorem frameEndOnAFreePort : Obligations.FrameEndOnAFreePort := by
  refine ⟨fun s p bytes tr hx htr hf => ?_, fun tag code reply replayed overrun => rfl,
    fun x => mem_table_iff mem_statuses statusByte x, fun kind code n => ⟨requestOfCode_eq_some_iff code kind, ?_⟩⟩
  · intro k frame bus old n req hold
    obtain ⟨ht, hk⟩ := transactionFor_write hx htr
    obtain ⟨hframe, hlinks⟩ := writeBytes_frame s p bytes true
    have hold_eq : (s.gathered p bytes true).link k = old := gathered_link s p bytes true
    have hands : (s.gathered p bytes true).handsOn k = s.handsOn k := setLink_handsOn s k _ rfl
    have hw : s.writeBytes p bytes true = (s.gathered p bytes true).acceptFrame k frame := by
      rw [writeBytes_ends (by rw [ht]; exact hk), ht]
      exact takeFrame_free hf (by rw [hold_eq]; exact hx)
    have hreplay : replayMatch ((s.gathered p bytes true).link k).replay (frameRequest frame) =
        (s.link k).replay.filter (fun r =>
          byteAt frame 0 != 0 && r.tag == req.tag && r.code == req.code && r.crc == req.crc) := by
      rw [hold_eq]
      rfl
    have hholding : ∀ reply replayed, old.holding (byteAt frame 0) (byteAt frame 1) reply replayed = hold reply replayed :=
      fun _ _ => rfl
    refine ⟨s.writeBytes p bytes true, rfl, hframe, hlinks, ?_⟩
    rw [hw]
    by_cases h1 : frame.length < 4 ∨ 64 < n ∨ frame.length ≠ 4 + n
    · rw [if_pos h1, acceptFrame_refused (frameCheck_of_lengthFault h1), hold_eq, hholding]
    rw [if_neg h1]
    have hc := frameCheck_of_length h1
    by_cases h2 : crc8 frame.dropLast ≠ byteAt frame (frame.length - 1)
    · rw [if_pos h2] at hc
      rw [if_pos h2, acceptFrame_refused hc, hold_eq, hholding]
    rw [if_neg h2] at hc ⊢
    cases hr : requestOfCode (byteAt frame 1) with
    | none =>
      rw [hr] at hc
      rw [acceptFrame_refused hc, hold_eq, hholding]
    | some kind =>
      rw [hr] at hc
      dsimp only at hc ⊢
      by_cases h3 : lengthAdmitted kind n = false
      · rw [if_pos h3] at hc
        rw [if_pos h3, acceptFrame_refused hc, hold_eq, hholding]
      rw [if_neg h3] at hc ⊢
      rw [← hreplay]
      cases hm : replayMatch ((s.gathered p bytes true).link k).replay (frameRequest frame) with
      | some r =>
        dsimp only
        rw [acceptFrame_replayed hc hm, hold_eq, hholding]
      | none =>
        dsimp only
        rw [acceptFrame_new hc hm, hands, hold_eq, hholding]
        exact if_congr ((and_congr_left' (linkRefuses_iff hr)).trans and_assoc) rfl rfl
  · cases kind <;> simp [requestCode, lengthAdmitted, Bool.and_assoc, Bool.beq_eq_decide_eq]

end Sys2Proof.Machine
end
